-- ==== Sys2Proof/Word.lean ====
section
/-! DEFINITION. The widths UVT-CORE's values come in (spec/00_scope.md R7, R9, R11). -/

namespace Sys2Proof

/-- One byte of IN or OUT, and one 8-bit sample (R7, R69). -/
abbrev Byte := BitVec 8

/-- One interface register, and one word of the SHA cores and the cipher (R9). -/
abbrev Word := BitVec 32

end Sys2Proof
end

