-- ==== Sys2Proof/Syntax.lean ====
section
/-! DEFINITION. The rows of spec/opcode_table.json: 18 commands, 11 pseudo-instructions, 30 token and framing rows. -/

namespace Sys2Proof

/-- OPT[0] of BPL.ENC: the threshold variant of the bitplane encoder (R92, R161). -/
inductive Variant where
  | a
  | b
deriving DecidableEq, Repr

/-- OPT[0] of LCG.XOR: the bank of cipher constants (R92, R34). -/
inductive LcgSet where
  | set0
  | set1
deriving DecidableEq, Repr

/-- OPT[0] of CRC16: whether RESULT is the finished CRC or the raw register (R92, R313). -/
inductive CrcForm where
  | finished
  | raw
deriving DecidableEq, Repr

/-- OPT[0] of CRC32.FILE: write the trailing slot or compare with it (R92, R323). -/
inductive SlotMode where
  | seal
  | verify
deriving DecidableEq, Repr

/-- One constructor per row of the opcode table. A run length `l` that the table splits into a high and a low field
is one number here, its most significant bits in the token's leading bytes (R67). -/
inductive Instr where
  -- commands (30_encoding.md R91)
  | r7xDec
  | r7xEnc
  | bplDec
  | bplEnc (v : Variant)
  | difDec
  | difEnc
  | nibDec
  | nibEnc
  | rgbDec
  | rgbEnc
  | lcgXor (c : LcgSet)
  | crc16 (f : CrcForm)
  | crc32
  | crc32File (m : SlotMode)
  | sha1
  | sha256
  | sigGen
  | sigVerify
  -- pseudo-instructions: second names of command words (R111)
  | bplEncA
  | bplEncB
  | lcgXor0
  | encrypt0
  | decrypt0
  | lcgXor1
  | encrypt1
  | decrypt1
  | crc16Raw
  | crc32Seal
  | crc32Check
  -- 7-bit-extend tokens (R100): colour and run length
  | r7xPix (c : BitVec 7)
  | r7xRun7 (c : BitVec 7) (l : BitVec 7)
  | r7xRun14 (c : BitVec 7) (l : BitVec 14)
  | r7xRun21 (c : BitVec 7) (l : BitVec 21)
  | r7xRun28 (c : BitVec 7) (l : BitVec 28)
  -- the bitplane token (R102): pixel state and run length
  | bplTok (on : Bool) (l : BitVec 7)
  -- diff-chunk framing and chunks (R103, R104)
  | difMagic (m : Byte)
  | difChecksum (k : Byte)
  | difZero0 (l : BitVec 4)
  | difZero1 (l : BitVec 12)
  | difZero2 (l : BitVec 20)
  | difZero3 (l : BitVec 28)
  | difValue0 (v : Byte) (l : BitVec 4)
  | difValue1 (v : Byte) (l : BitVec 12)
  | difValue2 (v : Byte) (l : BitVec 20)
  | difValue3 (v : Byte) (l : BitVec 28)
  | difMax0 (l : BitVec 4)
  | difMax1 (l : BitVec 12)
  | difMax2 (l : BitVec 20)
  | difMax3 (l : BitVec 28)
  | difDelta0 (d : BitVec 4)
  | difDelta1 (d : BitVec 4) (l : BitVec 8)
  | difDelta2 (d : BitVec 4) (l : BitVec 16)
  | difDelta3 (d : BitVec 4) (l : BitVec 24)
  -- nibble tokens and trailer (R105, R233)
  | nibBlack (l : BitVec 12)
  | nibWhite (l : BitVec 12)
  | nibGrey (c : BitVec 4) (l : BitVec 4)
  | nibTrailer (f : BitVec 16)
  -- RGB15 tokens (R106): channels, and for a flagged word the field repeat-1 and the ignored high nibble
  | rgbWord (r g b : BitVec 5)
  | rgbRep (r g b : BitVec 5) (n : BitVec 12) (x : BitVec 4)
deriving DecidableEq, Repr

/-- What the bytes at a place of a stream are read as: the context a decoding command supplies, since a token does not
name its own format (R107). `command` is the CMD register. -/
inductive Format where
  | command
  | r7x
  | bpl
  | dif
  | nib
  | rgb
  | difMagic
  | difChecksum
  | nibTrailer
deriving DecidableEq, Repr

/-- The context in which a row's encoding is read (the table's "format" column). -/
def Instr.format : Instr → Format
  | .r7xDec => .command
  | .r7xEnc => .command
  | .bplDec => .command
  | .bplEnc _ => .command
  | .difDec => .command
  | .difEnc => .command
  | .nibDec => .command
  | .nibEnc => .command
  | .rgbDec => .command
  | .rgbEnc => .command
  | .lcgXor _ => .command
  | .crc16 _ => .command
  | .crc32 => .command
  | .crc32File _ => .command
  | .sha1 => .command
  | .sha256 => .command
  | .sigGen => .command
  | .sigVerify => .command
  | .bplEncA => .command
  | .bplEncB => .command
  | .lcgXor0 => .command
  | .encrypt0 => .command
  | .decrypt0 => .command
  | .lcgXor1 => .command
  | .encrypt1 => .command
  | .decrypt1 => .command
  | .crc16Raw => .command
  | .crc32Seal => .command
  | .crc32Check => .command
  | .r7xPix _ => .r7x
  | .r7xRun7 _ _ => .r7x
  | .r7xRun14 _ _ => .r7x
  | .r7xRun21 _ _ => .r7x
  | .r7xRun28 _ _ => .r7x
  | .bplTok _ _ => .bpl
  | .difMagic _ => .difMagic
  | .difChecksum _ => .difChecksum
  | .difZero0 _ => .dif
  | .difZero1 _ => .dif
  | .difZero2 _ => .dif
  | .difZero3 _ => .dif
  | .difValue0 _ _ => .dif
  | .difValue1 _ _ => .dif
  | .difValue2 _ _ => .dif
  | .difValue3 _ _ => .dif
  | .difMax0 _ => .dif
  | .difMax1 _ => .dif
  | .difMax2 _ => .dif
  | .difMax3 _ => .dif
  | .difDelta0 _ => .dif
  | .difDelta1 _ _ => .dif
  | .difDelta2 _ _ => .dif
  | .difDelta3 _ _ => .dif
  | .nibBlack _ => .nib
  | .nibWhite _ => .nib
  | .nibGrey _ _ => .nib
  | .nibTrailer _ => .nibTrailer
  | .rgbWord _ _ _ => .rgb
  | .rgbRep _ _ _ _ _ => .rgb

/-- The instruction whose words a row's words are: a pseudo-instruction is a second name of a command (R111), every
other row names itself. -/
def Instr.canon : Instr → Instr
  | .bplEncA => .bplEnc .a
  | .bplEncB => .bplEnc .b
  | .lcgXor0 => .lcgXor .set0
  | .encrypt0 => .lcgXor .set0
  | .decrypt0 => .lcgXor .set0
  | .lcgXor1 => .lcgXor .set1
  | .encrypt1 => .lcgXor .set1
  | .decrypt1 => .lcgXor .set1
  | .crc16Raw => .crc16 .raw
  | .crc32Seal => .crc32File .seal
  | .crc32Check => .crc32File .verify
  | i => i

end Sys2Proof
end

