-- ==== Sys2Proof/WellFormed.lean ====
section
/-! DEFINITION. Which terms of Instr stand for an encoding of the opcode table. -/

namespace Sys2Proof

/-- The field widths are in the types. What they do not say: a grey nibble token's colour is 0x1 to 0xE, since the
colours 0x0 and 0xF select the two-byte tokens (R105). -/
def Instr.wellFormed : Instr → Bool
  | .nibGrey c _ => c != 0x0#4 && c != 0xF#4
  | _ => true

end Sys2Proof
end

