-- ==== Sys2Proof/Decode.lean ====
section
/-! DEFINITION. The encodings of 30_encoding.md, read and written: byte orders, the command word, the five token formats
and the stream framing. -/

namespace Sys2Proof

/-! ## Byte orders (R11, R67) -/

/-- `LE_k(v)` of R11. -/
def leBytes (k v : Nat) : List Byte :=
  (List.range k).map fun i => BitVec.ofNat 8 (v >>> (8 * i))

/-- `BE_k(v)` of R11. -/
def beBytes (k v : Nat) : List Byte :=
  (List.range k).map fun i => BitVec.ofNat 8 (v >>> (8 * (k - 1 - i)))

/-- The number whose little-endian bytes are given. -/
def leNat : List Byte → Nat
  | [] => 0
  | b :: bs => b.toNat + 256 * leNat bs

/-! ## Codes and the names of a rejection -/

/-- What an instruction is written as: the word of a CMD write (R90), or bytes of a stream (R100 to R106). -/
inductive Code where
  | word (w : Word)
  | bytes (bs : List Byte)
deriving DecidableEq, Repr

/-- Why bits are no instruction. -/
inductive DecodeError where
  /-- OPC is not in the opcode map (R91, R93). -/
  | unassignedOpc
  /-- RSV is not 0 (R93). -/
  | reservedBits
  /-- OPT is not legal for OPC (R92, R93). -/
  | illegalOpt
  /-- A token needs a byte at or beyond the end of its region (R391). -/
  | cutShort
  /-- The 7-bit-extend length byte 1111xxxx (R100, R108). -/
  | illegalPattern
  /-- A command is a word and a token is bytes. -/
  | notThisFormat
deriving DecidableEq, Repr

/-! ## The command word (R90 to R93) -/

/-- A command without options: OPT must be 0 (R92). -/
def plainCommand (opt : BitVec 4) (i : Instr) : Except DecodeError Instr :=
  if opt = 0#4 then .ok i else .error .illegalOpt

/-- A command with the one option bit OPT[0] (R92). -/
def optionCommand (opt : BitVec 4) (i0 i1 : Instr) : Except DecodeError Instr :=
  if opt = 0#4 then .ok i0 else if opt = 1#4 then .ok i1 else .error .illegalOpt

/-- The opcode map (R91) with the legal options (R92). -/
def decodeOpcode (opc : BitVec 8) (opt : BitVec 4) : Except DecodeError Instr :=
  if opc = 0x01#8 then plainCommand opt .r7xDec
  else if opc = 0x02#8 then plainCommand opt .r7xEnc
  else if opc = 0x03#8 then plainCommand opt .bplDec
  else if opc = 0x04#8 then optionCommand opt (.bplEnc .a) (.bplEnc .b)
  else if opc = 0x05#8 then plainCommand opt .difDec
  else if opc = 0x06#8 then plainCommand opt .difEnc
  else if opc = 0x07#8 then plainCommand opt .nibDec
  else if opc = 0x08#8 then plainCommand opt .nibEnc
  else if opc = 0x09#8 then plainCommand opt .rgbDec
  else if opc = 0x0A#8 then plainCommand opt .rgbEnc
  else if opc = 0x10#8 then optionCommand opt (.lcgXor .set0) (.lcgXor .set1)
  else if opc = 0x20#8 then optionCommand opt (.crc16 .finished) (.crc16 .raw)
  else if opc = 0x21#8 then plainCommand opt .crc32
  else if opc = 0x22#8 then optionCommand opt (.crc32File .seal) (.crc32File .verify)
  else if opc = 0x30#8 then plainCommand opt .sha1
  else if opc = 0x31#8 then plainCommand opt .sha256
  else if opc = 0x40#8 then plainCommand opt .sigGen
  else if opc = 0x41#8 then plainCommand opt .sigVerify
  else .error .unassignedOpc

/-- The command a CMD word stands for: OPC[7:0], OPT[11:8], RSV[31:12] = 0 (R90, R93). -/
def decodeCommand (w : Word) : Except DecodeError Instr :=
  if w.extractLsb' 12 20 = 0#20 then decodeOpcode (w.extractLsb' 0 8) (w.extractLsb' 8 4)
  else .error .reservedBits

/-! ## The token formats (R100 to R106) -/

/-- A token, and the bytes after it. -/
abbrev Decoded := Except DecodeError (Instr × List Byte)

/-- The 7-bit-extend token: `b0[7]`, then the leading ones of `b1` (R100, R101). -/
def decodeR7x : List Byte → Decoded
  | [] => .error .cutShort
  | b0 :: rest =>
    if b0.extractLsb' 7 1 = 0#1 then .ok (.r7xPix (b0.extractLsb' 0 7), rest)
    else match rest with
    | [] => .error .cutShort
    | b1 :: rest =>
      if b1.extractLsb' 7 1 = 0b0#1 then .ok (.r7xRun7 (b0.extractLsb' 0 7) (b1.extractLsb' 0 7), rest)
      else if b1.extractLsb' 6 2 = 0b10#2 then
        match rest with
        | b2 :: rest => .ok (.r7xRun14 (b0.extractLsb' 0 7) (b1.extractLsb' 0 6 ++ b2), rest)
        | _ => .error .cutShort
      else if b1.extractLsb' 5 3 = 0b110#3 then
        match rest with
        | b2 :: b3 :: rest => .ok (.r7xRun21 (b0.extractLsb' 0 7) (b1.extractLsb' 0 5 ++ b2 ++ b3), rest)
        | _ => .error .cutShort
      else if b1.extractLsb' 4 4 = 0b1110#4 then
        match rest with
        | b2 :: b3 :: b4 :: rest => .ok (.r7xRun28 (b0.extractLsb' 0 7) (b1.extractLsb' 0 4 ++ b2 ++ b3 ++ b4), rest)
        | _ => .error .cutShort
      else .error .illegalPattern

/-- The bitplane token: one byte, every value legal (R102, R162). -/
def decodeBpl : List Byte → Decoded
  | [] => .error .cutShort
  | b :: rest => .ok (.bplTok (b.extractLsb' 7 1 = 1#1) (b.extractLsb' 0 7), rest)

/-- The diff-chunk chunk, by type `b0[7:6]` and class `b0[5:4]` (R104). -/
def decodeDif : List Byte → Decoded
  | [] => .error .cutShort
  | b0 :: rest =>
    let lo : BitVec 4 := b0.extractLsb' 0 4
    match b0.extractLsb' 4 4, rest with
    | 0b0000#4, r => .ok (.difZero0 lo, r)
    | 0b0001#4, x1 :: r => .ok (.difZero1 (lo ++ x1), r)
    | 0b0010#4, x1 :: x2 :: r => .ok (.difZero2 (lo ++ x1 ++ x2), r)
    | 0b0011#4, x1 :: x2 :: x3 :: r => .ok (.difZero3 (lo ++ x1 ++ x2 ++ x3), r)
    | 0b0100#4, v :: r => .ok (.difValue0 v lo, r)
    | 0b0101#4, v :: x1 :: r => .ok (.difValue1 v (lo ++ x1), r)
    | 0b0110#4, v :: x1 :: x2 :: r => .ok (.difValue2 v (lo ++ x1 ++ x2), r)
    | 0b0111#4, v :: x1 :: x2 :: x3 :: r => .ok (.difValue3 v (lo ++ x1 ++ x2 ++ x3), r)
    | 0b1000#4, r => .ok (.difDelta0 lo, r)
    | 0b1001#4, x1 :: r => .ok (.difDelta1 lo x1, r)
    | 0b1010#4, x1 :: x2 :: r => .ok (.difDelta2 lo (x1 ++ x2), r)
    | 0b1011#4, x1 :: x2 :: x3 :: r => .ok (.difDelta3 lo (x1 ++ x2 ++ x3), r)
    | 0b1100#4, r => .ok (.difMax0 lo, r)
    | 0b1101#4, x1 :: r => .ok (.difMax1 (lo ++ x1), r)
    | 0b1110#4, x1 :: x2 :: r => .ok (.difMax2 (lo ++ x1 ++ x2), r)
    | 0b1111#4, x1 :: x2 :: x3 :: r => .ok (.difMax3 (lo ++ x1 ++ x2 ++ x3), r)
    | _, _ => .error .cutShort

/-- The nibble token: colour `b0[7:4]`, count `b0[3:0]`, the colours 0x0 and 0xF taking a second byte (R105). -/
def decodeNib : List Byte → Decoded
  | [] => .error .cutShort
  | b0 :: rest =>
    if b0.extractLsb' 4 4 = 0x0#4 then
      match rest with
      | b1 :: rest => .ok (.nibBlack (b0.extractLsb' 0 4 ++ b1), rest)
      | [] => .error .cutShort
    else if b0.extractLsb' 4 4 = 0xF#4 then
      match rest with
      | b1 :: rest => .ok (.nibWhite (b0.extractLsb' 0 4 ++ b1), rest)
      | [] => .error .cutShort
    else .ok (.nibGrey (b0.extractLsb' 4 4) (b0.extractLsb' 0 4), rest)

/-- The RGB15 token: the little-endian colour word, and for F = 1 the two repeat bytes (R106). -/
def decodeRgb : List Byte → Decoded
  | b0 :: b1 :: rest =>
    let w : BitVec 16 := b1 ++ b0
    if w.extractLsb' 5 1 = 0#1 then
      .ok (.rgbWord (w.extractLsb' 11 5) (w.extractLsb' 6 5) (w.extractLsb' 0 5), rest)
    else match rest with
    | b2 :: b3 :: rest =>
      .ok (.rgbRep (w.extractLsb' 11 5) (w.extractLsb' 6 5) (w.extractLsb' 0 5) (b3.extractLsb' 0 4 ++ b2)
        (b3.extractLsb' 4 4), rest)
    | _ => .error .cutShort
  | _ => .error .cutShort

/-- The token or framing field at the head of a stream's bytes, in the context the decoding command supplies (R107). -/
def decodeBytes : Format → List Byte → Decoded
  | .command, _ => .error .notThisFormat
  | .r7x, bs => decodeR7x bs
  | .bpl, bs => decodeBpl bs
  | .dif, bs => decodeDif bs
  | .nib, bs => decodeNib bs
  | .rgb, bs => decodeRgb bs
  | .difMagic, [] => .error .cutShort
  | .difMagic, m :: rest => .ok (.difMagic m, rest)
  | .difChecksum, [] => .error .cutShort
  | .difChecksum, k :: rest => .ok (.difChecksum k, rest)
  | .nibTrailer, f0 :: f1 :: rest => .ok (.nibTrailer (f1 ++ f0), rest)
  | .nibTrailer, _ => .error .cutShort

/-- The instruction a code stands for in a context, and the bytes after it. -/
def decode (f : Format) : Code → Decoded
  | .word w =>
    match f with
    | .command => (decodeCommand w).map fun i => (i, [])
    | _ => .error .notThisFormat
  | .bytes bs => decodeBytes f bs

/-! ## The encoder -/

/-- The CMD word {RSV = 0, OPT, OPC} (R90, R111). -/
def commandWord (opt : BitVec 4) (opc : BitVec 8) : Word := 0#20 ++ opt ++ opc

/-- OPT[0] of a bitplane variant (R92). -/
def Variant.opt : Variant → BitVec 4
  | .a => 0#4
  | .b => 1#4

/-- OPT[0] of a cipher constant set (R92). -/
def LcgSet.opt : LcgSet → BitVec 4
  | .set0 => 0#4
  | .set1 => 1#4

/-- OPT[0] of a CRC-16 form (R92). -/
def CrcForm.opt : CrcForm → BitVec 4
  | .finished => 0#4
  | .raw => 1#4

/-- OPT[0] of a slot mode (R92). -/
def SlotMode.opt : SlotMode → BitVec 4
  | .seal => 0#4
  | .verify => 1#4

/-- The code of a row, from the command words of R91 and R111 and the token layouts of R100 to R106. -/
def encode : Instr → Code
  | .r7xDec => .word (commandWord 0 0x01#8)
  | .r7xEnc => .word (commandWord 0 0x02#8)
  | .bplDec => .word (commandWord 0 0x03#8)
  | .bplEnc v => .word (commandWord v.opt 0x04#8)
  | .difDec => .word (commandWord 0 0x05#8)
  | .difEnc => .word (commandWord 0 0x06#8)
  | .nibDec => .word (commandWord 0 0x07#8)
  | .nibEnc => .word (commandWord 0 0x08#8)
  | .rgbDec => .word (commandWord 0 0x09#8)
  | .rgbEnc => .word (commandWord 0 0x0A#8)
  | .lcgXor c => .word (commandWord c.opt 0x10#8)
  | .crc16 f => .word (commandWord f.opt 0x20#8)
  | .crc32 => .word (commandWord 0 0x21#8)
  | .crc32File m => .word (commandWord m.opt 0x22#8)
  | .sha1 => .word (commandWord 0 0x30#8)
  | .sha256 => .word (commandWord 0 0x31#8)
  | .sigGen => .word (commandWord 0 0x40#8)
  | .sigVerify => .word (commandWord 0 0x41#8)
  | .bplEncA => .word (commandWord 0 0x04#8)
  | .bplEncB => .word (commandWord 1 0x04#8)
  | .lcgXor0 => .word (commandWord 0 0x10#8)
  | .encrypt0 => .word (commandWord 0 0x10#8)
  | .decrypt0 => .word (commandWord 0 0x10#8)
  | .lcgXor1 => .word (commandWord 1 0x10#8)
  | .encrypt1 => .word (commandWord 1 0x10#8)
  | .decrypt1 => .word (commandWord 1 0x10#8)
  | .crc16Raw => .word (commandWord 1 0x20#8)
  | .crc32Seal => .word (commandWord 0 0x22#8)
  | .crc32Check => .word (commandWord 1 0x22#8)
  | .r7xPix c => .bytes [0#1 ++ c]
  | .r7xRun7 c l => .bytes [1#1 ++ c, 0#1 ++ l]
  | .r7xRun14 c l => .bytes [1#1 ++ c, 0b10#2 ++ l.extractLsb' 8 6, l.extractLsb' 0 8]
  | .r7xRun21 c l => .bytes [1#1 ++ c, 0b110#3 ++ l.extractLsb' 16 5, l.extractLsb' 8 8, l.extractLsb' 0 8]
  | .r7xRun28 c l =>
    .bytes [1#1 ++ c, 0b1110#4 ++ l.extractLsb' 24 4, l.extractLsb' 16 8, l.extractLsb' 8 8, l.extractLsb' 0 8]
  | .bplTok on l => .bytes [BitVec.ofBool on ++ l]
  | .difMagic m => .bytes [m]
  | .difChecksum k => .bytes [k]
  | .difZero0 l => .bytes [0b0000#4 ++ l]
  | .difZero1 l => .bytes [0b0001#4 ++ l.extractLsb' 8 4, l.extractLsb' 0 8]
  | .difZero2 l => .bytes [0b0010#4 ++ l.extractLsb' 16 4, l.extractLsb' 8 8, l.extractLsb' 0 8]
  | .difZero3 l => .bytes [0b0011#4 ++ l.extractLsb' 24 4, l.extractLsb' 16 8, l.extractLsb' 8 8, l.extractLsb' 0 8]
  | .difValue0 v l => .bytes [0b0100#4 ++ l, v]
  | .difValue1 v l => .bytes [0b0101#4 ++ l.extractLsb' 8 4, v, l.extractLsb' 0 8]
  | .difValue2 v l => .bytes [0b0110#4 ++ l.extractLsb' 16 4, v, l.extractLsb' 8 8, l.extractLsb' 0 8]
  | .difValue3 v l =>
    .bytes [0b0111#4 ++ l.extractLsb' 24 4, v, l.extractLsb' 16 8, l.extractLsb' 8 8, l.extractLsb' 0 8]
  | .difMax0 l => .bytes [0b1100#4 ++ l]
  | .difMax1 l => .bytes [0b1101#4 ++ l.extractLsb' 8 4, l.extractLsb' 0 8]
  | .difMax2 l => .bytes [0b1110#4 ++ l.extractLsb' 16 4, l.extractLsb' 8 8, l.extractLsb' 0 8]
  | .difMax3 l => .bytes [0b1111#4 ++ l.extractLsb' 24 4, l.extractLsb' 16 8, l.extractLsb' 8 8, l.extractLsb' 0 8]
  | .difDelta0 d => .bytes [0b1000#4 ++ d]
  | .difDelta1 d l => .bytes [0b1001#4 ++ d, l]
  | .difDelta2 d l => .bytes [0b1010#4 ++ d, l.extractLsb' 8 8, l.extractLsb' 0 8]
  | .difDelta3 d l => .bytes [0b1011#4 ++ d, l.extractLsb' 16 8, l.extractLsb' 8 8, l.extractLsb' 0 8]
  | .nibBlack l => .bytes [0x0#4 ++ l.extractLsb' 8 4, l.extractLsb' 0 8]
  | .nibWhite l => .bytes [0xF#4 ++ l.extractLsb' 8 4, l.extractLsb' 0 8]
  | .nibGrey c l => .bytes [c ++ l]
  | .nibTrailer f => .bytes [f.extractLsb' 0 8, f.extractLsb' 8 8]
  | .rgbWord r g b => .bytes [g.extractLsb' 0 2 ++ 0#1 ++ b, r ++ g.extractLsb' 2 3]
  | .rgbRep r g b n x =>
    .bytes [g.extractLsb' 0 2 ++ 1#1 ++ b, r ++ g.extractLsb' 2 3, n.extractLsb' 0 8, x ++ n.extractLsb' 8 4]

/-- The bytes an encoder emits for a token or framing field; a command is no bytes of a stream. -/
def tokenBytes (i : Instr) : List Byte :=
  match encode i with
  | .bytes bs => bs
  | .word _ => []

/-- A token's length in bytes: how far it moves the input cursor (R37, R101, R104 to R106). -/
def tokenSize (i : Instr) : Nat := (tokenBytes i).length

/-! ## The table's words -/

/-- The formats a bare table word of so many bits is tried in, the rows with the most fixed bits first. The word does not
say its own format (R107). DESIGN CHOICE (log entry 13). -/
def tableFormats (nbits : Nat) : List Format :=
  if nbits = 8 then [.dif, .r7x, .nib, .bpl] else [.dif, .nib, .r7x, .rgb]

/-- The token that is exactly the given bytes, in the first of the formats that has one. -/
def decodeWhole (bs : List Byte) : List Format → Option Instr
  | [] => none
  | f :: fs =>
    match decodeBytes f bs with
    | .ok (i, []) => some i
    | _ => decodeWhole bs fs

/-- The instruction of a table word. A row of 32 bits may be a command word; every other row is a token, whose first
byte the table writes in the most significant bits. -/
def decodeTableWord (nbits w : Nat) : Option Instr :=
  let token := if nbits % 8 = 0 then decodeWhole (beBytes (nbits / 8) w) (tableFormats nbits) else none
  if nbits = 32 then
    match decodeCommand (BitVec.ofNat 32 w) with
    | .ok i => some i
    | .error _ => token
  else token

end Sys2Proof
end

