-- ==== Sys2Proof/Config.lean ====
section
/-! DEFINITION. What the spec fixes for the block or leaves open to it: block parameters and free values. -/

namespace Sys2Proof

/-- MAX_AA, the largest antialiasing level (R8, R166; decision D11). -/
def Config.maxAa : Nat := 16

/-- CRC16_FINISH, an OPEN block parameter: a total function of the raw register of which nothing else is known, the
identity excluded as a default (R8, R312). DESIGN CHOICE (log entry 2), safe. -/
opaque Config.crc16Finish : BitVec 16 → BitVec 16

/-- The byte of IN at an offset the host never loaded: host memory that the spec gives no contents (R42, R420).
DESIGN CHOICE (log entry 4), safe: a free value. -/
opaque Config.freeInByte : Nat → Byte

/-- The byte of OUT at an offset (the second argument) that nothing has written since it last became unspecified; the first
argument counts how often it did (R63, R42; U1, U2). DESIGN CHOICE (log entry 3), safe: a free value. -/
opaque Config.freeOutByte : Nat → Nat → Byte

end Sys2Proof
end

