-- ==== Sys2Proof/Machine/Registers.lean ====
section
/-! DEFINITION. The interface register file's names, numbers, access codes and named bits (10_state.md R31). -/

namespace Sys2Proof.Machine

/-- The named registers of R31. -/
inductive Reg where
  | cmd
  | status
  | errOff
  | inLen
  | outCap
  | outLen
  | width
  | height
  | seed
  | layer
  | aaN
  | result
  | sigvalLo
  | sigvalHi
  /-- PLANE_LEN[k]. -/
  | planeLen (k : Fin 16)
  /-- LCG0_C(j+1): constant j+1 of cipher constant set 0 (R34). -/
  | lcg0 (j : Fin 4)
  /-- LCG1_C(j+1): constant j+1 of cipher constant set 1 (R34). -/
  | lcg1 (j : Fin 4)
  | diffMagic
  | crc16Init
  | sigFieldBytes
  | aesKlen
  | rgbRepHi
  | aesKey (k : Fin 8)
  | aesIv (k : Fin 4)
deriving DecidableEq, Repr

/-- The access codes of R31. -/
inductive Access where
  /-- The host writes it, the block reads it. -/
  | rw
  /-- The block writes it; the host's writes are ignored. -/
  | ro
  /-- A host write starts a command. -/
  | startsCommand
deriving DecidableEq, Repr

/-- The register numbers of R31. -/
def Reg.number : Reg → Fin 64
  | .cmd => 0x00
  | .status => 0x01
  | .errOff => 0x02
  | .inLen => 0x03
  | .outCap => 0x04
  | .outLen => 0x05
  | .width => 0x06
  | .height => 0x07
  | .seed => 0x08
  | .layer => 0x09
  | .aaN => 0x0A
  | .result => 0x0B
  | .sigvalLo => 0x0C
  | .sigvalHi => 0x0D
  | .planeLen k => ⟨0x10 + k, by omega⟩
  | .lcg0 j => ⟨0x20 + j, by omega⟩
  | .lcg1 j => ⟨0x24 + j, by omega⟩
  | .diffMagic => 0x28
  | .crc16Init => 0x29
  | .sigFieldBytes => 0x2A
  | .aesKlen => 0x2B
  | .rgbRepHi => 0x2C
  | .aesKey k => ⟨0x30 + k, by omega⟩
  | .aesIv k => ⟨0x38 + k, by omega⟩

/-- The register of a number; a number that R31 does not list is reserved. -/
def Reg.ofNumber (n : Fin 64) : Option Reg :=
  if n = 0x00 then some .cmd
  else if n = 0x01 then some .status
  else if n = 0x02 then some .errOff
  else if n = 0x03 then some .inLen
  else if n = 0x04 then some .outCap
  else if n = 0x05 then some .outLen
  else if n = 0x06 then some .width
  else if n = 0x07 then some .height
  else if n = 0x08 then some .seed
  else if n = 0x09 then some .layer
  else if n = 0x0A then some .aaN
  else if n = 0x0B then some .result
  else if n = 0x0C then some .sigvalLo
  else if n = 0x0D then some .sigvalHi
  else if h : 0x10 ≤ n.val ∧ n.val < 0x20 then some (.planeLen ⟨n.val - 0x10, by omega⟩)
  else if h : 0x20 ≤ n.val ∧ n.val < 0x24 then some (.lcg0 ⟨n.val - 0x20, by omega⟩)
  else if h : 0x24 ≤ n.val ∧ n.val < 0x28 then some (.lcg1 ⟨n.val - 0x24, by omega⟩)
  else if n = 0x28 then some .diffMagic
  else if n = 0x29 then some .crc16Init
  else if n = 0x2A then some .sigFieldBytes
  else if n = 0x2B then some .aesKlen
  else if n = 0x2C then some .rgbRepHi
  else if h : 0x30 ≤ n.val ∧ n.val < 0x38 then some (.aesKey ⟨n.val - 0x30, by omega⟩)
  else if h : 0x38 ≤ n.val ∧ n.val < 0x3C then some (.aesIv ⟨n.val - 0x38, by omega⟩)
  else none

/-- The access code of R31. -/
def Reg.access : Reg → Access
  | .cmd => .startsCommand
  | .status => .ro
  | .errOff => .ro
  | .inLen => .rw
  | .outCap => .rw
  | .outLen => .ro
  | .width => .rw
  | .height => .rw
  | .seed => .rw
  | .layer => .rw
  | .aaN => .rw
  | .result => .ro
  | .sigvalLo => .rw
  | .sigvalHi => .rw
  | .planeLen _ => .ro
  | .lcg0 _ => .rw
  | .lcg1 _ => .rw
  | .diffMagic => .rw
  | .crc16Init => .rw
  | .sigFieldBytes => .rw
  | .aesKlen => .rw
  | .rgbRepHi => .rw
  | .aesKey _ => .rw
  | .aesIv _ => .rw

/-- The bits R31 names in a register; the others are write-ignored and read as 0. -/
def Reg.named : Reg → Word
  | .aaN => 0x000000FF#32
  | .diffMagic => 0x000000FF#32
  | .crc16Init => 0x0000FFFF#32
  | .sigFieldBytes => 0x000000FF#32
  | .aesKlen => 0x000000FF#32
  | .rgbRepHi => 0x0000000F#32
  | .status => 0x00000073#32
  | _ => 0xFFFFFFFF#32

/-- Whether R31 gives the number a reset value, so that it counts as written after reset (R35, R42). -/
def hasResetValue (n : Fin 64) : Bool :=
  match Reg.ofNumber n with
  | none => true
  | some r => r.access ≠ .rw

end Sys2Proof.Machine
end

