-- ==== Sys2Proof/Machine/State.lean ====
section
/-! DEFINITION. Everything the machine holds, as plain data (10_state.md, 20_memory.md R60), and what stops a step. -/

namespace Sys2Proof.Machine

/-- One of the two byte-addressed spaces: the bytes that have a value, by offset. -/
abbrev Memory := List Host.Cell

/-- Offsets strictly rise and fit in 32 bits (R60). An unlisted offset holds no value, so no entry repeats what an
unlisted offset reads as: equal contents are equal lists. -/
def Memory.wf (m : Memory) : Bool :=
  decide (m.Pairwise fun c d => c.1 < d.1) && m.all fun c => c.1 < 2 ^ 32

/-- The decoding commands, each with its own token format (R91). -/
inductive Stream where
  | r7x
  | bpl
  | dif
  | nib
  | rgb
deriving DecidableEq, Repr

/-- Where a decoding command stands in its stream. Only the diff-chunk stream has framing before its chunks: the magic,
and the checksum, which is verified before any pixel (R103, R193). -/
inductive Phase where
  | magic
  | checksum
  | tokens
deriving DecidableEq, Repr

/-- A decoding command in progress: the working registers of R36 that it carries from token to token, and the values its
pseudocode computes once (P, N, k and the end of its token region). -/
structure Work where
  stream : Stream
  phase : Phase
  /-- `ic`, the input cursor (R36, R37). -/
  ic : Nat
  /-- `tok`, the offset of the token last begun (R36, R37). -/
  tok : Nat
  /-- `pc`, the pixels produced so far, in the current plane for BPL.DEC (R36). -/
  pc : Nat
  /-- P, the declared pixel count (R15). -/
  pixels : Nat
  /-- The end of the token region: IN_LEN, or where the checksum or trailer begins. -/
  stop : Nat
  /-- `prev`, the value of the last pixel produced (R36, R191). -/
  prev : Byte
  /-- N, the number of bitplanes (R163). -/
  planes : Nat
  /-- k, the current bitplane (R163). -/
  plane : Nat
  /-- `hits[p]` (R36, R163). -/
  hits : List Nat
deriving DecidableEq, Repr

/-- One access by the host or the platform (R30, R31, R60, R110, R420). -/
inductive HostOp where
  /-- `wr`: write a register number; a write of CMD starts a command (R31). -/
  | write (n : Fin 64) (v : Word)
  /-- `rd`: read a register number (R31). -/
  | read (n : Fin 64)
  /-- `in.load`: fill IN with the bytes and set IN_LEN to their count (R110). -/
  | inLoad (bs : List Byte)
  /-- `in.from_out`: copy OUT[0 .. OUT_LEN-1] to IN and set IN_LEN to OUT_LEN (R110). -/
  | inFromOut
  /-- Write one byte of IN (R60). -/
  | writeIn (a : Word) (b : Byte)
  /-- Read one byte of IN (R60). -/
  | readIn (a : Word)
  /-- Write one byte of OUT (R60). -/
  | writeOut (a : Word) (b : Byte)
  /-- Read one byte of OUT (R60). -/
  | readOut (a : Word)
  /-- The platform applies the reset (R420). -/
  | reset
deriving DecidableEq, Repr

/-- UVT-CORE between two accesses of its host. -/
structure State where
  /-- The interface register file, by register number (R31). -/
  regs : Vector Word 64
  /-- Which registers have been written since reset, or have a reset value (R35). -/
  written : Vector Bool 64
  /-- IN (R60, R61). -/
  inMem : Memory
  /-- OUT (R60, R62). -/
  outMem : Memory
  /-- MODEL: each time OUT's contents became unspecified, latest first, below which offset (log entry 3). -/
  outForgets : List Nat
  /-- The decoding command in progress; none between commands (R30, R36). -/
  work : Option Work
  /-- MODEL: the host's accesses still to come (log entry 8). -/
  host : List HostOp
  /-- MODEL: what the host's last read returned (log entry 9). -/
  readData : Word
deriving DecidableEq, Repr

/-- What stops the machine. -/
inductive Fault where
  /-- UNWRITTEN_REGISTER (R35, R396, R420): a command, or a host read, reads a register not written since reset. Raised by
  withReg and hostRead. Safe: the model stops where the block's value is unspecified. -/
  | unwrittenRegister (r : Reg)
  /-- The host fills IN with more bytes than a 32-bit length counts (R9, R60). Raised by hostInLoad. Safe: no such buffer
  exists. -/
  | noSuchOffset
deriving DecidableEq, Repr

/-- Why an instruction has no meaning where it stands. -/
inductive Refusal where
  /-- An instruction without a meaning in exec. Safe: the model stops. -/
  | notModelled (mnemonic : String)
  /-- A token or framing field where no decoding command of its format stands (R37, R107): the spec gives it no effect
  there. Raised by withStream. Safe: the model stops. -/
  | tokenOutsideStream
deriving DecidableEq, Repr

/-- The machine after power-on (R42, R420): every register 0, the RW registers not written (their value is the model's,
log entry 5), no byte of IN or OUT with a value, no command running, no access of the host yet. -/
def State.reset : State where
  regs := Vector.replicate 64 0#32
  written := ⟨⟨(List.finRange 64).map hasResetValue⟩, by simp⟩
  inMem := []
  outMem := []
  outForgets := []
  work := none
  host := []
  readData := 0#32

end Sys2Proof.Machine
end

