-- ==== Sys2Proof/Machine/Flags.lean ====
section
/-! DEFINITION. The block's only flags, STATUS.STATE and STATUS.ERR (10_state.md R32, R39). -/

namespace Sys2Proof.Machine

/-- The four architectural errors (60_exceptions.md R390, R391, R394, R395). -/
inductive ErrorKind where
  | corruptedStream
  | checksumMismatch
  | unsupportedVariant
  | bufferOverrun
deriving DecidableEq, Repr

/-- STATUS.ERR of an error (R32). -/
def ErrorKind.code : ErrorKind → BitVec 3
  | .corruptedStream => 1#3
  | .checksumMismatch => 2#3
  | .unsupportedVariant => 3#3
  | .bufferOverrun => 4#3

/-- STATUS with its two fields, every other bit 0 (R31, R32). -/
def statusWord (err : BitVec 3) (state : BitVec 2) : Word := 0#25 ++ err ++ 0#2 ++ state

/-- STATUS.STATE of a STATUS word. -/
def statusState (w : Word) : BitVec 2 := w.extractLsb' 0 2

/-- STATUS.ERR of a STATUS word. -/
def statusErr (w : Word) : BitVec 3 := w.extractLsb' 4 3

/-- STATE = BUSY: a command is running (R32). -/
def statusBusy : Word := statusWord 0#3 1#2

/-- STATE = DONE, ERR = 0 (R393). -/
def statusDone : Word := statusWord 0#3 2#2

/-- STATE = ERROR, ERR = the code (R392). -/
def statusError (e : ErrorKind) : Word := statusWord e.code 3#2

end Sys2Proof.Machine
end

