-- ==== Sys2Proof/Machine/Ops.lean ====
section
/-! DEFINITION. The shared operations over registers, IN and OUT, emission, and how a command ends: by completing (R393) or
by raising an error (R392). There is no return from an error: the next CMD write starts a new command (R398). -/

namespace Sys2Proof.Machine

/-- The outcome of a meaning. -/
abbrev Out := Host.Outcome State Fault Refusal

/-! ## The register file (R31, R35) -/

/-- The value a register reads as: bits that R31 does not name read as 0. -/
def State.reg (s : State) (r : Reg) : Word := s.regs.get r.number &&& r.named

/-- Whether a register counts as written (R35). -/
def State.isWritten (s : State) (r : Reg) : Bool := s.written.get r.number

/-- The block writes one of its own registers. -/
def State.setReg (s : State) (r : Reg) (v : Word) : State :=
  { s with regs := s.regs.set r.number v }

/-- A register is given a value from outside: its named bits are stored, and it counts as written (R31, R35). -/
def State.storeReg (s : State) (r : Reg) (v : Word) : State :=
  { s with regs := s.regs.set r.number (v &&& r.named), written := s.written.set r.number true }

/-- `reg[NAME]` in a command's pseudocode (R12). A register not written since reset holds its value in State, but the read is
the fault UNWRITTEN_REGISTER: "A model must fault such a command … and must not pick a value" (R35; R396, R401, R420, U4). -/
def withReg (s : State) (r : Reg) (k : Word → Out) : Out :=
  if s.isWritten r then k (s.reg r) else .fault (.unwrittenRegister r)

/-- Several registers read in order. -/
def withRegs (s : State) : List Reg → (List Word → Out) → Out
  | [], k => k []
  | r :: rs, k => withReg s r fun v => withRegs s rs fun vs => k (v :: vs)

/-! ## Memory -/

/-- The byte a memory holds at an offset, if it holds one. -/
def Memory.get : Memory → Nat → Option Byte
  | [], _ => none
  | (k, v) :: m, a => if k = a then some v else Memory.get m a

/-- Write one byte, keeping the canonical form. -/
def Memory.put : Memory → Nat → Byte → Memory
  | [], a, b => [(a, b)]
  | (k, v) :: m, a, b =>
    if a < k then (a, b) :: (k, v) :: m
    else if a = k then (a, b) :: m
    else (k, v) :: Memory.put m a b

/-- Write bytes at consecutive offsets. -/
def Memory.putAll : Memory → Nat → List Byte → Memory
  | m, _, [] => m
  | m, a, b :: bs => Memory.putAll (Memory.put m a b) (a + 1) bs

/-- Take the value away from every offset below a bound. -/
def Memory.forgetBelow (m : Memory) (bound : Nat) : Memory := m.filter fun c => bound ≤ c.1

/-- `MemRead(IN, a, 1)` (R61). A byte the host never loaded is a free value (log entry 4). -/
def State.inByte (s : State) (a : Nat) : Byte := (s.inMem.get a).getD (Config.freeInByte a)

/-- `IN[a .. a+n-1]`. -/
def State.inRange (s : State) (a n : Nat) : List Byte := (List.range n).map fun i => s.inByte (a + i)

/-- How often the byte of OUT at an offset became unspecified (log entry 3). -/
def State.outEpoch (s : State) (a : Nat) : Nat := s.outForgets.countP fun bound => decide (a < bound)

/-- The byte of OUT at an offset. A byte nothing has written since it became unspecified is a free value (R63, R42; log
entry 3). -/
def State.outByte (s : State) (a : Nat) : Byte := (s.outMem.get a).getD (Config.freeOutByte (s.outEpoch a) a)

/-- `OUT[a .. a+n-1]`. -/
def State.outRange (s : State) (a n : Nat) : List Byte := (List.range n).map fun i => s.outByte (a + i)

/-- `MemWrite(OUT, a + i, 1, bs[i])` in order: performed only at offsets below OUT_CAP (R62). -/
def State.putOut (s : State) (a : Nat) (bs : List Byte) : State :=
  { s with outMem := s.outMem.putAll a (bs.take ((s.reg .outCap).toNat - a)) }

/-- Where OUT ends for a command: at OUT_CAP (R60). Where OUT_CAP itself is unspecified, every offset may lie in OUT (log
entry 3). -/
def State.outBound (s : State) : Nat := if s.isWritten .outCap then (s.reg .outCap).toNat else 2 ^ 32

/-- OUT[0 .. OUT_CAP-1] becomes unspecified, and no byte from OUT_CAP on changes (R63). -/
def State.forgetOut (s : State) : State :=
  { s with outMem := s.outMem.forgetBelow s.outBound, outForgets := s.outBound :: s.outForgets }

/-! ## How a command ends -/

/-- The state after a command that ends DONE with `oc` bytes of output (R393). -/
def State.completed (s : State) (oc : Nat) : State :=
  { ((s.setReg .status statusDone).setReg .errOff 0#32).setReg .outLen (BitVec.ofNat 32 oc) with work := none }

/-- The state after `raise E(off)`: STATUS, ERR_OFF, OUT_LEN and OUT as R392 says; the working registers are discarded and
everything else is kept. -/
def State.errored (s : State) (e : ErrorKind) (off : Nat) : State :=
  { (((s.forgetOut).setReg .status (statusError e)).setReg .errOff (BitVec.ofNat 32 off)).setReg .outLen 0#32 with
    work := none }

/-- The end of a command's pseudocode (R393). -/
def finishCommand (s : State) (oc : Nat) : Out := .next (s.completed oc)

/-- `raise E(off)` (R392). -/
def raiseError (s : State) (e : ErrorKind) (off : Nat) : Out := .next (s.errored e off)

/-- A CMD word that is no command (R93, R390): it reads no register but CMD. -/
def rejectCommand (s : State) : Out := raiseError s .unsupportedVariant 0

/-! ## Output: the capacity pre-check and emit -/

/-- The capacity pre-check of a fixed output size (R65). -/
def withCapacity (s : State) (size : Nat) (k : Unit → Out) : Out :=
  withReg s .outCap fun cap => if size > cap.toNat then raiseError s .bufferOverrun 0 else k ()

/-- What one `emit` writes, and the error offset its rule states (R64). -/
structure Piece where
  bytes : List Byte
  errOff : Nat
deriving DecidableEq, Repr

/-- The bytes of all pieces, in order. -/
def pieceBytes (ps : List Piece) : List Byte := (ps.map Piece.bytes).flatten

/-- The error offset of the first `emit` that does not fit after `oc` bytes (R64). -/
def firstOverrun (cap : Nat) : Nat → List Piece → Option Nat
  | _, [] => none
  | oc, p :: ps =>
    if oc + p.bytes.length > cap then some p.errOff else firstOverrun cap (oc + p.bytes.length) ps

/-- Emit the pieces from output cursor 0, then complete. OUT_CAP is read at the first `emit` (R64; log entry 6). OUT is
unspecified after an overrun (R63), so the pieces before it need not be written. -/
def emitAll (s : State) (ps : List Piece) (k : State → Out) : Out :=
  match ps with
  | [] => k s
  | _ :: _ =>
    withReg s .outCap fun cap =>
      match firstOverrun cap.toNat 0 ps with
      | some off => raiseError s .bufferOverrun off
      | none => k (s.putOut 0 (pieceBytes ps))

/-- Emit the pieces and complete the command (R393). -/
def emitCommand (s : State) (ps : List Piece) : Out :=
  emitAll s ps fun t => finishCommand t (pieceBytes ps).length

/-- Write a fixed-size output at offset 0 and complete the command with `oc` bytes of output. -/
def finishWith (s : State) (bs : List Byte) (oc : Nat) : Out := finishCommand (s.putOut 0 bs) oc

end Sys2Proof.Machine
end

