-- ==== Sys2Proof/Machine/Operands.lean ====
section
/-! DEFINITION. The operand forms of the commands: the pixel count, the input of an encoder, the antialiasing level, and the
multi-byte configuration values (10_state.md R33, 00_scope.md R13, 41_bitplane.md R166, 48_signature.md R370). -/

namespace Sys2Proof.Machine

/-- P = `reg[WIDTH] * reg[HEIGHT]`, exact, with no wrap (R65, R132). -/
def withPixels (s : State) (k : Nat → Out) : Out :=
  withReg s .width fun w => withReg s .height fun h => k (w.toNat * h.toNat)

/-- N = `reg[AA_N]`, 1 to MAX_AA, and otherwise UnsupportedVariant(0) (R163, R166). -/
def withLevel (s : State) (k : Nat → Out) : Out :=
  withReg s .aaN fun n =>
    if n.toNat < 1 ∨ n.toNat > Config.maxAa then raiseError s .unsupportedVariant 0 else k n.toNat

/-- An encoder's input: IN holds `perPixel` bytes for each of the P pixels, and otherwise CorruptedStream(0) (R133, R263). -/
def withBitmap (s : State) (perPixel : Nat) (k : List Byte → Out) : Out :=
  withPixels s fun p =>
    withReg s .inLen fun n =>
      if n.toNat ≠ perPixel * p then raiseError s .corruptedStream 0 else k (s.inRange 0 n.toNat)

/-- The bytes that consecutive registers hold, little-endian within each (R33). -/
def registerBytes (ws : List Word) : List Byte := (ws.map fun w => leBytes 4 w.toNat).flatten

/-- The legal SIG_FIELD_BYTES (R370). -/
def legalFieldBytes (w : Word) : Bool := w = 4#32 || w = 8#32

/-- The legal AES_KLEN (R31, R372). -/
def legalKeyLength (w : Word) : Bool := w = 16#32 || w = 24#32 || w = 32#32

/-- SIG_FIELD_BYTES and AES_KLEN, legal, and otherwise UnsupportedVariant(0) (R372, R373). -/
def withSignatureConfig (s : State) (k : Nat → Nat → Out) : Out :=
  withReg s .sigFieldBytes fun w =>
    withReg s .aesKlen fun kl =>
      if legalFieldBytes w && legalKeyLength kl then k w.toNat kl.toNat
      else raiseError s .unsupportedVariant 0

/-- The registers that hold the signed field: SIGVAL_HI is read only for 8 bytes (R370). -/
def fieldRegs (w : Nat) : List Reg := if w = 8 then [.sigvalLo, .sigvalHi] else [.sigvalLo]

/-- AES_KEY[0 .. AES_KLEN/4 - 1] (R371, R372). -/
def keyRegs (kl : Nat) : List Reg := ((List.finRange 8).take (kl / 4)).map Reg.aesKey

/-- AES_IV[0 .. 3]. -/
def ivRegs : List Reg := (List.finRange 4).map Reg.aesIv

/-- The four constants C1 to C4 of a cipher constant set (R34, R292). -/
def lcgRegs : LcgSet → List Reg
  | .set0 => (List.finRange 4).map Reg.lcg0
  | .set1 => (List.finRange 4).map Reg.lcg1

end Sys2Proof.Machine
end

