-- ==== Sys2Proof/Machine/Keystream.lean ====
section
/-! DEFINITION. The linear-congruential keystream cipher (45_keystream.md). -/

namespace Sys2Proof.Machine

/-- A constant set C1 to C4 (R290). -/
structure LcgConstants where
  c1 : Word
  c2 : Word
  c3 : Word
  c4 : Word
deriving DecidableEq, Repr

/-- `init` of R290, mod 2^32. -/
def lcgInit (c : LcgConstants) (seed : Word) : Word := seed * c.c1 + c.c2

/-- `key` of R290 before the first byte, mod 2^32. -/
def lcgKey (c : LcgConstants) (seed layer : Word) : Word := (layer * c.c3 + c.c4) * lcgInit c seed

/-- The bytes XORed with the keystream: byte i uses `key >> 8(i mod 4)`, and `key` grows by `init` after every fourth byte
(R290, R292). The first argument is i mod 4. -/
def lcgStream (init : Word) : Nat → Word → List Byte → List Byte
  | _, _, [] => []
  | i, key, b :: bs =>
    (b ^^^ key.extractLsb' (8 * i) 8) ::
      (if i = 3 then lcgStream init 0 (key + init) bs else lcgStream init (i + 1) key bs)

/-- The XOR transform of a byte sequence (R292). -/
def lcgTransform (c : LcgConstants) (seed layer : Word) (bs : List Byte) : List Byte :=
  lcgStream (lcgInit c seed) 0 (lcgKey c seed layer) bs

/-- Four register values as a constant set. -/
def lcgConstants (ws : List Word) : LcgConstants :=
  ⟨ws.getD 0 0#32, ws.getD 1 0#32, ws.getD 2 0#32, ws.getD 3 0#32⟩

/-- LCG.XOR with a constant set: SEED = 0 copies IN, and the constants are then not read (R292). -/
def lcgCommand (c : LcgSet) (s : State) : Out :=
  withReg s .inLen fun n =>
    withCapacity s n.toNat fun _ =>
      withReg s .seed fun seed =>
        withReg s .layer fun layer =>
          if seed = 0#32 then finishWith s (s.inRange 0 n.toNat) n.toNat
          else withRegs s (lcgRegs c) fun ws =>
            finishWith s (lcgTransform (lcgConstants ws) seed layer (s.inRange 0 n.toNat)) n.toNat

/-- LCG.XOR (R292). -/
def execLcgXor (c : LcgSet) (s : State) : Out := lcgCommand c s

/-- LCG.XOR.0 (R111). -/
def execLcgXor0 (s : State) : Out := lcgCommand .set0 s

/-- ENCRYPT.0 (R111): the cipher is self-inverse. -/
def execEncrypt0 (s : State) : Out := lcgCommand .set0 s

/-- DECRYPT.0 (R111): the cipher is self-inverse. -/
def execDecrypt0 (s : State) : Out := lcgCommand .set0 s

/-- LCG.XOR.1 (R111). -/
def execLcgXor1 (s : State) : Out := lcgCommand .set1 s

/-- ENCRYPT.1 (R111). -/
def execEncrypt1 (s : State) : Out := lcgCommand .set1 s

/-- DECRYPT.1 (R111). -/
def execDecrypt1 (s : State) : Out := lcgCommand .set1 s

end Sys2Proof.Machine
end

