-- ==== Sys2Proof/Machine/Runs.lean ====
section
/-! DEFINITION. How the encoders cut a bitmap: maximal runs of one key, and greedy pieces of each run (00_scope.md R14). -/

namespace Sys2Proof.Machine

/-- The maximal runs of equal keys, in order, with their lengths (R14). -/
def runsOf {κ : Type} [DecidableEq κ] : List κ → List (κ × Nat)
  | [] => []
  | x :: xs =>
    match runsOf xs with
    | [] => [(x, 1)]
    | (y, n) :: rs => if x = y then (y, n + 1) :: rs else (x, 1) :: (y, n) :: rs

/-- The greedy pieces of a run: the maximum until what is left is no longer than it (R14). -/
def cutRun (max n : Nat) : List Nat :=
  List.replicate (n / max) max ++ (if n % max = 0 then [] else [n % max])

/-- A piece: a key, a length, and the index of its first pixel. -/
structure RunPiece (κ : Type) where
  key : κ
  len : Nat
  start : Nat
deriving DecidableEq, Repr

/-- Pieces of one key laid end to end. -/
def layOut {κ : Type} (key : κ) : Nat → List Nat → List (RunPiece κ)
  | _, [] => []
  | start, l :: ls => ⟨key, l, start⟩ :: layOut key (start + l) ls

/-- The pieces of all runs, each run cut at its key's maximum length. -/
def piecesFrom {κ : Type} (max : κ → Nat) : Nat → List (κ × Nat) → List (RunPiece κ)
  | _, [] => []
  | start, (k, n) :: rs => layOut k start (cutRun (max k) n) ++ piecesFrom max (start + n) rs

/-- The pieces of a sequence of keys. -/
def piecesOf {κ : Type} [DecidableEq κ] (max : κ → Nat) (keys : List κ) : List (RunPiece κ) :=
  piecesFrom max 0 (runsOf keys)

end Sys2Proof.Machine
end

