-- ==== Sys2Proof/Machine/Stream.lean ====
section
/-! DEFINITION. What the decoding commands share: the working registers of a stream, one token's effect on them and on OUT
(10_state.md R36, R37; 60_exceptions.md R391, R395), and the end of a stream. -/

namespace Sys2Proof.Machine

/-- A decoding command begins: BUSY, and its working registers at their initial values (R32, R36). No rule states an initial
value of `tok`, nor of `ic` before DIF.DEC has checked its framing: both start at 0. DESIGN CHOICE (log entry 27), safe. -/
def openStream (s : State) (stream : Stream) (phase : Phase) (pixels stop planes : Nat) : State :=
  { s.setReg .status statusBusy with
    work := some
      { stream := stream, phase := phase, ic := 0, tok := 0, pc := 0, pixels := pixels, stop := stop, prev := 0#8
        planes := planes, plane := 0, hits := List.replicate (if stream = .bpl then pixels else 0) 0 } }

/-- The decoding command in progress, if it is one of this format in this phase. -/
def withStream (s : State) (stream : Stream) (phase : Phase) (k : Work → Out) : Out :=
  match s.work with
  | none => .refused .tokenOutsideStream
  | some w => if w.stream = stream ∧ w.phase = phase then k w else .refused .tokenOutsideStream

/-- `tok <- ic`, and `ic` past the token's bytes; a token that needs a byte at or beyond the end of its region raises
CorruptedStream(tok) (R37, R391). -/
def withToken (s : State) (stream : Stream) (i : Instr) (k : Work → Out) : Out :=
  withStream s stream .tokens fun w =>
    if w.ic + tokenSize i > w.stop then raiseError s .corruptedStream w.ic
    else k { w with tok := w.ic, ic := w.ic + tokenSize i }

/-- `l` pixels, each the bytes `px`, at pixel `pc`: past P is BufferOverrun(tok), checked before any byte is written
(R395). `prev` becomes the given value where a pixel is produced (R191). -/
def putRun (s : State) (w : Work) (l : Nat) (px : List Byte) (prev : Byte) : Out :=
  if w.pc + l > w.pixels then raiseError s .bufferOverrun w.tok
  else .next { s.putOut (px.length * w.pc) (List.replicate l px).flatten with
    work := some { w with pc := w.pc + l, prev := if l > 0 then prev else w.prev } }

/-- Whether the token loop of the decoding command ends here. -/
def streamEnded (w : Work) : Bool :=
  match w.stream with
  | .bpl => w.planes ≤ w.plane
  | _ => w.phase = .tokens && w.stop ≤ w.ic

/-- The end-of-stream check of a run-length decoder: fewer than P pixels is CorruptedStream at the end of the token region,
and otherwise `perPixel` bytes for each of the P pixels have been written (R391, R413). -/
def finishPixels (s : State) (w : Work) (perPixel : Nat) : Out :=
  if w.pc ≠ w.pixels then raiseError s .corruptedStream w.stop else finishCommand s (perPixel * w.pixels)

/-- The format of a stream's tokens. -/
def Stream.format : Stream → Format
  | .r7x => .r7x
  | .bpl => .bpl
  | .dif => .dif
  | .nib => .nib
  | .rgb => .rgb

/-- The longest token, in bytes (R37). -/
def maxTokenSize : Nat := 5

/-- The token or framing field at the input cursor: no byte at or beyond the end of the token region is given to the decoder
(R37, R391). -/
def fetchToken (s : State) (w : Work) : Except DecodeError Instr :=
  let read : Decoded :=
    match w.phase with
    | .magic => decodeBytes .difMagic [s.inByte w.ic]
    | .checksum => decodeBytes .difChecksum [s.inByte w.stop]
    | .tokens => decodeBytes w.stream.format (s.inRange w.ic (min maxTokenSize (w.stop - w.ic)))
  read.map Prod.fst

end Sys2Proof.Machine
end

