-- ==== Sys2Proof/Machine/Bitplane.lean ====
section
/-! DEFINITION. The bitplane token, the end of a bitplane stream, and BPL.ENC (41_bitplane.md). -/

namespace Sys2Proof.Machine

/-- `recon_N(h)`: the sample of a pixel that is on in `h` of `n` planes (R160). -/
def reconBpl (n h : Nat) : Byte :=
  if h = 0 then 0#8 else BitVec.ofNat 8 (min 255 (h * (256 / n) - 1))

/-- The encode threshold `t(N, l)` of a variant (R161). -/
def threshold (v : Variant) (n l : Nat) : Nat :=
  match v with
  | .a => 255 * l / (n + 1) + 1
  | .b => 256 / n * l - 1

/-- `canonBP_{N,v}(s)` (R165). -/
def canonBpl (v : Variant) (n : Nat) (s : Byte) : Byte :=
  reconBpl n ((List.range n).countP fun k => threshold v n (k + 1) ≤ s.toNat)

/-- One more hit for `l` pixels from pixel `p` on (R163). -/
def addHits (hits : List Nat) (p l : Nat) : List Nat :=
  hits.take p ++ ((hits.drop p).take l).map (· + 1) ++ hits.drop (p + l)

/-- A plane ends as soon as it holds P pixels; with P = 0 every plane is complete at once (R163). -/
def settlePlane (w : Work) : Work :=
  if w.pc < w.pixels then w
  else if w.pixels = 0 then { w with plane := w.planes }
  else { w with plane := w.plane + 1, pc := 0 }

/-- BPL.TOK: L pixels of the current plane, each with the token's state (R162, R163). A byte after plane N-1 is left over,
CorruptedStream at its offset. -/
def execBplTok (on : Bool) (l : BitVec 7) (s : State) : Out :=
  withToken s .bpl (.bplTok on l) fun w =>
    if w.planes ≤ w.plane then raiseError s .corruptedStream w.tok
    else if w.pc + l.toNat > w.pixels then raiseError s .bufferOverrun w.tok
    else .next { s with
      work := some (settlePlane
        { w with pc := w.pc + l.toNat, hits := if on then addHits w.hits w.pc l.toNat else w.hits }) }

/-- The end of BPL.DEC: leftover bytes are CorruptedStream, and otherwise the samples are written, only now (R163). -/
def finishBpl (s : State) (w : Work) : Out :=
  if w.ic ≠ w.stop then raiseError s .corruptedStream w.ic
  else finishCommand (s.putOut 0 (w.hits.map (reconBpl w.planes))) w.pixels

/-- The tokens of one plane: the runs of its bits, cut at 125 (R164). -/
def encodePlane (bits : List Bool) : List Piece :=
  (piecesOf (fun _ => 125) bits).map fun p => ⟨tokenBytes (.bplTok p.key (BitVec.ofNat 7 p.len)), p.start⟩

/-- The tokens of planes 0 to N-1 (R164). -/
def encodeBpl (v : Variant) (n : Nat) (bitmap : List Byte) : List (List Piece) :=
  (List.range n).map fun k => encodePlane (bitmap.map fun b => decide (threshold v n (k + 1) ≤ b.toNat))

/-- PLANE_LEN[k] for every k, 0 from N on (R164). -/
def State.setPlaneLens (s : State) (lens : List Nat) : State :=
  (List.finRange 16).foldl (fun t k => t.setReg (.planeLen k) (BitVec.ofNat 32 (lens.getD k 0))) s

/-- BPL.ENC with a threshold variant (R164). PLANE_LEN is written only on success. -/
def bplEncode (v : Variant) (s : State) : Out :=
  withLevel s fun n =>
    withBitmap s 1 fun bitmap =>
      let planes := encodeBpl v n bitmap
      emitAll s planes.flatten fun t =>
        finishCommand (t.setPlaneLens (planes.map fun ps => (pieceBytes ps).length)) (pieceBytes planes.flatten).length

/-- BPL.ENC (R164). -/
def execBplEnc (v : Variant) (s : State) : Out := bplEncode v s

/-- BPL.ENC.A (R111). -/
def execBplEncA (s : State) : Out := bplEncode .a s

/-- BPL.ENC.B (R111). -/
def execBplEncB (s : State) : Out := bplEncode .b s

end Sys2Proof.Machine
end

