-- ==== Sys2Proof/Machine/DiffChunk.lean ====
section
/-! DEFINITION. The diff-chunk framing and chunks, and DIF.ENC (42_diffchunk.md). -/

namespace Sys2Proof.Machine

/-- `dsum`: the one's complement of the 8-bit sum (R192). -/
def dsum (bs : List Byte) : Byte := ~~~ (bs.foldl (· + ·) 0#8)

/-- DIF.MAGIC: byte 0 of the stream equals DIFF_MAGIC, and otherwise CorruptedStream(0) (R103, R193).
It does not look at `ic`. DESIGN CHOICE (log entry 28), safe. -/
def execDifMagic (m : Byte) (s : State) : Out :=
  withStream s .dif .magic fun w =>
    withReg s .diffMagic fun magic =>
      if m ≠ magic.setWidth 8 then raiseError s .corruptedStream 0
      else .next { s with work := some { w with phase := .checksum, ic := 1 } }

/-- DIF.CHECKSUM: the last byte equals dsum of the chunk bytes, and otherwise ChecksumMismatch at its offset; verified
before any pixel (R192, R193, R394). It does not look at `ic`. DESIGN CHOICE (log entry 28), safe. -/
def execDifChecksum (k : Byte) (s : State) : Out :=
  withStream s .dif .checksum fun w =>
    if k ≠ dsum (s.inRange 1 (w.stop - 1)) then raiseError s .checksumMismatch w.stop
    else .next { s with work := some { w with phase := .tokens } }

/-- A ZERO, VALUE or MAX chunk: L pixels of a literal value (R191, R193). -/
def difLiteral (s : State) (i : Instr) (v : Byte) (l : Nat) : Out :=
  withToken s .dif i fun w => putRun s w l [v] v

/-- A DELTA chunk: `prev + sext_4(d)`, once for the whole run; outside 0 to 255 it is CorruptedStream(tok), checked before
past P and also for L = 0 (R191, R193, R401). -/
def difDelta (s : State) (i : Instr) (d : BitVec 4) (l : Nat) : Out :=
  withToken s .dif i fun w =>
    let v : Int := (w.prev.toNat : Int) + d.toInt
    if v < 0 ∨ v > 255 then raiseError s .corruptedStream w.tok
    else putRun s w l [BitVec.ofInt 8 v] (BitVec.ofInt 8 v)

/-- DIF.ZERO0: size class 0 (R104). -/
def execDifZero0 (l : BitVec 4) (s : State) : Out := difLiteral s (.difZero0 l) 0x00#8 l.toNat

/-- DIF.ZERO1: size class 1 (R104). -/
def execDifZero1 (l : BitVec 12) (s : State) : Out := difLiteral s (.difZero1 l) 0x00#8 l.toNat

/-- DIF.ZERO2: size class 2 (R104). -/
def execDifZero2 (l : BitVec 20) (s : State) : Out := difLiteral s (.difZero2 l) 0x00#8 l.toNat

/-- DIF.ZERO3: size class 3 (R104). -/
def execDifZero3 (l : BitVec 28) (s : State) : Out := difLiteral s (.difZero3 l) 0x00#8 l.toNat

/-- DIF.VALUE0: size class 0 (R104). -/
def execDifValue0 (v : Byte) (l : BitVec 4) (s : State) : Out := difLiteral s (.difValue0 v l) v l.toNat

/-- DIF.VALUE1: size class 1 (R104). -/
def execDifValue1 (v : Byte) (l : BitVec 12) (s : State) : Out := difLiteral s (.difValue1 v l) v l.toNat

/-- DIF.VALUE2: size class 2 (R104). -/
def execDifValue2 (v : Byte) (l : BitVec 20) (s : State) : Out := difLiteral s (.difValue2 v l) v l.toNat

/-- DIF.VALUE3: size class 3 (R104). -/
def execDifValue3 (v : Byte) (l : BitVec 28) (s : State) : Out := difLiteral s (.difValue3 v l) v l.toNat

/-- DIF.MAX0: size class 0 (R104). -/
def execDifMax0 (l : BitVec 4) (s : State) : Out := difLiteral s (.difMax0 l) 0xFF#8 l.toNat

/-- DIF.MAX1: size class 1 (R104). -/
def execDifMax1 (l : BitVec 12) (s : State) : Out := difLiteral s (.difMax1 l) 0xFF#8 l.toNat

/-- DIF.MAX2: size class 2 (R104). -/
def execDifMax2 (l : BitVec 20) (s : State) : Out := difLiteral s (.difMax2 l) 0xFF#8 l.toNat

/-- DIF.MAX3: size class 3 (R104). -/
def execDifMax3 (l : BitVec 28) (s : State) : Out := difLiteral s (.difMax3 l) 0xFF#8 l.toNat

/-- DIF.DELTA0: length class 0, one pixel (R104). -/
def execDifDelta0 (d : BitVec 4) (s : State) : Out := difDelta s (.difDelta0 d) d 1

/-- DIF.DELTA1: length class 1 (R104). -/
def execDifDelta1 (d : BitVec 4) (l : BitVec 8) (s : State) : Out := difDelta s (.difDelta1 d l) d l.toNat

/-- DIF.DELTA2: length class 2 (R104). -/
def execDifDelta2 (d : BitVec 4) (l : BitVec 16) (s : State) : Out := difDelta s (.difDelta2 d l) d l.toNat

/-- DIF.DELTA3: length class 3 (R104). -/
def execDifDelta3 (d : BitVec 4) (l : BitVec 24) (s : State) : Out := difDelta s (.difDelta3 d l) d l.toNat

/-- The ZERO chunk of the smallest class that holds L (R196). -/
def zeroChunk (l : Nat) : Instr :=
  if l ≤ 0xF then .difZero0 (BitVec.ofNat 4 l)
  else if l ≤ 0xFFF then .difZero1 (BitVec.ofNat 12 l)
  else if l ≤ 0xFFFFF then .difZero2 (BitVec.ofNat 20 l)
  else .difZero3 (BitVec.ofNat 28 l)

/-- The MAX chunk of the smallest class that holds L (R196). -/
def maxChunk (l : Nat) : Instr :=
  if l ≤ 0xF then .difMax0 (BitVec.ofNat 4 l)
  else if l ≤ 0xFFF then .difMax1 (BitVec.ofNat 12 l)
  else if l ≤ 0xFFFFF then .difMax2 (BitVec.ofNat 20 l)
  else .difMax3 (BitVec.ofNat 28 l)

/-- The VALUE chunk of the smallest class that holds L (R196). -/
def valueChunk (v : Byte) (l : Nat) : Instr :=
  if l ≤ 0xF then .difValue0 v (BitVec.ofNat 4 l)
  else if l ≤ 0xFFF then .difValue1 v (BitVec.ofNat 12 l)
  else if l ≤ 0xFFFFF then .difValue2 v (BitVec.ofNat 20 l)
  else .difValue3 v (BitVec.ofNat 28 l)

/-- The DELTA chunk of the smallest class that holds L (R196). -/
def deltaChunk (d : BitVec 4) (l : Nat) : Instr :=
  if l = 1 then .difDelta0 d
  else if l ≤ 0xFF then .difDelta1 d (BitVec.ofNat 8 l)
  else if l ≤ 0xFFFF then .difDelta2 d (BitVec.ofNat 16 l)
  else .difDelta3 d (BitVec.ofNat 24 l)

/-- Whether a DELTA chunk can stand for a piece: the delta fits in 4 signed bits and L in 24 (R194). -/
def deltaFits (v prev : Byte) (l : Nat) : Bool :=
  let d : Int := (v.toNat : Int) - (prev.toNat : Int)
  decide (-8 ≤ d ∧ d ≤ 7 ∧ l ≤ 0xFFFFFF)

/-- The candidate chunks of a piece, in the order that settles a tie (R194). -/
def chunkCandidates (v : Byte) (l : Nat) (prev : Byte) : List Instr :=
  (if v = 0x00#8 then [zeroChunk l] else []) ++ (if v = 0xFF#8 then [maxChunk l] else []) ++
    (if deltaFits v prev l then [valueChunk v l, deltaChunk ((v - prev).setWidth 4) l] else [valueChunk v l])

/-- The earliest of the candidates with the fewest bytes (R194). -/
def fewestBytes (best : Instr) : List Instr → Instr
  | [] => best
  | i :: rest => fewestBytes (if tokenSize i < tokenSize best then i else best) rest

/-- The chunk DIF.ENC emits for a piece (R194). -/
def chooseChunk (v : Byte) (l : Nat) (prev : Byte) : Instr :=
  match chunkCandidates v l prev with
  | [] => valueChunk v l
  | i :: rest => fewestBytes i rest

/-- The chunks of a bitmap's pieces, `prev` being the value of the preceding piece (R194, R195). -/
def chunkPieces : Byte → List (RunPiece Byte) → List Piece
  | _, [] => []
  | prev, p :: ps => ⟨tokenBytes (chooseChunk p.key p.len prev), p.start⟩ :: chunkPieces p.key ps

/-- The chunks DIF.ENC emits for a bitmap (R195). -/
def encodeDifChunks (bitmap : List Byte) : List Piece :=
  chunkPieces 0x00#8 (piecesOf (fun _ => 0x0FFFFFFF) bitmap)

/-- The whole stream: magic, chunks, checksum (R103, R195). -/
def encodeDif (magic : Byte) (bitmap : List Byte) : List Piece :=
  [⟨tokenBytes (.difMagic magic), 0⟩] ++ encodeDifChunks bitmap ++
    [⟨tokenBytes (.difChecksum (dsum (pieceBytes (encodeDifChunks bitmap)))), bitmap.length⟩]

/-- DIF.ENC (R195). -/
def execDifEnc (s : State) : Out :=
  withBitmap s 1 fun bitmap =>
    withReg s .diffMagic fun magic => emitCommand s (encodeDif (magic.setWidth 8) bitmap)

end Sys2Proof.Machine
end

