-- ==== Sys2Proof/Machine/Crc.lean ====
section
/-! DEFINITION. The CRC-16 and CRC-32 engines and their commands (46_crc.md). -/

namespace Sys2Proof.Machine

/-- One reflected shift step of a CRC polynomial (R310, R320). -/
def crcShift {w : Nat} (poly c : BitVec w) : BitVec w :=
  if c.getLsbD 0 then (c >>> 1) ^^^ poly else c >>> 1

/-- `T16[i]`: eight shift steps of 0xA001 (R310). -/
def t16 (i : Byte) : BitVec 16 := Nat.repeat (crcShift 0xA001#16) 8 (i.setWidth 16)

/-- `T32[i]`: eight shift steps of 0xEDB88320 (R320). -/
def t32 (i : Byte) : Word := Nat.repeat (crcShift 0xEDB88320#32) 8 (i.setWidth 32)

/-- `crc16_step` (R311). -/
def crc16Step (crc : BitVec 16) (b : Byte) : BitVec 16 := (crc >>> 8) ^^^ t16 (crc.setWidth 8 ^^^ b)

/-- `crc16_raw` (R311). -/
def crc16Raw (init : BitVec 16) (bs : List Byte) : BitVec 16 := bs.foldl crc16Step init

/-- One byte of the CRC-32 update (R321). -/
def crc32Step (crc : Word) (b : Byte) : Word := (crc >>> 8) ^^^ t32 (crc.setWidth 8 ^^^ b)

/-- `crc32(B)` (R321). -/
def crc32Of (bs : List Byte) : Word := bs.foldl crc32Step 0xFFFFFFFF#32 ^^^ 0xFFFFFFFF#32

/-- What CRC16 writes to RESULT for a raw register (R313). -/
def crc16Result (f : CrcForm) (crc : BitVec 16) : Word :=
  match f with
  | .finished => (Config.crc16Finish crc).setWidth 32
  | .raw => crc.setWidth 32

/-- CRC16 in either form (R313). -/
def crc16Command (f : CrcForm) (s : State) : Out :=
  withReg s .crc16Init fun init =>
    withReg s .inLen fun n =>
      finishCommand (s.setReg .result (crc16Result f (crc16Raw (init.setWidth 16) (s.inRange 0 n.toNat)))) 0

/-- CRC16 (R313). -/
def execCrc16 (f : CrcForm) (s : State) : Out := crc16Command f s

/-- CRC16.RAW (R111). -/
def execCrc16Raw (s : State) : Out := crc16Command .raw s

/-- CRC32 (R322). -/
def execCrc32 (s : State) : Out :=
  withReg s .inLen fun n => finishCommand (s.setReg .result (crc32Of (s.inRange 0 n.toNat))) 0

/-- CRC32.FILE, seal: the CRC of all but the last 4 bytes goes to RESULT and, little-endian, to OUT[0 .. 3] (R323). -/
def sealFile (s : State) : Out :=
  withReg s .inLen fun n =>
    withCapacity s 4 fun _ =>
      if n.toNat < 4 then raiseError s .corruptedStream 0
      else
        let c := crc32Of (s.inRange 0 (n.toNat - 4))
        finishWith (s.setReg .result c) (leBytes 4 c.toNat) 4

/-- CRC32.FILE, verify: RESULT is written before the comparison, and keeps the CRC after a mismatch (R323, R392). -/
def verifyFile (s : State) : Out :=
  withReg s .inLen fun n =>
    if n.toNat < 4 then raiseError s .corruptedStream 0
    else
      let c := crc32Of (s.inRange 0 (n.toNat - 4))
      let t := s.setReg .result c
      if leNat (s.inRange (n.toNat - 4) 4) ≠ c.toNat then raiseError t .checksumMismatch (n.toNat - 4)
      else finishCommand t 0

/-- CRC32.FILE (R323). -/
def execCrc32File (m : SlotMode) (s : State) : Out :=
  match m with
  | .seal => sealFile s
  | .verify => verifyFile s

/-- CRC32.SEAL (R111). -/
def execCrc32Seal (s : State) : Out := sealFile s

/-- CRC32.CHECK (R111). -/
def execCrc32Check (s : State) : Out := verifyFile s

end Sys2Proof.Machine
end

