-- ==== Sys2Proof/Machine/Nibble.lean ====
section
/-! DEFINITION. The nibble tokens and trailer, and NIB.ENC (43_nibble.md). -/

namespace Sys2Proof.Machine

/-- The sample of a colour nibble, `(c << 4) | c` (R230). -/
def reconNib (c : BitVec 4) : Byte := c ++ c

/-- The colour nibble of a sample, `s >> 4` (R230). -/
def colourNib (s : Byte) : BitVec 4 := s.extractLsb' 4 4

/-- `canonN(s)` (R230). -/
def canonNib (s : Byte) : Byte := reconNib (colourNib s)

/-- A token of colour `c` and run length `l` (R231, R232). -/
def nibRun (s : State) (i : Instr) (c : BitVec 4) (l : Nat) : Out :=
  withToken s .nib i fun w => putRun s w l [reconNib c] w.prev

/-- NIB.BLACK (R105). -/
def execNibBlack (l : BitVec 12) (s : State) : Out := nibRun s (.nibBlack l) 0x0#4 l.toNat

/-- NIB.WHITE (R105). -/
def execNibWhite (l : BitVec 12) (s : State) : Out := nibRun s (.nibWhite l) 0xF#4 l.toNat

/-- NIB.GREY (R105). -/
def execNibGrey (c l : BitVec 4) (s : State) : Out := nibRun s (.nibGrey c l) c l.toNat

/-- NIB.TRAILER: the decoder ignores it, whatever it holds; the cursor passes its two bytes (R232, R234; log entry 16). With the
cursor already past the token region, which no step reaches and no rule speaks of, it passes two bytes all the same, also
beyond IN_LEN. DESIGN CHOICE (log entry 28), safe. -/
def execNibTrailer (f : BitVec 16) (s : State) : Out :=
  withStream s .nib .tokens fun w =>
    if w.ic < w.stop then .refused .tokenOutsideStream
    else .next { s with work := some { w with tok := w.ic, ic := w.ic + tokenSize (.nibTrailer f) } }

/-- The longest piece of a colour: 12 bits for black and white, 4 bits otherwise (R233). -/
def maxNib (q : BitVec 4) : Nat := if q = 0x0#4 ∨ q = 0xF#4 then 4095 else 15

/-- The token of a piece (R105, R233). -/
def tokNib (q : BitVec 4) (l : Nat) : Instr :=
  if q = 0x0#4 then .nibBlack (BitVec.ofNat 12 l)
  else if q = 0xF#4 then .nibWhite (BitVec.ofNat 12 l)
  else .nibGrey q (BitVec.ofNat 4 l)

/-- The tokens NIB.ENC emits for a bitmap (R233). -/
def encodeNibTokens (bitmap : List Byte) : List Piece :=
  (piecesOf maxNib (bitmap.map colourNib)).map fun p => ⟨tokenBytes (tokNib p.key p.len), p.start⟩

/-- The whole stream: tokens, and `LE_2(CRC16_FINISH(crc16_raw(init, tokens)))` (R233). -/
def encodeNib (init : BitVec 16) (bitmap : List Byte) : List Piece :=
  encodeNibTokens bitmap ++
    [⟨tokenBytes (.nibTrailer (Config.crc16Finish (crc16Raw init (pieceBytes (encodeNibTokens bitmap))))), bitmap.length⟩]

/-- NIB.ENC (R233). -/
def execNibEnc (s : State) : Out :=
  withBitmap s 1 fun bitmap =>
    withReg s .crc16Init fun init => emitCommand s (encodeNib (init.setWidth 16) bitmap)

end Sys2Proof.Machine
end

