-- ==== Sys2Proof/Machine/Rgb15.lean ====
section
/-! DEFINITION. The RGB15 tokens and RGB.ENC (44_rgb15.md). -/

namespace Sys2Proof.Machine

/-- A packed colour: five bits each of red, green and blue (R260). -/
structure Rgb15 where
  r : BitVec 5
  g : BitVec 5
  b : BitVec 5
deriving DecidableEq, Repr

/-- The three samples of a packed colour, the low 3 bits 0 (R261). -/
def expandRgb (c : Rgb15) : List Byte := [c.r ++ 0#3, c.g ++ 0#3, c.b ++ 0#3]

/-- The packed colour of a pixel, `>> 3` in each channel (R260). -/
def packRgb (r g b : Byte) : Rgb15 := ⟨r.extractLsb' 3 5, g.extractLsb' 3 5, b.extractLsb' 3 5⟩

/-- `canonRGB` of a pixel (R261). -/
def canonRgb (r g b : Byte) : List Byte := expandRgb (packRgb r g b)

/-- A token of a colour and a run length: three bytes for each pixel (R262). -/
def rgbRun (s : State) (i : Instr) (c : Rgb15) (l : Nat) : Out :=
  withToken s .rgb i fun w => putRun s w l (expandRgb c) w.prev

/-- RGB.WORD: one pixel (R106). -/
def execRgbWord (r g b : BitVec 5) (s : State) : Out := rgbRun s (.rgbWord r g b) ⟨r, g, b⟩ 1

/-- RGB.REP: repeat + 1 pixels; the high nibble is ignored (R106, R262). -/
def execRgbRep (r g b : BitVec 5) (n : BitVec 12) (x : BitVec 4) (s : State) : Out :=
  rgbRun s (.rgbRep r g b n x) ⟨r, g, b⟩ (n.toNat + 1)

/-- The packed colours of a bitmap's pixels, three bytes each (R13, R263). -/
def packPixels : List Byte → List Rgb15
  | r :: g :: b :: rest => packRgb r g b :: packPixels rest
  | _ => []

/-- The tokens of a piece: up to two plain words, or one flagged word (R263). -/
def tokRgb (hi : BitVec 4) (c : Rgb15) (l : Nat) : List Instr :=
  if l ≤ 2 then List.replicate l (.rgbWord c.r c.g c.b)
  else [.rgbRep c.r c.g c.b (BitVec.ofNat 12 (l - 1)) hi]

/-- The pieces of a bitmap: runs of equal packed colours, cut at 4096 (R260, R263). -/
def rgbPieces (bitmap : List Byte) : List (RunPiece Rgb15) := piecesOf (fun _ => 4096) (packPixels bitmap)

/-- What RGB.ENC emits for pieces: one `emit` each, its error offset in bytes of IN (R263). -/
def emitRgb (hi : BitVec 4) (ps : List (RunPiece Rgb15)) : List Piece :=
  ps.map fun p => ⟨((tokRgb hi p.key p.len).map tokenBytes).flatten, 3 * p.start⟩

/-- RGB.ENC (R263). RGB_REP_HI is read at the first flagged token, after every plain word before it has been emitted
(log entry 6). -/
def execRgbEnc (s : State) : Out :=
  withBitmap s 3 fun bitmap =>
    let ps := rgbPieces bitmap
    let plain := ps.takeWhile fun p => p.len ≤ 2
    if plain.length = ps.length then emitCommand s (emitRgb 0#4 ps)
    else emitAll s (emitRgb 0#4 plain) fun _ =>
      withReg s .rgbRepHi fun hi => emitCommand s (emitRgb (hi.setWidth 4) ps)

end Sys2Proof.Machine
end

