-- ==== Sys2Proof/Machine/Rle7x.lean ====
section
/-! DEFINITION. The 7-bit-extend tokens and R7X.ENC (40_rle7x.md). -/

namespace Sys2Proof.Machine

/-- `recon7(c)`: the sample of a colour (R130). -/
def recon7 (c : BitVec 7) : Byte := if c = 0#7 then 0#8 else c ++ 1#1

/-- The colour of a sample, `s >> 1` (R130). -/
def colour7 (s : Byte) : BitVec 7 := s.extractLsb' 1 7

/-- `canon7(s)` (R130). -/
def canon7 (s : Byte) : Byte := recon7 (colour7 s)

/-- A token of colour `c` and run length `l`: L pixels of `recon7(c)`, none for L = 0 (R131, R132). -/
def r7xRun (s : State) (i : Instr) (c : BitVec 7) (l : Nat) : Out :=
  withToken s .r7x i fun w => putRun s w l [recon7 c] w.prev

/-- R7X.PIX: one pixel (R100). -/
def execR7xPix (c : BitVec 7) (s : State) : Out := r7xRun s (.r7xPix c) c 1

/-- R7X.RUN7: the 7-bit length class (R100). -/
def execR7xRun7 (c l : BitVec 7) (s : State) : Out := r7xRun s (.r7xRun7 c l) c l.toNat

/-- R7X.RUN14: the 14-bit length class (R100). -/
def execR7xRun14 (c : BitVec 7) (l : BitVec 14) (s : State) : Out := r7xRun s (.r7xRun14 c l) c l.toNat

/-- R7X.RUN21: the 21-bit length class (R100). -/
def execR7xRun21 (c : BitVec 7) (l : BitVec 21) (s : State) : Out := r7xRun s (.r7xRun21 c l) c l.toNat

/-- R7X.RUN28: the 28-bit length class (R100). -/
def execR7xRun28 (c : BitVec 7) (l : BitVec 28) (s : State) : Out := r7xRun s (.r7xRun28 c l) c l.toNat

/-- `tok7(c, L)`: the token of the smallest class that holds L (R134). -/
def tok7 (c : BitVec 7) (l : Nat) : Instr :=
  if l = 1 then .r7xPix c
  else if l ≤ 0x7F then .r7xRun7 c (BitVec.ofNat 7 l)
  else if l ≤ 0x3FFF then .r7xRun14 c (BitVec.ofNat 14 l)
  else if l ≤ 0x1FFFFF then .r7xRun21 c (BitVec.ofNat 21 l)
  else .r7xRun28 c (BitVec.ofNat 28 l)

/-- The tokens R7X.ENC emits for a bitmap (R133). -/
def encode7x (bitmap : List Byte) : List Piece :=
  (piecesOf (fun _ => 0x0FFFFFFF) (bitmap.map colour7)).map fun p => ⟨tokenBytes (tok7 p.key p.len), p.start⟩

/-- R7X.ENC (R133). -/
def execR7xEnc (s : State) : Out := withBitmap s 1 fun bitmap => emitCommand s (encode7x bitmap)

end Sys2Proof.Machine
end

