-- ==== Sys2Proof/Machine/Sequencer.lean ====
section
/-! DEFINITION. The command sequencer's scan of a stream: token after token, straight from its start to its end
(10_state.md R30, R37), and the decoding commands that run it. -/

namespace Sys2Proof.Machine

/-- The effect of a token or framing field; a command is none. -/
def execToken (i : Instr) (s : State) : Out :=
  match i with
  | .r7xPix c => execR7xPix c s
  | .r7xRun7 c l => execR7xRun7 c l s
  | .r7xRun14 c l => execR7xRun14 c l s
  | .r7xRun21 c l => execR7xRun21 c l s
  | .r7xRun28 c l => execR7xRun28 c l s
  | .bplTok on l => execBplTok on l s
  | .difMagic m => execDifMagic m s
  | .difChecksum k => execDifChecksum k s
  | .difZero0 l => execDifZero0 l s
  | .difZero1 l => execDifZero1 l s
  | .difZero2 l => execDifZero2 l s
  | .difZero3 l => execDifZero3 l s
  | .difValue0 v l => execDifValue0 v l s
  | .difValue1 v l => execDifValue1 v l s
  | .difValue2 v l => execDifValue2 v l s
  | .difValue3 v l => execDifValue3 v l s
  | .difMax0 l => execDifMax0 l s
  | .difMax1 l => execDifMax1 l s
  | .difMax2 l => execDifMax2 l s
  | .difMax3 l => execDifMax3 l s
  | .difDelta0 d => execDifDelta0 d s
  | .difDelta1 d l => execDifDelta1 d l s
  | .difDelta2 d l => execDifDelta2 d l s
  | .difDelta3 d l => execDifDelta3 d l s
  | .nibBlack l => execNibBlack l s
  | .nibWhite l => execNibWhite l s
  | .nibGrey c l => execNibGrey c l s
  | .nibTrailer f => execNibTrailer f s
  | .rgbWord r g b => execRgbWord r g b s
  | .rgbRep r g b n x => execRgbRep r g b n x s
  | .r7xDec => .refused .tokenOutsideStream
  | .r7xEnc => .refused .tokenOutsideStream
  | .bplDec => .refused .tokenOutsideStream
  | .bplEnc _ => .refused .tokenOutsideStream
  | .difDec => .refused .tokenOutsideStream
  | .difEnc => .refused .tokenOutsideStream
  | .nibDec => .refused .tokenOutsideStream
  | .nibEnc => .refused .tokenOutsideStream
  | .rgbDec => .refused .tokenOutsideStream
  | .rgbEnc => .refused .tokenOutsideStream
  | .lcgXor _ => .refused .tokenOutsideStream
  | .crc16 _ => .refused .tokenOutsideStream
  | .crc32 => .refused .tokenOutsideStream
  | .crc32File _ => .refused .tokenOutsideStream
  | .sha1 => .refused .tokenOutsideStream
  | .sha256 => .refused .tokenOutsideStream
  | .sigGen => .refused .tokenOutsideStream
  | .sigVerify => .refused .tokenOutsideStream
  | .bplEncA => .refused .tokenOutsideStream
  | .bplEncB => .refused .tokenOutsideStream
  | .lcgXor0 => .refused .tokenOutsideStream
  | .encrypt0 => .refused .tokenOutsideStream
  | .decrypt0 => .refused .tokenOutsideStream
  | .lcgXor1 => .refused .tokenOutsideStream
  | .encrypt1 => .refused .tokenOutsideStream
  | .decrypt1 => .refused .tokenOutsideStream
  | .crc16Raw => .refused .tokenOutsideStream
  | .crc32Seal => .refused .tokenOutsideStream
  | .crc32Check => .refused .tokenOutsideStream

/-- The end of a decoding command's pseudocode after its token loop (R132, R163, R193, R232, R262). -/
def finishStream (s : State) (w : Work) : Out :=
  match w.stream with
  | .r7x => finishPixels s w 1
  | .bpl => finishBpl s w
  | .dif => finishPixels s w 1
  | .nib => finishPixels s w 1
  | .rgb => finishPixels s w 3

/-- One turn of a decoding command: its end, or the token at the input cursor. Bytes that are no token are
CorruptedStream at the cursor (R391). The meaning of a token is an argument, so that Step can give exec. -/
def sequence (run : Instr → State → Out) (s : State) (w : Work) : Out :=
  if streamEnded w then finishStream s w
  else
    match fetchToken s w with
    | .ok i => run i s
    | .error _ => raiseError s .corruptedStream w.ic

/-- Turns until the command has ended. Each turn but the framing's and the last takes at least one byte. -/
def runStream : Nat → State → Out
  | 0, s => .next s
  | n + 1, s =>
    match s.work with
    | none => .next s
    | some w =>
      match sequence execToken s w with
      | .next t => runStream n t
      | .fault f => .fault f
      | .refused r => .refused r

/-- Enough turns for a stream of `n` bytes. -/
def turnsFor (n : Nat) : Nat := n + 4

/-- R7X.DEC (R132). -/
def execR7xDec (s : State) : Out :=
  withPixels s fun p =>
    withCapacity s p fun _ =>
      withReg s .inLen fun n => runStream (turnsFor n.toNat) (openStream s .r7x .tokens p n.toNat 0)

/-- BPL.DEC begins: with P = 0 every plane is complete before a byte is read (R163). -/
def openBpl (s : State) (p n planes : Nat) : State :=
  let t := openStream s .bpl .tokens p n planes
  { t with work := t.work.map settlePlane }

/-- BPL.DEC (R163). -/
def execBplDec (s : State) : Out :=
  withLevel s fun planes =>
    withPixels s fun p =>
      withCapacity s p fun _ =>
        withReg s .inLen fun n => runStream (turnsFor n.toNat) (openBpl s p n.toNat planes)

/-- DIF.DEC (R193). -/
def execDifDec (s : State) : Out :=
  withPixels s fun p =>
    withCapacity s p fun _ =>
      withReg s .inLen fun n =>
        if n.toNat < 2 then raiseError s .corruptedStream 0
        else runStream (turnsFor n.toNat) (openStream s .dif .magic p (n.toNat - 1) 0)

/-- NIB.DEC: its token region ends before the 2-byte trailer, which it never reads (R232, R234). -/
def execNibDec (s : State) : Out :=
  withPixels s fun p =>
    withCapacity s p fun _ =>
      withReg s .inLen fun n =>
        if n.toNat < 2 then raiseError s .corruptedStream 0
        else runStream (turnsFor n.toNat) (openStream s .nib .tokens p (n.toNat - 2) 0)

/-- RGB.DEC (R262). -/
def execRgbDec (s : State) : Out :=
  withPixels s fun p =>
    withCapacity s (3 * p) fun _ =>
      withReg s .inLen fun n => runStream (turnsFor n.toNat) (openStream s .rgb .tokens p n.toNat 0)

end Sys2Proof.Machine
end

