-- ==== Sys2Proof/Machine/Sha.lean ====
section
/-! DEFINITION. The SHA-1 and SHA-256 cores and their commands (47_sha.md). -/

namespace Sys2Proof.Machine

/-! ## Padding and blocks (R340) -/

/-- The padded message M' (R340). -/
def shaPad (m : List Byte) : List Byte :=
  m ++ [0x80#8] ++ List.replicate ((55 + 63 * m.length) % 64) 0x00#8 ++ beBytes 8 (8 * m.length)

/-- The big-endian words of a block (R340). -/
def shaWords : List Byte → List Word
  | b0 :: b1 :: b2 :: b3 :: rest => (b0 ++ b1 ++ b2 ++ b3) :: shaWords rest
  | _ => []

/-- Blocks of 16 words (R340). -/
def shaBlocks : Nat → List Word → List (List Word)
  | 0, _ => []
  | n + 1, ws => ws.take 16 :: shaBlocks n (ws.drop 16)

/-- The blocks B_0 to B_(N-1) of a message, as words (R340). -/
def shaMessage (m : List Byte) : List (List Word) :=
  shaBlocks ((shaPad m).length / 64) (shaWords (shaPad m))

/-- A digest: the chaining words, big-endian (R343, R348). -/
def shaDigest (hs : List Word) : List Byte := (hs.map fun h => beBytes 4 h.toNat).flatten

/-- Schedule words are kept newest first: `W[t-k]` is entry k - 1. -/
def back (ws : List Word) (k : Nat) : Word := ws.getD (k - 1) 0#32

/-- Grow a schedule, newest first, by `n` words. -/
def growSchedule (next : List Word → Word) : Nat → List Word → List Word
  | 0, ws => ws
  | n + 1, ws => growSchedule next n (next ws :: ws)

/-! ## SHA-1 (R341 to R343) -/

/-- The five words of SHA-1: chaining words, or the working variables a to e (R341). -/
structure Sha1Words where
  a : Word
  b : Word
  c : Word
  d : Word
  e : Word
deriving DecidableEq, Repr

/-- H0-1 (R341). -/
def sha1Init : Sha1Words := ⟨0x67452301#32, 0xEFCDAB89#32, 0x98BADCFE#32, 0x10325476#32, 0xC3D2E1F0#32⟩

/-- K1[t] (R341). -/
def sha1K (t : Nat) : Word :=
  if t < 20 then 0x5A827999#32 else if t < 40 then 0x6ED9EBA1#32 else if t < 60 then 0x8F1BBCDC#32 else 0xCA62C1D6#32

/-- f_t(b, c, d) (R341). -/
def sha1F (t : Nat) (b c d : Word) : Word :=
  if t < 20 then (b &&& c) ^^^ (~~~b &&& d)
  else if t < 40 then b ^^^ c ^^^ d
  else if t < 60 then (b &&& c) ^^^ (b &&& d) ^^^ (c &&& d)
  else b ^^^ c ^^^ d

/-- W[0 .. 79] of a block (R342). -/
def sha1Schedule (block : List Word) : List Word :=
  (growSchedule (fun ws => (back ws 3 ^^^ back ws 8 ^^^ back ws 14 ^^^ back ws 16).rotateLeft 1) 64
    block.reverse).reverse

/-- One round (R342). -/
def sha1Round (v : Sha1Words) (t : Nat) (w : Word) : Sha1Words :=
  ⟨v.a.rotateLeft 5 + sha1F t v.b v.c v.d + v.e + sha1K t + w, v.a, v.b.rotateLeft 30, v.c, v.d⟩

/-- The rounds from t on. -/
def sha1Rounds : Nat → List Word → Sha1Words → Sha1Words
  | _, [], v => v
  | t, w :: ws, v => sha1Rounds (t + 1) ws (sha1Round v t w)

/-- The compression of one block (R342). -/
def sha1Compress (h : Sha1Words) (block : List Word) : Sha1Words :=
  let v := sha1Rounds 0 (sha1Schedule block) h
  ⟨h.a + v.a, h.b + v.b, h.c + v.c, h.d + v.d, h.e + v.e⟩

/-- `SHA1(M)` (R343). -/
def sha1Of (m : List Byte) : List Byte :=
  let h := (shaMessage m).foldl sha1Compress sha1Init
  shaDigest [h.a, h.b, h.c, h.d, h.e]

/-! ## SHA-256 (R345 to R348) -/

/-- The eight words of SHA-256: chaining words, or the working variables a to h (R346). -/
structure Sha256Words where
  a : Word
  b : Word
  c : Word
  d : Word
  e : Word
  f : Word
  g : Word
  h : Word
deriving DecidableEq, Repr

/-- H0-256 (R346). -/
def sha256Init : Sha256Words :=
  ⟨0x6A09E667#32, 0xBB67AE85#32, 0x3C6EF372#32, 0xA54FF53A#32, 0x510E527F#32, 0x9B05688C#32, 0x1F83D9AB#32, 0x5BE0CD19#32⟩

/-- K256 (R346). -/
def sha256K : List Word :=
  [0x428A2F98#32, 0x71374491#32, 0xB5C0FBCF#32, 0xE9B5DBA5#32, 0x3956C25B#32, 0x59F111F1#32, 0x923F82A4#32, 0xAB1C5ED5#32] ++
  [0xD807AA98#32, 0x12835B01#32, 0x243185BE#32, 0x550C7DC3#32, 0x72BE5D74#32, 0x80DEB1FE#32, 0x9BDC06A7#32, 0xC19BF174#32] ++
  [0xE49B69C1#32, 0xEFBE4786#32, 0x0FC19DC6#32, 0x240CA1CC#32, 0x2DE92C6F#32, 0x4A7484AA#32, 0x5CB0A9DC#32, 0x76F988DA#32] ++
  [0x983E5152#32, 0xA831C66D#32, 0xB00327C8#32, 0xBF597FC7#32, 0xC6E00BF3#32, 0xD5A79147#32, 0x06CA6351#32, 0x14292967#32] ++
  [0x27B70A85#32, 0x2E1B2138#32, 0x4D2C6DFC#32, 0x53380D13#32, 0x650A7354#32, 0x766A0ABB#32, 0x81C2C92E#32, 0x92722C85#32] ++
  [0xA2BFE8A1#32, 0xA81A664B#32, 0xC24B8B70#32, 0xC76C51A3#32, 0xD192E819#32, 0xD6990624#32, 0xF40E3585#32, 0x106AA070#32] ++
  [0x19A4C116#32, 0x1E376C08#32, 0x2748774C#32, 0x34B0BCB5#32, 0x391C0CB3#32, 0x4ED8AA4A#32, 0x5B9CCA4F#32, 0x682E6FF3#32] ++
  [0x748F82EE#32, 0x78A5636F#32, 0x84C87814#32, 0x8CC70208#32, 0x90BEFFFA#32, 0xA4506CEB#32, 0xBEF9A3F7#32, 0xC67178F2#32]

/-- Ch (R345). -/
def sha256Ch (e f g : Word) : Word := (e &&& f) ^^^ (~~~e &&& g)

/-- Maj (R345). -/
def sha256Maj (a b c : Word) : Word := (a &&& b) ^^^ (a &&& c) ^^^ (b &&& c)

/-- Σ0 (R345). -/
def sha256Sum0 (a : Word) : Word := a.rotateRight 2 ^^^ a.rotateRight 13 ^^^ a.rotateRight 22

/-- Σ1 (R345). -/
def sha256Sum1 (e : Word) : Word := e.rotateRight 6 ^^^ e.rotateRight 11 ^^^ e.rotateRight 25

/-- σ0 (R345). -/
def sha256Sigma0 (x : Word) : Word := x.rotateRight 7 ^^^ x.rotateRight 18 ^^^ (x >>> 3)

/-- σ1 (R345). -/
def sha256Sigma1 (x : Word) : Word := x.rotateRight 17 ^^^ x.rotateRight 19 ^^^ (x >>> 10)

/-- W[0 .. 63] of a block (R347). -/
def sha256Schedule (block : List Word) : List Word :=
  (growSchedule (fun ws => sha256Sigma1 (back ws 2) + back ws 7 + sha256Sigma0 (back ws 15) + back ws 16) 48
    block.reverse).reverse

/-- One round, with T1 and T2 (R347). -/
def sha256Round (v : Sha256Words) (k w : Word) : Sha256Words :=
  let t1 := v.h + sha256Sum1 v.e + sha256Ch v.e v.f v.g + k + w
  let t2 := sha256Sum0 v.a + sha256Maj v.a v.b v.c
  ⟨t1 + t2, v.a, v.b, v.c, v.d + t1, v.e, v.f, v.g⟩

/-- The rounds over the constants and the schedule. -/
def sha256Rounds : List Word → List Word → Sha256Words → Sha256Words
  | k :: ks, w :: ws, v => sha256Rounds ks ws (sha256Round v k w)
  | _, _, v => v

/-- The compression of one block (R347). -/
def sha256Compress (h : Sha256Words) (block : List Word) : Sha256Words :=
  let v := sha256Rounds sha256K (sha256Schedule block) h
  ⟨h.a + v.a, h.b + v.b, h.c + v.c, h.d + v.d, h.e + v.e, h.f + v.f, h.g + v.g, h.h + v.h⟩

/-- `SHA256(M)` (R348). -/
def sha256Of (m : List Byte) : List Byte :=
  let h := (shaMessage m).foldl sha256Compress sha256Init
  shaDigest [h.a, h.b, h.c, h.d, h.e, h.f, h.g, h.h]

/-! ## The commands -/

/-- SHA1 (R344). -/
def execSha1 (s : State) : Out :=
  withCapacity s 20 fun _ => withReg s .inLen fun n => finishWith s (sha1Of (s.inRange 0 n.toNat)) 20

/-- SHA256 (R349). -/
def execSha256 (s : State) : Out :=
  withCapacity s 32 fun _ => withReg s .inLen fun n => finishWith s (sha256Of (s.inRange 0 n.toNat)) 32

end Sys2Proof.Machine
end

