-- ==== Sys2Proof/Machine/Signature.lean ====
section
/-! DEFINITION. The AES-CBC signature controller (48_signature.md). -/

namespace Sys2Proof.Machine

/-- CBC encryption of two blocks without padding, with the block function as an argument (R371, U7). -/
def cbcEncrypt (enc : List Byte → List Byte → List Byte) (key iv digest : List Byte) : List Byte :=
  let s0 := enc key (xorBytes (digest.take 16) iv)
  let s1 := enc key (xorBytes (digest.drop 16) s0)
  s0 ++ s1

/-- The signature of the signed bytes `m` (R370, R371). -/
def signatureOf (enc : List Byte → List Byte → List Byte) (m key iv : List Byte) : List Byte :=
  cbcEncrypt enc key iv (sha256Of m)

/-- The signature of the header checksum field, read from the registers SIG.GEN and SIG.VERIFY read (R370 to R373). -/
def withSignature (s : State) (w kl : Nat) (k : List Byte → Out) : Out :=
  withRegs s (fieldRegs w) fun field =>
    withRegs s (keyRegs kl) fun key =>
      withRegs s ivRegs fun iv =>
        k (signatureOf aesEnc (registerBytes field) (registerBytes key) (registerBytes iv))

/-- SIG.GEN (R372). -/
def execSigGen (s : State) : Out :=
  withSignatureConfig s fun w kl =>
    withCapacity s 32 fun _ => withSignature s w kl fun sig => finishWith s sig 32

/-- The index of the first byte where two sequences differ (R373). -/
def firstDifference : List Byte → List Byte → Option Nat
  | x :: xs, y :: ys => if x ≠ y then some 0 else (firstDifference xs ys).map (· + 1)
  | [], [] => none
  | _, _ => some 0

/-- SIG.VERIFY: ciphertext to ciphertext, ChecksumMismatch at the first byte that differs (R373). -/
def execSigVerify (s : State) : Out :=
  withSignatureConfig s fun w kl =>
    withReg s .inLen fun n =>
      if n ≠ 32#32 then raiseError s .checksumMismatch 0
      else withSignature s w kl fun sig =>
        match firstDifference (s.inRange 0 32) sig with
        | some k => raiseError s .checksumMismatch k
        | none => finishCommand s 0

end Sys2Proof.Machine
end

