-- ==== Sys2Proof/Machine/Dispatch.lean ====
section
/-! DEFINITION. One meaning for each row of spec/opcode_table.json. -/

namespace Sys2Proof.Machine

def exec (i : Instr) (s : State) : Host.Outcome State Fault Refusal :=
  match i with
  -- commands (30_encoding.md R91)
  | .r7xDec => Sys2Proof.Machine.execR7xDec s
  | .r7xEnc => Sys2Proof.Machine.execR7xEnc s
  | .bplDec => Sys2Proof.Machine.execBplDec s
  | .bplEnc v => Sys2Proof.Machine.execBplEnc v s
  | .difDec => Sys2Proof.Machine.execDifDec s
  | .difEnc => Sys2Proof.Machine.execDifEnc s
  | .nibDec => Sys2Proof.Machine.execNibDec s
  | .nibEnc => Sys2Proof.Machine.execNibEnc s
  | .rgbDec => Sys2Proof.Machine.execRgbDec s
  | .rgbEnc => Sys2Proof.Machine.execRgbEnc s
  | .lcgXor c => Sys2Proof.Machine.execLcgXor c s
  | .crc16 f => Sys2Proof.Machine.execCrc16 f s
  | .crc32 => Sys2Proof.Machine.execCrc32 s
  | .crc32File m => Sys2Proof.Machine.execCrc32File m s
  | .sha1 => Sys2Proof.Machine.execSha1 s
  | .sha256 => Sys2Proof.Machine.execSha256 s
  | .sigGen => Sys2Proof.Machine.execSigGen s
  | .sigVerify => Sys2Proof.Machine.execSigVerify s
  -- pseudo-instructions (R111)
  | .bplEncA => Sys2Proof.Machine.execBplEncA s
  | .bplEncB => Sys2Proof.Machine.execBplEncB s
  | .lcgXor0 => Sys2Proof.Machine.execLcgXor0 s
  | .encrypt0 => Sys2Proof.Machine.execEncrypt0 s
  | .decrypt0 => Sys2Proof.Machine.execDecrypt0 s
  | .lcgXor1 => Sys2Proof.Machine.execLcgXor1 s
  | .encrypt1 => Sys2Proof.Machine.execEncrypt1 s
  | .decrypt1 => Sys2Proof.Machine.execDecrypt1 s
  | .crc16Raw => Sys2Proof.Machine.execCrc16Raw s
  | .crc32Seal => Sys2Proof.Machine.execCrc32Seal s
  | .crc32Check => Sys2Proof.Machine.execCrc32Check s
  -- token and framing rows (R100 to R106)
  | .r7xPix c => Sys2Proof.Machine.execR7xPix c s
  | .r7xRun7 c l => Sys2Proof.Machine.execR7xRun7 c l s
  | .r7xRun14 c l => Sys2Proof.Machine.execR7xRun14 c l s
  | .r7xRun21 c l => Sys2Proof.Machine.execR7xRun21 c l s
  | .r7xRun28 c l => Sys2Proof.Machine.execR7xRun28 c l s
  | .bplTok on l => Sys2Proof.Machine.execBplTok on l s
  | .difMagic m => Sys2Proof.Machine.execDifMagic m s
  | .difChecksum k => Sys2Proof.Machine.execDifChecksum k s
  | .difZero0 l => Sys2Proof.Machine.execDifZero0 l s
  | .difZero1 l => Sys2Proof.Machine.execDifZero1 l s
  | .difZero2 l => Sys2Proof.Machine.execDifZero2 l s
  | .difZero3 l => Sys2Proof.Machine.execDifZero3 l s
  | .difValue0 v l => Sys2Proof.Machine.execDifValue0 v l s
  | .difValue1 v l => Sys2Proof.Machine.execDifValue1 v l s
  | .difValue2 v l => Sys2Proof.Machine.execDifValue2 v l s
  | .difValue3 v l => Sys2Proof.Machine.execDifValue3 v l s
  | .difMax0 l => Sys2Proof.Machine.execDifMax0 l s
  | .difMax1 l => Sys2Proof.Machine.execDifMax1 l s
  | .difMax2 l => Sys2Proof.Machine.execDifMax2 l s
  | .difMax3 l => Sys2Proof.Machine.execDifMax3 l s
  | .difDelta0 d => Sys2Proof.Machine.execDifDelta0 d s
  | .difDelta1 d l => Sys2Proof.Machine.execDifDelta1 d l s
  | .difDelta2 d l => Sys2Proof.Machine.execDifDelta2 d l s
  | .difDelta3 d l => Sys2Proof.Machine.execDifDelta3 d l s
  | .nibBlack l => Sys2Proof.Machine.execNibBlack l s
  | .nibWhite l => Sys2Proof.Machine.execNibWhite l s
  | .nibGrey c l => Sys2Proof.Machine.execNibGrey c l s
  | .nibTrailer f => Sys2Proof.Machine.execNibTrailer f s
  | .rgbWord r g b => Sys2Proof.Machine.execRgbWord r g b s
  | .rgbRep r g b n x => Sys2Proof.Machine.execRgbRep r g b n x s

end Sys2Proof.Machine
end

