-- ==== Sys2Proof/Machine/HostPort.lean ====
section
/-! DEFINITION. What the host and the platform can do between commands: register accesses (10_state.md R31), buffer accesses
(20_memory.md R60, 30_encoding.md R110), a CMD write, and reset (70_reset_and_hazards.md R420). -/

namespace Sys2Proof.Machine

/-- A CMD write: the word is held in CMD, and the command it stands for runs, or is rejected (R31, R90, R93). How a command
runs is an argument, so that Step can give exec. -/
def issueCommand (run : Instr → State → Out) (w : Word) (s : State) : Out :=
  match decodeCommand w with
  | .ok i => run i (s.setReg .cmd w)
  | .error _ => rejectCommand (s.setReg .cmd w)

/-- A host write of a register number: RW bits are stored, RO and reserved numbers ignore it, CMD starts a command (R31). -/
def hostWrite (run : Instr → State → Out) (n : Fin 64) (v : Word) (s : State) : Out :=
  match Reg.ofNumber n with
  | none => .next s
  | some r =>
    match r.access with
    | .rw => .next (s.storeReg r v)
    | .ro => .next s
    | .startsCommand => issueCommand run v s

/-- A host read of a register number: a reserved number reads 0, and a register not written since reset faults (R31, R420;
log entry 7). It has no side effect (R69). -/
def hostRead (n : Fin 64) (s : State) : Out :=
  match Reg.ofNumber n with
  | none => .next { s with readData := 0#32 }
  | some r => withReg s r fun v => .next { s with readData := v }

/-- `in.load` (R110). A buffer holds at most 2^32 - 1 bytes (R9; log entry 20). -/
def hostInLoad (bs : List Byte) (s : State) : Out :=
  if bs.length < 2 ^ 32 then
    .next { s.storeReg .inLen (BitVec.ofNat 32 bs.length) with inMem := s.inMem.putAll 0 bs }
  else .fault .noSuchOffset

/-- `in.from_out` (R110). -/
def hostInFromOut (s : State) : Out :=
  .next { s.storeReg .inLen (s.reg .outLen) with
    inMem := s.inMem.putAll 0 (s.outRange 0 (s.reg .outLen).toNat) }

/-- Reset, from outside, between commands (R420, R421): the state of power-on, but that IN is host memory and is not touched,
OUT's contents are unspecified anew, and the host's accesses to come and its last read are its own (log entry 19). -/
def applyReset (s : State) : State :=
  { State.reset with inMem := s.inMem, outForgets := 2 ^ 32 :: s.outForgets, host := s.host, readData := s.readData }

/-- One access of the host or the platform. -/
def hostAccess (run : Instr → State → Out) (op : HostOp) (s : State) : Out :=
  match op with
  | .write n v => hostWrite run n v s
  | .read n => hostRead n s
  | .inLoad bs => hostInLoad bs s
  | .inFromOut => hostInFromOut s
  | .writeIn a b => .next { s with inMem := s.inMem.put a.toNat b }
  | .readIn a => .next { s with readData := (s.inByte a.toNat).setWidth 32 }
  | .writeOut a b => .next { s with outMem := s.outMem.put a.toNat b }
  | .readOut a => .next { s with readData := (s.outByte a.toNat).setWidth 32 }
  | .reset => .next (applyReset s)

/-- The decoding command that scans a format's tokens, and the phase in which it meets them; none for a command. -/
def Format.place : Format → Option (Stream × Phase)
  | .command => none
  | .r7x => some (.r7x, .tokens)
  | .bpl => some (.bpl, .tokens)
  | .dif => some (.dif, .tokens)
  | .nib => some (.nib, .tokens)
  | .rgb => some (.rgb, .tokens)
  | .difMagic => some (.dif, .magic)
  | .difChecksum => some (.dif, .checksum)
  | .nibTrailer => some (.nib, .tokens)

/-- How many pixels the decoding command that placeToken opens may produce: the longest RGB15 run (log entry 15). -/
def placedPixels : Nat := 4096

/-- A token stands alone in IN, under a decoding command of its format that has just begun to scan it, with the registers
that command has read (log entry 15). -/
def placeToken (s : State) (stream : Stream) (phase : Phase) (bs : List Byte) : State :=
  let t := (((s.storeReg .inLen (BitVec.ofNat 32 bs.length)).storeReg .outCap (BitVec.ofNat 32 (3 * placedPixels))).storeReg
    .width (BitVec.ofNat 32 placedPixels)).storeReg .height 1#32
  openStream { t with inMem := t.inMem.putAll 0 bs } stream phase placedPixels bs.length 1

/-- A CMD write stands first among the host's accesses, and no command is running. -/
def placeCommand (s : State) (w : Word) : State :=
  { s with work := none, host := .write Reg.cmd.number w :: s.host }

/-- An instruction of the opcode table, by its number of bits and its bits, stands where the next step fetches it. -/
def placeTableWord (s : State) (nbits w : Nat) : State :=
  match decodeTableWord nbits w with
  | none => placeCommand s (BitVec.ofNat 32 w)
  | some i =>
    match Format.place i.format with
    | none => placeCommand s (BitVec.ofNat 32 w)
    | some (stream, phase) => placeToken s stream phase (beBytes (nbits / 8) w)

end Sys2Proof.Machine
end

