-- ==== Sys2Proof/Machine/Step.lean ====
section
/-! DEFINITION. One step: the next access of the host, with the whole command it may start (10_state.md R30), or, inside a
decoding command, the next token of its stream (R37; log entry 11). -/

namespace Sys2Proof.Machine

/-- With no access to come the block is idle, and holds everything unchanged (60_exceptions.md R409). -/
def step (s : State) : Host.Outcome State Fault Refusal :=
  match s.work with
  | some w => sequence exec s w
  | none =>
    match s.host with
    | [] => .next s
    | op :: rest => hostAccess exec op { s with host := rest }

/-- The state with an instruction of the opcode table stored where `step` fetches its next instruction: a command word as the
host's next CMD write, a token in IN under the decoding command that scans it (log entries 8, 13, 15). -/
def State.withFetchWord (s : State) (nbits w : Nat) : State := placeTableWord s nbits w

end Sys2Proof.Machine
end

