-- ==== Sys2Proof/Safety.lean ====
section
/-! DEFINITION. The words in which claims speak: what a claim may assume of a state, how a command may end, what a token may
change, the invariant of the machine, and the rules of spec/ restated by numbers where a claim compares the model with them. -/

namespace Sys2Proof.Machine

/-! ## Premises -/

/-- Every listed register has been written (R35, R423). -/
def Ready (s : State) (rs : List Reg) : Prop := ∀ r ∈ rs, s.isWritten r = true

/-- P (R15, R65). -/
def pixelCount (s : State) : Nat := (s.reg .width).toNat * (s.reg .height).toNat

/-- OUT has room for `n` bytes (R60). -/
structure HasRoom (s : State) (n : Nat) : Prop where
  written : s.isWritten .outCap = true
  fits : n ≤ (s.reg .outCap).toNat

/-- IN holds exactly the bytes (R60, R423). -/
structure HoldsInput (s : State) (bs : List Byte) : Prop where
  written : s.isWritten .inLen = true
  length : (s.reg .inLen).toNat = bs.length
  bytes : ∀ (a : Nat) (h : a < bs.length), s.inByte a = bs[a]

/-- IN holds a bitmap of P pixels, `per` bytes each (R13). -/
structure HoldsBitmap (s : State) (per : Nat) (bmp : List Byte) : Prop where
  input : HoldsInput s bmp
  size : Ready s [.width, .height]
  pixels : bmp.length = per * pixelCount s

/-! ## How a command ends (R392, R393) -/

/-- The registers of other numbers than those listed hold what they held. -/
def KeepsRegs (s t : State) (rs : List Reg) : Prop :=
  ∀ n : Fin 64, (∀ r ∈ rs, r.number ≠ n) → t.regs.get n = s.regs.get n

/-- What no instruction changes: which registers count as written, every byte of IN, the host's accesses to come and its last
read. -/
structure KeepsHost (s t : State) : Prop where
  written : t.written = s.written
  inByte : ∀ a, t.inByte a = s.inByte a
  host : t.host = s.host
  readData : t.readData = s.readData

/-- DONE (R393): STATE = 2 and ERR = 0, ERR_OFF = 0, OUT_LEN the number of output bytes, OUT holding them from offset 0 and
unchanged elsewhere, the listed result registers holding their values, and every other register unchanged. -/
structure Completes (s t : State) (out : List Byte) (results : List (Reg × Word)) : Prop where
  status : t.reg .status = 0x00000002#32
  errOff : t.reg .errOff = 0#32
  outLen : (t.reg .outLen).toNat = out.length
  holds : ∀ p ∈ results, t.reg p.1 = p.2
  keeps : KeepsRegs s t ([.status, .errOff, .outLen] ++ results.map Prod.fst)
  host : KeepsHost s t
  work : t.work = none
  outByte : ∀ a, t.outByte a = if h : a < out.length then out[a] else s.outByte a

/-- STATUS after an error: STATE = 3 and ERR the code of the error (R32, R392). -/
def errorStatus : ErrorKind → Word
  | .corruptedStream => 0x00000013#32
  | .checksumMismatch => 0x00000023#32
  | .unsupportedVariant => 0x00000033#32
  | .bufferOverrun => 0x00000043#32

/-- ERROR (R392): STATUS, ERR_OFF, OUT_LEN = 0, no byte of OUT below OUT_CAP with a value, OUT unchanged from OUT_CAP on, the
listed result registers holding their values, and every other register unchanged. -/
structure Raises (s t : State) (e : ErrorKind) (off : Nat) (results : List (Reg × Word)) : Prop where
  status : t.reg .status = errorStatus e
  errOff : t.reg .errOff = BitVec.ofNat 32 off
  outLen : t.reg .outLen = 0#32
  holds : ∀ p ∈ results, t.reg p.1 = p.2
  keeps : KeepsRegs s t ([.status, .errOff, .outLen] ++ results.map Prod.fst)
  host : KeepsHost s t
  work : t.work = none
  outBelow : ∀ a, a < (s.reg .outCap).toNat → t.outMem.get a = none
  outBeyond : s.isWritten .outCap = true →
    ∀ a, (s.reg .outCap).toNat ≤ a → t.outMem.get a = s.outMem.get a ∧ t.outByte a = s.outByte a

/-! ## What a token changes (R36, R37) -/

/-- A token or framing field is taken: the decoding command's working registers are `w'`, OUT holds the bytes from offset `lo`
on and is unchanged elsewhere, and no register, no byte of IN and nothing of the host's changes. -/
structure Advances (s t : State) (w' : Work) (lo : Nat) (bs : List Byte) : Prop where
  work : t.work = some w'
  regs : t.regs = s.regs
  host : KeepsHost s t
  outByte : ∀ a, t.outByte a = if h : lo ≤ a ∧ a < lo + bs.length then bs[a - lo] else s.outByte a

/-- A run-length token by numbers: its decoder, its length in bytes, its run length and the bytes of one pixel. -/
structure RunToken where
  stream : Stream
  size : Nat
  len : Nat
  pixel : List Byte
deriving DecidableEq, Repr

/-- The byte of a number below 256. -/
def byteOf (n : Nat) : Byte := BitVec.ofNat 8 n

/-- `recon7(c)` by numbers (R130). -/
def sample7 (c : BitVec 7) : Byte := if c.toNat = 0 then 0#8 else byteOf (2 * c.toNat + 1)

/-- The sample of a colour nibble by numbers (R230). -/
def sampleNib (c : BitVec 4) : Byte := byteOf (17 * c.toNat)

/-- The three samples of a packed colour by numbers (R261). -/
def sampleRgb (r g b : BitVec 5) : List Byte := [byteOf (8 * r.toNat), byteOf (8 * g.toNat), byteOf (8 * b.toNat)]

/-- The run-length tokens of R100, R104 (but DELTA, whose value needs `prev`), R105 and R106. -/
def runToken : Instr → Option RunToken
  | .r7xPix c => some ⟨.r7x, 1, 1, [sample7 c]⟩
  | .r7xRun7 c l => some ⟨.r7x, 2, l.toNat, [sample7 c]⟩
  | .r7xRun14 c l => some ⟨.r7x, 3, l.toNat, [sample7 c]⟩
  | .r7xRun21 c l => some ⟨.r7x, 4, l.toNat, [sample7 c]⟩
  | .r7xRun28 c l => some ⟨.r7x, 5, l.toNat, [sample7 c]⟩
  | .difZero0 l => some ⟨.dif, 1, l.toNat, [0x00#8]⟩
  | .difZero1 l => some ⟨.dif, 2, l.toNat, [0x00#8]⟩
  | .difZero2 l => some ⟨.dif, 3, l.toNat, [0x00#8]⟩
  | .difZero3 l => some ⟨.dif, 4, l.toNat, [0x00#8]⟩
  | .difValue0 v l => some ⟨.dif, 2, l.toNat, [v]⟩
  | .difValue1 v l => some ⟨.dif, 3, l.toNat, [v]⟩
  | .difValue2 v l => some ⟨.dif, 4, l.toNat, [v]⟩
  | .difValue3 v l => some ⟨.dif, 5, l.toNat, [v]⟩
  | .difMax0 l => some ⟨.dif, 1, l.toNat, [0xFF#8]⟩
  | .difMax1 l => some ⟨.dif, 2, l.toNat, [0xFF#8]⟩
  | .difMax2 l => some ⟨.dif, 3, l.toNat, [0xFF#8]⟩
  | .difMax3 l => some ⟨.dif, 4, l.toNat, [0xFF#8]⟩
  | .nibBlack l => some ⟨.nib, 2, l.toNat, [0x00#8]⟩
  | .nibWhite l => some ⟨.nib, 2, l.toNat, [0xFF#8]⟩
  | .nibGrey c l => some ⟨.nib, 1, l.toNat, [sampleNib c]⟩
  | .rgbWord r g b => some ⟨.rgb, 2, 1, sampleRgb r g b⟩
  | .rgbRep r g b n _ => some ⟨.rgb, 4, n.toNat + 1, sampleRgb r g b⟩
  | _ => none

/-- `prev` after a run: a diff-chunk chunk that produces a pixel sets it (R191), nothing else does. -/
def RunToken.prevAfter (k : RunToken) (w : Work) : Byte :=
  if k.stream = .dif ∧ 0 < k.len then k.pixel.headD 0#8 else w.prev

/-- A DELTA chunk by numbers: its delta, its length in bytes and its run length (R104). -/
structure DeltaToken where
  delta : Int
  size : Nat
  len : Nat
deriving DecidableEq, Repr

/-- The four DELTA chunks of R104. -/
def deltaToken : Instr → Option DeltaToken
  | .difDelta0 d => some ⟨d.toInt, 1, 1⟩
  | .difDelta1 d l => some ⟨d.toInt, 2, l.toNat⟩
  | .difDelta2 d l => some ⟨d.toInt, 3, l.toNat⟩
  | .difDelta3 d l => some ⟨d.toInt, 4, l.toNat⟩
  | _ => none

/-! ## What streams stand for -/

/-- The pixels that the tokens of a run-length stream without a `prev` stand for (R131, R231, R106). -/
def streamPixels (toks : List Instr) : List Byte :=
  (toks.map fun i => match runToken i with
    | some k => (List.replicate k.len k.pixel).flatten
    | none => []).flatten

/-- The pixels that diff-chunk chunks stand for after a pixel of value `prev`; none where a DELTA leaves 0 to 255 (R191). -/
def difPixels : Byte → List Instr → Option (List Byte)
  | _, [] => some []
  | prev, i :: is =>
    match deltaToken i, runToken i with
    | some k, _ =>
      let v : Int := (prev.toNat : Int) + k.delta
      if 0 ≤ v ∧ v ≤ 255 then
        (difPixels (if 0 < k.len then byteOf v.toNat else prev) is).map (List.replicate k.len (byteOf v.toNat) ++ ·)
      else none
    | none, some k =>
      (difPixels (if 0 < k.len then k.pixel.headD 0#8 else prev) is).map ((List.replicate k.len k.pixel).flatten ++ ·)
    | none, none => none

/-- A bitplane's tokens by state and run length (R102, R162). -/
abbrev Plane := List (Bool × BitVec 7)

/-- The pixel states a plane's tokens stand for (R162). -/
def planeBits (pl : Plane) : List Bool := (pl.map fun t => List.replicate t.2.toNat t.1).flatten

/-- A plane of P pixels: its tokens make P pixels, and a plane ends as soon as it holds them (R163). -/
def IsPlane (p : Nat) (pl : Plane) : Prop := (planeBits pl).length = p ∧ (pl = [] ∨ (planeBits pl.dropLast).length < p)

/-- The bytes of a plane's tokens. -/
def planeBytes (pl : Plane) : List Byte := (pl.map fun t => tokenBytes (.bplTok t.1 t.2)).flatten

/-- `recon_N(h)` by numbers (R160). -/
def sampleBpl (n h : Nat) : Byte := if h = 0 then 0#8 else byteOf (h * (256 / n) - 1)

/-- The samples of N planes: pixel p is on in as many planes as have it on (R160). -/
def planeSamples (p : Nat) (planes : List Plane) : List Byte :=
  (List.range p).map fun q => sampleBpl planes.length (planes.countP fun pl => (planeBits pl).getD q false)

/-- The bytes of tokens, in order. -/
def streamBytes (toks : List Instr) : List Byte := (toks.map tokenBytes).flatten

/-! ## Canonical forms -/

/-- `canonBP_{N,v}(s)` by numbers (R165). -/
def canonLevel (v : Variant) (n : Nat) (s : Byte) : Byte :=
  sampleBpl n ((List.range n).countP fun k => decide (threshold v n (k + 1) ≤ s.toNat))

/-- `canonRGB` of every pixel of a bitmap (R261): `& 0xF8` in every channel. -/
def canonBytesRgb (bmp : List Byte) : List Byte := bmp.map (· &&& 0xF8#8)

/-! ## What encoders emit -/

/-- Runs (R14): put end to end they are the keys, none is empty, and neighbours differ, so each is maximal. -/
structure IsRuns {κ : Type} (keys : List κ) (runs : List (κ × Nat)) : Prop where
  join : (runs.map fun r => List.replicate r.2 r.1).flatten = keys
  positive : ∀ r ∈ runs, 0 < r.2
  maximal : ∀ (k : Nat) (h : k + 1 < runs.length), runs[k].1 ≠ runs[k + 1].1

/-- Greedy pieces of a run of `n` (R14), at most `fuel` of them. -/
def greedyFrom (max : Nat) : Nat → Nat → List Nat
  | 0, _ => []
  | fuel + 1, n => if n = 0 then [] else if n ≤ max then [n] else max :: greedyFrom max fuel (n - max)

/-- Each piece takes the maximum length until what is left is no longer than it (R14). -/
def greedy (max n : Nat) : List Nat := greedyFrom max n n

/-- The pieces of runs, each run cut at its key's maximum length, with their keys. -/
def cutRuns {κ : Type} (max : κ → Nat) (runs : List (κ × Nat)) : List (κ × Nat) :=
  (runs.map fun r => (greedy (max r.1) r.2).map fun l => (r.1, l)).flatten

/-- `tok7(c, L)`, the table of R134. -/
def tok7Bytes (c : BitVec 7) (l : Nat) : List Byte :=
  if l = 1 then [byteOf c.toNat]
  else byteOf (0x80 + c.toNat) ::
    (if l ≤ 0x7F then [byteOf l]
    else if l ≤ 0x3FFF then [byteOf (0x80 + l / 0x100), byteOf l]
    else if l ≤ 0x1FFFFF then [byteOf (0xC0 + l / 0x10000), byteOf (l / 0x100), byteOf l]
    else [byteOf (0xE0 + l / 0x1000000), byteOf (l / 0x10000), byteOf (l / 0x100), byteOf l])

/-- A ZERO (ty 0), VALUE (ty 1) or MAX (ty 3) chunk, the table of R196. -/
def literalBytes (ty : Nat) (v : List Byte) (l : Nat) : List Byte :=
  if l ≤ 0xF then byteOf (64 * ty + l) :: v
  else if l ≤ 0xFFF then byteOf (64 * ty + 16 + l / 0x100) :: v ++ [byteOf l]
  else if l ≤ 0xFFFFF then byteOf (64 * ty + 32 + l / 0x10000) :: v ++ [byteOf (l / 0x100), byteOf l]
  else byteOf (64 * ty + 48 + l / 0x1000000) :: v ++ [byteOf (l / 0x10000), byteOf (l / 0x100), byteOf l]

/-- A DELTA chunk, the table of R196: `d[3:0]` in two's complement. -/
def deltaBytes (d : Int) (l : Nat) : List Byte :=
  let lo := (d % 16).toNat
  if l = 1 then [byteOf (0x80 + lo)]
  else if l ≤ 0xFF then [byteOf (0x90 + lo), byteOf l]
  else if l ≤ 0xFFFF then [byteOf (0xA0 + lo), byteOf (l / 0x100), byteOf l]
  else [byteOf (0xB0 + lo), byteOf (l / 0x10000), byteOf (l / 0x100), byteOf l]

/-- The candidates of R194 for a piece, in the order that settles a tie. -/
def candidateBytes (v : Byte) (l : Nat) (prev : Byte) : List (List Byte) :=
  let d : Int := (v.toNat : Int) - (prev.toNat : Int)
  (if v = 0x00#8 then [literalBytes 0 [] l] else []) ++ (if v = 0xFF#8 then [literalBytes 3 [] l] else []) ++
    [literalBytes 1 [v] l] ++ (if -8 ≤ d ∧ d ≤ 7 ∧ l ≤ 0xFFFFFF then [deltaBytes d l] else [])

/-- The chunk of a piece by the results R194 states of its rule. -/
def chunkBytes (v : Byte) (l : Nat) (prev : Byte) : List Byte :=
  let d : Int := (v.toNat : Int) - (prev.toNat : Int)
  if v = 0x00#8 then literalBytes 0 [] l
  else if v = 0xFF#8 then literalBytes 3 [] l
  else if (-8 ≤ d ∧ d ≤ 7) ∧
      (l = 1 ∨ (16 ≤ l ∧ l ≤ 255) ∨ (4096 ≤ l ∧ l ≤ 65535) ∨ (2 ^ 20 ≤ l ∧ l ≤ 0xFFFFFF)) then deltaBytes d l
  else literalBytes 1 [v] l

/-- The chunks of pieces, `prev` being the value of the piece before (R194, R195). -/
def chunkStream : Byte → List (Byte × Nat) → List Byte
  | _, [] => []
  | prev, p :: ps => chunkBytes p.1 p.2 prev ++ chunkStream p.1 ps

/-- The sum of bytes modulo 256, complemented (R192). -/
def complementSum (bs : List Byte) : Byte := byteOf (255 - (bs.map BitVec.toNat).sum % 256)

/-- The token of a nibble piece (R105, R233). -/
def nibBytes (q : BitVec 4) (l : Nat) : List Byte :=
  if q.toNat = 0 ∨ q.toNat = 15 then [byteOf (16 * q.toNat + l / 0x100), byteOf l] else [byteOf (16 * q.toNat + l)]

/-- The tokens of an RGB15 piece (R260, R263). -/
def rgbBytes (hi : BitVec 4) (c : Rgb15) (l : Nat) : List Byte :=
  let w := 2048 * c.r.toNat + 64 * c.g.toNat + c.b.toNat
  if l = 1 then [byteOf w, byteOf (w / 0x100)]
  else if l = 2 then [byteOf w, byteOf (w / 0x100), byteOf w, byteOf (w / 0x100)]
  else [byteOf (w + 0x20), byteOf (w / 0x100), byteOf (l - 1), byteOf (16 * hi.toNat + (l - 1) / 0x100)]

/-- The pixel states of plane k: on where the sample is at or above the threshold of level k + 1 (R161). -/
def planeOf (v : Variant) (n : Nat) (bmp : List Byte) (k : Nat) : List Bool :=
  bmp.map fun b => decide (threshold v n (k + 1) ≤ b.toNat)

/-- The tokens of a bitplane's runs (R164): a bit and a length of at most 125 in one byte. -/
def planeStream (runs : List (Bool × Nat)) : List Byte :=
  (cutRuns (fun _ => 125) runs).map fun p => byteOf ((if p.1 then 0x80 else 0) + p.2)

/-! ## Cipher, CRC and schedules by their closed forms -/

/-- Byte i of the keystream, the closed form of R291. -/
def keystreamByte (c : LcgConstants) (seed layer : Word) (i : Nat) : Byte :=
  let init := seed * c.c1 + c.c2
  let key0 := (layer * c.c3 + c.c4) * init
  ((key0 + BitVec.ofNat 32 (i / 4) * init) >>> (8 * (i % 4))).setWidth 8

/-- The constants a cipher constant set's registers hold (R34). -/
def constantSet (s : State) : LcgSet → LcgConstants
  | .set0 => ⟨s.reg (.lcg0 0), s.reg (.lcg0 1), s.reg (.lcg0 2), s.reg (.lcg0 3)⟩
  | .set1 => ⟨s.reg (.lcg1 0), s.reg (.lcg1 1), s.reg (.lcg1 2), s.reg (.lcg1 3)⟩

/-- One bit of a message into a reflected CRC register. -/
def crcBit {w : Nat} (poly : BitVec w) (c : BitVec w) (bit : Bool) : BitVec w :=
  if c.getLsbD 0 ^^ bit then (c >>> 1) ^^^ poly else c >>> 1

/-- The bits of a message, least significant bit of each byte first. -/
def messageBits (bs : List Byte) : List Bool := (bs.map fun b => (List.range 8).map b.getLsbD).flatten

/-- The CRC register after a message, bit by bit and without a table. -/
def bitSerialCrc {w : Nat} (poly init : BitVec w) (bs : List Byte) : BitVec w :=
  (messageBits bs).foldl (crcBit poly) init

/-! ## The emits of the encoders, each with the error offset its rule states (R64, R413) -/

/-- The emits of pieces from pixel `start` on: the error offset is that of the piece's first pixel in IN, `per` bytes to a
pixel. -/
def emitsFrom {κ : Type} (per : Nat) (bytes : κ → Nat → List Byte) : Nat → List (κ × Nat) → List Piece
  | _, [] => []
  | start, p :: ps => ⟨bytes p.1 p.2, per * start⟩ :: emitsFrom per bytes (start + p.2) ps

/-- The emits of diff-chunk pieces from pixel `start` on, `prev` being the value of the piece before (R195). -/
def chunkEmits : Byte → Nat → List (Byte × Nat) → List Piece
  | _, _, [] => []
  | prev, start, p :: ps => ⟨chunkBytes p.1 p.2 prev, start⟩ :: chunkEmits p.1 (start + p.2) ps

/-- The packed colours of the first `p` pixels of a bitmap by numbers (R260). -/
def packedColours (p : Nat) (bmp : List Byte) : List Rgb15 :=
  (List.range p).map fun q =>
    ⟨BitVec.ofNat 5 ((bmp.getD (3 * q) 0#8).toNat / 8), BitVec.ofNat 5 ((bmp.getD (3 * q + 1) 0#8).toNat / 8),
      BitVec.ofNat 5 ((bmp.getD (3 * q + 2) 0#8).toNat / 8)⟩

/-- The emits of BPL.ENC: plane after plane, the error offset counted anew in each (R164). -/
def IsPlaneEmits (v : Variant) (n : Nat) (bmp : List Byte) (es : List Piece) : Prop :=
  ∃ runs : List (List (Bool × Nat)),
    runs.length = n ∧ (∀ (k : Nat) (h : k < runs.length), IsRuns (planeOf v n bmp k) runs[k]) ∧
    es = (runs.map fun r =>
      emitsFrom 1 (fun on l => [byteOf ((if on then 0x80 else 0) + l)]) 0 (cutRuns (fun _ => 125) r)).flatten

/-- The emits that an encoder's rule lists for a bitmap, in order: R133, R164, R195 (the magic at 0, the checksum at P), R233
(the trailer at P), R263 (3 times the first pixel). No other instruction is an encoder. -/
def IsEmits (s : State) (bmp : List Byte) (es : List Piece) : Instr → Prop
  | .r7xEnc =>
    ∃ runs, IsRuns (bmp.map fun b => BitVec.ofNat 7 (b.toNat / 2)) runs ∧
      es = emitsFrom 1 tok7Bytes 0 (cutRuns (fun _ => 0x0FFFFFFF) runs)
  | .bplEnc v => IsPlaneEmits v (s.reg .aaN).toNat bmp es
  | .bplEncA => IsPlaneEmits .a (s.reg .aaN).toNat bmp es
  | .bplEncB => IsPlaneEmits .b (s.reg .aaN).toNat bmp es
  | .difEnc =>
    ∃ runs chunks, IsRuns bmp runs ∧ chunks = chunkEmits 0#8 0 (cutRuns (fun _ => 0x0FFFFFFF) runs) ∧
      es = [⟨[(s.reg .diffMagic).setWidth 8], 0⟩] ++ chunks ++ [⟨[complementSum (pieceBytes chunks)], bmp.length⟩]
  | .nibEnc =>
    ∃ runs toks, IsRuns (bmp.map fun b => BitVec.ofNat 4 (b.toNat / 16)) runs ∧
      toks = emitsFrom 1 nibBytes 0 (cutRuns (fun q => if q.toNat = 0 ∨ q.toNat = 15 then 4095 else 15) runs) ∧
      es = toks ++
        [⟨leBytes 2 (Config.crc16Finish (bitSerialCrc 0xA001#16 ((s.reg .crc16Init).setWidth 16) (pieceBytes toks))).toNat,
          bmp.length⟩]
  | .rgbEnc =>
    ∃ runs, IsRuns (packedColours (pixelCount s) bmp) runs ∧
      es = emitsFrom 3 (rgbBytes ((s.reg .rgbRepHi).setWidth 4)) 0 (cutRuns (fun _ => 4096) runs)
  | _ => False

/-! ## The digests by the recurrences of their rules (R340 to R348) -/

/-- `ROTL^n(x)` (R340). -/
def rotl (x : Word) (n : Nat) : Word := (x <<< n) ||| (x >>> (32 - n))

/-- `ROTR^n(x)` (R340). -/
def rotr (x : Word) (n : Nat) : Word := (x >>> n) ||| (x <<< (32 - n))

/-- The padded message (R340), the fewest zero bytes that leave eight to a multiple of 64. -/
def paddedMessage (m : List Byte) : List Byte :=
  m ++ [0x80#8] ++ List.replicate ((64 - (m.length + 9) % 64) % 64) 0x00#8 ++
    (List.range 8).map fun i => byteOf (8 * m.length / 256 ^ (7 - i))

/-- The 16 big-endian words of block j (R340). -/
def blockWords (p : List Byte) (j : Nat) : List Word :=
  (List.range 16).map fun t =>
    let b := fun i => p.getD (64 * j + 4 * t + i) 0#8
    b 0 ++ b 1 ++ b 2 ++ b 3

/-- The big-endian bytes of words (R343, R348). -/
def bigEndian (ws : List Word) : List Byte :=
  (ws.map fun w => [byteOf (w.toNat / 0x1000000), byteOf (w.toNat / 0x10000), byteOf (w.toNat / 0x100), byteOf w.toNat]).flatten

/-- K1 and f_t for t from 0, 20, 40 and 60 on: the table of R341. -/
def sha1Table : List (Word × (Word → Word → Word → Word)) :=
  [(0x5A827999#32, fun b c d => (b &&& c) ^^^ (~~~b &&& d)),
    (0x6ED9EBA1#32, fun b c d => b ^^^ c ^^^ d),
    (0x8F1BBCDC#32, fun b c d => (b &&& c) ^^^ (b &&& d) ^^^ (c &&& d)),
    (0xCA62C1D6#32, fun b c d => b ^^^ c ^^^ d)]

/-- One round of R342, from `v` to `v'`, with its row of the table and its schedule word. -/
def IsSha1Round (row : Word × (Word → Word → Word → Word)) (w : Word) (v v' : Sha1Words) : Prop :=
  v'.a = rotl v.a 5 + row.2 v.b v.c v.d + v.e + row.1 + w ∧
    v'.b = v.a ∧ v'.c = rotl v.b 30 ∧ v'.d = v.c ∧ v'.e = v.d

/-- R342: `h'` are the chaining words after a block of 16 words, for the schedule `w` and the working variables `v t` before
round t. -/
def IsSha1Block (h : Sha1Words) (block : List Word) (h' : Sha1Words) : Prop :=
  ∃ (w : Nat → Word) (v : Nat → Sha1Words),
    (∀ t, t < 16 → w t = block.getD t 0#32) ∧
    (∀ t, 16 ≤ t → t < 80 → w t = rotl (w (t - 3) ^^^ w (t - 8) ^^^ w (t - 14) ^^^ w (t - 16)) 1) ∧
    v 0 = h ∧
    (∀ t row, t < 80 → sha1Table[t / 20]? = some row → IsSha1Round row (w t) (v t) (v (t + 1))) ∧
    h' = ⟨h.a + (v 80).a, h.b + (v 80).b, h.c + (v 80).c, h.d + (v 80).d, h.e + (v 80).e⟩

/-- R343: `d` is the digest of a message, for the chaining words `h j` before block j. -/
def IsSha1 (m d : List Byte) : Prop :=
  ∃ h : Nat → Sha1Words,
    h 0 = ⟨0x67452301#32, 0xEFCDAB89#32, 0x98BADCFE#32, 0x10325476#32, 0xC3D2E1F0#32⟩ ∧
    (∀ j, j < (paddedMessage m).length / 64 → IsSha1Block (h j) (blockWords (paddedMessage m) j) (h (j + 1))) ∧
    let z := h ((paddedMessage m).length / 64)
    d = bigEndian [z.a, z.b, z.c, z.d, z.e]

/-- The first 64 primes (R346). -/
def primes : List Nat := (List.range 312).filter fun p => decide (2 ≤ p ∧ ∀ d, d < p → 2 ≤ d → p % d ≠ 0)

/-- The first 32 bits of the fractional part of the k-th root of a number: the low 32 bits of the floor of the root of the
number scaled by 2^32 (R346). -/
def IsRootFraction (k p : Nat) (w : Word) : Prop :=
  ∃ n, n ^ k ≤ p * 2 ^ (32 * k) ∧ p * 2 ^ (32 * k) < (n + 1) ^ k ∧ w = BitVec.ofNat 32 n

/-- One round of R347 with the functions of R345 written out, from `v` to `v'`, with its constant and its schedule word. -/
def IsSha256Round (k w : Word) (v v' : Sha256Words) : Prop :=
  let t1 := v.h + (rotr v.e 6 ^^^ rotr v.e 11 ^^^ rotr v.e 25) + ((v.e &&& v.f) ^^^ (~~~v.e &&& v.g)) + k + w
  let t2 := (rotr v.a 2 ^^^ rotr v.a 13 ^^^ rotr v.a 22) + ((v.a &&& v.b) ^^^ (v.a &&& v.c) ^^^ (v.b &&& v.c))
  v'.a = t1 + t2 ∧ v'.b = v.a ∧ v'.c = v.b ∧ v'.d = v.c ∧ v'.e = v.d + t1 ∧ v'.f = v.e ∧ v'.g = v.f ∧ v'.h = v.g

/-- R347: `h'` are the chaining words after a block of 16 words, for the constants `k`, the schedule `w` and the working
variables `v t` before round t. -/
def IsSha256Block (h : Sha256Words) (block : List Word) (h' : Sha256Words) : Prop :=
  ∃ (k w : Nat → Word) (v : Nat → Sha256Words),
    (∀ (t p : Nat), primes[t]? = some p → IsRootFraction 3 p (k t)) ∧
    (∀ t, t < 16 → w t = block.getD t 0#32) ∧
    (∀ t, 16 ≤ t → t < 64 →
      w t = (rotr (w (t - 2)) 17 ^^^ rotr (w (t - 2)) 19 ^^^ (w (t - 2) >>> 10)) + w (t - 7) +
        (rotr (w (t - 15)) 7 ^^^ rotr (w (t - 15)) 18 ^^^ (w (t - 15) >>> 3)) + w (t - 16)) ∧
    v 0 = h ∧
    (∀ t, t < 64 → IsSha256Round (k t) (w t) (v t) (v (t + 1))) ∧
    h' = ⟨h.a + (v 64).a, h.b + (v 64).b, h.c + (v 64).c, h.d + (v 64).d, h.e + (v 64).e, h.f + (v 64).f, h.g + (v 64).g,
      h.h + (v 64).h⟩

/-- R348: `d` is the digest of a message, for the chaining words `h j` before block j; H0-256 comes from square roots (R346). -/
def IsSha256 (m d : List Byte) : Prop :=
  ∃ h : Nat → Sha256Words,
    (∀ (i : Nat) (w : Word) (p : Nat), [(h 0).a, (h 0).b, (h 0).c, (h 0).d, (h 0).e, (h 0).f, (h 0).g, (h 0).h][i]? = some w →
      primes[i]? = some p → IsRootFraction 2 p w) ∧
    (∀ j, j < (paddedMessage m).length / 64 → IsSha256Block (h j) (blockWords (paddedMessage m) j) (h (j + 1))) ∧
    let z := h ((paddedMessage m).length / 64)
    d = bigEndian [z.a, z.b, z.c, z.d, z.e, z.f, z.g, z.h]

/-! ## Names of one meaning (R111) -/

/-- BPL.ENC and its two pseudo-instructions, with their threshold variants. -/
def bplEncoders : List (Instr × Variant) :=
  [(.bplEnc .a, .a), (.bplEnc .b, .b), (.bplEncA, .a), (.bplEncB, .b)]

/-- LCG.XOR and its six pseudo-instructions, with their constant sets. -/
def lcgNames : List (Instr × LcgSet) :=
  [(.lcgXor .set0, .set0), (.lcgXor .set1, .set1), (.lcgXor0, .set0), (.encrypt0, .set0), (.decrypt0, .set0),
    (.lcgXor1, .set1), (.encrypt1, .set1), (.decrypt1, .set1)]

/-- CRC16 and its pseudo-instruction, with the form of RESULT. -/
def crc16Names : List (Instr × CrcForm) := [(.crc16 .finished, .finished), (.crc16 .raw, .raw), (.crc16Raw, .raw)]

/-- CRC32.FILE in seal mode, and its pseudo-instruction. -/
def sealNames : List Instr := [.crc32File .seal, .crc32Seal]

/-- CRC32.FILE in verify mode, and its pseudo-instruction. -/
def checkNames : List Instr := [.crc32File .verify, .crc32Check]

/-- The registers a command may read, CMD apart: the "reads" lists of the command rules, and of R423. -/
def commandReads (s : State) : Instr → List Reg
  | .r7xDec => [.inLen, .outCap, .width, .height]
  | .r7xEnc => [.inLen, .outCap, .width, .height]
  | .bplDec => [.inLen, .outCap, .width, .height, .aaN]
  | .bplEnc _ => [.inLen, .outCap, .width, .height, .aaN]
  | .bplEncA => [.inLen, .outCap, .width, .height, .aaN]
  | .bplEncB => [.inLen, .outCap, .width, .height, .aaN]
  | .difDec => [.inLen, .outCap, .width, .height, .diffMagic]
  | .difEnc => [.inLen, .outCap, .width, .height, .diffMagic]
  | .nibDec => [.inLen, .outCap, .width, .height]
  | .nibEnc => [.inLen, .outCap, .width, .height, .crc16Init]
  | .rgbDec => [.inLen, .outCap, .width, .height]
  | .rgbEnc => [.inLen, .outCap, .width, .height, .rgbRepHi]
  | .lcgXor c => lcgReads s (match c with
    | .set0 => [.lcg0 0, .lcg0 1, .lcg0 2, .lcg0 3]
    | .set1 => [.lcg1 0, .lcg1 1, .lcg1 2, .lcg1 3])
  | .lcgXor0 => lcgReads s [.lcg0 0, .lcg0 1, .lcg0 2, .lcg0 3]
  | .encrypt0 => lcgReads s [.lcg0 0, .lcg0 1, .lcg0 2, .lcg0 3]
  | .decrypt0 => lcgReads s [.lcg0 0, .lcg0 1, .lcg0 2, .lcg0 3]
  | .lcgXor1 => lcgReads s [.lcg1 0, .lcg1 1, .lcg1 2, .lcg1 3]
  | .encrypt1 => lcgReads s [.lcg1 0, .lcg1 1, .lcg1 2, .lcg1 3]
  | .decrypt1 => lcgReads s [.lcg1 0, .lcg1 1, .lcg1 2, .lcg1 3]
  | .crc16 _ => [.inLen, .crc16Init]
  | .crc16Raw => [.inLen, .crc16Init]
  | .crc32 => [.inLen]
  | .crc32File m => match m with
    | .seal => [.inLen, .outCap]
    | .verify => [.inLen]
  | .crc32Seal => [.inLen, .outCap]
  | .crc32Check => [.inLen]
  | .sha1 => [.inLen, .outCap]
  | .sha256 => [.inLen, .outCap]
  | .sigGen => .outCap :: signatureReads s
  | .sigVerify => .inLen :: signatureReads s
  | _ => []
where
  /-- The constants are read only where SEED ≠ 0 (R292). -/
  lcgReads (s : State) (cs : List Reg) : List Reg :=
    [.inLen, .outCap, .seed, .layer] ++ (if s.reg .seed = 0#32 then [] else cs)
  /-- SIGVAL_HI is read only for a field of 8 bytes, and of the key only AES_KLEN bytes (R372). -/
  signatureReads (s : State) : List Reg :=
    [.sigFieldBytes, .aesKlen, .sigvalLo] ++ (if s.reg .sigFieldBytes = 8#32 then [.sigvalHi] else []) ++
      ((List.finRange 8).filter fun k => decide (4 * k.val < (s.reg .aesKlen).toNat)).map Reg.aesKey ++
      [.aesIv 0, .aesIv 1, .aesIv 2, .aesIv 3]

/-- The registers a command comes to read, group after group: each group is what one line of its rule's pseudocode reads, and
a line stands only where no check before it ends the command (R35, R396, R401; the pseudocode of R132, R133, R163, R164, R193,
R195, R232, R233, R262, R263, R292, R313, R322, R323, R344, R349, R372, R373). OUT_CAP is read by the pre-check of R65 or by the
first `emit`; what RGB.ENC's emits read is left out, since its first flagged token reads RGB_REP_HI. -/
def readGroups (s : State) : Instr → List (List Reg)
  | .r7xDec => decoder (pixelCount s) [[.inLen]]
  | .bplDec => level (decoder (pixelCount s) [[.inLen]])
  | .difDec => decoder (pixelCount s) ([.inLen] :: (if 2 ≤ (s.reg .inLen).toNat then [[.diffMagic]] else []))
  | .nibDec => decoder (pixelCount s) [[.inLen]]
  | .rgbDec => decoder (3 * pixelCount s) [[.inLen]]
  | .r7xEnc => encoder 1 emitsPixels
  | .bplEnc _ => level (encoder 1 emitsPixels)
  | .bplEncA => level (encoder 1 emitsPixels)
  | .bplEncB => level (encoder 1 emitsPixels)
  | .difEnc => encoder 1 [[.diffMagic, .outCap]]
  | .nibEnc => encoder 1 [[.crc16Init], [.outCap]]
  | .rgbEnc => encoder 3 []
  | .lcgXor c => cipher (match c with
    | .set0 => [.lcg0 0, .lcg0 1, .lcg0 2, .lcg0 3]
    | .set1 => [.lcg1 0, .lcg1 1, .lcg1 2, .lcg1 3])
  | .lcgXor0 => cipher [.lcg0 0, .lcg0 1, .lcg0 2, .lcg0 3]
  | .encrypt0 => cipher [.lcg0 0, .lcg0 1, .lcg0 2, .lcg0 3]
  | .decrypt0 => cipher [.lcg0 0, .lcg0 1, .lcg0 2, .lcg0 3]
  | .lcgXor1 => cipher [.lcg1 0, .lcg1 1, .lcg1 2, .lcg1 3]
  | .encrypt1 => cipher [.lcg1 0, .lcg1 1, .lcg1 2, .lcg1 3]
  | .decrypt1 => cipher [.lcg1 0, .lcg1 1, .lcg1 2, .lcg1 3]
  | .crc16 _ => [[.crc16Init, .inLen]]
  | .crc16Raw => [[.crc16Init, .inLen]]
  | .crc32 => [[.inLen]]
  | .crc32File m => match m with
    | .seal => [[.inLen], [.outCap]]
    | .verify => [[.inLen]]
  | .crc32Seal => [[.inLen], [.outCap]]
  | .crc32Check => [[.inLen]]
  | .sha1 => capacity 20 [[.inLen]]
  | .sha256 => capacity 32 [[.inLen]]
  | .sigGen => signing (capacity 32 material)
  | .sigVerify => signing ([.inLen] :: (if s.reg .inLen = 32#32 then material else []))
  | _ => []
where
  /-- The pre-check of R65, and what follows it where it is passed. -/
  capacity (size : Nat) (rest : List (List Reg)) : List (List Reg) :=
    [.outCap] :: (if size ≤ (s.reg .outCap).toNat then rest else [])
  /-- P and the pre-check of a decoder. -/
  decoder (size : Nat) (rest : List (List Reg)) : List (List Reg) := [.width, .height] :: capacity size rest
  /-- P and the input length of an encoder (R391). -/
  encoder (per : Nat) (rest : List (List Reg)) : List (List Reg) :=
    [.width, .height] :: [.inLen] :: (if (s.reg .inLen).toNat = per * pixelCount s then rest else [])
  /-- An encoder that emits something for every pixel, and nothing else. -/
  emitsPixels : List (List Reg) := if 0 < pixelCount s then [[.outCap]] else []
  /-- AA_N, and what follows where it is legal (R166). -/
  level (rest : List (List Reg)) : List (List Reg) :=
    [.aaN] :: (if 1 ≤ (s.reg .aaN).toNat ∧ (s.reg .aaN).toNat ≤ 16 then rest else [])
  /-- LCG.XOR with the registers of its constant set (R292). -/
  cipher (cs : List Reg) : List (List Reg) :=
    [.inLen] :: capacity (s.reg .inLen).toNat ([.seed, .layer] :: (if s.reg .seed = 0#32 then [] else [cs]))
  /-- The configuration of the signature commands, and what follows where it is legal (R372, R373). -/
  signing (rest : List (List Reg)) : List (List Reg) :=
    [.sigFieldBytes, .aesKlen] ::
      (if s.reg .sigFieldBytes ∈ [4#32, 8#32] ∧ s.reg .aesKlen ∈ [16#32, 24#32, 32#32] then rest else [])
  /-- The signed field, and then the key and the IV (R370, R371). -/
  material : List (List Reg) :=
    [[.sigvalLo] ++ (if s.reg .sigFieldBytes = 8#32 then [.sigvalHi] else []),
      ((List.finRange 8).filter fun k => decide (4 * k.val < (s.reg .aesKlen).toNat)).map Reg.aesKey ++
        [.aesIv 0, .aesIv 1, .aesIv 2, .aesIv 3]]

/-- The size of a command's output where it is fixed in advance (R65). -/
def fixedSize (s : State) : Instr → Option Nat
  | .r7xDec => some (pixelCount s)
  | .bplDec => some (pixelCount s)
  | .difDec => some (pixelCount s)
  | .nibDec => some (pixelCount s)
  | .rgbDec => some (3 * pixelCount s)
  | .sha1 => some 20
  | .sha256 => some 32
  | .sigGen => some 32
  | .crc32File m => match m with
    | .seal => some 4
    | .verify => none
  | .crc32Seal => some 4
  | .lcgXor _ => some (s.reg .inLen).toNat
  | .lcgXor0 => some (s.reg .inLen).toNat
  | .encrypt0 => some (s.reg .inLen).toNat
  | .decrypt0 => some (s.reg .inLen).toNat
  | .lcgXor1 => some (s.reg .inLen).toNat
  | .encrypt1 => some (s.reg .inLen).toNat
  | .decrypt1 => some (s.reg .inLen).toNat
  | _ => none

/-- The configuration values a command checks before anything else are legal (R390, R401). -/
def LegalConfig (s : State) : Instr → Prop
  | .bplDec => 1 ≤ (s.reg .aaN).toNat ∧ (s.reg .aaN).toNat ≤ 16
  | .sigGen =>
    (s.reg .sigFieldBytes = 4#32 ∨ s.reg .sigFieldBytes = 8#32) ∧
      (s.reg .aesKlen = 16#32 ∨ s.reg .aesKlen = 24#32 ∨ s.reg .aesKlen = 32#32)
  | _ => True

/-! ## The signature's inputs (R33, R370) -/

/-- The 64 bits of the header checksum field, and of them the w bytes that are signed, little-endian. -/
def signedBytes (s : State) : List Byte :=
  (leBytes 8 (2 ^ 32 * (s.reg .sigvalHi).toNat + (s.reg .sigvalLo).toNat)).take (s.reg .sigFieldBytes).toNat

/-- Byte i of AES_KEY, for i below AES_KLEN. -/
def keyBytes (s : State) : List Byte :=
  (List.range (s.reg .aesKlen).toNat).map fun i =>
    ((s.reg (.aesKey (Fin.ofNat 8 (i / 4)))) >>> (8 * (i % 4))).setWidth 8

/-- The 16 bytes of AES_IV. -/
def ivBytes (s : State) : List Byte :=
  (List.range 16).map fun i => ((s.reg (.aesIv (Fin.ofNat 4 (i / 4)))) >>> (8 * (i % 4))).setWidth 8

/-- The signature of R371: two CBC blocks over the SHA-256 digest of the signed bytes. -/
def signature (s : State) : List Byte :=
  let d := sha256Of (signedBytes s)
  let s0 := aesEnc (keyBytes s) (List.zipWith (· ^^^ ·) (d.take 16) (ivBytes s))
  let s1 := aesEnc (keyBytes s) (List.zipWith (· ^^^ ·) (d.drop 16) s0)
  s0 ++ s1

/-! ## Decoding commands in progress -/

/-- The state in which a decoding command begins to scan its stream. -/
def openedStream (s : State) : Instr → Option State
  | .r7xDec => some (openStream s .r7x .tokens (pixelCount s) (s.reg .inLen).toNat 0)
  | .bplDec => some (openBpl s (pixelCount s) (s.reg .inLen).toNat (s.reg .aaN).toNat)
  | .difDec => some (openStream s .dif .magic (pixelCount s) ((s.reg .inLen).toNat - 1) 0)
  | .nibDec => some (openStream s .nib .tokens (pixelCount s) ((s.reg .inLen).toNat - 2) 0)
  | .rgbDec => some (openStream s .rgb .tokens (pixelCount s) (s.reg .inLen).toNat 0)
  | _ => none

/-- IN is not shorter than the framing a decoder asks for (R193, R232). -/
def LongEnough (s : State) : Instr → Prop
  | .difDec => 2 ≤ (s.reg .inLen).toNat
  | .nibDec => 2 ≤ (s.reg .inLen).toNat
  | _ => True

/-! ## The invariant of the machine -/

/-- Bytes of OUT for one pixel of a stream. -/
def Stream.pixelBytes : Stream → Nat
  | .rgb => 3
  | _ => 1

/-- The working registers of a decoding command stay in their ranges (R36, R37, R163): the cursor never passes the token
region nor the region IN_LEN, no more than P pixels are produced, OUT has room for all P, and a pixel has at most one hit for
each plane begun. -/
structure Work.Inv (s : State) (w : Work) : Prop where
  inLen : s.isWritten .inLen = true
  region : w.stop ≤ (s.reg .inLen).toNat
  cursor : w.ic ≤ w.stop
  token : w.tok ≤ w.ic
  pixels : w.pc ≤ w.pixels
  outCap : s.isWritten .outCap = true
  room : w.stream.pixelBytes * w.pixels ≤ (s.reg .outCap).toNat
  framing : w.phase ≠ .tokens → w.stream = .dif
  magic : w.phase = .magic → w.ic = 0 ∧ 1 ≤ w.stop
  planes : w.stream = .bpl → 1 ≤ w.planes ∧ w.planes ≤ Config.maxAa ∧ w.plane ≤ w.planes
  hits : w.stream = .bpl → w.hits.length = w.pixels ∧
    ∀ (p : Nat) (h : p < w.hits.length), w.hits[p] ≤ w.plane + (if p < w.pc then 1 else 0)

/-- The invariant: memories in canonical form (R60), the registers with a reset value always written (R35), unnamed bits and
reserved numbers 0 (R31), between commands one of the legal values of STATUS with ERR_OFF and OUT_LEN to match (R32, R392,
R393), and BUSY exactly while a decoding command stands, its working registers in range. -/
structure Inv (s : State) : Prop where
  inMem : s.inMem.wf = true
  outMem : s.outMem.wf = true
  hasValue : ∀ n, hasResetValue n = true → s.written.get n = true
  unnamed : ∀ r : Reg, s.regs.get r.number &&& r.named = s.regs.get r.number
  reserved : ∀ n, Reg.ofNumber n = none → s.regs.get n = 0#32
  idle : s.work = none →
    (s.reg .status = 0x00000000#32 ∧ s.reg .errOff = 0#32) ∨ (s.reg .status = 0x00000002#32 ∧ s.reg .errOff = 0#32) ∨
      (∃ e, s.reg .status = errorStatus e ∧ s.reg .outLen = 0#32)
  busy : ∀ w, s.work = some w → s.reg .status = 0x00000001#32 ∧ Work.Inv s w

/-! ## What a command can depend on (R41) -/

/-- Two states that agree in everything a command may read: which registers are written, their values, and IN below
IN_LEN. -/
structure SameInputs (s t : State) : Prop where
  written : t.written = s.written
  regs : ∀ r, s.isWritten r = true → t.reg r = s.reg r
  inByte : s.isWritten .inLen = true → ∀ a, a < (s.reg .inLen).toNat → t.inByte a = s.inByte a

/-- Two states that agree in the results of a command: the written registers, and OUT below OUT_LEN. -/
structure SameResults (s t : State) : Prop where
  regs : ∀ r, s.isWritten r = true → t.reg r = s.reg r
  work : s.work = none ∧ t.work = none
  outByte : ∀ a, a < (s.reg .outLen).toNat → t.outByte a = s.outByte a

end Sys2Proof.Machine
end

