-- ==== Sys2Proof/Certificates/Slice0/Obligations.lean ====
section
/-! DEFINITION. The statements for the provers. -/

section

open Sys2Proof Sys2Proof.Machine

/-! ## Encoding -/

/-- Every well-formed instruction's code reads back as it (R90 to R92, R100 to R107): a command word as the command, a token or
framing field, in its format's context, as itself, with the bytes after it left over. -/
def Obligations.DecodeEncodeAgree : Prop :=
  ∀ i : Instr, i.wellFormed = true →
    (i.format = .command → decode .command (encode i) = .ok (i.canon, [])) ∧
    (i.format ≠ .command →
      encode i = .bytes (tokenBytes i) ∧
      ∀ rest : List Byte, decode i.format (.bytes (tokenBytes i ++ rest)) = .ok (i, rest))

/-- What the decoder accepts is well formed, of the context's format, and encodes back to the very bits it was read from. -/
def Obligations.DecodedEncodesBack : Prop :=
  (∀ (w : Word) (i : Instr), decodeCommand w = .ok i →
    i.format = .command ∧ i.wellFormed = true ∧ i.canon = i ∧ encode i = .word w) ∧
  (∀ (f : Format) (bs : List Byte) (i : Instr) (rest : List Byte), decodeBytes f bs = .ok (i, rest) →
    i.format = f ∧ i.wellFormed = true ∧ tokenBytes i ++ rest = bs)

/-- Words of the spec read as the instructions they stand for: command words (R91, R92, R111) and tokens of the examples of
R132, R164, R193, R232 and R263. -/
def Obligations.SpecWordsDecode : Prop :=
  decodeCommand 0x00000001#32 = .ok .r7xDec ∧
  decodeCommand 0x00000104#32 = .ok (.bplEnc .b) ∧
  decodeCommand 0x00000110#32 = .ok (.lcgXor .set1) ∧
  decodeCommand 0x00000122#32 = .ok (.crc32File .verify) ∧
  decodeCommand 0x00000031#32 = .ok .sha256 ∧
  decodeCommand 0x00000041#32 = .ok .sigVerify ∧
  decodeBytes .r7x [0x80#8, 0x81#8, 0x00#8] = .ok (.r7xRun14 0#7 256#14, []) ∧
  decodeBytes .bpl [0xFD#8] = .ok (.bplTok true 125#7, []) ∧
  decodeBytes .dif [0x42#8, 0x05#8, 0x8E#8] = .ok (.difValue0 0x05#8 2#4, [0x8E#8]) ∧
  decodeBytes .dif [0x8E#8] = .ok (.difDelta0 0xE#4, []) ∧
  decodeBytes .nib [0xF0#8, 0x01#8] = .ok (.nibWhite 1#12, []) ∧
  decodeBytes .rgb [0x20#8, 0xF8#8, 0x02#8, 0x30#8] = .ok (.rgbRep 31#5 0#5 0#5 2#12 3#4, [])

/-- R108: with enough bytes before it, no byte pattern of any token format is illegal but the 7-bit-extend length byte
1111xxxx after a flagged colour byte. -/
def Obligations.OnlyIllegalTokenPattern : Prop :=
  ∀ (f : Format) (b0 b1 b2 b3 b4 : Byte) (rest : List Byte), f ≠ .command →
    ((∃ e, decodeBytes f (b0 :: b1 :: b2 :: b3 :: b4 :: rest) = .error e) ↔
      f = .r7x ∧ 0x80 ≤ b0.toNat ∧ 0xF0 ≤ b1.toNat) ∧
    (f = .r7x → 0x80 ≤ b0.toNat → 0xF0 ≤ b1.toNat →
      decodeBytes f (b0 :: b1 :: b2 :: b3 :: b4 :: rest) = .error .illegalPattern)

/-- R93, R91, R92: a CMD word is no command exactly where RSV ≠ 0, or OPC is unassigned, or OPT is not legal for OPC. -/
def Obligations.IllegalCommandWords : Prop :=
  ∀ w : Word,
    (∃ e, decodeCommand w = .error e) ↔
      0x1000 ≤ w.toNat ∨
      ¬ (w.toNat % 0x100) ∈ [0x01, 0x02, 0x03, 0x04, 0x05, 0x06, 0x07, 0x08, 0x09, 0x0A, 0x10, 0x20, 0x21, 0x22, 0x30, 0x31,
        0x40, 0x41] ∨
      1 < w.toNat / 0x100 ∨
      (w.toNat / 0x100 = 1 ∧ ¬ (w.toNat % 0x100) ∈ [0x04, 0x10, 0x20, 0x22])

/-! ## One step -/

/-- A CMD write runs the command its word stands for, as one step (R31, R90); a word that is no command raises
UnsupportedVariant(0) (R93). That CMD then holds the word written, also one that is no command, is the model's reading, which
the spec does not state (log entry 10, DEDUCED, unsafe); that the access stands in a list is the model's too (log entry 8). -/
def Obligations.StepRunsCommand : Prop :=
  ∀ (s : State) (w : Word) (later : List HostOp), s.work = none → s.host = .write 0x00 w :: later →
    (∀ i, decodeCommand w = .ok i → step s = exec i ({ s with host := later }.setReg .cmd w)) ∧
    (∀ e, decodeCommand w = .error e →
      ∃ t, step s = .next t ∧ Raises ({ s with host := later }.setReg .cmd w) t .unsupportedVariant 0 [])

/-- Inside a decoding command a step runs the token that the bytes at the input cursor decode to, reading none at or beyond
the end of the token region; where they are no token it raises CorruptedStream at the cursor (R37, R391). The framing fields
of a diff-chunk stream are its first byte and the byte after its chunks (R103).
Where the stream has ended a step ends the command. A run-length decoder at the end of its token region raises CorruptedStream
there with fewer than P pixels, and otherwise is DONE with the bytes it has written as its output (R132, R193, R232, R262,
R391, R413). BPL.DEC after plane N-1 raises CorruptedStream at the cursor where bytes are left, and otherwise writes the sample
of every pixel's hits and is DONE (R160, R163, R391). That the tokens of a command are steps is the model's (log entry 11). -/
def Obligations.StepRunsToken : Prop :=
  ∀ (s : State) (w : Work), s.work = some w →
    (streamEnded w = false →
      (w.phase = .tokens →
        (∀ i rest, decodeBytes w.stream.format (s.inRange w.ic (w.stop - w.ic)) = .ok (i, rest) → step s = exec i s) ∧
        (∀ e, decodeBytes w.stream.format (s.inRange w.ic (w.stop - w.ic)) = .error e →
          ∃ t, step s = .next t ∧ Raises s t .corruptedStream w.ic [])) ∧
      (w.phase = .magic → step s = exec (.difMagic (s.inByte w.ic)) s) ∧
      (w.phase = .checksum → step s = exec (.difChecksum (s.inByte w.stop)) s)) ∧
    (w.stream ≠ .bpl → w.phase = .tokens → w.stop ≤ w.ic →
      (w.pc ≠ w.pixels → ∃ t, step s = .next t ∧ Raises s t .corruptedStream w.stop []) ∧
      (w.pc = w.pixels → HasRoom s (w.stream.pixelBytes * w.pixels) →
        ∃ t, step s = .next t ∧ Completes s t (s.outRange 0 (w.stream.pixelBytes * w.pixels)) [])) ∧
    (w.stream = .bpl → w.planes ≤ w.plane →
      (w.ic ≠ w.stop → ∃ t, step s = .next t ∧ Raises s t .corruptedStream w.ic []) ∧
      (w.ic = w.stop → HasRoom s w.pixels → w.hits.length = w.pixels → (∀ h ∈ w.hits, h ≤ w.planes) →
        ∃ t, step s = .next t ∧ Completes s t (w.hits.map (sampleBpl w.planes)) []))

/-- The host's register accesses (R31): a write of an RW register stores its named bits and marks it written, a write of an RO
register or a reserved number changes nothing, a read returns the register or 0 for a reserved number and changes no register,
and a read of a register not written since reset is the model fault (R420). The spec does not state, and the model chooses or
infers: that what was read stands in readData (log entry 9, DESIGN CHOICE), that a read of CMD returns the last word written to
it (log entry 10, DEDUCED, unsafe), that a host read faults as a command's does (log entry 7, DEDUCED), and that the accesses
stand in a list (log entry 8, DESIGN CHOICE). -/
def Obligations.HostRegisterAccesses : Prop :=
  ∀ (s : State) (later : List HostOp), s.work = none →
    (∀ (r : Reg) (v : Word), s.host = .write r.number v :: later → r.access = .rw →
      ∃ t, step s = .next t ∧ t.reg r = v &&& r.named ∧ t.isWritten r = true ∧ KeepsRegs s t [r] ∧
        (∀ n, n ≠ r.number → t.written.get n = s.written.get n) ∧
        t.inMem = s.inMem ∧ t.outMem = s.outMem ∧ t.outForgets = s.outForgets ∧ t.work = none ∧ t.host = later ∧
        t.readData = s.readData) ∧
    (∀ (r : Reg) (v : Word), s.host = .write r.number v :: later → r.access = .ro →
      step s = .next { s with host := later }) ∧
    (∀ (n : Fin 64) (v : Word), s.host = .write n v :: later → Reg.ofNumber n = none →
      step s = .next { s with host := later }) ∧
    (∀ (r : Reg), s.host = .read r.number :: later → s.isWritten r = true →
      step s = .next { s with host := later, readData := s.reg r }) ∧
    (∀ (r : Reg), s.host = .read r.number :: later → s.isWritten r = false →
      step s = .fault (.unwrittenRegister r)) ∧
    (∀ (n : Fin 64), s.host = .read n :: later → Reg.ofNumber n = none →
      step s = .next { s with host := later, readData := 0#32 })

/-- The host's buffer accesses (R60, R110): `in.load` fills IN and sets IN_LEN, `in.from_out` copies the last command's output
to IN, and one byte of IN or OUT is written or read. The spec does not state, and the model chooses: that both loads leave
the later bytes of IN alone (log entry 20, DESIGN CHOICE), that a byte access is accepted at any 32-bit offset, also beyond
IN_LEN or OUT_CAP (log entry 23, DESIGN CHOICE), that what was read stands in readData (log entry 9, DESIGN CHOICE), and that
the accesses stand in a list (log entry 8, DESIGN CHOICE). -/
def Obligations.HostBufferAccesses : Prop :=
  ∀ (s : State) (later : List HostOp), s.work = none →
    (∀ bs : List Byte, s.host = .inLoad bs :: later → bs.length < 2 ^ 32 →
      ∃ t, step s = .next t ∧ HoldsInput t bs ∧ (∀ a, bs.length ≤ a → t.inByte a = s.inByte a) ∧ KeepsRegs s t [.inLen] ∧
        t.outMem = s.outMem ∧ t.outForgets = s.outForgets ∧ t.host = later) ∧
    (s.host = .inFromOut :: later →
      ∃ t, step s = .next t ∧ HoldsInput t (s.outRange 0 (s.reg .outLen).toNat) ∧
        (∀ a, (s.reg .outLen).toNat ≤ a → t.inByte a = s.inByte a) ∧ KeepsRegs s t [.inLen] ∧
        t.outMem = s.outMem ∧ t.outForgets = s.outForgets ∧ t.host = later) ∧
    (∀ (a : Word) (b : Byte), s.host = .writeIn a b :: later →
      ∃ t, step s = .next t ∧ (∀ k, t.inByte k = if k = a.toNat then b else s.inByte k) ∧ t.regs = s.regs ∧
        t.outMem = s.outMem ∧ t.host = later) ∧
    (∀ (a : Word) (b : Byte), s.host = .writeOut a b :: later →
      ∃ t, step s = .next t ∧ (∀ k, t.outByte k = if k = a.toNat then b else s.outByte k) ∧ t.regs = s.regs ∧
        t.inMem = s.inMem ∧ t.host = later) ∧
    (∀ a : Word, s.host = .readIn a :: later →
      step s = .next { s with host := later, readData := (s.inByte a.toNat).setWidth 32 }) ∧
    (∀ a : Word, s.host = .readOut a :: later →
      step s = .next { s with host := later, readData := (s.outByte a.toNat).setWidth 32 })

/-- R42, R420: what reset leaves, at power-on and when the platform applies it between commands. CMD, STATUS, ERR_OFF, OUT_LEN,
RESULT and PLANE_LEN are 0 and a reserved number is 0; every RW register counts as not written; OUT has no contents; no command
is running; IN is untouched. The value of an RW register is the model's (log entry 5) and is not stated. That OUT's free
values are drawn anew is how the model says unspecified (log entry 3, DESIGN CHOICE), and that the host's accesses to come
stay is the model's reading (log entry 19, DEDUCED). -/
def Obligations.ResetState : Prop :=
  (∀ r : Reg, r.access ≠ .rw → State.reset.reg r = 0#32 ∧ State.reset.isWritten r = true) ∧
  (∀ r : Reg, r.access = .rw → State.reset.isWritten r = false) ∧
  (∀ n, Reg.ofNumber n = none → State.reset.regs.get n = 0#32) ∧
  (∀ a, State.reset.outMem.get a = none) ∧ State.reset.work = none ∧
  (∀ (s : State) (later : List HostOp), s.work = none → s.host = .reset :: later →
    ∃ t, step s = .next t ∧ (∀ r : Reg, r.access ≠ .rw → t.reg r = 0#32) ∧
      (∀ n, Reg.ofNumber n = none → t.regs.get n = 0#32) ∧ t.written = State.reset.written ∧ t.work = none ∧
      (∀ a, t.inByte a = s.inByte a) ∧ (∀ a, t.outMem.get a = none) ∧
      (∀ a, a < 2 ^ 32 → t.outEpoch a ≠ s.outEpoch a) ∧ t.host = later)

/-- A decoding command run as one atomic step (R30, R70) and run token by token with `step` (R37) end alike: when the command
ends, so do the steps from the state in which it begins to scan its stream, within IN_LEN + 4 of them. -/
def Obligations.AtomicCommandIsItsSteps : Prop :=
  ∀ (i : Instr) (s u t : State), openedStream s i = some u → LegalConfig s i → LongEnough s i →
    Ready s [.inLen, .width, .height] → (i = .bplDec → s.isWritten .aaN = true) →
    (∀ size, fixedSize s i = some size → HasRoom s size) →
    exec i s = .next t →
    ∃ k, k ≤ (s.reg .inLen).toNat + 4 ∧ core.run k u = .next t ∧ t.work = none

/-! ## Invariants and whole-machine rules -/

/-- Every step keeps the invariant: memories in canonical form, reserved and unnamed bits 0, STATUS legal, and the working
registers of a decoding command in their ranges (that `ic` is 0 until DIF.DEC has passed the magic is the model's, log entry
27). -/
def Obligations.StepKeepsInvariant : Prop :=
  ∀ s t : State, Inv s → step s = .next t → Inv t

/-- The invariant holds right after reset. -/
def Obligations.ResetMeetsInvariant : Prop := Inv State.reset

/-- R422: an RW register keeps the value the host last wrote, across any step, until the host writes it again (a write of its
number, or of IN_LEN through a buffer load) or reset clears it. No command writes an RW register. -/
def Obligations.ConfigurationPersists : Prop :=
  ∀ (s t : State) (r : Reg), step s = .next t → r.access = .rw →
    (t.reg r = s.reg r ∧ t.isWritten r = s.isWritten r) ∨
    (s.work = none ∧ ∃ later, (∃ v, s.host = .write r.number v :: later) ∨ s.host = .reset :: later ∨
      (r = .inLen ∧ ((∃ bs, s.host = .inLoad bs :: later) ∨ s.host = .inFromOut :: later)))

/-- What no instruction changes, whatever it does: IN, which registers count as written, CMD, every RW register, every reserved
number, the host's accesses to come and its last read (R60, R422, R31). -/
def Obligations.InstructionFrame : Prop :=
  ∀ (i : Instr) (s t : State), exec i s = .next t →
    KeepsHost s t ∧ t.inMem = s.inMem ∧
    (∀ r : Reg, r.access ≠ .ro → t.reg r = s.reg r) ∧
    (∀ n, Reg.ofNumber n = none → t.regs.get n = s.regs.get n)

/-- R62: a write to OUT is performed only below OUT_CAP and changes no other byte, and no instruction changes a byte of OUT at
or beyond OUT_CAP. -/
def Obligations.NoWriteBeyondCapacity : Prop :=
  (∀ (s : State) (a : Nat) (v : Byte) (k : Nat),
    (s.putOut a [v]).outByte k = if k = a ∧ a < (s.reg .outCap).toNat then v else s.outByte k) ∧
  (∀ (s : State) (a : Nat) (v : Byte), ∃ m, s.putOut a [v] = { s with outMem := m }) ∧
  (∀ (i : Instr) (s t : State), exec i s = .next t → s.isWritten .outCap = true →
    ∀ a, (s.reg .outCap).toNat ≤ a → t.outMem.get a = s.outMem.get a ∧ t.outByte a = s.outByte a)

/-- R430: RESULT is written only by CRC16, CRC32 and CRC32.FILE, PLANE_LEN only by a BPL.ENC that ends DONE. -/
def Obligations.StaleResults : Prop :=
  ∀ (i : Instr) (s t : State), exec i s = .next t →
    (i ∉ crc16Names.map Prod.fst ++ [.crc32] ++ sealNames ++ checkNames → t.reg .result = s.reg .result) ∧
    (∀ k, (i ∉ bplEncoders.map Prod.fst ∨ t.reg .status ≠ 0x00000002#32) → t.reg (.planeLen k) = s.reg (.planeLen k))

/-- A command runs to its end in one step (R30, R426): it faults on a register it reads that has not been written (R35), and
otherwise ends DONE or ERROR with no command left running, and never stops otherwise. After ERROR, STATUS, ERR_OFF and OUT_LEN
are as R392 says, ERR_OFF an offset in IN (R413). After DONE, STATUS and ERR_OFF are as R393 says, and OUT_LEN is the output
size where that is fixed in advance (R65), at most OUT_CAP where the command may write OUT (R62), and 0 where its rule writes
no output (R63).
A command that comes to read a register not written since reset does fault, at the first line of its pseudocode that reads one
(R35, R396, R401), and one that finds all it comes to read written does not. For RGB.ENC the first `emit` reads OUT_CAP, and
RGB_REP_HI too where it is of a flagged token; and the first flagged token reads RGB_REP_HI once the plain words before it have
fitted (R263). Which of two registers of one line is named is not stated. -/
def Obligations.CommandsEnd : Prop :=
  (∀ (i : Instr) (s : State), i.format = .command →
    (∃ r, exec i s = .fault (.unwrittenRegister r) ∧ r ∈ commandReads s i ∧ r.access = .rw ∧ s.isWritten r = false) ∨
    (∃ t, exec i s = .next t ∧ t.work = none ∧
      ((t.reg .status = 0x00000002#32 ∧ t.reg .errOff = 0#32 ∧
          (∀ size, fixedSize s i = some size → (t.reg .outLen).toNat = size) ∧
          (.outCap ∈ commandReads s i → (t.reg .outLen).toNat ≤ (s.reg .outCap).toNat) ∧
          (.outCap ∉ commandReads s i → t.reg .outLen = 0#32)) ∨
        (∃ e, t.reg .status = errorStatus e ∧ t.reg .outLen = 0#32 ∧
          (t.reg .errOff = 0#32 ∨
            (.inLen ∈ commandReads s i ∧ (t.reg .errOff).toNat ≤ (s.reg .inLen).toNat)))))) ∧
  (∀ (i : Instr) (s : State) (before after : List (List Reg)) (g : List Reg), i.format = .command →
    readGroups s i = before ++ g :: after → (∀ g' ∈ before, Ready s g') → ¬ Ready s g →
    ∃ r ∈ g, s.isWritten r = false ∧ exec i s = .fault (.unwrittenRegister r)) ∧
  (∀ (i : Instr) (s : State), i.format = .command → (∀ g ∈ readGroups s i, Ready s g) →
    (i = .rgbEnc → Ready s [.outCap, .rgbRepHi]) → ∃ t, exec i s = .next t) ∧
  (∀ s : State, Ready s [.width, .height, .inLen] → (s.reg .inLen).toNat = 3 * pixelCount s → 0 < pixelCount s →
    s.isWritten .outCap = false →
    ∃ r ∈ [Reg.outCap, Reg.rgbRepHi], s.isWritten r = false ∧ exec .rgbEnc s = .fault (.unwrittenRegister r)) ∧
  (∀ (s : State) (bmp : List Byte) (runs before after : List (Rgb15 × Nat)) (c : Rgb15) (l : Nat), HoldsBitmap s 3 bmp →
    IsRuns (packedColours (pixelCount s) bmp) runs → cutRuns (fun _ => 4096) runs = before ++ (c, l) :: after →
    (∀ p ∈ before, p.2 ≤ 2) → 2 < l → HasRoom s (2 * (before.map Prod.snd).sum) → s.isWritten .rgbRepHi = false →
    exec .rgbEnc s = .fault (.unwrittenRegister .rgbRepHi))

/-- R41: a command's outcome and its results are a function of the written registers and of IN below IN_LEN. Two states that
agree there, whatever else they hold, fault alike, or end with the same registers and the same OUT below OUT_LEN. -/
def Obligations.CommandsAreDeterministic : Prop :=
  ∀ (i : Instr) (s t : State), i.format = .command → SameInputs s t →
    (∀ f, exec i s = .fault f → exec i t = .fault f) ∧
    (∀ s', exec i s = .next s' → ∃ t', exec i t = .next t' ∧ SameResults s' t')

/-! ## Tokens -/

/-- A run-length token of R7X.PIX, R7X.RUN7, R7X.RUN14, R7X.RUN21, R7X.RUN28, DIF.ZERO0 to 3, DIF.VALUE0 to 3, DIF.MAX0 to 3,
NIB.BLACK, NIB.WHITE, NIB.GREY, RGB.WORD or RGB.REP that ends within its region and within P produces its L pixels at pixel
`pc` and moves the cursor past its bytes, and changes nothing else (R37, R131, R191, R231, R262). -/
def Obligations.RunTokensProducePixels : Prop :=
  ∀ (i : Instr) (k : RunToken) (s : State) (w : Work), runToken i = some k →
    s.work = some w → w.stream = k.stream → w.phase = .tokens →
    w.ic + k.size ≤ w.stop → w.pc + k.len ≤ w.pixels → HasRoom s (k.pixel.length * w.pixels) →
    ∃ t, exec i s = .next t ∧
      Advances s t { w with tok := w.ic, ic := w.ic + k.size, pc := w.pc + k.len, prev := k.prevAfter w }
        (k.pixel.length * w.pc) (List.replicate k.len k.pixel).flatten

/-- A DIF.DELTA0, DIF.DELTA1, DIF.DELTA2 or DIF.DELTA3 chunk whose value `prev + d` is in 0 to 255 produces L pixels of that
value, the delta applied once for the run; with L = 0 it produces none and leaves `prev` (R191, R193). -/
def Obligations.DeltaChunksProducePixels : Prop :=
  ∀ (i : Instr) (k : DeltaToken) (s : State) (w : Work), deltaToken i = some k →
    s.work = some w → w.stream = .dif → w.phase = .tokens →
    w.ic + k.size ≤ w.stop → w.pc + k.len ≤ w.pixels → HasRoom s w.pixels →
    0 ≤ (w.prev.toNat : Int) + k.delta → (w.prev.toNat : Int) + k.delta ≤ 255 →
    ∃ t, exec i s = .next t ∧
      Advances s t
        { w with
          tok := w.ic, ic := w.ic + k.size, pc := w.pc + k.len
          prev := if 0 < k.len then byteOf ((w.prev.toNat : Int) + k.delta).toNat else w.prev }
        w.pc (List.replicate k.len (byteOf ((w.prev.toNat : Int) + k.delta).toNat))

/-- BPL.TOK in a plane not yet complete gives its state to L pixels: one more hit for each where the state is on. A plane that
then holds P pixels ends, and the next begins at pixel 0; with P = 0 all planes end (R162, R163). OUT is not written. -/
def Obligations.BitplaneTokensCountHits : Prop :=
  ∀ (on : Bool) (l : BitVec 7) (s : State) (w : Work),
    s.work = some w → w.stream = .bpl → w.phase = .tokens → w.ic + 1 ≤ w.stop → w.plane < w.planes →
    w.pc + l.toNat ≤ w.pixels →
    ∃ t w', exec (.bplTok on l) s = .next t ∧ Advances s t w' 0 [] ∧
      w'.stream = w.stream ∧ w'.phase = w.phase ∧ w'.tok = w.ic ∧ w'.ic = w.ic + 1 ∧ w'.pixels = w.pixels ∧
      w'.stop = w.stop ∧ w'.prev = w.prev ∧ w'.planes = w.planes ∧
      (w.pc + l.toNat < w.pixels → w'.plane = w.plane ∧ w'.pc = w.pc + l.toNat) ∧
      (w.pc + l.toNat = w.pixels → 0 < w.pixels → w'.plane = w.plane + 1 ∧ w'.pc = 0) ∧
      (w.pixels = 0 → w'.plane = w.planes) ∧
      w'.hits.length = w.hits.length ∧
      ∀ (p : Nat) (h : p < w.hits.length) (h' : p < w'.hits.length),
        w'.hits[p] = w.hits[p] + (if on = true ∧ w.pc ≤ p ∧ p < w.pc + l.toNat then 1 else 0)

/-- The framing fields that are as they should be: DIF.MAGIC equal to DIFF_MAGIC is passed (R103, R193), DIF.CHECKSUM equal to
the complemented sum of the chunk bytes is accepted before any pixel (R192, R193), and NIB.TRAILER is passed whatever it holds
(R234; that the cursor passes it is the model's, log entry 16). None writes OUT. That `ic` is 1 as soon as the magic is passed
is the model's (log entry 27), and so is what each does at a cursor that no step brings it to, NIB.TRAILER past the end of the
token region among them (log entry 28, DESIGN CHOICE). -/
def Obligations.FramingFieldsPass : Prop :=
  ∀ (s : State) (w : Work), s.work = some w →
    (∀ m : Byte, w.stream = .dif → w.phase = .magic → s.isWritten .diffMagic = true →
      s.reg .diffMagic = m.setWidth 32 →
      ∃ t, exec (.difMagic m) s = .next t ∧ Advances s t { w with phase := .checksum, ic := 1 } 0 []) ∧
    (∀ k : Byte, w.stream = .dif → w.phase = .checksum → k = complementSum (s.inRange 1 (w.stop - 1)) →
      ∃ t, exec (.difChecksum k) s = .next t ∧ Advances s t { w with phase := .tokens } 0 []) ∧
    (∀ f : BitVec 16, w.stream = .nib → w.phase = .tokens → w.stop ≤ w.ic →
      ∃ t, exec (.nibTrailer f) s = .next t ∧ Advances s t { w with tok := w.ic, ic := w.ic + 2 } 0 [])

/-- Where a token or framing field raises instead: a token that needs a byte at or beyond the end of its region is
CorruptedStream at its offset; then a DELTA outside 0 to 255 is CorruptedStream, also for L = 0; then a token past P is
BufferOverrun at its offset, whatever its pixels (R37, R191, R391, R395, R401); a byte after the last bitplane is
CorruptedStream at it (R163); a wrong magic is CorruptedStream(0) and a wrong checksum ChecksumMismatch at it (R193, R394). And
DIF.DEC and NIB.DEC on an IN of fewer than two bytes, too short for the framing, are CorruptedStream(0) once P fits OUT_CAP
(R193, R232, R391, R401, R413). -/
def Obligations.TokenErrors : Prop :=
  (∀ (i : Instr) (s : State), i ∈ [.difDec, .nibDec] → Ready s [.inLen, .width, .height] → HasRoom s (pixelCount s) →
    (s.reg .inLen).toNat < 2 → ∃ t, exec i s = .next t ∧ Raises s t .corruptedStream 0 []) ∧
  ∀ (s : State) (w : Work), s.work = some w →
    (∀ i k, runToken i = some k → w.stream = k.stream → w.phase = .tokens →
      (w.stop < w.ic + k.size → ∃ t, exec i s = .next t ∧ Raises s t .corruptedStream w.ic []) ∧
      (w.ic + k.size ≤ w.stop → w.pixels < w.pc + k.len →
        ∃ t, exec i s = .next t ∧ Raises s t .bufferOverrun w.ic [])) ∧
    (∀ i k, deltaToken i = some k → w.stream = .dif → w.phase = .tokens →
      (w.stop < w.ic + k.size → ∃ t, exec i s = .next t ∧ Raises s t .corruptedStream w.ic []) ∧
      (w.ic + k.size ≤ w.stop → ((w.prev.toNat : Int) + k.delta < 0 ∨ 255 < (w.prev.toNat : Int) + k.delta) →
        ∃ t, exec i s = .next t ∧ Raises s t .corruptedStream w.ic []) ∧
      (w.ic + k.size ≤ w.stop → 0 ≤ (w.prev.toNat : Int) + k.delta → (w.prev.toNat : Int) + k.delta ≤ 255 →
        w.pixels < w.pc + k.len → ∃ t, exec i s = .next t ∧ Raises s t .bufferOverrun w.ic [])) ∧
    (∀ on l, w.stream = .bpl → w.phase = .tokens →
      (w.stop < w.ic + 1 → ∃ t, exec (.bplTok on l) s = .next t ∧ Raises s t .corruptedStream w.ic []) ∧
      (w.ic + 1 ≤ w.stop → w.planes ≤ w.plane →
        ∃ t, exec (.bplTok on l) s = .next t ∧ Raises s t .corruptedStream w.ic []) ∧
      (w.ic + 1 ≤ w.stop → w.plane < w.planes → w.pixels < w.pc + l.toNat →
        ∃ t, exec (.bplTok on l) s = .next t ∧ Raises s t .bufferOverrun w.ic [])) ∧
    (∀ m : Byte, w.stream = .dif → w.phase = .magic → s.isWritten .diffMagic = true →
      s.reg .diffMagic ≠ m.setWidth 32 →
      ∃ t, exec (.difMagic m) s = .next t ∧ Raises s t .corruptedStream 0 []) ∧
    (∀ k : Byte, w.stream = .dif → w.phase = .checksum → k ≠ complementSum (s.inRange 1 (w.stop - 1)) →
      ∃ t, exec (.difChecksum k) s = .next t ∧ Raises s t .checksumMismatch w.stop [])

/-! ## Decoding commands -/

/-- R7X.DEC on any sequence of 7-bit-extend tokens that stands for P pixels, P ≤ OUT_CAP, writes those pixels (R131, R132). -/
def Obligations.R7xDecodesItsTokens : Prop :=
  ∀ (s : State) (toks : List Instr), (∀ i ∈ toks, i.format = .r7x) → HoldsInput s (streamBytes toks) →
    Ready s [.width, .height] → HasRoom s (pixelCount s) → (streamPixels toks).length = pixelCount s →
    ∃ t, exec .r7xDec s = .next t ∧ Completes s t (streamPixels toks) []

/-- BPL.DEC on N planes of P pixels, back to back, writes for each pixel the sample of the number of planes in which it is on
(R160, R162, R163). -/
def Obligations.BplDecodesItsPlanes : Prop :=
  ∀ (s : State) (planes : List Plane), 1 ≤ planes.length → planes.length ≤ 16 →
    s.isWritten .aaN = true → (s.reg .aaN).toNat = planes.length →
    (∀ pl ∈ planes, IsPlane (pixelCount s) pl) → HoldsInput s (planes.map planeBytes).flatten →
    Ready s [.width, .height] → HasRoom s (pixelCount s) →
    ∃ t, exec .bplDec s = .next t ∧ Completes s t (planeSamples (pixelCount s) planes) []

/-- DIF.DEC on DIFF_MAGIC, any chunks whose values stay in 0 to 255 and that make P pixels, and the complemented sum of the
chunk bytes, writes those pixels (R103, R191 to R193). -/
def Obligations.DifDecodesItsChunks : Prop :=
  ∀ (s : State) (magic : Byte) (toks : List Instr) (px : List Byte), (∀ i ∈ toks, i.format = .dif) →
    difPixels 0#8 toks = some px →
    HoldsInput s ([magic] ++ streamBytes toks ++ [complementSum (streamBytes toks)]) →
    s.isWritten .diffMagic = true → s.reg .diffMagic = magic.setWidth 32 →
    Ready s [.width, .height] → HasRoom s (pixelCount s) → px.length = pixelCount s →
    ∃ t, exec .difDec s = .next t ∧ Completes s t px []

/-- NIB.DEC on any sequence of nibble tokens that stands for P pixels and any two trailer bytes writes those pixels: it never
checks the trailer (R231, R232, R234). -/
def Obligations.NibDecodesItsTokens : Prop :=
  ∀ (s : State) (toks : List Instr) (f0 f1 : Byte), (∀ i ∈ toks, i.format = .nib ∧ i.wellFormed = true) →
    HoldsInput s (streamBytes toks ++ [f0, f1]) →
    Ready s [.width, .height] → HasRoom s (pixelCount s) → (streamPixels toks).length = pixelCount s →
    ∃ t, exec .nibDec s = .next t ∧ Completes s t (streamPixels toks) []

/-- RGB.DEC on any sequence of RGB15 tokens that stands for P pixels, 3P ≤ OUT_CAP, writes their 3P bytes (R106, R261, R262). -/
def Obligations.RgbDecodesItsTokens : Prop :=
  ∀ (s : State) (toks : List Instr), (∀ i ∈ toks, i.format = .rgb) → HoldsInput s (streamBytes toks) →
    Ready s [.width, .height] → HasRoom s (3 * pixelCount s) → (streamPixels toks).length = 3 * pixelCount s →
    ∃ t, exec .rgbDec s = .next t ∧ Completes s t (streamPixels toks) []

/-- R65: a command whose output size S is fixed in advance (P for R7X.DEC, BPL.DEC, DIF.DEC and NIB.DEC, 3P for RGB.DEC with P
exact, 20 for SHA1, 32 for SHA256 and SIG.GEN, 4 for CRC32.FILE in seal mode, IN_LEN for LCG.XOR, and their pseudo-instructions)
raises BufferOverrun(0) where S > OUT_CAP, once the configuration checks of R401 step 1 are passed. -/
def Obligations.CapacityPreCheck : Prop :=
  ∀ (i : Instr) (s : State) (size : Nat), fixedSize s i = some size → LegalConfig s i →
    Ready s (commandReads s i) → (s.reg .outCap).toNat < size →
    ∃ t, exec i s = .next t ∧ Raises s t .bufferOverrun 0 []

/-- BPL.DEC and BPL.ENC with AA_N outside 1 to 16, and SIG.GEN and SIG.VERIFY with an illegal SIG_FIELD_BYTES or AES_KLEN, raise
UnsupportedVariant(0) before any other check (R166, R372, R373, R390, R401). -/
def Obligations.UnsupportedConfiguration : Prop :=
  ∀ (i : Instr) (s : State),
    (i ∈ [.bplDec] ++ bplEncoders.map Prod.fst → s.isWritten .aaN = true →
      ((s.reg .aaN).toNat = 0 ∨ 16 < (s.reg .aaN).toNat) →
      ∃ t, exec i s = .next t ∧ Raises s t .unsupportedVariant 0 []) ∧
    (i ∈ [.sigGen, .sigVerify] → s.isWritten .sigFieldBytes = true → s.isWritten .aesKlen = true →
      ¬ LegalConfig s .sigGen →
      ∃ t, exec i s = .next t ∧ Raises s t .unsupportedVariant 0 [])

/-! ## Encoding commands -/

/-- R14: the pieces the encoders work on are the maximal runs of a sequence of keys, put in order, each cut greedily at its
key's maximum, and each piece knows the index of its first pixel. -/
def Obligations.PiecesAreGreedyCutsOfMaximalRuns : Prop :=
  ∀ (κ : Type) [DecidableEq κ] (keys : List κ) (max : κ → Nat), (∀ k, 0 < max k) →
    IsRuns keys (runsOf keys) ∧
    (∀ runs, IsRuns keys runs → runs = runsOf keys) ∧
    (piecesOf max keys).map (fun p => (p.key, p.len)) = cutRuns max (runsOf keys) ∧
    (∀ (k : Nat) (h : k < (piecesOf max keys).length),
      (piecesOf max keys)[k].start = (((piecesOf max keys).take k).map RunPiece.len).sum)

/-- R134: for 1 ≤ L ≤ 0x0FFFFFFF the encoder's token is the one of the table, it stands for L pixels of its colour, and no
7-bit-extend token of that colour and length is shorter. -/
def Obligations.Tok7TakesTheSmallestClass : Prop :=
  ∀ (c : BitVec 7) (l : Nat), 1 ≤ l → l ≤ 0x0FFFFFFF →
    tokenBytes (tok7 c l) = tok7Bytes c l ∧
    runToken (tok7 c l) = some ⟨.r7x, (tok7Bytes c l).length, l, [sample7 c]⟩ ∧
    (∀ i k, runToken i = some k → k.stream = .r7x → k.len = l → (tok7Bytes c l).length ≤ k.size)

/-- R194, R196: the chunk of a piece is the first among the candidates with the fewest bytes; it is built by the table; it is
the chunk that the rule's stated results name; and it stands for L pixels of the piece's value after `prev`. -/
def Obligations.ChunkChoice : Prop :=
  ∀ (v prev : Byte) (l : Nat), 1 ≤ l → l ≤ 0x0FFFFFFF →
    (∃ before after, candidateBytes v l prev = before ++ tokenBytes (chooseChunk v l prev) :: after ∧
      (∀ c ∈ before, (tokenBytes (chooseChunk v l prev)).length < c.length) ∧
      (∀ c ∈ after, (tokenBytes (chooseChunk v l prev)).length ≤ c.length)) ∧
    tokenBytes (chooseChunk v l prev) = chunkBytes v l prev ∧
    difPixels prev [chooseChunk v l prev] = some (List.replicate l v)

/-- R7X.ENC on a bitmap of P pixels: the tokens of R134 for the greedy pieces of its maximal runs of equal colour, where they
fit OUT (R133). -/
def Obligations.R7xEncodes : Prop :=
  ∀ (s : State) (bmp : List Byte) (runs : List (BitVec 7 × Nat)) (out : List Byte), HoldsBitmap s 1 bmp →
    IsRuns (bmp.map fun b => BitVec.ofNat 7 (b.toNat / 2)) runs →
    out = ((cutRuns (fun _ => 0x0FFFFFFF) runs).map fun p => tok7Bytes p.1 p.2).flatten →
    HasRoom s out.length →
    ∃ t, exec .r7xEnc s = .next t ∧ Completes s t out []

/-- BPL.ENC, BPL.ENC.A and BPL.ENC.B on a bitmap of P pixels: for each plane the tokens of its maximal runs cut at 125, and
PLANE_LEN the byte length of each plane and 0 from N on (R161, R164). -/
def Obligations.BplEncodes : Prop :=
  ∀ (i : Instr) (v : Variant) (s : State) (bmp : List Byte) (n : Nat) (runs : List (List (Bool × Nat))),
    (i, v) ∈ bplEncoders → HoldsBitmap s 1 bmp → s.isWritten .aaN = true → (s.reg .aaN).toNat = n → 1 ≤ n → n ≤ 16 →
    runs.length = n → (∀ (k : Nat) (h : k < runs.length), IsRuns (planeOf v n bmp k) runs[k]) →
    HasRoom s (runs.map planeStream).flatten.length →
    ∃ t, exec i s = .next t ∧
      Completes s t (runs.map planeStream).flatten
        ((List.finRange 16).map fun k => (.planeLen k, BitVec.ofNat 32 ((runs.map planeStream).getD k []).length))

/-- DIF.ENC on a bitmap of P pixels: DIFF_MAGIC, the chunks of R194 and R196 for the greedy pieces of its maximal runs, and the
complemented sum of the chunk bytes, where they fit OUT (R103, R192, R195). -/
def Obligations.DifEncodes : Prop :=
  ∀ (s : State) (magic : Byte) (bmp : List Byte) (runs : List (Byte × Nat)) (chunks : List Byte), HoldsBitmap s 1 bmp →
    s.isWritten .diffMagic = true → s.reg .diffMagic = magic.setWidth 32 → IsRuns bmp runs →
    chunks = chunkStream 0#8 (cutRuns (fun _ => 0x0FFFFFFF) runs) → HasRoom s (chunks.length + 2) →
    ∃ t, exec .difEnc s = .next t ∧ Completes s t ([magic] ++ chunks ++ [complementSum chunks]) []

/-- NIB.ENC on a bitmap of P pixels: the tokens for the greedy pieces of its maximal runs of equal top nibble, and the
little-endian CRC16_FINISH of the CRC-16 register after the token bytes, where they fit OUT (R233). -/
def Obligations.NibEncodes : Prop :=
  ∀ (s : State) (init : BitVec 16) (bmp : List Byte) (runs : List (BitVec 4 × Nat)) (toks : List Byte),
    HoldsBitmap s 1 bmp → s.isWritten .crc16Init = true → s.reg .crc16Init = init.setWidth 32 →
    IsRuns (bmp.map fun b => BitVec.ofNat 4 (b.toNat / 16)) runs →
    toks = ((cutRuns (fun q => if q.toNat = 0 ∨ q.toNat = 15 then 4095 else 15) runs).map fun p => nibBytes p.1 p.2).flatten →
    HasRoom s (toks.length + 2) →
    ∃ t, exec .nibEnc s = .next t ∧
      Completes s t (toks ++ leBytes 2 (Config.crc16Finish (bitSerialCrc 0xA001#16 init toks)).toNat) []

/-- RGB.ENC on a bitmap of P pixels of three bytes: the tokens for the greedy pieces of its maximal runs of equal packed colour,
where they fit OUT (R260, R263). -/
def Obligations.RgbEncodes : Prop :=
  ∀ (s : State) (hi : BitVec 4) (bmp : List Byte) (runs : List (Rgb15 × Nat)) (out : List Byte), HoldsBitmap s 3 bmp →
    s.isWritten .rgbRepHi = true → s.reg .rgbRepHi = hi.setWidth 32 →
    IsRuns ((List.range (pixelCount s)).map fun p =>
      ⟨BitVec.ofNat 5 ((bmp.getD (3 * p) 0#8).toNat / 8), BitVec.ofNat 5 ((bmp.getD (3 * p + 1) 0#8).toNat / 8),
        BitVec.ofNat 5 ((bmp.getD (3 * p + 2) 0#8).toNat / 8)⟩) runs →
    out = ((cutRuns (fun _ => 4096) runs).map fun p => rgbBytes hi p.1 p.2).flatten →
    HasRoom s out.length →
    ∃ t, exec .rgbEnc s = .next t ∧ Completes s t out []

/-- Where R7X.ENC, BPL.ENC, BPL.ENC.A, BPL.ENC.B, DIF.ENC, NIB.ENC and RGB.ENC raise: IN_LEN ≠ P, 3P for RGB.ENC, is
CorruptedStream(0) (R391), checked after AA_N (R401). Otherwise the first `emit` of the encoder's rule whose bytes end beyond
OUT_CAP, all earlier ones having fitted, raises BufferOverrun at the offset that rule states: the first pixel of the piece,
within its plane for BPL.ENC, three times it for RGB.ENC; 0 for the magic; P for the checksum and the trailer (R64, R133,
R164, R195, R233, R263, R413). With room for all the command ends DONE. The last two clauses say the same of `emit` itself,
for any bytes and offsets (R64). -/
def Obligations.EncoderErrors : Prop :=
  (∀ (i : Instr) (s : State), i ∈ [.r7xEnc, .bplEnc .a, .bplEnc .b, .bplEncA, .bplEncB, .difEnc, .nibEnc, .rgbEnc] →
    Ready s (commandReads s i) → (i ∈ bplEncoders.map Prod.fst → LegalConfig s .bplDec) →
    (s.reg .inLen).toNat ≠ (if i = .rgbEnc then 3 else 1) * pixelCount s →
    ∃ t, exec i s = .next t ∧ Raises s t .corruptedStream 0 []) ∧
  (∀ (i : Instr) (s : State) (bmp : List Byte) (es : List Piece), IsEmits s bmp es i →
    HoldsBitmap s (if i = .rgbEnc then 3 else 1) bmp → Ready s (commandReads s i) →
    (i ∈ bplEncoders.map Prod.fst → LegalConfig s .bplDec) →
    (∀ (before after : List Piece) (p : Piece), es = before ++ p :: after →
      (pieceBytes before).length ≤ (s.reg .outCap).toNat →
      (s.reg .outCap).toNat < (pieceBytes before).length + p.bytes.length →
      ∃ t, exec i s = .next t ∧ Raises s t .bufferOverrun p.errOff []) ∧
    ((pieceBytes es).length ≤ (s.reg .outCap).toNat →
      ∃ t, exec i s = .next t ∧ t.reg .status = 0x00000002#32 ∧ (t.reg .outLen).toNat = (pieceBytes es).length)) ∧
  (∀ (s : State) (before after : List Piece) (p : Piece), s.isWritten .outCap = true →
    (pieceBytes before).length ≤ (s.reg .outCap).toNat →
    (s.reg .outCap).toNat < (pieceBytes before).length + p.bytes.length →
    ∃ t, emitCommand s (before ++ p :: after) = .next t ∧ Raises s t .bufferOverrun p.errOff []) ∧
  (∀ (s : State) (ps : List Piece), HasRoom s (pieceBytes ps).length →
    ∃ t, emitCommand s ps = .next t ∧ Completes s t (pieceBytes ps) [])

/-- R431: with OUT_CAP at the worst case an encoder never overruns: P bytes for R7X.ENC, N · P for BPL.ENC, 2P + 2 for DIF.ENC
and NIB.ENC, 2P for RGB.ENC; it ends DONE with no more than that. -/
def Obligations.WorstCaseSizes : Prop :=
  ∀ (s : State) (bmp : List Byte),
    (HoldsBitmap s 1 bmp → HasRoom s (pixelCount s) →
      ∃ t, exec .r7xEnc s = .next t ∧ t.reg .status = 0x00000002#32 ∧ (t.reg .outLen).toNat ≤ pixelCount s) ∧
    (∀ i ∈ bplEncoders.map Prod.fst, HoldsBitmap s 1 bmp → s.isWritten .aaN = true → LegalConfig s .bplDec →
      HasRoom s ((s.reg .aaN).toNat * pixelCount s) →
      ∃ t, exec i s = .next t ∧ t.reg .status = 0x00000002#32 ∧
        (t.reg .outLen).toNat ≤ (s.reg .aaN).toNat * pixelCount s) ∧
    (HoldsBitmap s 1 bmp → s.isWritten .diffMagic = true → HasRoom s (2 * pixelCount s + 2) →
      ∃ t, exec .difEnc s = .next t ∧ t.reg .status = 0x00000002#32 ∧ (t.reg .outLen).toNat ≤ 2 * pixelCount s + 2) ∧
    (HoldsBitmap s 1 bmp → s.isWritten .crc16Init = true → HasRoom s (2 * pixelCount s + 2) →
      ∃ t, exec .nibEnc s = .next t ∧ t.reg .status = 0x00000002#32 ∧ (t.reg .outLen).toNat ≤ 2 * pixelCount s + 2) ∧
    (HoldsBitmap s 3 bmp → s.isWritten .rgbRepHi = true → HasRoom s (2 * pixelCount s) →
      ∃ t, exec .rgbEnc s = .next t ∧ t.reg .status = 0x00000002#32 ∧ (t.reg .outLen).toNat ≤ 2 * pixelCount s)

/-! ## Round trips: an encode, `in.from_out`, and a decode -/

/-- R135: what R7X.ENC wrote, R7X.DEC turns into the bitmap with every sample canonical: 0 for 0 and 1, and otherwise `s | 1`. -/
def Obligations.R7xRoundTrip : Prop :=
  ∀ (s t u : State) (bmp : List Byte), HoldsBitmap s 1 bmp → HasRoom s (pixelCount s) →
    exec .r7xEnc s = .next t → hostInFromOut t = .next u →
    ∃ v, exec .r7xDec u = .next v ∧
      Completes u v (bmp.map fun b => if b.toNat ≤ 1 then 0#8 else b ||| 1#8) []

/-- R165: what BPL.ENC wrote with a variant and ended DONE, with P ≤ OUT_CAP, BPL.DEC turns into the bitmap with
canonBP of that variant in every sample. -/
def Obligations.BplRoundTrip : Prop :=
  ∀ (i : Instr) (x : Variant) (s t u : State) (bmp : List Byte), (i, x) ∈ bplEncoders → HoldsBitmap s 1 bmp →
    s.isWritten .aaN = true → LegalConfig s .bplDec → HasRoom s (pixelCount s) →
    exec i s = .next t → t.reg .status = 0x00000002#32 → hostInFromOut t = .next u →
    ∃ v, exec .bplDec u = .next v ∧ Completes u v (bmp.map (canonLevel x (s.reg .aaN).toNat)) []

/-- R197: what DIF.ENC wrote and ended DONE, with P ≤ OUT_CAP, DIF.DEC turns into the very bitmap, under the same DIFF_MAGIC. -/
def Obligations.DifRoundTrip : Prop :=
  ∀ (s t u : State) (bmp : List Byte), HoldsBitmap s 1 bmp → s.isWritten .diffMagic = true →
    HasRoom s (pixelCount s) → exec .difEnc s = .next t → t.reg .status = 0x00000002#32 → hostInFromOut t = .next u →
    ∃ v, exec .difDec u = .next v ∧ Completes u v bmp []

/-- R235: what NIB.ENC wrote and ended DONE, with P ≤ OUT_CAP, NIB.DEC turns into the bitmap with every sample
`(s >> 4) * 17`. -/
def Obligations.NibRoundTrip : Prop :=
  ∀ (s t u : State) (bmp : List Byte), HoldsBitmap s 1 bmp → s.isWritten .crc16Init = true →
    HasRoom s (pixelCount s) → exec .nibEnc s = .next t → t.reg .status = 0x00000002#32 → hostInFromOut t = .next u →
    ∃ v, exec .nibDec u = .next v ∧ Completes u v (bmp.map fun b => byteOf (b.toNat / 16 * 17)) []

/-- R264: what RGB.ENC wrote, RGB.DEC turns into the bitmap with the low 3 bits of every sample 0. -/
def Obligations.RgbRoundTrip : Prop :=
  ∀ (s t u : State) (bmp : List Byte), HoldsBitmap s 3 bmp → s.isWritten .rgbRepHi = true →
    HasRoom s (3 * pixelCount s) → exec .rgbEnc s = .next t → hostInFromOut t = .next u →
    ∃ v, exec .rgbDec u = .next v ∧ Completes u v (canonBytesRgb bmp) []

/-- R161 and R165 over every level N, threshold variant and sample: for 1 ≤ l ≤ N ≤ 16 a threshold is in 1 to 255 and rises
strictly with l, so a sample is at or above the first thresholds only, as many as there are at or below it; and canonBP is
idempotent for variant B at every N, and for variant A exactly at N in 1 to 12 and 15. -/
def Obligations.BitplaneLevels : Prop :=
  ∀ n, 1 ≤ n → n ≤ 16 →
    (∀ (v : Variant) (l : Nat), 1 ≤ l → l ≤ n →
      1 ≤ threshold v n l ∧ threshold v n l ≤ 255 ∧ (l < n → threshold v n l < threshold v n (l + 1))) ∧
    (∀ (v : Variant) (s : Byte) (k : Nat), k < n →
      (threshold v n (k + 1) ≤ s.toNat ↔ k < (List.range n).countP fun j => decide (threshold v n (j + 1) ≤ s.toNat))) ∧
    (∀ s, canonLevel .b n (canonLevel .b n s) = canonLevel .b n s) ∧
    ((∀ s, canonLevel .a n (canonLevel .a n s) = canonLevel .a n s) ↔ n ≠ 13 ∧ n ≠ 14 ∧ n ≠ 16)

/-! ## Cipher -/

/-- LCG.XOR and its six pseudo-instructions where IN fits OUT: with SEED ≠ 0 every byte is XORed with the keystream byte of
R291's closed form; with SEED = 0 IN is copied, and the constants are not read (R290 to R292). -/
def Obligations.LcgTransforms : Prop :=
  ∀ (i : Instr) (c : LcgSet) (s : State) (bs : List Byte), (i, c) ∈ lcgNames → HoldsInput s bs → HasRoom s bs.length →
    Ready s [.seed, .layer] →
    (s.reg .seed = 0#32 → ∃ t, exec i s = .next t ∧ Completes s t bs []) ∧
    (s.reg .seed ≠ 0#32 → Ready s (lcgRegs c) →
      ∃ t, exec i s = .next t ∧
        Completes s t (bs.zipIdx.map fun b => b.1 ^^^ keystreamByte (constantSet s c) (s.reg .seed) (s.reg .layer) b.2) [])

/-- R293: LCG.XOR applied twice, with the same SEED, LAYER and constant set, gives back IN, whatever names the two commands
have. -/
def Obligations.LcgSelfInverse : Prop :=
  ∀ (i j : Instr) (c : LcgSet) (s t u : State) (bs : List Byte), (i, c) ∈ lcgNames → (j, c) ∈ lcgNames →
    HoldsInput s bs → HasRoom s bs.length → exec i s = .next t → hostInFromOut t = .next u →
    ∃ v, exec j u = .next v ∧ Completes u v bs []

/-! ## CRC -/

/-- CRC16 and CRC16.RAW put into RESULT the CRC-16 of IN from CRC16_INIT, finished by CRC16_FINISH or raw, and write no OUT byte
(R310 to R313); the register is that of the bit-serial reflected CRC of polynomial 0xA001. -/
def Obligations.Crc16Completes : Prop :=
  ∀ (i : Instr) (f : CrcForm) (s : State) (init : BitVec 16) (bs : List Byte), (i, f) ∈ crc16Names → HoldsInput s bs →
    s.isWritten .crc16Init = true → s.reg .crc16Init = init.setWidth 32 →
    ∃ t, exec i s = .next t ∧
      Completes s t []
        [(.result, match f with
          | .finished => (Config.crc16Finish (bitSerialCrc 0xA001#16 init bs)).setWidth 32
          | .raw => (bitSerialCrc 0xA001#16 init bs).setWidth 32)]

/-- CRC32 puts into RESULT the reflected IEEE CRC-32 of IN and writes no OUT byte (R320 to R322); the register is that of the
bit-serial CRC of polynomial 0xEDB88320. -/
def Obligations.Crc32Completes : Prop :=
  ∀ (s : State) (bs : List Byte), HoldsInput s bs →
    ∃ t, exec .crc32 s = .next t ∧
      Completes s t [] [(.result, bitSerialCrc 0xEDB88320#32 0xFFFFFFFF#32 bs ^^^ 0xFFFFFFFF#32)]

/-- CRC32.FILE in seal mode, and CRC32.SEAL: the CRC-32 of all but the last four bytes of IN in RESULT and, little-endian, in
OUT[0 .. 3]; the slot's old bytes do not matter. With fewer than four bytes it is CorruptedStream(0) (R323). -/
def Obligations.Crc32FileSeals : Prop :=
  (∀ i ∈ sealNames, ∀ (s : State) (file slot : List Byte), slot.length = 4 → HoldsInput s (file ++ slot) → HasRoom s 4 →
    ∃ t, exec i s = .next t ∧
      Completes s t (leBytes 4 (crc32Of file).toNat) [(.result, crc32Of file)]) ∧
  (∀ i ∈ sealNames, ∀ (s : State) (bs : List Byte), bs.length < 4 → HoldsInput s bs → HasRoom s 4 →
    ∃ t, exec i s = .next t ∧ Raises s t .corruptedStream 0 [])

/-- CRC32.FILE in verify mode, and CRC32.CHECK: DONE where the last four bytes are the little-endian CRC-32 of those before, and
otherwise ChecksumMismatch at the slot; RESULT holds the computed CRC either way. With fewer than four bytes it is
CorruptedStream(0) (R323, R392). -/
def Obligations.Crc32FileVerifies : Prop :=
  ∀ i ∈ checkNames, ∀ s : State,
    (∀ file, HoldsInput s (file ++ leBytes 4 (crc32Of file).toNat) →
      ∃ t, exec i s = .next t ∧ Completes s t [] [(.result, crc32Of file)]) ∧
    (∀ file slot, slot.length = 4 → slot ≠ leBytes 4 (crc32Of file).toNat → HoldsInput s (file ++ slot) →
      ∃ t, exec i s = .next t ∧ Raises s t .checksumMismatch file.length [(.result, crc32Of file)]) ∧
    (∀ bs, bs.length < 4 → HoldsInput s bs → ∃ t, exec i s = .next t ∧ Raises s t .corruptedStream 0 [])

/-! ## SHA -/

/-- SHA1 and SHA256 write the 20 or 32 bytes of the digest of IN to OUT, and RESULT is not written (R344, R349). The digest is
the one of the rules, by their padding, schedules, rounds, functions and constants (R340 to R343, R345 to R348). -/
def Obligations.ShaCompletes : Prop :=
  ∀ (s : State) (bs : List Byte), HoldsInput s bs →
    IsSha1 bs (sha1Of bs) ∧ IsSha256 bs (sha256Of bs) ∧
    (HasRoom s 20 → (sha1Of bs).length = 20 ∧ ∃ t, exec .sha1 s = .next t ∧ Completes s t (sha1Of bs) []) ∧
    (HasRoom s 32 → (sha256Of bs).length = 32 ∧ ∃ t, exec .sha256 s = .next t ∧ Completes s t (sha256Of bs) [])

/-- R340: the padded message is the message, 0x80, the fewest zero bytes that leave eight to a multiple of 64, and the
big-endian bit length; its blocks are its bytes read as big-endian words, 16 to a block. -/
def Obligations.ShaPadding : Prop :=
  ∀ m : List Byte, m.length < 2 ^ 32 →
    ∃ (z n : Nat), (z : Int) = (55 - (m.length : Int)) % 64 ∧
      shaPad m = m ++ [0x80#8] ++ List.replicate z 0x00#8 ++ beBytes 8 (8 * m.length) ∧
      n * 64 = m.length + 9 + z ∧ (shaPad m).length = n * 64 ∧ (shaMessage m).length = n ∧
      ∀ j t, j < n → t < 16 →
        ((shaMessage m).getD j []).getD t 0#32 =
          (shaPad m).getD (64 * j + 4 * t) 0#8 ++ (shaPad m).getD (64 * j + 4 * t + 1) 0#8 ++
            (shaPad m).getD (64 * j + 4 * t + 2) 0#8 ++ (shaPad m).getD (64 * j + 4 * t + 3) 0#8

/-- R342, R347: the schedules of a block of 16 words begin with the block and go on by their recurrences, to 80 and 64 words. -/
def Obligations.ShaSchedules : Prop :=
  ∀ block : List Word, block.length = 16 →
    (sha1Schedule block).length = 80 ∧ (sha256Schedule block).length = 64 ∧
    (∀ t, t < 16 → (sha1Schedule block).getD t 0#32 = block.getD t 0#32 ∧
      (sha256Schedule block).getD t 0#32 = block.getD t 0#32) ∧
    (∀ t, 16 ≤ t → t < 80 →
      let w := fun k => (sha1Schedule block).getD k 0#32
      w t = (w (t - 3) ^^^ w (t - 8) ^^^ w (t - 14) ^^^ w (t - 16)).rotateLeft 1) ∧
    (∀ t, 16 ≤ t → t < 64 →
      let w := fun k => (sha256Schedule block).getD k 0#32
      w t = sha256Sigma1 (w (t - 2)) + w (t - 7) + sha256Sigma0 (w (t - 15)) + w (t - 16))

/-- R342, R347: the compression of a block of 16 words gives the chaining words that the recurrences of the rule give, and
these are the only ones they give; round functions and constants are those of R341, R345 and R346, K256 as the fractional
parts of the cube roots of the first 64 primes. Every message has one digest by the rules, the model's (R340, R343, R348). -/
def Obligations.ShaCompressions : Prop :=
  (∀ (block : List Word), block.length = 16 →
    (∀ h h', IsSha1Block h block h' ↔ h' = sha1Compress h block) ∧
    (∀ h h', IsSha256Block h block h' ↔ h' = sha256Compress h block)) ∧
  (∀ m d : List Byte, IsSha1 m d ↔ d = sha1Of m) ∧
  (∀ m d : List Byte, IsSha256 m d ↔ d = sha256Of m)

/-! ## Signature -/

/-- SIG.GEN with legal SIG_FIELD_BYTES and AES_KLEN and every register it reads written, SIGVAL_HI only for a field of 8 bytes
and of the key only AES_KLEN bytes, writes the 32-byte signature: two CBC blocks over the SHA-256 digest of the little-endian
field (R33, R370 to R372). AES_ENC is FIPS 197, log entry 1. -/
def Obligations.SigGenCompletes : Prop :=
  ∀ s : State, LegalConfig s .sigGen → Ready s (commandReads s .sigGen) → HasRoom s 32 →
    (signature s).length = 32 ∧ ∃ t, exec .sigGen s = .next t ∧ Completes s t (signature s) []

/-- SIG.VERIFY with legal configuration and every register it reads written: DONE where IN is the signature; where 32 bytes
differ from it, ChecksumMismatch at the first that differs; with IN_LEN ≠ 32, ChecksumMismatch(0) (R373). -/
def Obligations.SigVerifyCompares : Prop :=
  ∀ (s : State) (stored : List Byte), LegalConfig s .sigGen → Ready s (commandReads s .sigVerify) → HoldsInput s stored →
    (stored = signature s → ∃ t, exec .sigVerify s = .next t ∧ Completes s t [] []) ∧
    (stored.length = 32 → ∀ k, k < 32 → (∀ j, j < k → stored[j]? = (signature s)[j]?) →
      stored[k]? ≠ (signature s)[k]? →
      ∃ t, exec .sigVerify s = .next t ∧ Raises s t .checksumMismatch k []) ∧
    (stored.length ≠ 32 → ∃ t, exec .sigVerify s = .next t ∧ Raises s t .checksumMismatch 0 [])

/-- R374: SIG.VERIFY succeeds on IN exactly when IN equals SIG.GEN's output for the same registers. -/
def Obligations.VerifyAcceptsExactlyTheSignature : Prop :=
  ∀ (s t u : State) (stored : List Byte), HoldsInput s stored →
    exec .sigGen s = .next t → t.reg .status = 0x00000002#32 → exec .sigVerify s = .next u →
    (u.reg .status = 0x00000002#32 ↔ stored = t.outRange 0 (t.reg .outLen).toNat)

end
end

