-- ==== Sys2Proof/Laws/Memory.lean ====
section
/-! SUPPORT. The canonical form of a memory, and reads after writes. -/

namespace Sys2Proof.Machine

theorem Memory.wf_iff (m : Memory) :
    m.wf = true ↔ m.Pairwise (fun c d => c.1 < d.1) ∧ ∀ c ∈ m, c.1 < 2 ^ 32 := by
  simp [Memory.wf]

@[simp] theorem Memory.wf_nil : Memory.wf [] = true := by simp [Memory.wf_iff]

@[simp] theorem Memory.get_nil (a : Nat) : Memory.get [] a = none := rfl

/-- An offset below every listed one holds no value. -/
theorem Memory.get_eq_none_of_lt (m : Memory) (a : Nat) (h : ∀ c ∈ m, a < c.1) : m.get a = none := by
  induction m with
  | nil => rfl
  | cons c m ih =>
    have hc : c.1 ≠ a := by have := h c (by simp); omega
    simp only [Memory.get, if_neg hc]
    exact ih fun d hd => h d (by simp [hd])

@[simp] theorem Memory.get_put_same (m : Memory) (a : Nat) (b : Byte) : (m.put a b).get a = some b := by
  induction m with
  | nil => simp [Memory.put, Memory.get]
  | cons c m ih =>
    obtain ⟨k, v⟩ := c
    simp only [Memory.put]
    split
    · simp [Memory.get]
    · split
      · simp [Memory.get]
      · have : k ≠ a := by omega
        simp [Memory.get, this, ih]

theorem Memory.get_put_other (m : Memory) {a k : Nat} (b : Byte) (h : k ≠ a) : (m.put a b).get k = m.get k := by
  induction m with
  | nil => simp [Memory.put, Memory.get, Ne.symm h]
  | cons c m ih =>
    obtain ⟨j, v⟩ := c
    simp only [Memory.put]
    split
    · simp [Memory.get, Ne.symm h]
    · split
      · rename_i h1 h2
        subst h2
        simp [Memory.get, Ne.symm h]
      · simp [Memory.get, ih]

theorem Memory.get_put (m : Memory) (a k : Nat) (b : Byte) :
    (m.put a b).get k = if k = a then some b else m.get k := by
  split
  · rename_i h; subst h; exact Memory.get_put_same m k b
  · rename_i h; exact Memory.get_put_other m b h

/-- Writing consecutive bytes: inside the block the bytes written, outside what stood there. -/
theorem Memory.get_putAll (m : Memory) (a : Nat) (bs : List Byte) (k : Nat) :
    (m.putAll a bs).get k = if a ≤ k ∧ k < a + bs.length then bs[k - a]? else m.get k := by
  induction bs generalizing m a with
  | nil => simp [Memory.putAll, show ¬(a ≤ k ∧ k < a) by omega]
  | cons b bs ih =>
    simp only [Memory.putAll, ih, List.length_cons, Memory.get_put]
    by_cases h1 : k = a
    · subst h1
      simp
    · by_cases h2 : a + 1 ≤ k ∧ k < a + 1 + bs.length
      · obtain ⟨d, rfl⟩ : ∃ d, k = a + 1 + d := ⟨k - (a + 1), by omega⟩
        rw [if_pos h2, if_pos (by omega), show a + 1 + d - a = d + 1 by omega, show a + 1 + d - (a + 1) = d by omega,
          List.getElem?_cons_succ]
      · rw [if_neg h2, if_neg h1, if_neg (by omega)]

theorem Memory.get_putAll_outside (m : Memory) (a : Nat) (bs : List Byte) (k : Nat)
    (h : k < a ∨ a + bs.length ≤ k) : (m.putAll a bs).get k = m.get k := by
  rw [Memory.get_putAll, if_neg (by omega)]

theorem Memory.mem_put {m : Memory} {a : Nat} {b : Byte} {c : Host.Cell} (h : c ∈ m.put a b) :
    c = (a, b) ∨ c ∈ m := by
  induction m with
  | nil => simpa [Memory.put] using h
  | cons d m ih =>
    obtain ⟨k, v⟩ := d
    simp only [Memory.put] at h
    split at h
    · simpa using h
    · split at h
      · rcases List.mem_cons.mp h with h | h
        · exact .inl h
        · exact .inr (by simp [h])
      · rcases List.mem_cons.mp h with h | h
        · exact .inr (by simp [h])
        · rcases ih h with h | h
          · exact .inl h
          · exact .inr (by simp [h])

/-- Writing a byte at an offset of 32 bits keeps the canonical form. -/
theorem Memory.wf_put {m : Memory} (h : m.wf = true) {a : Nat} (ha : a < 2 ^ 32) (b : Byte) :
    (m.put a b).wf = true := by
  rw [Memory.wf_iff] at h ⊢
  obtain ⟨hp, hb⟩ := h
  refine ⟨?_, ?_⟩
  · clear hb
    induction m with
    | nil => simp [Memory.put]
    | cons c m ih =>
      obtain ⟨k, v⟩ := c
      rw [List.pairwise_cons] at hp
      obtain ⟨hk, hm⟩ := hp
      simp only [Memory.put]
      split
      · rename_i hlt
        refine List.pairwise_cons.mpr ⟨?_, List.pairwise_cons.mpr ⟨hk, hm⟩⟩
        intro d hd
        rcases List.mem_cons.mp hd with rfl | hd
        · exact hlt
        · have := hk d hd; simp only at this ⊢; omega
      · split
        · rename_i heq
          exact List.pairwise_cons.mpr ⟨fun d hd => by have := hk d hd; simp only at this ⊢; omega, hm⟩
        · refine List.pairwise_cons.mpr ⟨?_, ih hm⟩
          intro d hd
          rcases Memory.mem_put hd with rfl | hd
          · simp only; omega
          · exact hk d hd
  · intro c hc
    rcases Memory.mem_put hc with rfl | hc
    · exact ha
    · exact hb c hc

/-- Writing bytes at offsets of 32 bits keeps the canonical form. -/
theorem Memory.wf_putAll {m : Memory} (h : m.wf = true) {a : Nat} {bs : List Byte} (ha : a + bs.length ≤ 2 ^ 32) :
    (m.putAll a bs).wf = true := by
  induction bs generalizing m a with
  | nil => simpa [Memory.putAll] using h
  | cons b bs ih =>
    simp only [List.length_cons] at ha
    exact ih (Memory.wf_put h (by omega) b) (by omega)

/-- Forgetting keeps the canonical form. -/
theorem Memory.wf_forgetBelow {m : Memory} (h : m.wf = true) (bound : Nat) : (m.forgetBelow bound).wf = true := by
  rw [Memory.wf_iff] at h ⊢
  exact ⟨h.1.filter _, fun c hc => h.2 c (List.mem_of_mem_filter hc)⟩

/-- Forgetting takes the value from the offsets below the bound, and from no other. -/
theorem Memory.get_forgetBelow (m : Memory) (bound a : Nat) :
    (m.forgetBelow bound).get a = if a < bound then none else m.get a := by
  induction m with
  | nil => simp [Memory.forgetBelow]
  | cons c m ih =>
    obtain ⟨k, v⟩ := c
    simp only [Memory.forgetBelow] at ih
    simp only [Memory.forgetBelow, List.filter_cons]
    by_cases hk : bound ≤ k
    · simp only [hk, decide_true, if_true, Memory.get, ih]
      split
      · rename_i h; subst h; simp [show ¬ k < bound by omega]
      · rfl
    · simp only [hk, decide_false, Bool.false_eq_true, if_false, ih, Memory.get]
      split
      · rfl
      · rename_i h; rw [if_neg (by omega)]

/-- Two memories in canonical form that hold the same bytes are the same list. -/
theorem Memory.ext_get {m n : Memory} (hm : m.wf = true) (hn : n.wf = true) (h : ∀ a, m.get a = n.get a) : m = n := by
  rw [Memory.wf_iff] at hm hn
  replace hm := hm.1
  replace hn := hn.1
  induction m generalizing n with
  | nil =>
    cases n with
    | nil => rfl
    | cons d n => have := h d.1; simp [Memory.get] at this
  | cons c m ih =>
    obtain ⟨k, v⟩ := c
    rw [List.pairwise_cons] at hm
    cases n with
    | nil => have := h k; simp [Memory.get] at this
    | cons d n =>
      obtain ⟨j, u⟩ := d
      rw [List.pairwise_cons] at hn
      have hkj : k = j := by
        rcases Nat.lt_trichotomy k j with hlt | heq | hgt
        · have := h k
          rw [Memory.get_eq_none_of_lt ((j, u) :: n) k] at this
          · simp [Memory.get] at this
          · intro c hc
            rcases List.mem_cons.mp hc with rfl | hc
            · exact hlt
            · exact Nat.lt_trans hlt (hn.1 c hc)
        · exact heq
        · have := h j
          rw [Memory.get_eq_none_of_lt ((k, v) :: m) j] at this
          · simp [Memory.get] at this
          · intro c hc
            rcases List.mem_cons.mp hc with rfl | hc
            · exact hgt
            · exact Nat.lt_trans hgt (hm.1 c hc)
      subst hkj
      have hv : v = u := by have := h k; simpa [Memory.get] using this
      subst hv
      congr 1
      refine ih (fun a => ?_) hm.2 hn.2
      by_cases ha : k = a
      · subst ha
        rw [Memory.get_eq_none_of_lt m k (fun c hc => hm.1 c hc), Memory.get_eq_none_of_lt n k (fun c hc => hn.1 c hc)]
      · have := h a
        simpa [Memory.get, ha] using this

end Sys2Proof.Machine
end

