-- ==== Sys2Proof/Laws/State.lean ====
section
/-! SUPPORT. One lemma per field per update of State, and what the accessors read after an update. -/

namespace Sys2Proof.Machine

@[simp] theorem State.setReg_regs (s : State) (r : Reg) (v : Word) : (s.setReg r v).regs = s.regs.set r.number v := rfl
@[simp] theorem State.setReg_written (s : State) (r : Reg) (v : Word) : (s.setReg r v).written = s.written := rfl
@[simp] theorem State.setReg_inMem (s : State) (r : Reg) (v : Word) : (s.setReg r v).inMem = s.inMem := rfl
@[simp] theorem State.setReg_outMem (s : State) (r : Reg) (v : Word) : (s.setReg r v).outMem = s.outMem := rfl
@[simp] theorem State.setReg_outForgets (s : State) (r : Reg) (v : Word) : (s.setReg r v).outForgets = s.outForgets := rfl
@[simp] theorem State.setReg_work (s : State) (r : Reg) (v : Word) : (s.setReg r v).work = s.work := rfl
@[simp] theorem State.setReg_host (s : State) (r : Reg) (v : Word) : (s.setReg r v).host = s.host := rfl
@[simp] theorem State.setReg_readData (s : State) (r : Reg) (v : Word) : (s.setReg r v).readData = s.readData := rfl

@[simp] theorem State.storeReg_regs (s : State) (r : Reg) (v : Word) : (s.storeReg r v).regs = s.regs.set r.number (v &&& r.named) := rfl
@[simp] theorem State.storeReg_written (s : State) (r : Reg) (v : Word) : (s.storeReg r v).written = s.written.set r.number true := rfl
@[simp] theorem State.storeReg_inMem (s : State) (r : Reg) (v : Word) : (s.storeReg r v).inMem = s.inMem := rfl
@[simp] theorem State.storeReg_outMem (s : State) (r : Reg) (v : Word) : (s.storeReg r v).outMem = s.outMem := rfl
@[simp] theorem State.storeReg_outForgets (s : State) (r : Reg) (v : Word) : (s.storeReg r v).outForgets = s.outForgets := rfl
@[simp] theorem State.storeReg_work (s : State) (r : Reg) (v : Word) : (s.storeReg r v).work = s.work := rfl
@[simp] theorem State.storeReg_host (s : State) (r : Reg) (v : Word) : (s.storeReg r v).host = s.host := rfl
@[simp] theorem State.storeReg_readData (s : State) (r : Reg) (v : Word) : (s.storeReg r v).readData = s.readData := rfl

@[simp] theorem State.putOut_regs (s : State) (a : Nat) (bs : List Byte) : (s.putOut a bs).regs = s.regs := rfl
@[simp] theorem State.putOut_written (s : State) (a : Nat) (bs : List Byte) : (s.putOut a bs).written = s.written := rfl
@[simp] theorem State.putOut_inMem (s : State) (a : Nat) (bs : List Byte) : (s.putOut a bs).inMem = s.inMem := rfl
@[simp] theorem State.putOut_outMem (s : State) (a : Nat) (bs : List Byte) : (s.putOut a bs).outMem = s.outMem.putAll a (bs.take ((s.reg .outCap).toNat - a)) := rfl
@[simp] theorem State.putOut_outForgets (s : State) (a : Nat) (bs : List Byte) : (s.putOut a bs).outForgets = s.outForgets := rfl
@[simp] theorem State.putOut_work (s : State) (a : Nat) (bs : List Byte) : (s.putOut a bs).work = s.work := rfl
@[simp] theorem State.putOut_host (s : State) (a : Nat) (bs : List Byte) : (s.putOut a bs).host = s.host := rfl
@[simp] theorem State.putOut_readData (s : State) (a : Nat) (bs : List Byte) : (s.putOut a bs).readData = s.readData := rfl

@[simp] theorem State.forgetOut_regs (s : State) : (s.forgetOut).regs = s.regs := rfl
@[simp] theorem State.forgetOut_written (s : State) : (s.forgetOut).written = s.written := rfl
@[simp] theorem State.forgetOut_inMem (s : State) : (s.forgetOut).inMem = s.inMem := rfl
@[simp] theorem State.forgetOut_outMem (s : State) : (s.forgetOut).outMem = s.outMem.forgetBelow s.outBound := rfl
@[simp] theorem State.forgetOut_outForgets (s : State) : (s.forgetOut).outForgets = s.outBound :: s.outForgets := rfl
@[simp] theorem State.forgetOut_work (s : State) : (s.forgetOut).work = s.work := rfl
@[simp] theorem State.forgetOut_host (s : State) : (s.forgetOut).host = s.host := rfl
@[simp] theorem State.forgetOut_readData (s : State) : (s.forgetOut).readData = s.readData := rfl

@[simp] theorem State.completed_written (s : State) (oc : Nat) : (s.completed oc).written = s.written := rfl
@[simp] theorem State.completed_inMem (s : State) (oc : Nat) : (s.completed oc).inMem = s.inMem := rfl
@[simp] theorem State.completed_outMem (s : State) (oc : Nat) : (s.completed oc).outMem = s.outMem := rfl
@[simp] theorem State.completed_outForgets (s : State) (oc : Nat) : (s.completed oc).outForgets = s.outForgets := rfl
@[simp] theorem State.completed_work (s : State) (oc : Nat) : (s.completed oc).work = none := rfl
@[simp] theorem State.completed_host (s : State) (oc : Nat) : (s.completed oc).host = s.host := rfl
@[simp] theorem State.completed_readData (s : State) (oc : Nat) : (s.completed oc).readData = s.readData := rfl

@[simp] theorem State.errored_written (s : State) (e : ErrorKind) (off : Nat) : (s.errored e off).written = s.written := rfl
@[simp] theorem State.errored_inMem (s : State) (e : ErrorKind) (off : Nat) : (s.errored e off).inMem = s.inMem := rfl
@[simp] theorem State.errored_outMem (s : State) (e : ErrorKind) (off : Nat) : (s.errored e off).outMem = s.forgetOut.outMem := rfl
@[simp] theorem State.errored_outForgets (s : State) (e : ErrorKind) (off : Nat) : (s.errored e off).outForgets = s.outBound :: s.outForgets := rfl
@[simp] theorem State.errored_work (s : State) (e : ErrorKind) (off : Nat) : (s.errored e off).work = none := rfl
@[simp] theorem State.errored_host (s : State) (e : ErrorKind) (off : Nat) : (s.errored e off).host = s.host := rfl
@[simp] theorem State.errored_readData (s : State) (e : ErrorKind) (off : Nat) : (s.errored e off).readData = s.readData := rfl

@[simp] theorem openStream_regs (s : State) (st : Stream) (ph : Phase) (p e n : Nat) : (openStream s st ph p e n).regs = (s.setReg .status statusBusy).regs := rfl
@[simp] theorem openStream_written (s : State) (st : Stream) (ph : Phase) (p e n : Nat) : (openStream s st ph p e n).written = s.written := rfl
@[simp] theorem openStream_inMem (s : State) (st : Stream) (ph : Phase) (p e n : Nat) : (openStream s st ph p e n).inMem = s.inMem := rfl
@[simp] theorem openStream_outMem (s : State) (st : Stream) (ph : Phase) (p e n : Nat) : (openStream s st ph p e n).outMem = s.outMem := rfl
@[simp] theorem openStream_outForgets (s : State) (st : Stream) (ph : Phase) (p e n : Nat) : (openStream s st ph p e n).outForgets = s.outForgets := rfl
@[simp] theorem openStream_host (s : State) (st : Stream) (ph : Phase) (p e n : Nat) : (openStream s st ph p e n).host = s.host := rfl
@[simp] theorem openStream_readData (s : State) (st : Stream) (ph : Phase) (p e n : Nat) : (openStream s st ph p e n).readData = s.readData := rfl

/-! ## The register file -/

@[simp] theorem Reg.ofNumber_number (r : Reg) : Reg.ofNumber r.number = some r := by
  cases r <;> first | rfl | (rename_i k; revert k; decide)

theorem Reg.number_inj {r q : Reg} : r.number = q.number ↔ r = q := by
  constructor
  · intro h
    have := congrArg Reg.ofNumber h
    simpa using this
  · rintro rfl; rfl

/-- A number that stands for a register is that register's number. -/
theorem Reg.number_of_ofNumber {n : Fin 64} {r : Reg} (h : Reg.ofNumber n = some r) : r.number = n := by
  revert n r; decide +kernel

theorem State.regs_get_setReg (s : State) (r : Reg) (v : Word) (n : Fin 64) :
    (s.setReg r v).regs.get n = if r.number = n then v else s.regs.get n := by
  simp [State.setReg, Vector.get_eq_getElem, Vector.getElem_set, Fin.ext_iff]

theorem State.regs_get_storeReg (s : State) (r : Reg) (v : Word) (n : Fin 64) :
    (s.storeReg r v).regs.get n = if r.number = n then v &&& r.named else s.regs.get n := by
  simp [State.storeReg, Vector.get_eq_getElem, Vector.getElem_set, Fin.ext_iff]

theorem State.written_get_storeReg (s : State) (r : Reg) (v : Word) (n : Fin 64) :
    (s.storeReg r v).written.get n = if r.number = n then true else s.written.get n := by
  simp [State.storeReg, Vector.get_eq_getElem, Vector.getElem_set, Fin.ext_iff]

theorem State.reg_setReg (s : State) (r q : Reg) (v : Word) :
    (s.setReg r v).reg q = if r = q then v &&& r.named else s.reg q := by
  simp only [State.reg, State.regs_get_setReg, Reg.number_inj]
  split
  · rename_i h; rw [h]
  · rfl

theorem State.reg_storeReg (s : State) (r q : Reg) (v : Word) :
    (s.storeReg r v).reg q = if r = q then v &&& r.named else s.reg q := by
  simp only [State.reg, State.regs_get_storeReg, Reg.number_inj]
  split
  · rename_i h; rw [h, BitVec.and_assoc, BitVec.and_self]
  · rfl

theorem State.isWritten_storeReg (s : State) (r q : Reg) (v : Word) :
    (s.storeReg r v).isWritten q = if r = q then true else s.isWritten q := by
  simp only [State.isWritten, State.written_get_storeReg, Reg.number_inj]

@[simp] theorem State.reg_setReg_same (s : State) (r : Reg) (v : Word) : (s.setReg r v).reg r = v &&& r.named := by
  simp [State.reg_setReg]

/-! ## What the accessors read after an update that does not touch what they read -/

theorem State.reg_congr {s t : State} (h : t.regs = s.regs) (r : Reg) : t.reg r = s.reg r := by
  simp only [State.reg, h]

theorem State.isWritten_congr {s t : State} (h : t.written = s.written) (r : Reg) : t.isWritten r = s.isWritten r := by
  simp only [State.isWritten, h]

@[simp] theorem State.isWritten_setReg (s : State) (r q : Reg) (v : Word) :
    (s.setReg r v).isWritten q = s.isWritten q := rfl

@[simp] theorem State.reg_putOut (s : State) (a : Nat) (bs : List Byte) (r : Reg) : (s.putOut a bs).reg r = s.reg r := rfl

@[simp] theorem State.isWritten_putOut (s : State) (a : Nat) (bs : List Byte) (r : Reg) :
    (s.putOut a bs).isWritten r = s.isWritten r := rfl

@[simp] theorem State.reg_forgetOut (s : State) (r : Reg) : s.forgetOut.reg r = s.reg r := rfl

@[simp] theorem State.isWritten_forgetOut (s : State) (r : Reg) : s.forgetOut.isWritten r = s.isWritten r := rfl

@[simp] theorem State.isWritten_completed (s : State) (oc : Nat) (r : Reg) :
    (s.completed oc).isWritten r = s.isWritten r := rfl

@[simp] theorem State.isWritten_errored (s : State) (e : ErrorKind) (off : Nat) (r : Reg) :
    (s.errored e off).isWritten r = s.isWritten r := rfl

/-! ## OUT becoming unspecified (R63) -/

theorem State.outEpoch_congr {s t : State} (h : t.outForgets = s.outForgets) (a : Nat) : t.outEpoch a = s.outEpoch a := by
  simp only [State.outEpoch, h]

theorem State.outBound_of_isWritten {s : State} (h : s.isWritten .outCap = true) : s.outBound = (s.reg .outCap).toNat :=
  if_pos h

/-- Below OUT's end a byte becomes unspecified once more, from there on it does not. -/
theorem State.outEpoch_forgetOut (s : State) (a : Nat) :
    s.forgetOut.outEpoch a = s.outEpoch a + if a < s.outBound then 1 else 0 := by
  simp [State.outEpoch, List.countP_cons]

/-- Below OUT's end no byte holds a value any more, from there on every byte reads as before. -/
theorem State.outByte_forgetOut (s : State) (a : Nat) :
    s.forgetOut.outByte a =
      if a < s.outBound then Config.freeOutByte (s.outEpoch a + 1) a else s.outByte a := by
  simp only [State.outByte, State.forgetOut_outMem, Memory.get_forgetBelow, State.outEpoch_forgetOut]
  split <;> simp

@[simp] theorem State.outByte_errored (s : State) (e : ErrorKind) (off a : Nat) :
    (s.errored e off).outByte a = s.forgetOut.outByte a := rfl

@[simp] theorem State.inByte_setReg (s : State) (r : Reg) (v : Word) (a : Nat) :
    (s.setReg r v).inByte a = s.inByte a := rfl

@[simp] theorem State.inByte_putOut (s : State) (a : Nat) (bs : List Byte) (b : Nat) :
    (s.putOut a bs).inByte b = s.inByte b := rfl

@[simp] theorem State.outByte_setReg (s : State) (r : Reg) (v : Word) (a : Nat) :
    (s.setReg r v).outByte a = s.outByte a := rfl

@[simp] theorem State.outByte_completed (s : State) (oc a : Nat) : (s.completed oc).outByte a = s.outByte a := rfl

@[simp] theorem State.length_inRange (s : State) (a n : Nat) : (s.inRange a n).length = n := by simp [State.inRange]

@[simp] theorem State.length_outRange (s : State) (a n : Nat) : (s.outRange a n).length = n := by simp [State.outRange]

/-- The registers a completed command leaves: STATUS, ERR_OFF and OUT_LEN as R393 says, every other number as it was. -/
theorem State.regs_get_completed (s : State) (oc : Nat) (n : Fin 64) :
    (s.completed oc).regs.get n =
      if Reg.number .outLen = n then BitVec.ofNat 32 oc
      else if Reg.number .errOff = n then 0#32
      else if Reg.number .status = n then statusDone else s.regs.get n := by
  show (((s.setReg .status statusDone).setReg .errOff 0#32).setReg .outLen (BitVec.ofNat 32 oc)).regs.get n = _
  simp only [State.regs_get_setReg]

/-- The registers an error leaves: STATUS, ERR_OFF and OUT_LEN as R392 says, every other number as it was. -/
theorem State.regs_get_errored (s : State) (e : ErrorKind) (off : Nat) (n : Fin 64) :
    (s.errored e off).regs.get n =
      if Reg.number .outLen = n then 0#32
      else if Reg.number .errOff = n then BitVec.ofNat 32 off
      else if Reg.number .status = n then statusError e else s.regs.get n := by
  show (((s.forgetOut.setReg .status (statusError e)).setReg .errOff (BitVec.ofNat 32 off)).setReg .outLen 0#32).regs.get n = _
  simp only [State.regs_get_setReg, State.forgetOut_regs]

/-! ## Reset -/

theorem State.reset_inMem_wf : State.reset.inMem.wf = true := Memory.wf_nil

theorem State.reset_outMem_wf : State.reset.outMem.wf = true := Memory.wf_nil

end Sys2Proof.Machine
end

