-- ==== Sys2Proof/Laws/Ops.lean ====
section
/-! SUPPORT. For each shared operation, once, everything it can do: when it answers a next state, a fault, a refusal. -/

namespace Sys2Proof.Machine

/-! ## Ends of a command -/

@[simp] theorem finishCommand_eq (s : State) (oc : Nat) : finishCommand s oc = .next (s.completed oc) := rfl

@[simp] theorem raiseError_eq (s : State) (e : ErrorKind) (off : Nat) : raiseError s e off = .next (s.errored e off) := rfl

@[simp] theorem rejectCommand_eq (s : State) : rejectCommand s = .next (s.errored .unsupportedVariant 0) := rfl

@[simp] theorem finishWith_eq (s : State) (bs : List Byte) (oc : Nat) :
    finishWith s bs oc = .next ((s.putOut 0 bs).completed oc) := rfl

/-! ## Register reads -/

theorem withReg_of_written {s : State} {r : Reg} (h : s.isWritten r = true) (k : Word → Out) :
    withReg s r k = k (s.reg r) := by
  simp [withReg, h]

theorem withReg_of_unwritten {s : State} {r : Reg} (h : s.isWritten r = false) (k : Word → Out) :
    withReg s r k = .fault (.unwrittenRegister r) := by
  simp [withReg, h]

/-- A read answers a next state exactly where the register is written and the rest does. -/
theorem withReg_next_iff {s : State} {r : Reg} {k : Word → Out} {t : State} :
    withReg s r k = .next t ↔ s.isWritten r = true ∧ k (s.reg r) = .next t := by
  unfold withReg
  split <;> simp_all

/-- A read faults exactly where the register is not written, or the rest faults. -/
theorem withReg_fault_iff {s : State} {r : Reg} {k : Word → Out} {f : Fault} :
    withReg s r k = .fault f ↔
      (s.isWritten r = false ∧ f = .unwrittenRegister r) ∨ (s.isWritten r = true ∧ k (s.reg r) = .fault f) := by
  cases h : s.isWritten r with
  | false =>
    rw [withReg_of_unwritten h]
    simp only [Host.Outcome.fault.injEq, true_and, Bool.false_eq_true, false_and, or_false]
    exact eq_comm
  | true => simp [withReg_of_written h]

theorem withReg_refused_iff {s : State} {r : Reg} {k : Word → Out} {e : Refusal} :
    withReg s r k = .refused e ↔ s.isWritten r = true ∧ k (s.reg r) = .refused e := by
  unfold withReg
  split <;> simp_all

theorem withRegs_of_written {s : State} {rs : List Reg} (h : ∀ r ∈ rs, s.isWritten r = true) (k : List Word → Out) :
    withRegs s rs k = k (rs.map s.reg) := by
  induction rs generalizing k with
  | nil => rfl
  | cons r rs ih =>
    rw [withRegs, withReg_of_written (h r (by simp)), ih (fun q hq => h q (by simp [hq]))]
    rfl

theorem withRegs_next_iff {s : State} {rs : List Reg} {k : List Word → Out} {t : State} :
    withRegs s rs k = .next t ↔ (∀ r ∈ rs, s.isWritten r = true) ∧ k (rs.map s.reg) = .next t := by
  induction rs generalizing k with
  | nil => simp [withRegs]
  | cons r rs ih => simp [withRegs, withReg_next_iff, ih, and_assoc]

/-! ## Capacity and emission -/

theorem withCapacity_next_iff {s : State} {size : Nat} {k : Unit → Out} {t : State} :
    withCapacity s size k = .next t ↔ s.isWritten .outCap = true ∧
      ((size > (s.reg .outCap).toNat ∧ t = s.errored .bufferOverrun 0) ∨
        (size ≤ (s.reg .outCap).toNat ∧ k () = .next t)) := by
  rw [withCapacity, withReg_next_iff]
  refine and_congr_right fun _ => ?_
  split
  · simp [*, eq_comm, Nat.not_le.mpr ‹_›]
  · simp [*, Nat.le_of_not_lt ‹_›]

theorem withCapacity_of_fits {s : State} {size : Nat} (h : s.isWritten .outCap = true)
    (hs : size ≤ (s.reg .outCap).toNat) (k : Unit → Out) : withCapacity s size k = k () := by
  rw [withCapacity, withReg_of_written h, if_neg (by omega)]

@[simp] theorem pieceBytes_nil : pieceBytes [] = [] := rfl

@[simp] theorem pieceBytes_cons (p : Piece) (ps : List Piece) : pieceBytes (p :: ps) = p.bytes ++ pieceBytes ps := by
  simp [pieceBytes]

@[simp] theorem pieceBytes_append (ps qs : List Piece) : pieceBytes (ps ++ qs) = pieceBytes ps ++ pieceBytes qs := by
  simp [pieceBytes]

/-- Every `emit` fits exactly where all bytes together do. -/
theorem firstOverrun_none_iff {cap oc : Nat} {ps : List Piece} (h : oc ≤ cap) :
    firstOverrun cap oc ps = none ↔ oc + (pieceBytes ps).length ≤ cap := by
  induction ps generalizing oc with
  | nil => simp [firstOverrun, h]
  | cons p ps ih =>
    rw [firstOverrun]
    split
    · rename_i hlt
      simp only [reduceCtorEq, pieceBytes_cons, List.length_append, false_iff]
      omega
    · rename_i hle
      rw [ih (by omega), pieceBytes_cons, List.length_append]
      omega

/-- The `emit` that does not fit is the first whose bytes end beyond the capacity (R64). -/
theorem firstOverrun_some_iff {cap oc off : Nat} {ps : List Piece} (h : oc ≤ cap) :
    firstOverrun cap oc ps = some off ↔
      ∃ before p after, ps = before ++ p :: after ∧ p.errOff = off ∧ oc + (pieceBytes before).length ≤ cap ∧
        cap < oc + (pieceBytes before).length + p.bytes.length := by
  induction ps generalizing oc with
  | nil => simp [firstOverrun]
  | cons q ps ih =>
    rw [firstOverrun]
    split
    · rename_i hlt
      constructor
      · rintro ⟨rfl⟩
        exact ⟨[], q, ps, rfl, rfl, by simpa using h, by simpa using hlt⟩
      · rintro ⟨before, p, after, heq, hoff, hb, hp⟩
        cases before with
        | nil => simp only [List.nil_append, List.cons.injEq] at heq; rw [heq.1, hoff]
        | cons b bs =>
          simp only [List.cons_append, List.cons.injEq] at heq
          obtain ⟨rfl, rfl⟩ := heq
          simp only [pieceBytes_cons, List.length_append] at hb
          omega
    · rename_i hle
      rw [ih (by omega)]
      constructor
      · rintro ⟨before, p, after, rfl, hoff, hb, hp⟩
        refine ⟨q :: before, p, after, rfl, hoff, ?_, ?_⟩ <;> simp only [pieceBytes_cons, List.length_append] <;> omega
      · rintro ⟨before, p, after, heq, hoff, hb, hp⟩
        cases before with
        | nil =>
          simp only [List.nil_append, List.cons.injEq] at heq
          obtain ⟨rfl, rfl⟩ := heq
          simp only [pieceBytes_nil, List.length_nil] at hp
          omega
        | cons b bs =>
          simp only [List.cons_append, List.cons.injEq] at heq
          obtain ⟨rfl, rfl⟩ := heq
          simp only [pieceBytes_cons, List.length_append] at hb hp
          exact ⟨bs, p, after, rfl, hoff, by omega, by omega⟩

theorem emitAll_of_fits {s : State} {ps : List Piece} (h : s.isWritten .outCap = true)
    (hs : (pieceBytes ps).length ≤ (s.reg .outCap).toNat) (k : State → Out) :
    emitAll s ps k = k (if ps = [] then s else s.putOut 0 (pieceBytes ps)) := by
  cases ps with
  | nil => rfl
  | cons p ps =>
    have := (firstOverrun_none_iff (ps := p :: ps) (Nat.zero_le (s.reg .outCap).toNat)).mpr (by omega)
    simp [emitAll, withReg_of_written h, this]

/-- Emission answers a next state in three ways: nothing to emit, an `emit` that does not fit, or all bytes written. -/
theorem emitAll_next_iff {s : State} {ps : List Piece} {k : State → Out} {t : State} :
    emitAll s ps k = .next t ↔
      (ps = [] ∧ k s = .next t) ∨
      (ps ≠ [] ∧ s.isWritten .outCap = true ∧
        ((∃ off, firstOverrun (s.reg .outCap).toNat 0 ps = some off ∧ t = s.errored .bufferOverrun off) ∨
          (firstOverrun (s.reg .outCap).toNat 0 ps = none ∧ k (s.putOut 0 (pieceBytes ps)) = .next t))) := by
  cases ps with
  | nil => simp [emitAll]
  | cons p ps =>
    rw [emitAll, withReg_next_iff]
    cases firstOverrun (s.reg .outCap).toNat 0 (p :: ps) with
    | none => simp
    | some off =>
      simp only [raiseError_eq, Host.Outcome.next.injEq, reduceCtorEq, ne_eq, not_false_eq_true, true_and, false_and,
        Option.some.injEq, exists_eq_left', or_false, false_or]
      exact and_congr_right fun _ => eq_comm

/-! ## Writing OUT -/

theorem State.outByte_putOut (s : State) {a : Nat} {bs : List Byte} (h : a + bs.length ≤ (s.reg .outCap).toNat) (k : Nat) :
    (s.putOut a bs).outByte k = if h : a ≤ k ∧ k < a + bs.length then bs[k - a] else s.outByte k := by
  have hb : bs.take ((s.reg .outCap).toNat - a) = bs := List.take_of_length_le (by omega)
  simp only [State.outByte, State.outEpoch, State.putOut_outMem, State.putOut_outForgets, hb, Memory.get_putAll]
  split
  · rename_i hk
    rw [List.getElem?_eq_getElem (by omega)]
    rfl
  · rfl

/-- The block writes no byte at or beyond OUT_CAP (R62). -/
theorem State.putOut_get_beyond (s : State) (a : Nat) (bs : List Byte) {k : Nat} (h : (s.reg .outCap).toNat ≤ k) :
    (s.putOut a bs).outMem.get k = s.outMem.get k := by
  rw [State.putOut_outMem, Memory.get_putAll, if_neg]
  rw [List.length_take]
  omega

/-! ## Operand forms -/

theorem withPixels_next_iff {s : State} {k : Nat → Out} {t : State} :
    withPixels s k = .next t ↔ s.isWritten .width = true ∧ s.isWritten .height = true ∧
      k ((s.reg .width).toNat * (s.reg .height).toNat) = .next t := by
  simp [withPixels, withReg_next_iff]

theorem withPixels_of_written {s : State} (hw : s.isWritten .width = true) (hh : s.isWritten .height = true)
    (k : Nat → Out) : withPixels s k = k ((s.reg .width).toNat * (s.reg .height).toNat) := by
  rw [withPixels, withReg_of_written hw, withReg_of_written hh]

theorem withLevel_next_iff {s : State} {k : Nat → Out} {t : State} :
    withLevel s k = .next t ↔ s.isWritten .aaN = true ∧
      (((s.reg .aaN).toNat < 1 ∨ (s.reg .aaN).toNat > Config.maxAa) ∧ t = s.errored .unsupportedVariant 0 ∨
        (1 ≤ (s.reg .aaN).toNat ∧ (s.reg .aaN).toNat ≤ Config.maxAa) ∧ k (s.reg .aaN).toNat = .next t) := by
  rw [withLevel, withReg_next_iff]
  refine and_congr_right fun _ => ?_
  split
  · rename_i h
    have : ¬(1 ≤ (s.reg .aaN).toNat ∧ (s.reg .aaN).toNat ≤ Config.maxAa) := by omega
    simp only [raiseError_eq, Host.Outcome.next.injEq, h, true_and, this, false_and, or_false, eq_comm]
  · rename_i h
    have : 1 ≤ (s.reg .aaN).toNat ∧ (s.reg .aaN).toNat ≤ Config.maxAa := by omega
    simp only [h, false_and, this, and_self, true_and, false_or]

theorem withBitmap_next_iff {s : State} {per : Nat} {k : List Byte → Out} {t : State} :
    withBitmap s per k = .next t ↔
      s.isWritten .width = true ∧ s.isWritten .height = true ∧ s.isWritten .inLen = true ∧
      ((s.reg .inLen).toNat ≠ per * ((s.reg .width).toNat * (s.reg .height).toNat) ∧
          t = s.errored .corruptedStream 0 ∨
        (s.reg .inLen).toNat = per * ((s.reg .width).toNat * (s.reg .height).toNat) ∧
          k (s.inRange 0 (s.reg .inLen).toNat) = .next t) := by
  rw [withBitmap, withPixels_next_iff]
  refine and_congr_right fun _ => and_congr_right fun _ => ?_
  rw [withReg_next_iff]
  refine and_congr_right fun _ => ?_
  generalize (s.reg .inLen).toNat = n
  generalize per * ((s.reg .width).toNat * (s.reg .height).toNat) = p
  by_cases h : n = p
  · simp [h]
  · simp [h, eq_comm]

theorem withSignatureConfig_next_iff {s : State} {k : Nat → Nat → Out} {t : State} :
    withSignatureConfig s k = .next t ↔ s.isWritten .sigFieldBytes = true ∧ s.isWritten .aesKlen = true ∧
      ((legalFieldBytes (s.reg .sigFieldBytes) && legalKeyLength (s.reg .aesKlen)) = false ∧
          t = s.errored .unsupportedVariant 0 ∨
        (legalFieldBytes (s.reg .sigFieldBytes) && legalKeyLength (s.reg .aesKlen)) = true ∧
          k (s.reg .sigFieldBytes).toNat (s.reg .aesKlen).toNat = .next t) := by
  rw [withSignatureConfig, withReg_next_iff]
  refine and_congr_right fun _ => ?_
  rw [withReg_next_iff]
  refine and_congr_right fun _ => ?_
  cases legalFieldBytes (s.reg .sigFieldBytes) && legalKeyLength (s.reg .aesKlen) <;> simp [eq_comm]

theorem withSignature_next_iff {s : State} {w kl : Nat} {k : List Byte → Out} {t : State} :
    withSignature s w kl k = .next t ↔
      (∀ r ∈ fieldRegs w ++ keyRegs kl ++ ivRegs, s.isWritten r = true) ∧
      k (signatureOf aesEnc (registerBytes ((fieldRegs w).map s.reg)) (registerBytes ((keyRegs kl).map s.reg))
        (registerBytes (ivRegs.map s.reg))) = .next t := by
  simp only [withSignature, withRegs_next_iff, List.mem_append, or_imp, forall_and, and_assoc]

end Sys2Proof.Machine
end

