-- ==== Sys2Proof/Laws/Streams.lean ====
section
/-! SUPPORT. For each operation of a decoding command, once, everything it can do; and the turns of a stream. -/

namespace Sys2Proof.Machine

/-- A token or framing field has an effect exactly inside a decoding command of its format and phase. -/
theorem withStream_next_iff {s : State} {st : Stream} {ph : Phase} {k : Work → Out} {t : State} :
    withStream s st ph k = .next t ↔ ∃ w, s.work = some w ∧ w.stream = st ∧ w.phase = ph ∧ k w = .next t := by
  unfold withStream
  cases h : s.work with
  | none => simp
  | some w =>
    simp only [Option.some.injEq, exists_eq_left']
    split
    · rename_i hw; simp [hw.1, hw.2]
    · rename_i hw; simp only [reduceCtorEq, false_iff]; exact fun ⟨h1, h2, _⟩ => hw ⟨h1, h2⟩

theorem withStream_of_work {s : State} {w : Work} (h : s.work = some w) (k : Work → Out) :
    withStream s w.stream w.phase k = k w := by
  simp [withStream, h]

/-- A token either needs a byte beyond its region, CorruptedStream at the cursor, or it is consumed (R37, R391). -/
theorem withToken_next_iff {s : State} {st : Stream} {i : Instr} {k : Work → Out} {t : State} :
    withToken s st i k = .next t ↔ ∃ w, s.work = some w ∧ w.stream = st ∧ w.phase = .tokens ∧
      ((w.ic + tokenSize i > w.stop ∧ t = s.errored .corruptedStream w.ic) ∨
        (w.ic + tokenSize i ≤ w.stop ∧ k { w with tok := w.ic, ic := w.ic + tokenSize i } = .next t)) := by
  rw [withToken, withStream_next_iff]
  refine exists_congr fun w => and_congr_right fun _ => and_congr_right fun _ => and_congr_right fun _ => ?_
  split
  · rename_i h; simp [h, Nat.not_le.mpr h, eq_comm]
  · rename_i h; simp [h, Nat.le_of_not_lt h]

theorem withToken_of_fits {s : State} {w : Work} {i : Instr} (h : s.work = some w) (hp : w.phase = .tokens)
    (hs : w.ic + tokenSize i ≤ w.stop) (k : Work → Out) :
    withToken s w.stream i k = k { w with tok := w.ic, ic := w.ic + tokenSize i } := by
  rw [withToken, ← hp, withStream_of_work h, if_neg (by omega)]

/-- A run either goes past P, BufferOverrun at the token before any byte is written (R395), or is produced. -/
theorem putRun_next_iff {s : State} {w : Work} {l : Nat} {px : List Byte} {prev : Byte} {t : State} :
    putRun s w l px prev = .next t ↔
      (w.pc + l > w.pixels ∧ t = s.errored .bufferOverrun w.tok) ∨
      (w.pc + l ≤ w.pixels ∧ t = { s.putOut (px.length * w.pc) (List.replicate l px).flatten with
        work := some { w with pc := w.pc + l, prev := if l > 0 then prev else w.prev } }) := by
  unfold putRun
  split
  · rename_i h; simp [h, Nat.not_le.mpr h, eq_comm]
  · rename_i h; simp [h, Nat.le_of_not_lt h, eq_comm]

theorem finishPixels_next_iff {s : State} {w : Work} {per : Nat} {t : State} :
    finishPixels s w per = .next t ↔
      (w.pc ≠ w.pixels ∧ t = s.errored .corruptedStream w.stop) ∨
      (w.pc = w.pixels ∧ t = s.completed (per * w.pixels)) := by
  unfold finishPixels
  split
  · rename_i h; simp [h, eq_comm]
  · rename_i h; simp only [ne_eq, not_not] at h; simp [h, eq_comm]

theorem length_replicate_flatten (l : Nat) (px : List Byte) :
    (List.replicate l px).flatten.length = px.length * l := by
  simp [Nat.mul_comm]

/-- A turn is the stream's end, its next token, or CorruptedStream at the cursor (R391). -/
theorem sequence_next_iff {run : Instr → State → Out} {s : State} {w : Work} {t : State} :
    sequence run s w = .next t ↔
      (streamEnded w = true ∧ finishStream s w = .next t) ∨
      (streamEnded w = false ∧
        ((∃ i, fetchToken s w = .ok i ∧ run i s = .next t) ∨
          ((∃ e, fetchToken s w = .error e) ∧ t = s.errored .corruptedStream w.ic))) := by
  unfold sequence
  cases streamEnded w with
  | true => simp
  | false =>
    cases fetchToken s w <;> simp [eq_comm]

@[simp] theorem runStream_zero (s : State) : runStream 0 s = .next s := rfl

/-- A run of turns stops where no command stands any more. -/
theorem runStream_of_idle {s : State} (h : s.work = none) (n : Nat) : runStream n s = .next s := by
  cases n with
  | zero => rfl
  | succ n => simp [runStream, h]

theorem runStream_succ {s : State} {w : Work} (h : s.work = some w) (n : Nat) :
    runStream (n + 1) s =
      match sequence execToken s w with
      | .next t => runStream n t
      | .fault f => .fault f
      | .refused r => .refused r := by
  cases hq : sequence execToken s w <;> simp [runStream, h, hq]

/-- What every turn of a stream keeps, a whole run of turns keeps. -/
theorem runStream_invariant {Q : State → Prop}
    (hstep : ∀ s w t, Q s → s.work = some w → sequence execToken s w = .next t → Q t)
    {n : Nat} {s t : State} (hs : Q s) (h : runStream n s = .next t) : Q t := by
  induction n generalizing s with
  | zero => cases h; exact hs
  | succ n ih =>
    cases hw : s.work with
    | none => rw [runStream_of_idle hw] at h; cases h; exact hs
    | some w =>
      rw [runStream_succ hw] at h
      cases hseq : sequence execToken s w with
      | next u => rw [hseq] at h; exact ih (hstep s w u hs hw hseq) h
      | fault f => rw [hseq] at h; cases h
      | refused e => rw [hseq] at h; cases h

/-- In a stream, exec and the sequencer give a token the same effect: the tokens fetched are no commands. -/
theorem execToken_eq_exec {i : Instr} (h : i.format ≠ .command) (s : State) : execToken i s = exec i s := by
  cases i <;> first | rfl | exact absurd rfl h

end Sys2Proof.Machine
end

