-- ==== Sys2Proof/Laws/Effects.lean ====
section
/-! SUPPORT. What any instruction can do to a state, once for all of them: a chain of four kinds of update. -/

namespace Sys2Proof.Machine

/-- A chain of updates by the block: of one of its own registers, of OUT below OUT_CAP, OUT becoming unspecified, and of the
working registers. -/
inductive Moves : State → State → Prop
  | refl (s : State) : Moves s s
  | setReg {s t : State} (h : Moves s t) (r : Reg) (v : Word) (hr : r.access = .ro) : Moves s (t.setReg r v)
  | putOut {s t : State} (h : Moves s t) (a : Nat) (bs : List Byte) : Moves s (t.putOut a bs)
  | forgetOut {s t : State} (h : Moves s t) : Moves s t.forgetOut
  | setWork {s t : State} (h : Moves s t) (w : Option Work) : Moves s { t with work := w }

theorem Moves.trans {s t u : State} (h : Moves s t) (h' : Moves t u) : Moves s u := by
  induction h' with
  | refl => exact h
  | setReg _ r v hr ih => exact .setReg ih r v hr
  | putOut _ a bs ih => exact .putOut ih a bs
  | forgetOut _ ih => exact .forgetOut ih
  | setWork _ w ih => exact .setWork ih w

theorem Moves.completed {s t : State} (h : Moves s t) (oc : Nat) : Moves s (t.completed oc) :=
  .setWork (.setReg (.setReg (.setReg h .status statusDone rfl) .errOff 0#32 rfl) .outLen (BitVec.ofNat 32 oc) rfl) none

theorem Moves.errored {s t : State} (h : Moves s t) (e : ErrorKind) (off : Nat) : Moves s (t.errored e off) :=
  .setWork (.setReg (.setReg (.setReg (.forgetOut h) .status (statusError e) rfl) .errOff (BitVec.ofNat 32 off) rfl)
    .outLen 0#32 rfl) none

theorem Moves.openStream {s t : State} (h : Moves s t) (st : Stream) (ph : Phase) (p e n : Nat) :
    Moves s (openStream t st ph p e n) :=
  .setWork (.setReg h .status statusBusy rfl) _

theorem Moves.setPlaneLens {s t : State} (h : Moves s t) (lens : List Nat) : Moves s (t.setPlaneLens lens) := by
  unfold State.setPlaneLens
  generalize List.finRange 16 = ks
  induction ks generalizing t with
  | nil => exact h
  | cons k ks ih => exact ih (.setReg h (.planeLen k) _ rfl)

/-! ## What a chain of updates keeps -/

theorem Moves.written {s t : State} (h : Moves s t) : t.written = s.written := by
  induction h <;> simp_all

theorem Moves.inMem {s t : State} (h : Moves s t) : t.inMem = s.inMem := by
  induction h <;> simp_all

theorem Moves.host {s t : State} (h : Moves s t) : t.host = s.host := by
  induction h <;> simp_all

theorem Moves.readData {s t : State} (h : Moves s t) : t.readData = s.readData := by
  induction h <;> simp_all

theorem Moves.isWritten {s t : State} (h : Moves s t) (r : Reg) : t.isWritten r = s.isWritten r :=
  State.isWritten_congr h.written r

theorem Moves.inByte {s t : State} (h : Moves s t) (a : Nat) : t.inByte a = s.inByte a := by
  simp only [State.inByte, h.inMem]

/-- No register number but those of the block's own registers changes. -/
theorem Moves.regs_get {s t : State} (h : Moves s t) (n : Fin 64) (hn : ∀ r : Reg, r.access = .ro → r.number ≠ n) :
    t.regs.get n = s.regs.get n := by
  induction h with
  | setReg _ r v hr ih => rw [State.regs_get_setReg, if_neg (hn r hr), ih]
  | refl => rfl
  | putOut _ _ _ ih => exact ih
  | forgetOut _ ih => exact ih
  | setWork _ _ ih => exact ih

theorem Moves.reg {s t : State} (h : Moves s t) {r : Reg} (hr : r.access ≠ .ro) : t.reg r = s.reg r := by
  simp only [State.reg]
  rw [h.regs_get r.number fun q hq he => hr (Reg.number_inj.mp he ▸ hq)]

/-- No byte of OUT at or beyond OUT_CAP changes (R62). -/
theorem Moves.outMem_beyond {s t : State} (h : Moves s t) (hc : s.isWritten .outCap = true) {a : Nat}
    (ha : (s.reg .outCap).toNat ≤ a) : t.outMem.get a = s.outMem.get a := by
  induction h with
  | refl => rfl
  | setReg _ r v _ ih => exact ih
  | setWork _ w ih => exact ih
  | putOut h b bs ih =>
    rw [State.putOut_get_beyond _ _ _ (by rw [h.reg (by decide)]; exact ha), ih]
  | forgetOut h ih =>
    rw [State.forgetOut_outMem, Memory.get_forgetBelow, State.outBound_of_isWritten ((h.isWritten _).trans hc),
      h.reg (r := .outCap) (by decide), if_neg (by omega), ih]

/-- No byte of OUT at or beyond OUT_CAP becomes unspecified (R63). -/
theorem Moves.outEpoch_beyond {s t : State} (h : Moves s t) (hc : s.isWritten .outCap = true) {a : Nat}
    (ha : (s.reg .outCap).toNat ≤ a) : t.outEpoch a = s.outEpoch a := by
  induction h with
  | refl => rfl
  | setReg _ r v _ ih => exact ih
  | setWork _ w ih => exact ih
  | putOut h b bs ih => exact ih
  | forgetOut h ih =>
    rw [State.outEpoch_forgetOut, State.outBound_of_isWritten ((h.isWritten _).trans hc),
      h.reg (r := .outCap) (by decide), if_neg (by omega), ih, Nat.add_zero]

/-- The canonical form of OUT is kept. -/
theorem Moves.outMem_wf {s t : State} (h : Moves s t) (hs : s.outMem.wf = true) : t.outMem.wf = true := by
  induction h with
  | refl => exact hs
  | setReg _ r v _ ih => exact ih
  | setWork _ w ih => exact ih
  | @putOut t h a bs ih =>
    rw [State.putOut_outMem]
    by_cases ha : a < (t.reg .outCap).toNat
    · have hcap := (t.reg .outCap).isLt
      refine Memory.wf_putAll ih ?_
      rw [List.length_take]
      omega
    · rw [show (t.reg .outCap).toNat - a = 0 by omega]
      exact ih
  | forgetOut h ih =>
    rw [State.forgetOut_outMem]
    exact Memory.wf_forgetBelow ih _

/-! ## Every meaning is such a chain -/

theorem withReg_moves {s₀ s t : State} {r : Reg} {k : Word → Out} (h : withReg s r k = .next t)
    (hk : ∀ v, k v = .next t → Moves s₀ t) : Moves s₀ t :=
  hk _ (withReg_next_iff.mp h).2

theorem withRegs_moves {s₀ s t : State} {rs : List Reg} {k : List Word → Out} (h : withRegs s rs k = .next t)
    (hk : ∀ vs, k vs = .next t → Moves s₀ t) : Moves s₀ t :=
  hk _ (withRegs_next_iff.mp h).2

theorem withCapacity_moves {s t : State} {size : Nat} {k : Unit → Out} (h : withCapacity s size k = .next t)
    (hk : k () = .next t → Moves s t) : Moves s t := by
  obtain ⟨_, ⟨_, rfl⟩ | ⟨_, h⟩⟩ := withCapacity_next_iff.mp h
  · exact (Moves.refl s).errored _ _
  · exact hk h

theorem withBitmap_moves {s t : State} {per : Nat} {k : List Byte → Out} (h : withBitmap s per k = .next t)
    (hk : ∀ b, k b = .next t → Moves s t) : Moves s t := by
  obtain ⟨_, _, _, ⟨_, rfl⟩ | ⟨_, h⟩⟩ := withBitmap_next_iff.mp h
  · exact (Moves.refl s).errored _ _
  · exact hk _ h

theorem withLevel_moves {s t : State} {k : Nat → Out} (h : withLevel s k = .next t)
    (hk : ∀ n, k n = .next t → Moves s t) : Moves s t := by
  obtain ⟨_, ⟨_, rfl⟩ | ⟨_, h⟩⟩ := withLevel_next_iff.mp h
  · exact (Moves.refl s).errored _ _
  · exact hk _ h

theorem withSignatureConfig_moves {s t : State} {k : Nat → Nat → Out} (h : withSignatureConfig s k = .next t)
    (hk : ∀ w kl, k w kl = .next t → Moves s t) : Moves s t := by
  obtain ⟨_, _, ⟨_, rfl⟩ | ⟨_, h⟩⟩ := withSignatureConfig_next_iff.mp h
  · exact (Moves.refl s).errored _ _
  · exact hk _ _ h

theorem emitAll_moves {s t : State} {ps : List Piece} {k : State → Out} (h : emitAll s ps k = .next t)
    (hk : ∀ u, Moves s u → k u = .next t → Moves s t) : Moves s t := by
  obtain ⟨_, h⟩ | ⟨_, _, ⟨_, _, rfl⟩ | ⟨_, h⟩⟩ := emitAll_next_iff.mp h
  · exact hk _ (.refl s) h
  · exact (Moves.refl s).errored _ _
  · exact hk _ ((Moves.refl s).putOut _ _) h

theorem emitCommand_moves {s t : State} {ps : List Piece} (h : emitCommand s ps = .next t) : Moves s t := by
  unfold emitCommand at h
  exact emitAll_moves h fun _ hu h => by cases h; exact hu.completed _

theorem finishWith_moves {s s₀ t : State} {bs : List Byte} {oc : Nat} (hs : Moves s₀ s) (h : finishWith s bs oc = .next t) :
    Moves s₀ t := by
  cases h; exact (hs.putOut _ _).completed _

theorem putRun_moves {s t : State} {w : Work} {l : Nat} {px : List Byte} {prev : Byte}
    (h : putRun s w l px prev = .next t) : Moves s t := by
  obtain ⟨_, rfl⟩ | ⟨_, rfl⟩ := putRun_next_iff.mp h
  · exact (Moves.refl s).errored _ _
  · exact ((Moves.refl s).putOut _ _).setWork _

theorem withToken_moves {s t : State} {st : Stream} {i : Instr} {k : Work → Out} (h : withToken s st i k = .next t)
    (hk : ∀ w, k w = .next t → Moves s t) : Moves s t := by
  obtain ⟨w, _, _, _, ⟨_, rfl⟩ | ⟨_, h⟩⟩ := withToken_next_iff.mp h
  · exact (Moves.refl s).errored _ _
  · exact hk _ h

theorem difLiteral_moves {s t : State} {i : Instr} {v : Byte} {l : Nat} (h : difLiteral s i v l = .next t) : Moves s t := by
  unfold difLiteral at h
  exact withToken_moves h fun _ h => putRun_moves h

theorem r7xRun_moves {s t : State} {i : Instr} {c : BitVec 7} {l : Nat} (h : r7xRun s i c l = .next t) : Moves s t := by
  unfold r7xRun at h
  exact withToken_moves h fun _ h => putRun_moves h

theorem nibRun_moves {s t : State} {i : Instr} {c : BitVec 4} {l : Nat} (h : nibRun s i c l = .next t) : Moves s t := by
  unfold nibRun at h
  exact withToken_moves h fun _ h => putRun_moves h

theorem rgbRun_moves {s t : State} {i : Instr} {c : Rgb15} {l : Nat} (h : rgbRun s i c l = .next t) : Moves s t := by
  unfold rgbRun at h
  exact withToken_moves h fun _ h => putRun_moves h

theorem difDelta_moves {s t : State} {i : Instr} {d : BitVec 4} {l : Nat} (h : difDelta s i d l = .next t) : Moves s t := by
  unfold difDelta at h
  refine withToken_moves h fun w h => ?_
  dsimp only at h
  split at h
  · cases h; exact (Moves.refl s).errored _ _
  · exact putRun_moves h

theorem execBplTok_moves {s t : State} {on : Bool} {l : BitVec 7} (h : execBplTok on l s = .next t) : Moves s t := by
  unfold execBplTok at h
  refine withToken_moves h fun w h => ?_
  split at h
  · cases h; exact (Moves.refl s).errored _ _
  · split at h
    · cases h; exact (Moves.refl s).errored _ _
    · cases h; exact (Moves.refl s).setWork _

theorem execDifMagic_moves {s t : State} {m : Byte} (h : execDifMagic m s = .next t) : Moves s t := by
  unfold execDifMagic at h
  obtain ⟨w, _, _, _, h⟩ := withStream_next_iff.mp h
  refine withReg_moves h fun v h => ?_
  split at h
  · cases h; exact (Moves.refl s).errored _ _
  · cases h; exact (Moves.refl s).setWork _

theorem execDifChecksum_moves {s t : State} {k : Byte} (h : execDifChecksum k s = .next t) : Moves s t := by
  unfold execDifChecksum at h
  obtain ⟨w, _, _, _, h⟩ := withStream_next_iff.mp h
  split at h
  · cases h; exact (Moves.refl s).errored _ _
  · cases h; exact (Moves.refl s).setWork _

theorem execNibTrailer_moves {s t : State} {f : BitVec 16} (h : execNibTrailer f s = .next t) : Moves s t := by
  unfold execNibTrailer at h
  obtain ⟨w, _, _, _, h⟩ := withStream_next_iff.mp h
  split at h
  · cases h
  · cases h; exact (Moves.refl s).setWork _

/-- A token's or framing field's effect is a chain of updates. -/
theorem execToken_moves {i : Instr} {s t : State} (h : execToken i s = .next t) : Moves s t := by
  cases i
  case r7xPix => exact r7xRun_moves h
  case r7xRun7 => exact r7xRun_moves h
  case r7xRun14 => exact r7xRun_moves h
  case r7xRun21 => exact r7xRun_moves h
  case r7xRun28 => exact r7xRun_moves h
  case bplTok => exact execBplTok_moves h
  case difMagic => exact execDifMagic_moves h
  case difChecksum => exact execDifChecksum_moves h
  case nibTrailer => exact execNibTrailer_moves h
  case difDelta0 => exact difDelta_moves h
  case difDelta1 => exact difDelta_moves h
  case difDelta2 => exact difDelta_moves h
  case difDelta3 => exact difDelta_moves h
  case difZero0 => exact difLiteral_moves h
  case difZero1 => exact difLiteral_moves h
  case difZero2 => exact difLiteral_moves h
  case difZero3 => exact difLiteral_moves h
  case difValue0 => exact difLiteral_moves h
  case difValue1 => exact difLiteral_moves h
  case difValue2 => exact difLiteral_moves h
  case difValue3 => exact difLiteral_moves h
  case difMax0 => exact difLiteral_moves h
  case difMax1 => exact difLiteral_moves h
  case difMax2 => exact difLiteral_moves h
  case difMax3 => exact difLiteral_moves h
  case nibBlack => exact nibRun_moves h
  case nibWhite => exact nibRun_moves h
  case nibGrey => exact nibRun_moves h
  case rgbWord => exact rgbRun_moves h
  case rgbRep => exact rgbRun_moves h
  all_goals cases h

theorem finishStream_moves {s t : State} {w : Work} (h : finishStream s w = .next t) : Moves s t := by
  have hp : ∀ {per}, finishPixels s w per = .next t → Moves s t := fun h => by
    obtain ⟨_, rfl⟩ | ⟨_, rfl⟩ := finishPixels_next_iff.mp h
    · exact (Moves.refl s).errored _ _
    · exact (Moves.refl s).completed _
  unfold finishStream at h
  split at h
  · exact hp h
  · unfold finishBpl at h
    split at h
    · cases h; exact (Moves.refl s).errored _ _
    · cases h; exact ((Moves.refl s).putOut _ _).completed _
  · exact hp h
  · exact hp h
  · exact hp h

theorem sequence_moves {s t : State} {w : Work} (h : sequence execToken s w = .next t) : Moves s t := by
  obtain ⟨_, h⟩ | ⟨_, ⟨i, _, h⟩ | ⟨_, rfl⟩⟩ := sequence_next_iff.mp h
  · exact finishStream_moves h
  · exact execToken_moves h
  · exact (Moves.refl s).errored _ _

theorem runStream_moves {n : Nat} {s₀ s t : State} (hs : Moves s₀ s) (h : runStream n s = .next t) : Moves s₀ t :=
  runStream_invariant (Q := Moves s₀) (fun _ _ _ hq _ h => hq.trans (sequence_moves h)) hs h

theorem withPixels_moves {s₀ s t : State} {k : Nat → Out} (h : withPixels s k = .next t)
    (hk : ∀ p, k p = .next t → Moves s₀ t) : Moves s₀ t :=
  hk _ (withPixels_next_iff.mp h).2.2

theorem openBpl_moves {s₀ s : State} (h : Moves s₀ s) (p n planes : Nat) : Moves s₀ (openBpl s p n planes) :=
  (h.openStream _ _ _ _ _).setWork _

theorem bplEncode_moves {v : Variant} {s t : State} (h : bplEncode v s = .next t) : Moves s t := by
  unfold bplEncode at h
  refine withLevel_moves h fun n h => withBitmap_moves h fun bmp h => emitAll_moves h fun u hu h => ?_
  rw [finishCommand_eq, Host.Outcome.next.injEq] at h
  exact h ▸ (hu.setPlaneLens _).completed _

theorem lcgCommand_moves {c : LcgSet} {s t : State} (h : lcgCommand c s = .next t) : Moves s t := by
  unfold lcgCommand at h
  refine withReg_moves h fun n h => withCapacity_moves h fun h => withReg_moves h fun seed h => withReg_moves h fun layer h => ?_
  split at h
  · exact finishWith_moves (.refl s) h
  · exact withRegs_moves h fun ws h => finishWith_moves (.refl s) h

theorem crc16Command_moves {f : CrcForm} {s t : State} (h : crc16Command f s = .next t) : Moves s t := by
  unfold crc16Command at h
  exact withReg_moves h fun _ h => withReg_moves h fun _ h => by
    cases h; exact ((Moves.refl s).setReg .result _ rfl).completed _

theorem execCrc32_moves {s t : State} (h : execCrc32 s = .next t) : Moves s t := by
  unfold execCrc32 at h
  exact withReg_moves h fun _ h => by cases h; exact ((Moves.refl s).setReg .result _ rfl).completed _

theorem sealFile_moves {s t : State} (h : sealFile s = .next t) : Moves s t := by
  unfold sealFile at h
  refine withReg_moves h fun n h => withCapacity_moves h fun h => ?_
  split at h
  · cases h; exact (Moves.refl s).errored _ _
  · exact finishWith_moves ((Moves.refl s).setReg .result _ rfl) h

theorem verifyFile_moves {s t : State} (h : verifyFile s = .next t) : Moves s t := by
  unfold verifyFile at h
  refine withReg_moves h fun n h => ?_
  split at h
  · cases h; exact (Moves.refl s).errored _ _
  · dsimp only at h
    split at h
    · cases h; exact ((Moves.refl s).setReg .result _ rfl).errored _ _
    · cases h; exact ((Moves.refl s).setReg .result _ rfl).completed _

theorem withSignature_moves {s₀ s t : State} {w kl : Nat} {k : List Byte → Out} (h : withSignature s w kl k = .next t)
    (hk : ∀ sig, k sig = .next t → Moves s₀ t) : Moves s₀ t :=
  hk _ (withSignature_next_iff.mp h).2

theorem execSha1_moves {s t : State} (h : execSha1 s = .next t) : Moves s t := by
  unfold execSha1 at h
  exact withCapacity_moves h fun h => withReg_moves h fun _ h => finishWith_moves (.refl s) h

theorem execSha256_moves {s t : State} (h : execSha256 s = .next t) : Moves s t := by
  unfold execSha256 at h
  exact withCapacity_moves h fun h => withReg_moves h fun _ h => finishWith_moves (.refl s) h

theorem execSigGen_moves {s t : State} (h : execSigGen s = .next t) : Moves s t := by
  unfold execSigGen at h
  exact withSignatureConfig_moves h fun _ _ h => withCapacity_moves h fun h => withSignature_moves h fun _ h =>
    finishWith_moves (.refl s) h

theorem execSigVerify_moves {s t : State} (h : execSigVerify s = .next t) : Moves s t := by
  unfold execSigVerify at h
  refine withSignatureConfig_moves h fun _ _ h => withReg_moves h fun _ h => ?_
  split at h
  · cases h; exact (Moves.refl s).errored _ _
  · refine withSignature_moves h fun _ h => ?_
    split at h
    · cases h; exact (Moves.refl s).errored _ _
    · cases h; exact (Moves.refl s).completed _

theorem execR7xDec_moves {s t : State} (h : execR7xDec s = .next t) : Moves s t := by
  unfold execR7xDec at h
  exact withPixels_moves h fun p h => withCapacity_moves h fun h => withReg_moves h fun n h =>
    runStream_moves ((Moves.refl s).openStream _ _ _ _ _) h

theorem execBplDec_moves {s t : State} (h : execBplDec s = .next t) : Moves s t := by
  unfold execBplDec at h
  exact withLevel_moves h fun _ h => withPixels_moves h fun p h => withCapacity_moves h fun h => withReg_moves h fun n h =>
    runStream_moves (openBpl_moves (.refl s) _ _ _) h

theorem execDifDec_moves {s t : State} (h : execDifDec s = .next t) : Moves s t := by
  unfold execDifDec at h
  refine withPixels_moves h fun p h => withCapacity_moves h fun h => withReg_moves h fun n h => ?_
  split at h
  · cases h; exact (Moves.refl s).errored _ _
  · exact runStream_moves ((Moves.refl s).openStream _ _ _ _ _) h

theorem execNibDec_moves {s t : State} (h : execNibDec s = .next t) : Moves s t := by
  unfold execNibDec at h
  refine withPixels_moves h fun p h => withCapacity_moves h fun h => withReg_moves h fun n h => ?_
  split at h
  · cases h; exact (Moves.refl s).errored _ _
  · exact runStream_moves ((Moves.refl s).openStream _ _ _ _ _) h

theorem execRgbDec_moves {s t : State} (h : execRgbDec s = .next t) : Moves s t := by
  unfold execRgbDec at h
  exact withPixels_moves h fun p h => withCapacity_moves h fun h => withReg_moves h fun n h =>
    runStream_moves ((Moves.refl s).openStream _ _ _ _ _) h

theorem execR7xEnc_moves {s t : State} (h : execR7xEnc s = .next t) : Moves s t := by
  unfold execR7xEnc at h
  exact withBitmap_moves h fun _ h => emitCommand_moves h

theorem execDifEnc_moves {s t : State} (h : execDifEnc s = .next t) : Moves s t := by
  unfold execDifEnc at h
  exact withBitmap_moves h fun _ h => withReg_moves h fun _ h => emitCommand_moves h

theorem execNibEnc_moves {s t : State} (h : execNibEnc s = .next t) : Moves s t := by
  unfold execNibEnc at h
  exact withBitmap_moves h fun _ h => withReg_moves h fun _ h => emitCommand_moves h

theorem execRgbEnc_moves {s t : State} (h : execRgbEnc s = .next t) : Moves s t := by
  unfold execRgbEnc at h
  refine withBitmap_moves h fun b h => ?_
  dsimp only at h
  split at h
  · exact emitCommand_moves h
  · exact emitAll_moves h fun _ _ h => withReg_moves h fun _ h => emitCommand_moves h

/-- Whatever an instruction does to a state is a chain of updates. -/
theorem exec_moves {i : Instr} {s t : State} (h : exec i s = .next t) : Moves s t := by
  by_cases hf : i.format = .command
  swap
  · exact execToken_moves ((execToken_eq_exec hf s).trans h)
  cases i
  case r7xDec => exact execR7xDec_moves h
  case bplDec => exact execBplDec_moves h
  case difDec => exact execDifDec_moves h
  case nibDec => exact execNibDec_moves h
  case rgbDec => exact execRgbDec_moves h
  case r7xEnc => exact execR7xEnc_moves h
  case difEnc => exact execDifEnc_moves h
  case nibEnc => exact execNibEnc_moves h
  case rgbEnc => exact execRgbEnc_moves h
  case crc32 => exact execCrc32_moves h
  case sha1 => exact execSha1_moves h
  case sha256 => exact execSha256_moves h
  case sigGen => exact execSigGen_moves h
  case sigVerify => exact execSigVerify_moves h
  case bplEnc => exact bplEncode_moves h
  case lcgXor => exact lcgCommand_moves h
  case crc16 => exact crc16Command_moves h
  case crc32File m => cases m; exacts [sealFile_moves h, verifyFile_moves h]
  case bplEncA => exact bplEncode_moves h
  case bplEncB => exact bplEncode_moves h
  case lcgXor0 => exact lcgCommand_moves h
  case encrypt0 => exact lcgCommand_moves h
  case decrypt0 => exact lcgCommand_moves h
  case lcgXor1 => exact lcgCommand_moves h
  case encrypt1 => exact lcgCommand_moves h
  case decrypt1 => exact lcgCommand_moves h
  case crc16Raw => exact crc16Command_moves h
  case crc32Seal => exact sealFile_moves h
  case crc32Check => exact verifyFile_moves h
  all_goals exact absurd hf (by simp [Instr.format])

end Sys2Proof.Machine
end

