-- ==== Sys2Proof/Laws/PerInstr.lean ====
section
/-! SUPPORT. Statements about every row of the opcode table, one lemma per constructor. -/

namespace Sys2Proof

/-- A command takes no byte of a stream; a token or framing field takes one to five (10_state.md R37). -/
def Laws.TokenLength.Statement (i : Instr) : Prop :=
  if i.format = .command then tokenSize i = 0 else 1 ≤ tokenSize i ∧ tokenSize i ≤ Machine.maxTokenSize

theorem Laws.TokenLength.r7xDec : Laws.TokenLength.Statement .r7xDec :=
  show tokenSize .r7xDec = 0 from rfl

theorem Laws.TokenLength.r7xEnc : Laws.TokenLength.Statement .r7xEnc :=
  show tokenSize .r7xEnc = 0 from rfl

theorem Laws.TokenLength.bplDec : Laws.TokenLength.Statement .bplDec :=
  show tokenSize .bplDec = 0 from rfl

theorem Laws.TokenLength.bplEnc (v : Variant) : Laws.TokenLength.Statement (.bplEnc v) :=
  show tokenSize (.bplEnc v) = 0 from rfl

theorem Laws.TokenLength.difDec : Laws.TokenLength.Statement .difDec :=
  show tokenSize .difDec = 0 from rfl

theorem Laws.TokenLength.difEnc : Laws.TokenLength.Statement .difEnc :=
  show tokenSize .difEnc = 0 from rfl

theorem Laws.TokenLength.nibDec : Laws.TokenLength.Statement .nibDec :=
  show tokenSize .nibDec = 0 from rfl

theorem Laws.TokenLength.nibEnc : Laws.TokenLength.Statement .nibEnc :=
  show tokenSize .nibEnc = 0 from rfl

theorem Laws.TokenLength.rgbDec : Laws.TokenLength.Statement .rgbDec :=
  show tokenSize .rgbDec = 0 from rfl

theorem Laws.TokenLength.rgbEnc : Laws.TokenLength.Statement .rgbEnc :=
  show tokenSize .rgbEnc = 0 from rfl

theorem Laws.TokenLength.lcgXor (c : LcgSet) : Laws.TokenLength.Statement (.lcgXor c) :=
  show tokenSize (.lcgXor c) = 0 from rfl

theorem Laws.TokenLength.crc16 (f : CrcForm) : Laws.TokenLength.Statement (.crc16 f) :=
  show tokenSize (.crc16 f) = 0 from rfl

theorem Laws.TokenLength.crc32 : Laws.TokenLength.Statement .crc32 :=
  show tokenSize .crc32 = 0 from rfl

theorem Laws.TokenLength.crc32File (m : SlotMode) : Laws.TokenLength.Statement (.crc32File m) :=
  show tokenSize (.crc32File m) = 0 from rfl

theorem Laws.TokenLength.sha1 : Laws.TokenLength.Statement .sha1 :=
  show tokenSize .sha1 = 0 from rfl

theorem Laws.TokenLength.sha256 : Laws.TokenLength.Statement .sha256 :=
  show tokenSize .sha256 = 0 from rfl

theorem Laws.TokenLength.sigGen : Laws.TokenLength.Statement .sigGen :=
  show tokenSize .sigGen = 0 from rfl

theorem Laws.TokenLength.sigVerify : Laws.TokenLength.Statement .sigVerify :=
  show tokenSize .sigVerify = 0 from rfl

theorem Laws.TokenLength.bplEncA : Laws.TokenLength.Statement .bplEncA :=
  show tokenSize .bplEncA = 0 from rfl

theorem Laws.TokenLength.bplEncB : Laws.TokenLength.Statement .bplEncB :=
  show tokenSize .bplEncB = 0 from rfl

theorem Laws.TokenLength.lcgXor0 : Laws.TokenLength.Statement .lcgXor0 :=
  show tokenSize .lcgXor0 = 0 from rfl

theorem Laws.TokenLength.encrypt0 : Laws.TokenLength.Statement .encrypt0 :=
  show tokenSize .encrypt0 = 0 from rfl

theorem Laws.TokenLength.decrypt0 : Laws.TokenLength.Statement .decrypt0 :=
  show tokenSize .decrypt0 = 0 from rfl

theorem Laws.TokenLength.lcgXor1 : Laws.TokenLength.Statement .lcgXor1 :=
  show tokenSize .lcgXor1 = 0 from rfl

theorem Laws.TokenLength.encrypt1 : Laws.TokenLength.Statement .encrypt1 :=
  show tokenSize .encrypt1 = 0 from rfl

theorem Laws.TokenLength.decrypt1 : Laws.TokenLength.Statement .decrypt1 :=
  show tokenSize .decrypt1 = 0 from rfl

theorem Laws.TokenLength.crc16Raw : Laws.TokenLength.Statement .crc16Raw :=
  show tokenSize .crc16Raw = 0 from rfl

theorem Laws.TokenLength.crc32Seal : Laws.TokenLength.Statement .crc32Seal :=
  show tokenSize .crc32Seal = 0 from rfl

theorem Laws.TokenLength.crc32Check : Laws.TokenLength.Statement .crc32Check :=
  show tokenSize .crc32Check = 0 from rfl

theorem Laws.TokenLength.r7xPix (c : BitVec 7) : Laws.TokenLength.Statement (.r7xPix c) :=
  show 1 ≤ 1 ∧ 1 ≤ 5 from by decide

theorem Laws.TokenLength.r7xRun7 (c : BitVec 7) (l : BitVec 7) : Laws.TokenLength.Statement (.r7xRun7 c l) :=
  show 1 ≤ 2 ∧ 2 ≤ 5 from by decide

theorem Laws.TokenLength.r7xRun14 (c : BitVec 7) (l : BitVec 14) : Laws.TokenLength.Statement (.r7xRun14 c l) :=
  show 1 ≤ 3 ∧ 3 ≤ 5 from by decide

theorem Laws.TokenLength.r7xRun21 (c : BitVec 7) (l : BitVec 21) : Laws.TokenLength.Statement (.r7xRun21 c l) :=
  show 1 ≤ 4 ∧ 4 ≤ 5 from by decide

theorem Laws.TokenLength.r7xRun28 (c : BitVec 7) (l : BitVec 28) : Laws.TokenLength.Statement (.r7xRun28 c l) :=
  show 1 ≤ 5 ∧ 5 ≤ 5 from by decide

theorem Laws.TokenLength.bplTok (on : Bool) (l : BitVec 7) : Laws.TokenLength.Statement (.bplTok on l) :=
  show 1 ≤ 1 ∧ 1 ≤ 5 from by decide

theorem Laws.TokenLength.difMagic (m : Byte) : Laws.TokenLength.Statement (.difMagic m) :=
  show 1 ≤ 1 ∧ 1 ≤ 5 from by decide

theorem Laws.TokenLength.difChecksum (k : Byte) : Laws.TokenLength.Statement (.difChecksum k) :=
  show 1 ≤ 1 ∧ 1 ≤ 5 from by decide

theorem Laws.TokenLength.difZero0 (l : BitVec 4) : Laws.TokenLength.Statement (.difZero0 l) :=
  show 1 ≤ 1 ∧ 1 ≤ 5 from by decide

theorem Laws.TokenLength.difZero1 (l : BitVec 12) : Laws.TokenLength.Statement (.difZero1 l) :=
  show 1 ≤ 2 ∧ 2 ≤ 5 from by decide

theorem Laws.TokenLength.difZero2 (l : BitVec 20) : Laws.TokenLength.Statement (.difZero2 l) :=
  show 1 ≤ 3 ∧ 3 ≤ 5 from by decide

theorem Laws.TokenLength.difZero3 (l : BitVec 28) : Laws.TokenLength.Statement (.difZero3 l) :=
  show 1 ≤ 4 ∧ 4 ≤ 5 from by decide

theorem Laws.TokenLength.difValue0 (v : Byte) (l : BitVec 4) : Laws.TokenLength.Statement (.difValue0 v l) :=
  show 1 ≤ 2 ∧ 2 ≤ 5 from by decide

theorem Laws.TokenLength.difValue1 (v : Byte) (l : BitVec 12) : Laws.TokenLength.Statement (.difValue1 v l) :=
  show 1 ≤ 3 ∧ 3 ≤ 5 from by decide

theorem Laws.TokenLength.difValue2 (v : Byte) (l : BitVec 20) : Laws.TokenLength.Statement (.difValue2 v l) :=
  show 1 ≤ 4 ∧ 4 ≤ 5 from by decide

theorem Laws.TokenLength.difValue3 (v : Byte) (l : BitVec 28) : Laws.TokenLength.Statement (.difValue3 v l) :=
  show 1 ≤ 5 ∧ 5 ≤ 5 from by decide

theorem Laws.TokenLength.difMax0 (l : BitVec 4) : Laws.TokenLength.Statement (.difMax0 l) :=
  show 1 ≤ 1 ∧ 1 ≤ 5 from by decide

theorem Laws.TokenLength.difMax1 (l : BitVec 12) : Laws.TokenLength.Statement (.difMax1 l) :=
  show 1 ≤ 2 ∧ 2 ≤ 5 from by decide

theorem Laws.TokenLength.difMax2 (l : BitVec 20) : Laws.TokenLength.Statement (.difMax2 l) :=
  show 1 ≤ 3 ∧ 3 ≤ 5 from by decide

theorem Laws.TokenLength.difMax3 (l : BitVec 28) : Laws.TokenLength.Statement (.difMax3 l) :=
  show 1 ≤ 4 ∧ 4 ≤ 5 from by decide

theorem Laws.TokenLength.difDelta0 (d : BitVec 4) : Laws.TokenLength.Statement (.difDelta0 d) :=
  show 1 ≤ 1 ∧ 1 ≤ 5 from by decide

theorem Laws.TokenLength.difDelta1 (d : BitVec 4) (l : BitVec 8) : Laws.TokenLength.Statement (.difDelta1 d l) :=
  show 1 ≤ 2 ∧ 2 ≤ 5 from by decide

theorem Laws.TokenLength.difDelta2 (d : BitVec 4) (l : BitVec 16) : Laws.TokenLength.Statement (.difDelta2 d l) :=
  show 1 ≤ 3 ∧ 3 ≤ 5 from by decide

theorem Laws.TokenLength.difDelta3 (d : BitVec 4) (l : BitVec 24) : Laws.TokenLength.Statement (.difDelta3 d l) :=
  show 1 ≤ 4 ∧ 4 ≤ 5 from by decide

theorem Laws.TokenLength.nibBlack (l : BitVec 12) : Laws.TokenLength.Statement (.nibBlack l) :=
  show 1 ≤ 2 ∧ 2 ≤ 5 from by decide

theorem Laws.TokenLength.nibWhite (l : BitVec 12) : Laws.TokenLength.Statement (.nibWhite l) :=
  show 1 ≤ 2 ∧ 2 ≤ 5 from by decide

theorem Laws.TokenLength.nibGrey (c : BitVec 4) (l : BitVec 4) : Laws.TokenLength.Statement (.nibGrey c l) :=
  show 1 ≤ 1 ∧ 1 ≤ 5 from by decide

theorem Laws.TokenLength.nibTrailer (f : BitVec 16) : Laws.TokenLength.Statement (.nibTrailer f) :=
  show 1 ≤ 2 ∧ 2 ≤ 5 from by decide

theorem Laws.TokenLength.rgbWord (r : BitVec 5) (g : BitVec 5) (b : BitVec 5) : Laws.TokenLength.Statement (.rgbWord r g b) :=
  show 1 ≤ 2 ∧ 2 ≤ 5 from by decide

theorem Laws.TokenLength.rgbRep (r : BitVec 5) (g : BitVec 5) (b : BitVec 5) (n : BitVec 12) (x : BitVec 4) : Laws.TokenLength.Statement (.rgbRep r g b n x) :=
  show 1 ≤ 4 ∧ 4 ≤ 5 from by decide

end Sys2Proof
end

