-- ==== Sys2Proof/Tests/Slice0.lean ====
section
/-! SUPPORT. The model's own tests: expected results are the examples and vectors of spec/ (95_test_vectors.md and the rules
named), and for each statement with premises a state that meets them. -/

namespace Sys2Proof.Tests

-- One theorem after the other: kernel checks that wait for each other would each hold a thread.
set_option Elab.async false

open Sys2Proof.Machine

/-! ## Helpers -/

/-- A state just after the host has loaded IN and written the registers. -/
def load (rs : List (Reg × Word)) (bs : List Byte) : State :=
  let s := rs.foldl (fun s r => s.storeReg r.1 r.2) State.reset
  { s.storeReg .inLen (BitVec.ofNat 32 bs.length) with inMem := s.inMem.putAll 0 bs }

/-- The registers a codec needs for P pixels. -/
def codec (p cap : Nat) (extra : List (Reg × Word)) : List (Reg × Word) :=
  [(.width, BitVec.ofNat 32 p), (.height, 1#32), (.outCap, BitVec.ofNat 32 cap)] ++ extra

/-- STATUS, ERR_OFF and OUT[0 .. OUT_LEN-1] after a next state. -/
def result : Out → Option (Nat × Nat × List Nat)
  | .next t => some ((t.reg .status).toNat, (t.reg .errOff).toNat,
      (t.outRange 0 (t.reg .outLen).toNat).map BitVec.toNat)
  | .fault _ => none
  | .refused _ => none

/-- STATUS, ERR_OFF, OUT_LEN and one register after a next state. -/
def register (r : Reg) : Out → Option (Nat × Nat × Nat × Nat)
  | .next t => some ((t.reg .status).toNat, (t.reg .errOff).toNat, (t.reg .outLen).toNat, (t.reg r).toNat)
  | .fault _ => none
  | .refused _ => none

/-- The cursor, the pixel count and bytes of OUT inside a decoding command. -/
def cursor (n : Nat) : Out → Option (Nat × Nat × List Nat)
  | .next t => t.work.map fun w => (w.ic, w.pc, (t.outRange 0 n).map BitVec.toNat)
  | .fault _ => none
  | .refused _ => none

/-- Inside a decoding command that has just begun on its tokens. -/
def during (st : Stream) (p : Nat) (bs : List Byte) : State :=
  openStream (load (codec p (3 * p) []) bs) st .tokens p bs.length 1

/-- Bytes from numbers. -/
def by8 (ns : List Nat) : List Byte := ns.map (BitVec.ofNat 8)

/-! ## WellFormed refuses -/

theorem test_nibGrey_colour_0_is_ill_formed : (Instr.nibGrey 0x0#4 3#4).wellFormed = false := by decide

theorem test_nibGrey_colour_F_is_ill_formed : (Instr.nibGrey 0xF#4 3#4).wellFormed = false := by decide

theorem test_nibGrey_colours_1_and_E_are_well_formed :
    (Instr.nibGrey 0x1#4 0#4).wellFormed = true ∧ (Instr.nibGrey 0xE#4 15#4).wellFormed = true := by decide

/-! ## Decoding, by words written out from R91, R92 and R100 to R106 -/

theorem test_decode_commands :
    decodeCommand 0x00000001#32 = .ok .r7xDec ∧ decodeCommand 0x00000002#32 = .ok .r7xEnc ∧
    decodeCommand 0x00000003#32 = .ok .bplDec ∧ decodeCommand 0x00000004#32 = .ok (.bplEnc .a) ∧
    decodeCommand 0x00000104#32 = .ok (.bplEnc .b) ∧ decodeCommand 0x00000005#32 = .ok .difDec ∧
    decodeCommand 0x00000006#32 = .ok .difEnc ∧ decodeCommand 0x00000007#32 = .ok .nibDec ∧
    decodeCommand 0x00000008#32 = .ok .nibEnc ∧ decodeCommand 0x00000009#32 = .ok .rgbDec ∧
    decodeCommand 0x0000000A#32 = .ok .rgbEnc := by decide

theorem test_decode_cipher_and_integrity_commands :
    decodeCommand 0x00000010#32 = .ok (.lcgXor .set0) ∧ decodeCommand 0x00000110#32 = .ok (.lcgXor .set1) ∧
    decodeCommand 0x00000020#32 = .ok (.crc16 .finished) ∧ decodeCommand 0x00000120#32 = .ok (.crc16 .raw) ∧
    decodeCommand 0x00000021#32 = .ok .crc32 ∧ decodeCommand 0x00000022#32 = .ok (.crc32File .seal) ∧
    decodeCommand 0x00000122#32 = .ok (.crc32File .verify) ∧ decodeCommand 0x00000030#32 = .ok .sha1 ∧
    decodeCommand 0x00000031#32 = .ok .sha256 ∧ decodeCommand 0x00000040#32 = .ok .sigGen ∧
    decodeCommand 0x00000041#32 = .ok .sigVerify := by decide

/-- The words of R111 are their commands' words. -/
theorem test_decode_pseudo_instructions :
    encode .bplEncA = .word 0x00000004#32 ∧ encode .bplEncB = .word 0x00000104#32 ∧
    encode .lcgXor0 = .word 0x00000010#32 ∧ encode .encrypt0 = .word 0x00000010#32 ∧
    encode .decrypt0 = .word 0x00000010#32 ∧ encode .lcgXor1 = .word 0x00000110#32 ∧
    encode .encrypt1 = .word 0x00000110#32 ∧ encode .decrypt1 = .word 0x00000110#32 ∧
    encode .crc16Raw = .word 0x00000120#32 ∧ encode .crc32Seal = .word 0x00000022#32 ∧
    encode .crc32Check = .word 0x00000122#32 := by decide

/-- R93: an unassigned OPC, an illegal OPT, OPT[3:1], RSV. -/
theorem test_decode_rejects_command_words :
    decodeCommand 0x00000000#32 = .error .unassignedOpc ∧ decodeCommand 0x0000000B#32 = .error .unassignedOpc ∧
    decodeCommand 0x00000103#32 = .error .illegalOpt ∧ decodeCommand 0x00000204#32 = .error .illegalOpt ∧
    decodeCommand 0x00001001#32 = .error .reservedBits ∧ decodeCommand 0x80000021#32 = .error .reservedBits := by decide

theorem test_decode_r7x_tokens :
    decodeBytes .r7x (by8 [0x05]) = .ok (.r7xPix 5#7, []) ∧
    decodeBytes .r7x (by8 [0x88, 0x7F]) = .ok (.r7xRun7 8#7 127#7, []) ∧
    decodeBytes .r7x (by8 [0x88, 0x90, 0x00]) = .ok (.r7xRun14 8#7 4096#14, []) ∧
    decodeBytes .r7x (by8 [0x88, 0xC0, 0x40, 0x00]) = .ok (.r7xRun21 8#7 16384#21, []) ∧
    decodeBytes .r7x (by8 [0x80, 0xE0, 0x20, 0x00, 0x00]) = .ok (.r7xRun28 0#7 0x200000#28, []) ∧
    decodeBytes .r7x (by8 [0x85, 0xF0]) = .error .illegalPattern ∧
    decodeBytes .r7x (by8 [0x85, 0x81]) = .error .cutShort := by decide

theorem test_decode_bpl_tokens :
    decodeBytes .bpl (by8 [0x03]) = .ok (.bplTok false 3#7, []) ∧
    decodeBytes .bpl (by8 [0xFF]) = .ok (.bplTok true 127#7, []) := by decide

theorem test_decode_dif_framing :
    decodeBytes .difMagic (by8 [0x55]) = .ok (.difMagic 0x55#8, []) ∧
    decodeBytes .difChecksum (by8 [0x5C]) = .ok (.difChecksum 0x5C#8, []) := by decide

theorem test_decode_dif_zero_and_max :
    decodeBytes .dif (by8 [0x0F]) = .ok (.difZero0 15#4, []) ∧
    decodeBytes .dif (by8 [0x1F, 0xFF]) = .ok (.difZero1 4095#12, []) ∧
    decodeBytes .dif (by8 [0x20, 0x10, 0x00]) = .ok (.difZero2 4096#20, []) ∧
    decodeBytes .dif (by8 [0x30, 0x10, 0x00, 0x01]) = .ok (.difZero3 0x100001#28, []) ∧
    decodeBytes .dif (by8 [0xC3]) = .ok (.difMax0 3#4, []) ∧
    decodeBytes .dif (by8 [0xD0, 0x14]) = .ok (.difMax1 20#12, []) ∧
    decodeBytes .dif (by8 [0xE0, 0x10, 0x00]) = .ok (.difMax2 4096#20, []) ∧
    decodeBytes .dif (by8 [0xF0, 0x10, 0x00, 0x01]) = .ok (.difMax3 0x100001#28, []) := by decide

theorem test_decode_dif_value_and_delta :
    decodeBytes .dif (by8 [0x42, 0x05]) = .ok (.difValue0 5#8 2#4, []) ∧
    decodeBytes .dif (by8 [0x5F, 0x07, 0xFF]) = .ok (.difValue1 7#8 4095#12, []) ∧
    decodeBytes .dif (by8 [0x61, 0x07, 0x02, 0x03]) = .ok (.difValue2 7#8 0x10203#20, []) ∧
    decodeBytes .dif (by8 [0x71, 0x07, 0x02, 0x03, 0x04]) = .ok (.difValue3 7#8 0x1020304#28, []) ∧
    decodeBytes .dif (by8 [0x88]) = .ok (.difDelta0 8#4, []) ∧
    decodeBytes .dif (by8 [0x97, 0x10]) = .ok (.difDelta1 7#4 16#8, []) ∧
    decodeBytes .dif (by8 [0xA7, 0x10, 0x00]) = .ok (.difDelta2 7#4 4096#16, []) ∧
    decodeBytes .dif (by8 [0xB7, 0x10, 0x00, 0x01]) = .ok (.difDelta3 7#4 0x100001#24, []) := by decide

theorem test_decode_nib_tokens :
    decodeBytes .nib (by8 [0x0F, 0xFF]) = .ok (.nibBlack 4095#12, []) ∧
    decodeBytes .nib (by8 [0xF0, 0x01]) = .ok (.nibWhite 1#12, []) ∧
    decodeBytes .nib (by8 [0x8F, 0x81]) = .ok (.nibGrey 8#4 15#4, by8 [0x81]) ∧
    decodeBytes .nibTrailer (by8 [0x24, 0x4B]) = .ok (.nibTrailer 0x4B24#16, []) := by decide

theorem test_decode_rgb_tokens :
    decodeBytes .rgb (by8 [0x40, 0x00]) = .ok (.rgbWord 0#5 1#5 0#5, []) ∧
    decodeBytes .rgb (by8 [0xAA, 0x11, 0x02, 0x30]) = .ok (.rgbRep 2#5 6#5 10#5 2#12 3#4, []) ∧
    decodeBytes .rgb (by8 [0x3F, 0x00, 0x05]) = .error .cutShort := by decide

/-- A command word, and tokens with their first byte in the most significant bits. -/
theorem test_table_words :
    decodeTableWord 32 0x00000110 = some (.lcgXor .set1) ∧ decodeTableWord 8 0x8E = some (.difDelta0 14#4) ∧
    decodeTableWord 16 0x8E05 = some (.r7xRun7 14#7 5#7) ∧ decodeTableWord 24 0x888FFF = some (.r7xRun14 8#7 4095#14) ∧
    decodeTableWord 40 0x71070203FF = some (.difValue3 7#8 0x10203FF#28) := by decide

/-- A token placed from the table runs as the next step. -/
theorem test_withFetchWord : cursor 1 (step (State.reset.withFetchWord 8 0x87)) = some (1, 1, [7]) := by decide +kernel

/-! ## One step each: commands -/

theorem test_r7xDec : result (exec .r7xDec (load (codec 5 5 []) (by8 [0xC0, 0x80, 0x05]))) =
    some (0x02, 0, [0x81, 0x81, 0x81, 0x81, 0x81]) := by decide +kernel

theorem test_r7xDec_illegal_pattern : result (exec .r7xDec (load (codec 5 5 []) (by8 [0x85, 0xF0]))) =
    some (0x13, 0, []) := by decide +kernel

theorem test_r7xEnc : result (exec .r7xEnc (load (codec 5 5 []) (by8 [0xFF, 0xFF, 0x10, 0x11, 0x12]))) =
    some (0x02, 0, [0xFF, 0x02, 0x88, 0x02, 0x09]) := by decide +kernel

theorem test_r7xEnc_wrong_length : result (exec .r7xEnc (load (codec 3 9 []) (by8 [0, 0]))) =
    some (0x13, 0, []) := by decide +kernel

theorem test_bplDec : result (exec .bplDec (load (codec 4 4 [(.aaN, 4#32)])
      (by8 [0x01, 0x83, 0x02, 0x82, 0x03, 0x81, 0x03, 0x81]))) = some (0x02, 0, [0x00, 0x3F, 0x7F, 0xFF]) := by decide +kernel

theorem test_bplDec_leftover : result (exec .bplDec (load (codec 2 9 [(.aaN, 1#32)]) (by8 [0x82, 0x00]))) =
    some (0x13, 1, []) := by decide +kernel

theorem test_bplEnc_b : result (exec (.bplEnc .b) (load (codec 4 8 [(.aaN, 4#32)]) (by8 [0x00, 0x40, 0x80, 0xFF]))) =
    some (0x02, 0, [0x01, 0x83, 0x02, 0x82, 0x03, 0x81, 0x03, 0x81]) := by decide +kernel

theorem test_bplEncA : result (exec .bplEncA (load (codec 6 9 [(.aaN, 2#32)]) (by8 [0x00, 0x55, 0x56, 0xAA, 0xAB, 0xFF]))) =
    some (0x02, 0, [0x02, 0x84, 0x04, 0x82]) := by decide +kernel

theorem test_bplEncB_plane_length : register (.planeLen 3)
      (exec .bplEncB (load (codec 4 8 [(.aaN, 4#32)]) (by8 [0x00, 0x40, 0x80, 0xFF]))) = some (0x02, 0, 8, 2) := by decide +kernel

theorem test_bplEnc_unsupported_level : result (exec .bplEncA (load (codec 1 9 [(.aaN, 17#32)]) (by8 [0]))) =
    some (0x33, 0, []) := by decide +kernel

theorem test_difDec : result (exec .difDec (load (codec 9 9 [(.diffMagic, 0x55#32)])
      (by8 [0x55, 0x03, 0x42, 0x05, 0x8E, 0xC2, 0x41, 0xC8, 0x5C]))) =
    some (0x02, 0, [0, 0, 0, 5, 5, 3, 0xFF, 0xFF, 0xC8]) := by decide +kernel

theorem test_difDec_checksum : result (exec .difDec (load (codec 1 9 [(.diffMagic, 0x55#32)]) (by8 [0x55, 0x01, 0xFF]))) =
    some (0x23, 2, []) := by decide +kernel

theorem test_difEnc : result (exec .difEnc (load (codec 9 20 [(.diffMagic, 0x55#32)]) (by8 [0, 0, 0, 5, 5, 3, 0xFF, 0xFF, 0xC8]))) =
    some (0x02, 0, [0x55, 0x03, 0x42, 0x05, 0x8E, 0xC2, 0x41, 0xC8, 0x5C]) := by decide +kernel

theorem test_difEnc_overrun : result (exec .difEnc (load (codec 2 3 [(.diffMagic, 0x55#32)]) (by8 [0x64, 0x5C]))) =
    some (0x43, 1, []) := by decide +kernel

theorem test_nibDec : result (exec .nibDec (load (codec 6 6 []) (by8 [0x00, 0x03, 0x32, 0xF0, 0x01, 0xAA, 0xBB]))) =
    some (0x02, 0, [0, 0, 0, 0x33, 0x33, 0xFF]) := by decide +kernel

theorem test_nibEnc_trailer_overrun : result (exec .nibEnc (load (codec 6 5 [(.crc16Init, 0#32)])
      (by8 [0, 0, 0, 0x37, 0x37, 0xFF]))) = some (0x43, 6, []) := by decide +kernel

/-- The token bytes and the raw CRC register of R233's example; the trailer is CRC16_FINISH of it, which is open. -/
theorem test_nibEnc_tokens :
    (pieceBytes (encodeNibTokens (by8 [0, 0, 0, 0x37, 0x37, 0xFF]))).map BitVec.toNat = [0x00, 0x03, 0x32, 0xF0, 0x01] ∧
    crc16Raw 0#16 (by8 [0x00, 0x03, 0x32, 0xF0, 0x01]) = 0x4B24#16 := by decide +kernel

theorem test_rgbDec : result (exec .rgbDec (load (codec 2 6 []) (by8 [0x3F, 0x00, 0x01, 0x00]))) =
    some (0x02, 0, [0, 0, 0xF8, 0, 0, 0xF8]) := by decide +kernel

theorem test_rgbEnc : result (exec .rgbEnc (load (codec 6 12 [(.rgbRepHi, 3#32)])
      (by8 [0xFF, 0, 0, 0xFF, 0, 0, 0xFF, 0, 0, 0, 0xFF, 0, 0, 0, 0xFF, 0, 0, 0xFF]))) =
    some (0x02, 0, [0x20, 0xF8, 0x02, 0x30, 0xC0, 0x07, 0x1F, 0x00, 0x1F, 0x00]) := by decide +kernel

/-- Configuration T1 of 95_test_vectors.md, in both banks. -/
def cipher (seed layer : Word) : List (Reg × Word) :=
  [(.outCap, 16#32), (.seed, seed), (.layer, layer),
    (.lcg0 0, 0x2D83CDAC#32), (.lcg0 1, 0xD8A83423#32), (.lcg0 2, 0x1E1530CD#32), (.lcg0 3, 0xEC3D47CD#32),
    (.lcg1 0, 0x2D83CDAC#32), (.lcg1 1, 0xD8A83423#32), (.lcg1 2, 0x1E1530CD#32), (.lcg1 3, 0xEC3D47CD#32)]

theorem test_lcgXor_0 : result (exec (.lcgXor .set0) (load (cipher 0x12345678#32 0#32) (by8 [0, 1, 2, 3, 4, 5]))) =
    some (0x02, 0, [0x27, 0xC4, 0xD3, 0xCD, 0xEE, 0x2C]) := by decide +kernel

theorem test_encrypt0_decrypt0 :
    result (exec .encrypt0 (load (cipher 0x12345678#32 0#32) (by8 [0, 1, 2, 3, 4, 5]))) =
      some (0x02, 0, [0x27, 0xC4, 0xD3, 0xCD, 0xEE, 0x2C]) ∧
    result (exec .decrypt0 (load (cipher 0x12345678#32 0#32) (by8 [0x27, 0xC4, 0xD3, 0xCD, 0xEE, 0x2C]))) =
      some (0x02, 0, [0, 1, 2, 3, 4, 5]) := by decide +kernel

theorem test_lcgXor0_layer_3 : result (exec .lcgXor0 (load (cipher 0x12345678#32 3#32) (by8 [0, 0, 0, 0, 0, 0, 0, 0]))) =
    some (0x02, 0, [0x9C, 0x85, 0xB6, 0xCE, 0x5F, 0xEA, 0x2E, 0x23]) := by decide +kernel

theorem test_lcgXor1_seed_1 : result (exec .lcgXor1 (load (cipher 1#32 0#32) (by8 [0, 0, 0, 0, 0, 0, 0, 0]))) =
    some (0x02, 0, [0xC3, 0xDB, 0x10, 0x68, 0x92, 0xDD, 0x3C, 0x6E]) := by decide +kernel

theorem test_encrypt1_decrypt1_disabled :
    result (exec .encrypt1 (load [(.outCap, 2#32), (.seed, 0#32), (.layer, 9#32)] (by8 [0xAB, 0xCD]))) =
      some (0x02, 0, [0xAB, 0xCD]) ∧
    result (exec .decrypt1 (load [(.outCap, 1#32), (.seed, 0#32), (.layer, 9#32)] (by8 [0xAB, 0xCD]))) =
      some (0x43, 0, []) := by decide +kernel

/-- 95_test_vectors.md: the constants are not written, and SEED is not 0. -/
theorem test_lcgXor1_unwritten_constants :
    exec .lcgXor1 (load [(.outCap, 1#32), (.seed, 1#32), (.layer, 0#32)] (by8 [0])) =
      .fault (.unwrittenRegister (.lcg1 0)) := rfl

/-- "123456789" of 46_crc.md. -/
def digits : List Byte := by8 [0x31, 0x32, 0x33, 0x34, 0x35, 0x36, 0x37, 0x38, 0x39]

theorem test_crc16_raw : register .result (exec (.crc16 .raw) (load [(.crc16Init, 0#32)] digits)) =
    some (0x02, 0, 0, 0x0000BB3D) := by decide +kernel

theorem test_crc16Raw_modbus : register .result (exec .crc16Raw (load [(.crc16Init, 0xFFFF#32)] digits)) =
    some (0x02, 0, 0, 0x00004B37) := by decide +kernel

theorem test_crc32 : register .result (exec .crc32 (load [] digits)) = some (0x02, 0, 0, 0xCBF43926) := by decide +kernel

theorem test_crc32File_seal : result (exec (.crc32File .seal)
      (load [(.outCap, 4#32)] (by8 [0x41, 0x42, 0x43, 0x44, 0, 0, 0, 0]))) =
    some (0x02, 0, [0xA5, 0x20, 0x17, 0xDB]) := by decide +kernel

theorem test_crc32Seal_result : register .result (exec .crc32Seal
      (load [(.outCap, 4#32)] (by8 [0x41, 0x42, 0x43, 0x44, 0, 0, 0, 0]))) = some (0x02, 0, 4, 0xDB1720A5) := by decide +kernel

theorem test_crc32File_verify : register .result (exec (.crc32File .verify)
      (load [] (by8 [0x41, 0x42, 0x43, 0x44, 0xA5, 0x20, 0x17, 0xDB]))) = some (0x02, 0, 0, 0xDB1720A5) := by decide +kernel

/-- RESULT keeps the computed CRC after the mismatch. -/
theorem test_crc32Check_mismatch : register .result (exec .crc32Check
      (load [] (by8 [0x41, 0x42, 0x43, 0x44, 0xA5, 0x20, 0x17, 0xDC]))) = some (0x23, 4, 0, 0xDB1720A5) := by decide +kernel

theorem test_sha1_abc : result (exec .sha1 (load [(.outCap, 20#32)] (by8 [0x61, 0x62, 0x63]))) =
    some (0x02, 0, [0xA9, 0x99, 0x3E, 0x36, 0x47, 0x06, 0x81, 0x6A, 0xBA, 0x3E, 0x25, 0x71, 0x78, 0x50, 0xC2, 0x6C, 0x9C, 0xD0,
      0xD8, 0x9D]) := by decide +kernel

theorem test_sha256_abc : result (exec .sha256 (load [(.outCap, 32#32)] (by8 [0x61, 0x62, 0x63]))) =
    some (0x02, 0, [0xBA, 0x78, 0x16, 0xBF, 0x8F, 0x01, 0xCF, 0xEA, 0x41, 0x41, 0x40, 0xDE, 0x5D, 0xAE, 0x22, 0x23, 0xB0, 0x03,
      0x61, 0xA3, 0x96, 0x17, 0x7A, 0x9C, 0xB4, 0x10, 0xFF, 0x61, 0xF2, 0x00, 0x15, 0xAD]) := by decide +kernel

/-- Configuration S1 of 95_test_vectors.md. -/
def keyMaterial : List (Reg × Word) :=
  [(.sigFieldBytes, 8#32), (.sigvalLo, 0x89ABCDEF#32), (.sigvalHi, 0x01234567#32), (.aesKlen, 32#32),
    (.aesKey 0, 0x03020100#32), (.aesKey 1, 0x07060504#32), (.aesKey 2, 0x0B0A0908#32), (.aesKey 3, 0x0F0E0D0C#32),
    (.aesKey 4, 0x13121110#32), (.aesKey 5, 0x17161514#32), (.aesKey 6, 0x1B1A1918#32), (.aesKey 7, 0x1F1E1D1C#32),
    (.aesIv 0, 0x33221100#32), (.aesIv 1, 0x77665544#32), (.aesIv 2, 0xBBAA9988#32), (.aesIv 3, 0xFFEEDDCC#32)]

/-- The signature of configuration S1 (R372). -/
def sigS1 : List Nat :=
  [0xCB, 0xA5, 0x92, 0x61, 0x6F, 0xC4, 0xE0, 0x0F, 0xEF, 0xD5, 0xA8, 0x2F, 0xB2, 0x15, 0x8A, 0x3B, 0x08, 0x45, 0x93, 0x79,
    0x5C, 0xCA, 0x25, 0x59, 0x29, 0x90, 0xD2, 0x36, 0xE9, 0x57, 0xF4, 0xA3]

theorem test_sigGen : result (exec .sigGen (load ((.outCap, 32#32) :: keyMaterial) [])) = some (0x02, 0, sigS1) := by
  decide +kernel

theorem test_sigVerify_length : result (exec .sigVerify (load keyMaterial (by8 [1, 2, 3]))) = some (0x23, 0, []) := by
  decide +kernel

theorem test_illegal_command : result (rejectCommand (load [(.outCap, 4#32)] [])) = some (0x33, 0, []) := by decide +kernel

/-! ## One step each: tokens -/

theorem test_r7xPix : cursor 1 (exec (.r7xPix 5#7) (during .r7x 1 (by8 [0x05]))) = some (1, 1, [0x0B]) := by decide +kernel

theorem test_r7xRun7 : cursor 2 (exec (.r7xRun7 8#7 2#7) (during .r7x 3 (by8 [0x88, 0x02]))) =
    some (2, 2, [0x11, 0x11]) := by decide +kernel

theorem test_r7xRun14 : cursor 5 (exec (.r7xRun14 0x40#7 5#14) (during .r7x 5 (by8 [0xC0, 0x80, 0x05]))) =
    some (3, 5, [0x81, 0x81, 0x81, 0x81, 0x81]) := by decide +kernel

theorem test_r7xRun21 : cursor 1 (exec (.r7xRun21 0#7 1#21) (during .r7x 1 (by8 [0x80, 0xC0, 0x00, 0x01]))) =
    some (4, 1, [0x00]) := by decide +kernel

theorem test_r7xRun28_past_p : result (exec (.r7xRun28 5#7 2#28) (during .r7x 1 (by8 [0x85, 0xE0, 0x00, 0x00, 0x02]))) =
    some (0x43, 0, []) := by decide +kernel

theorem test_bplTok_hits : (match exec (.bplTok true 2#7) (during .bpl 3 (by8 [0x82])) with
    | .next t => t.work.map fun w => (w.ic, w.pc, w.plane, w.hits)
    | _ => none) = some (1, 2, 0, [1, 1, 0]) := by decide +kernel

theorem test_bplTok_completes_plane : (match exec (.bplTok true 3#7) (during .bpl 3 (by8 [0x83])) with
    | .next t => t.work.map fun w => (w.ic, w.pc, w.plane, w.hits)
    | _ => none) = some (1, 0, 1, [1, 1, 1]) := by decide +kernel

/-- A diff-chunk stream of one ZERO chunk, at its magic and at its checksum. -/
def framed (ph : Phase) : State :=
  openStream (load (codec 1 1 [(.diffMagic, 0x55#32)]) (by8 [0x55, 0x01, 0xFE])) .dif ph 1 2 0

theorem test_difMagic : cursor 0 (exec (.difMagic 0x55#8) (framed .magic)) = some (1, 0, []) := by decide +kernel

theorem test_difMagic_wrong : result (exec (.difMagic 0x56#8) (framed .magic)) = some (0x13, 0, []) := by decide +kernel

theorem test_difChecksum : cursor 0 (exec (.difChecksum 0xFE#8) (framed .checksum)) = some (0, 0, []) := by decide +kernel

theorem test_difChecksum_wrong : result (exec (.difChecksum 0xFF#8) (framed .checksum)) = some (0x23, 2, []) := by decide +kernel

theorem test_difZero : cursor 3 (exec (.difZero0 3#4) (during .dif 3 (by8 [0x03]))) = some (1, 3, [0, 0, 0]) ∧
    cursor 1 (exec (.difZero1 1#12) (during .dif 1 (by8 [0x10, 0x01]))) = some (2, 1, [0]) ∧
    cursor 1 (exec (.difZero2 1#20) (during .dif 1 (by8 [0x20, 0x00, 0x01]))) = some (3, 1, [0]) ∧
    cursor 1 (exec (.difZero3 1#28) (during .dif 1 (by8 [0x30, 0x00, 0x00, 0x01]))) = some (4, 1, [0]) := by decide +kernel

theorem test_difValue : cursor 2 (exec (.difValue0 5#8 2#4) (during .dif 2 (by8 [0x42, 0x05]))) = some (2, 2, [5, 5]) ∧
    cursor 1 (exec (.difValue1 5#8 1#12) (during .dif 1 (by8 [0x50, 0x05, 0x01]))) = some (3, 1, [5]) ∧
    cursor 1 (exec (.difValue2 5#8 1#20) (during .dif 1 (by8 [0x60, 0x05, 0x00, 0x01]))) = some (4, 1, [5]) ∧
    cursor 1 (exec (.difValue3 5#8 1#28) (during .dif 1 (by8 [0x70, 0x05, 0x00, 0x00, 0x01]))) = some (5, 1, [5]) := by
  decide +kernel

theorem test_difMax : cursor 2 (exec (.difMax0 2#4) (during .dif 2 (by8 [0xC2]))) = some (1, 2, [0xFF, 0xFF]) ∧
    cursor 1 (exec (.difMax1 1#12) (during .dif 1 (by8 [0xD0, 0x01]))) = some (2, 1, [0xFF]) ∧
    cursor 1 (exec (.difMax2 1#20) (during .dif 1 (by8 [0xE0, 0x00, 0x01]))) = some (3, 1, [0xFF]) ∧
    cursor 1 (exec (.difMax3 1#28) (during .dif 1 (by8 [0xF0, 0x00, 0x00, 0x01]))) = some (4, 1, [0xFF]) := by decide +kernel

theorem test_difDelta : cursor 1 (exec (.difDelta0 7#4) (during .dif 1 (by8 [0x87]))) = some (1, 1, [7]) ∧
    cursor 3 (exec (.difDelta1 0#4 3#8) (during .dif 3 (by8 [0x90, 0x03]))) = some (2, 3, [0, 0, 0]) ∧
    cursor 2 (exec (.difDelta2 1#4 2#16) (during .dif 2 (by8 [0xA1, 0x00, 0x02]))) = some (3, 2, [1, 1]) ∧
    cursor 2 (exec (.difDelta3 1#4 2#24) (during .dif 2 (by8 [0xB1, 0x00, 0x00, 0x02]))) = some (4, 2, [1, 1]) := by
  decide +kernel

/-- 0 - 1 is out of range, also for a run of no pixel. -/
theorem test_difDelta_out_of_range : result (exec (.difDelta0 15#4) (during .dif 1 (by8 [0x8F]))) = some (0x13, 0, []) ∧
    result (exec (.difDelta1 15#4 0#8) (during .dif 1 (by8 [0x9F, 0x00]))) = some (0x13, 0, []) := by decide +kernel

theorem test_nibBlack : cursor 3 (exec (.nibBlack 3#12) (during .nib 3 (by8 [0x00, 0x03]))) = some (2, 3, [0, 0, 0]) := by
  decide +kernel

theorem test_nibWhite : cursor 1 (exec (.nibWhite 1#12) (during .nib 1 (by8 [0xF0, 0x01]))) = some (2, 1, [0xFF]) := by
  decide +kernel

theorem test_nibGrey : cursor 2 (exec (.nibGrey 3#4 2#4) (during .nib 2 (by8 [0x32]))) = some (1, 2, [0x33, 0x33]) := by
  decide +kernel

theorem test_nibTrailer : cursor 0 (exec (.nibTrailer 0xBBAA#16) (during .nib 0 [])) = some (2, 0, []) := by decide +kernel

theorem test_rgbWord : cursor 3 (exec (.rgbWord 0#5 0#5 31#5) (during .rgb 1 (by8 [0x1F, 0x00]))) =
    some (2, 1, [0, 0, 0xF8]) := by decide +kernel

theorem test_rgbRep : cursor 6 (exec (.rgbRep 0#5 0#5 31#5 1#12 15#4) (during .rgb 2 (by8 [0x3F, 0x00, 0x01, 0xF0]))) =
    some (4, 2, [0, 0, 0xF8, 0, 0, 0xF8]) := by decide +kernel

/-! ## Premises that can be met: for every statement with premises, states and operands that meet them -/

theorem ready_of {s : State} {rs : List Reg} (h : rs.all s.isWritten = true) : Ready s rs := by
  simpa [Ready] using h

theorem hasRoom_of {s : State} {n : Nat} (h : (s.isWritten .outCap && decide (n ≤ (s.reg .outCap).toNat)) = true) :
    HasRoom s n := by
  simp only [Bool.and_eq_true, decide_eq_true_eq] at h
  exact ⟨h.1, h.2⟩

/-- A Boolean form of HoldsInput that asks for stored bytes. -/
def holds (s : State) (bs : List Byte) : Bool :=
  s.isWritten .inLen && decide ((s.reg .inLen).toNat = bs.length) &&
    (List.range bs.length).all fun a => decide (s.inMem.get a = bs[a]?)

theorem holdsInput_of {s : State} {bs : List Byte} (h : holds s bs = true) : HoldsInput s bs := by
  simp only [holds, Bool.and_eq_true, decide_eq_true_eq, List.all_eq_true, List.mem_range] at h
  refine ⟨h.1.1, h.1.2, fun a ha => ?_⟩
  have := h.2 a ha
  rw [List.getElem?_eq_getElem ha] at this
  simp [State.inByte, this]

theorem holdsBitmap_of {s : State} {per : Nat} {bmp : List Byte}
    (h : (holds s bmp && [Reg.width, Reg.height].all s.isWritten && decide (bmp.length = per * pixelCount s)) = true) :
    HoldsBitmap s per bmp := by
  simp only [Bool.and_eq_true, decide_eq_true_eq] at h
  exact ⟨holdsInput_of h.1.1, ready_of h.1.2, h.2⟩

/-- A Boolean form of IsRuns. -/
def runsOk {κ : Type} [DecidableEq κ] (keys : List κ) (runs : List (κ × Nat)) : Bool :=
  decide ((runs.map fun r => List.replicate r.2 r.1).flatten = keys) && runs.all (fun r => decide (0 < r.2)) &&
    decide (∀ (k : Nat) (h : k < runs.length - 1), runs[k].1 ≠ runs[k + 1].1)

theorem isRuns_of {κ : Type} [DecidableEq κ] {keys : List κ} {runs : List (κ × Nat)} (h : runsOk keys runs = true) :
    IsRuns keys runs := by
  simp only [runsOk, Bool.and_eq_true, decide_eq_true_eq, List.all_eq_true] at h
  exact ⟨h.1.1, h.1.2, fun k hk => h.2 k (by omega)⟩

/-- The decoding state of a token test, and its working registers. -/
def workOf (st : Stream) (ph : Phase) (p stop : Nat) : Work :=
  { stream := st, phase := ph, ic := 0, tok := 0, pc := 0, pixels := p, stop := stop, prev := 0#8, planes := 1, plane := 0
    hits := List.replicate (if st = .bpl then p else 0) 0 }

theorem witness_DecodeEncodeAgree :
    (Instr.nibGrey 0x1#4 0#4).wellFormed = true ∧ (Instr.nibGrey 0x1#4 0#4).format ≠ .command ∧
    (Instr.bplEncB).wellFormed = true ∧ (Instr.bplEncB).format = .command := by decide

theorem witness_DecodedEncodesBack :
    (∃ w i, decodeCommand w = .ok i) ∧ (∃ f bs i rest, decodeBytes f bs = .ok (i, rest)) :=
  ⟨⟨0x00000122#32, .crc32File .verify, by decide⟩, ⟨.rgb, by8 [0x3F, 0x00, 0xFF, 0xFF, 7], _, _, rfl⟩⟩

theorem witness_OnlyIllegalTokenPattern : Format.r7x ≠ .command ∧ 0x80 ≤ (0x80#8).toNat ∧ 0xF0 ≤ (0xF0#8).toNat := by decide

/-- A state whose next access is the one given. -/
def before (op : HostOp) (s : State) : State := { s with host := [op, .read 0x01] }

theorem witness_StepRunsCommand :
    (before (.write 0x00 0x31#32) State.reset).work = none ∧
    (before (.write 0x00 0x31#32) State.reset).host = .write 0x00 0x31#32 :: [.read 0x01] ∧
    decodeCommand 0x31#32 = .ok .sha256 ∧ decodeCommand 0x131#32 = .error .illegalOpt := ⟨rfl, rfl, by decide, by decide⟩

theorem witness_StepRunsToken_token : ∃ (s : State) (w : Work), s.work = some w ∧ streamEnded w = false ∧ w.phase = .tokens ∧
    decodeBytes w.stream.format (s.inRange w.ic (w.stop - w.ic)) = .ok (.r7xRun7 8#7 2#7, []) :=
  ⟨during .r7x 3 (by8 [0x88, 0x02]), workOf .r7x .tokens 3 2, by decide +kernel⟩

theorem witness_StepRunsToken_no_token : ∃ (s : State) (w : Work), s.work = some w ∧ streamEnded w = false ∧ w.phase = .tokens ∧
    decodeBytes w.stream.format (s.inRange w.ic (w.stop - w.ic)) = .error .cutShort :=
  ⟨during .r7x 3 (by8 [0x88]), workOf .r7x .tokens 3 1, by decide +kernel⟩

theorem witness_StepRunsToken_framing :
    (∃ (s : State) (w : Work), s.work = some w ∧ streamEnded w = false ∧ w.phase = .magic) ∧
    (∃ (s : State) (w : Work), s.work = some w ∧ streamEnded w = false ∧ w.phase = .checksum) :=
  ⟨⟨framed .magic, { workOf .dif .magic 1 2 with planes := 0 }, by decide +kernel⟩,
    ⟨framed .checksum, { workOf .dif .checksum 1 2 with planes := 0 }, by decide +kernel⟩⟩

/-- A run-length stream at its end, one pixel short and complete. -/
theorem witness_StepRunsToken_end :
    (∃ (s : State) (w : Work), s.work = some w ∧ w.stream ≠ .bpl ∧ w.phase = .tokens ∧ w.stop ≤ w.ic ∧ w.pc ≠ w.pixels) ∧
    (∃ (s : State) (w : Work), s.work = some w ∧ w.stream ≠ .bpl ∧ w.phase = .tokens ∧ w.stop ≤ w.ic ∧ w.pc = w.pixels ∧
      HasRoom s (w.stream.pixelBytes * w.pixels)) :=
  ⟨⟨during .rgb 1 [], workOf .rgb .tokens 1 0, by decide +kernel⟩,
    ⟨during .rgb 0 [], workOf .rgb .tokens 0 0, by decide +kernel, by decide, by decide, by decide, by decide,
      hasRoom_of (by decide +kernel)⟩⟩

/-- A bitplane stream after its last plane, with a byte left and without. -/
theorem witness_StepRunsToken_planes :
    (∃ (s : State) (w : Work), s.work = some w ∧ w.stream = .bpl ∧ w.planes ≤ w.plane ∧ w.ic ≠ w.stop) ∧
    (∃ (s : State) (w : Work), s.work = some w ∧ w.stream = .bpl ∧ w.planes ≤ w.plane ∧ w.ic = w.stop ∧ HasRoom s w.pixels ∧
      w.hits.length = w.pixels ∧ ∀ h ∈ w.hits, h ≤ w.planes) :=
  ⟨⟨{ during .bpl 2 (by8 [0]) with work := some { workOf .bpl .tokens 2 1 with plane := 1 } },
      { workOf .bpl .tokens 2 1 with plane := 1 }, by decide +kernel⟩,
    ⟨{ during .bpl 2 [] with work := some { workOf .bpl .tokens 2 0 with plane := 1, hits := [0, 1] } },
      { workOf .bpl .tokens 2 0 with plane := 1, hits := [0, 1] }, rfl, rfl, by decide, rfl, hasRoom_of (by decide +kernel), rfl,
      by decide⟩⟩

theorem witness_HostRegisterAccesses : Reg.aaN.access = .rw ∧ Reg.result.access = .ro ∧ Reg.ofNumber 0x3F = none ∧
    (before (.write Reg.aaN.number 0xFFFFFFFF#32) State.reset).work = none ∧
    State.reset.isWritten .status = true ∧ State.reset.isWritten .aaN = false := by decide +kernel

theorem witness_HostBufferAccesses :
    (before (.inLoad []) State.reset).work = none ∧ (before (.inLoad []) State.reset).host = .inLoad [] :: [.read 0x01] ∧
    ([] : List Byte).length < 2 ^ 32 ∧
    (before .inFromOut State.reset).host = .inFromOut :: [.read 0x01] ∧
    (before (.writeIn 0xFFFFFFFF#32 7#8) State.reset).host = .writeIn 0xFFFFFFFF#32 7#8 :: [.read 0x01] ∧
    (before (.writeOut 0#32 7#8) State.reset).host = .writeOut 0#32 7#8 :: [.read 0x01] ∧
    (before (.readIn 0#32) State.reset).host = .readIn 0#32 :: [.read 0x01] ∧
    (before (.readOut 0#32) State.reset).host = .readOut 0#32 :: [.read 0x01] :=
  ⟨rfl, rfl, by decide, rfl, rfl, rfl, rfl, rfl⟩

theorem witness_ResetState : (before .reset State.reset).work = none ∧
    (before .reset State.reset).host = .reset :: [.read 0x01] := ⟨rfl, rfl⟩

theorem witness_AtomicCommandIsItsSteps : ∃ (u : State) (t : State),
    openedStream (load (codec 5 5 []) (by8 [0xC0, 0x80, 0x05])) .r7xDec = some u ∧
    exec .r7xDec (load (codec 5 5 []) (by8 [0xC0, 0x80, 0x05])) = .next t ∧
    (∀ size, fixedSize (load (codec 5 5 []) (by8 [0xC0, 0x80, 0x05])) .r7xDec = some size →
      HasRoom (load (codec 5 5 []) (by8 [0xC0, 0x80, 0x05])) size) ∧
    Ready (load (codec 5 5 []) (by8 [0xC0, 0x80, 0x05])) [.inLen, .width, .height] :=
  ⟨_, _, rfl, rfl, fun size h => by
    obtain rfl : 5 = size := by
      have : fixedSize (load (codec 5 5 []) (by8 [0xC0, 0x80, 0x05])) .r7xDec = some 5 := by decide +kernel
      exact Option.some.inj (this.symm.trans h)
    exact hasRoom_of (by decide +kernel), ready_of (by decide +kernel)⟩

theorem reset_register (n : Fin 64) : State.reset.regs.get n = 0#32 := by
  simp [State.reset, Vector.get_eq_getElem]

/-- A state that meets the invariant, and steps: its next access is a read of STATUS. -/
theorem witness_StepKeepsInvariant :
    Inv (before (.read 0x01) State.reset) ∧ ∃ (t : State), step (before (.read 0x01) State.reset) = .next t := by
  refine ⟨?_, _, rfl⟩
  have hreg : ∀ r, (before (.read 0x01) State.reset).reg r = 0#32 := fun r => by
    show State.reset.regs.get r.number &&& r.named = 0#32
    rw [reset_register, BitVec.zero_and]
  exact
    { inMem := by decide
      outMem := by decide
      hasValue := by decide +kernel
      unnamed := fun r => by
        show State.reset.regs.get r.number &&& r.named = State.reset.regs.get r.number
        rw [reset_register, BitVec.zero_and]
      reserved := fun n _ => reset_register n
      idle := fun _ => .inl ⟨hreg .status, hreg .errOff⟩
      busy := fun w h => absurd h (by simp [before, State.reset]) }

theorem witness_ConfigurationPersists : ∃ (t : State), step (before (.write 0x06 5#32) State.reset) = .next t ∧
    Reg.width.access = .rw := ⟨_, rfl, rfl⟩

theorem witness_InstructionFrame : ∃ (t : State), exec .crc32 (load [] (by8 [0x41])) = .next t := ⟨_, rfl⟩

theorem witness_StaleResults : ∃ (t : State), exec .r7xDec (load (codec 0 0 []) []) = .next t ∧
    Instr.r7xDec ∉ crc16Names.map Prod.fst ++ [.crc32] ++ sealNames ++ checkNames ∧
    Instr.r7xDec ∉ bplEncoders.map Prod.fst := ⟨_, rfl, by decide, by decide⟩

theorem witness_CommandsAreDeterministic : ∃ (s : State) (t : State), s ≠ t ∧ SameInputs s t :=
  ⟨State.reset, { State.reset with readData := 1#32, outMem := [(3, 7#8)] }, by decide,
    ⟨rfl, fun _ _ => rfl, fun _ _ _ => rfl⟩⟩

theorem witness_NoWriteBeyondCapacity : ∃ (t : State), exec .crc32 (load [(.outCap, 1#32)] (by8 [0x41])) = .next t ∧
    (load [(.outCap, 1#32)] (by8 [0x41])).isWritten .outCap = true := ⟨_, rfl, by decide +kernel⟩

theorem not_ready_of {s : State} {rs : List Reg} (h : rs.all s.isWritten = false) : ¬ Ready s rs := fun hr => by
  have : rs.all s.isWritten = true := List.all_eq_true.mpr hr
  rw [this] at h; exact Bool.noConfusion h

theorem witness_CommandsEnd : (Instr.sha1).format = .command ∧ (Instr.decrypt1).format = .command := by decide

/-- Nothing written, and everything but DIFF_MAGIC; and CRC32 with all it reads. -/
theorem witness_CommandsEnd_reads :
    (readGroups State.reset .sha1 = [] ++ [.outCap] :: [] ∧ ¬ Ready State.reset [.outCap]) ∧
    (readGroups (load (codec 0 0 []) (by8 [0x55, 0xFF])) .difDec =
        [[.width, .height], [.outCap], [.inLen]] ++ [.diffMagic] :: [] ∧
      (∀ g ∈ [[Reg.width, .height], [.outCap], [.inLen]], Ready (load (codec 0 0 []) (by8 [0x55, 0xFF])) g) ∧
      ¬ Ready (load (codec 0 0 []) (by8 [0x55, 0xFF])) [.diffMagic]) ∧
    (∀ g ∈ readGroups (load [] []) .crc32, Ready (load [] []) g) :=
  ⟨⟨by decide +kernel, not_ready_of (by decide +kernel)⟩,
    ⟨by decide +kernel, by simp only [Ready]; decide +kernel, not_ready_of (by decide +kernel)⟩,
    by simp only [Ready]; decide +kernel⟩

/-- RGB.ENC without OUT_CAP, and one that comes to a flagged token after a plain word that fits exactly, without RGB_REP_HI. -/
theorem witness_CommandsEnd_rgb :
    (∃ s : State, Ready s [.width, .height, .inLen] ∧ (s.reg .inLen).toNat = 3 * pixelCount s ∧ 0 < pixelCount s ∧
      s.isWritten .outCap = false) ∧
    (∃ (s : State) (bmp : List Byte) (runs before after : List (Rgb15 × Nat)) (c : Rgb15) (l : Nat), HoldsBitmap s 3 bmp ∧
      IsRuns (packedColours (pixelCount s) bmp) runs ∧ cutRuns (fun _ => 4096) runs = before ++ (c, l) :: after ∧
      (∀ p ∈ before, p.2 ≤ 2) ∧ 2 < l ∧ HasRoom s (2 * (before.map Prod.snd).sum) ∧ s.isWritten .rgbRepHi = false) :=
  ⟨⟨load [(.width, 1#32), (.height, 1#32)] (by8 [0, 0, 0]), ready_of (by decide +kernel), by decide +kernel⟩,
    ⟨load (codec 4 2 []) (by8 [8, 0, 0, 0, 0, 0, 0, 0, 0, 0, 0, 0]), by8 [8, 0, 0, 0, 0, 0, 0, 0, 0, 0, 0, 0],
      [(⟨1#5, 0#5, 0#5⟩, 1), (⟨0#5, 0#5, 0#5⟩, 3)], [(⟨1#5, 0#5, 0#5⟩, 1)], [], ⟨0#5, 0#5, 0#5⟩, 3,
      holdsBitmap_of (by decide +kernel), isRuns_of (by decide +kernel), by decide, by decide, by decide,
      hasRoom_of (by decide +kernel), by decide +kernel⟩⟩

/-- The last run that still fits: it ends at the end of its region and at P, in OUT of exactly 3P bytes. -/
theorem witness_RunTokensProducePixels :
    runToken (.rgbRep 0#5 0#5 31#5 1#12 15#4) = some ⟨.rgb, 4, 2, by8 [0, 0, 0xF8]⟩ ∧
    (during .rgb 2 (by8 [0x3F, 0x00, 0x01, 0xF0])).work = some (workOf .rgb .tokens 2 4) ∧
    (workOf .rgb .tokens 2 4).ic + 4 ≤ (workOf .rgb .tokens 2 4).stop ∧
    (workOf .rgb .tokens 2 4).pc + 2 ≤ (workOf .rgb .tokens 2 4).pixels ∧
    HasRoom (during .rgb 2 (by8 [0x3F, 0x00, 0x01, 0xF0])) (3 * 2) :=
  ⟨by decide, by decide +kernel, by decide, by decide, hasRoom_of (by decide +kernel)⟩

theorem witness_DeltaChunksProducePixels :
    deltaToken (.difDelta1 0#4 3#8) = some ⟨0, 2, 3⟩ ∧
    (during .dif 3 (by8 [0x90, 0x03])).work = some (workOf .dif .tokens 3 2) ∧
    HasRoom (during .dif 3 (by8 [0x90, 0x03])) 3 ∧
    0 ≤ ((workOf .dif .tokens 3 2).prev.toNat : Int) + 0 ∧ ((workOf .dif .tokens 3 2).prev.toNat : Int) + 0 ≤ 255 :=
  ⟨by decide, by decide +kernel, hasRoom_of (by decide +kernel), by decide, by decide⟩

theorem witness_BitplaneTokensCountHits :
    (during .bpl 3 (by8 [0x83])).work = some (workOf .bpl .tokens 3 1) ∧ (workOf .bpl .tokens 3 1).plane < 1 ∧
    (workOf .bpl .tokens 3 1).ic + 1 ≤ (workOf .bpl .tokens 3 1).stop ∧
    (workOf .bpl .tokens 3 1).pc + (3#7).toNat ≤ (workOf .bpl .tokens 3 1).pixels ∧
    (during .bpl 0 (by8 [0x80])).work = some (workOf .bpl .tokens 0 1) := by decide +kernel

theorem witness_FramingFieldsPass :
    (framed .magic).work = some { workOf .dif .magic 1 2 with planes := 0 } ∧ (framed .magic).isWritten .diffMagic = true ∧
    (framed .magic).reg .diffMagic = (0x55#8).setWidth 32 ∧
    (framed .checksum).work = some { workOf .dif .checksum 1 2 with planes := 0 } ∧
    0xFE#8 = complementSum ((framed .checksum).inRange 1 (2 - 1)) ∧
    (during .nib 0 []).work = some (workOf .nib .tokens 0 0) ∧
    (workOf .nib .tokens 0 0).stop ≤ (workOf .nib .tokens 0 0).ic := by decide +kernel

/-- One byte where the framing has two. -/
theorem witness_TokenErrors_framing :
    Ready (load (codec 1 1 []) (by8 [0x55])) [.inLen, .width, .height] ∧
    HasRoom (load (codec 1 1 []) (by8 [0x55])) (pixelCount (load (codec 1 1 []) (by8 [0x55]))) ∧
    ((load (codec 1 1 []) (by8 [0x55])).reg .inLen).toNat < 2 ∧ Instr.difDec ∈ [Instr.difDec, .nibDec] :=
  ⟨ready_of (by decide +kernel), hasRoom_of (by decide +kernel), by decide +kernel, by decide⟩

/-- One byte short, one pixel past, one below 0, one above 255, one plane too many, and framing one off. -/
theorem witness_TokenErrors :
    (workOf .r7x .tokens 3 1).stop < (workOf .r7x .tokens 3 1).ic + 2 ∧
    (workOf .r7x .tokens 2 2).pixels < (workOf .r7x .tokens 2 2).pc + (3#7).toNat ∧
    runToken (.r7xRun7 8#7 3#7) = some ⟨.r7x, 2, 3, by8 [0x11]⟩ ∧
    (during .r7x 2 (by8 [0x88, 0x03])).work = some (workOf .r7x .tokens 2 2) ∧
    deltaToken (.difDelta0 15#4) = some ⟨-1, 1, 1⟩ ∧ ((workOf .dif .tokens 1 1).prev.toNat : Int) + -1 < 0 ∧
    255 < ((0xF9#8).toNat : Int) + 7 ∧ (workOf .dif .tokens 1 1).ic + 1 ≤ (workOf .dif .tokens 1 1).stop ∧
    (during .bpl 0 (by8 [0x00])).work = some (workOf .bpl .tokens 0 1) ∧
    (workOf .bpl .tokens 3 0).stop < (workOf .bpl .tokens 3 0).ic + 1 ∧
    ({ workOf .bpl .tokens 3 1 with plane := 1 } : Work).planes ≤ ({ workOf .bpl .tokens 3 1 with plane := 1 } : Work).plane ∧
    (workOf .bpl .tokens 2 1).pixels < (workOf .bpl .tokens 2 1).pc + (3#7).toNat ∧
    (framed .magic).reg .diffMagic ≠ (0x56#8).setWidth 32 ∧
    0xFF#8 ≠ complementSum ((framed .checksum).inRange 1 (2 - 1)) := by decide +kernel

theorem witness_R7xDecodesItsTokens : ∃ (s : State) (toks : List Instr), (∀ i ∈ toks, i.format = .r7x) ∧ HoldsInput s (streamBytes toks) ∧
    Ready s [.width, .height] ∧ HasRoom s (pixelCount s) ∧ (streamPixels toks).length = pixelCount s :=
  ⟨load (codec 4 4 []) (by8 [0x85, 0x03, 0x81, 0x00, 0x07]), [.r7xRun7 5#7 3#7, .r7xRun7 1#7 0#7, .r7xPix 7#7], by decide,
    holdsInput_of (by decide +kernel), ready_of (by decide +kernel), hasRoom_of (by decide +kernel), by decide +kernel⟩

theorem witness_BplDecodesItsPlanes : ∃ (s : State) (planes : List Plane), 1 ≤ planes.length ∧ planes.length ≤ 16 ∧ s.isWritten .aaN = true ∧
    (s.reg .aaN).toNat = planes.length ∧ (∀ pl ∈ planes, IsPlane (pixelCount s) pl) ∧
    HoldsInput s (planes.map planeBytes).flatten ∧ Ready s [.width, .height] ∧ HasRoom s (pixelCount s) :=
  ⟨load (codec 2 2 [(.aaN, 2#32)]) (by8 [0x80, 0x82, 0x01, 0x81]), [[(true, 0#7), (true, 2#7)], [(false, 1#7), (true, 1#7)]],
    by decide, by decide, by decide +kernel, by decide +kernel, by simp only [IsPlane]; decide +kernel,
    holdsInput_of (by decide +kernel), ready_of (by decide +kernel), hasRoom_of (by decide +kernel)⟩

theorem witness_DifDecodesItsChunks : ∃ (s : State) (magic : Byte) (toks : List Instr) (px : List Byte), (∀ i ∈ toks, i.format = .dif) ∧ difPixels 0#8 toks = some px ∧
    HoldsInput s ([magic] ++ streamBytes toks ++ [complementSum (streamBytes toks)]) ∧ s.isWritten .diffMagic = true ∧
    s.reg .diffMagic = magic.setWidth 32 ∧ Ready s [.width, .height] ∧ HasRoom s (pixelCount s) ∧
    px.length = pixelCount s :=
  ⟨load (codec 2 2 [(.diffMagic, 0x55#32)]) (by8 [0x55, 0x01, 0x87, 0x77]), 0x55#8, [.difZero0 1#4, .difDelta0 7#4],
    by8 [0, 7], by decide, by decide, holdsInput_of (by decide +kernel), by decide +kernel, by decide +kernel,
    ready_of (by decide +kernel), hasRoom_of (by decide +kernel), by decide +kernel⟩

theorem witness_NibDecodesItsTokens : ∃ (s : State) (toks : List Instr), (∀ i ∈ toks, i.format = .nib ∧ i.wellFormed = true) ∧
    HoldsInput s (streamBytes toks ++ by8 [0xAA, 0xBB]) ∧ Ready s [.width, .height] ∧ HasRoom s (pixelCount s) ∧
    (streamPixels toks).length = pixelCount s :=
  ⟨load (codec 3 3 []) (by8 [0x13, 0xAA, 0xBB]), [.nibGrey 1#4 3#4], by decide, holdsInput_of (by decide +kernel),
    ready_of (by decide +kernel), hasRoom_of (by decide +kernel), by decide +kernel⟩

theorem witness_RgbDecodesItsTokens : ∃ (s : State) (toks : List Instr), (∀ i ∈ toks, i.format = .rgb) ∧ HoldsInput s (streamBytes toks) ∧
    Ready s [.width, .height] ∧ HasRoom s (3 * pixelCount s) ∧ (streamPixels toks).length = 3 * pixelCount s :=
  ⟨load (codec 2 6 []) (by8 [0x3F, 0x00, 0x01, 0xF0]), [.rgbRep 0#5 0#5 31#5 1#12 15#4], by decide,
    holdsInput_of (by decide +kernel), ready_of (by decide +kernel), hasRoom_of (by decide +kernel), by decide +kernel⟩

/-- One byte of room too few for SHA1. -/
theorem witness_CapacityPreCheck : fixedSize (load [(.outCap, 19#32)] []) .sha1 = some 20 ∧
    LegalConfig (load [(.outCap, 19#32)] []) .sha1 ∧ Ready (load [(.outCap, 19#32)] []) (commandReads (load [(.outCap, 19#32)] []) .sha1) ∧
    ((load [(.outCap, 19#32)] []).reg .outCap).toNat < 20 := ⟨rfl, trivial, ready_of (by decide +kernel), by decide +kernel⟩

theorem witness_UnsupportedConfiguration :
    Instr.bplEncA ∈ [.bplDec] ++ bplEncoders.map Prod.fst ∧ (load [(.aaN, 17#32)] []).isWritten .aaN = true ∧
    16 < ((load [(.aaN, 17#32)] []).reg .aaN).toNat ∧ ((load [(.aaN, 0x100#32)] []).reg .aaN).toNat = 0 ∧
    ¬ LegalConfig (load [(.sigFieldBytes, 8#32), (.aesKlen, 20#32)] []) .sigGen := by
  simp only [LegalConfig]; decide +kernel

theorem witness_Tok7TakesTheSmallestClass : 1 ≤ (0x0FFFFFFF : Nat) ∧ (0x0FFFFFFF : Nat) ≤ 0x0FFFFFFF := by decide

theorem witness_PiecesAreGreedyCutsOfMaximalRuns : ∀ k : Byte, 0 < (fun q : Byte => if q = 0#8 then 4095 else 15) k := by
  intro k; dsimp only; split <;> decide

theorem witness_ChunkChoice : 1 ≤ 1 ∧ 1 ≤ 0x0FFFFFFF ∧ 1 ≤ 0x0FFFFFFF ∧ 0x0FFFFFFF ≤ 0x0FFFFFFF := by decide

theorem witness_BitplaneLevels : 1 ≤ 16 ∧ 16 ≤ 16 := by decide

theorem witness_R7xEncodes : ∃ (s : State) (bmp : List Byte), HoldsBitmap s 1 bmp ∧
    IsRuns (bmp.map fun b => BitVec.ofNat 7 (b.toNat / 2)) [(0x7F#7, 2), (0x08#7, 2), (0x09#7, 1)] ∧ HasRoom s 5 :=
  ⟨load (codec 5 5 []) (by8 [0xFF, 0xFF, 0x10, 0x11, 0x12]), by8 [0xFF, 0xFF, 0x10, 0x11, 0x12],
    holdsBitmap_of (by decide +kernel), isRuns_of (by decide +kernel), hasRoom_of (by decide +kernel)⟩

theorem witness_BplEncodes : ∃ (s : State) (bmp : List Byte) (runs : List (Bool × Nat)), (Instr.bplEncB, Variant.b) ∈ bplEncoders ∧ HoldsBitmap s 1 bmp ∧
    s.isWritten .aaN = true ∧ (s.reg .aaN).toNat = 1 ∧ IsRuns (planeOf .b 1 bmp 0) runs ∧
    HasRoom s ([runs].map planeStream).flatten.length :=
  ⟨load (codec 2 2 [(.aaN, 1#32)]) (by8 [0xFE, 0xFF]), by8 [0xFE, 0xFF], [(false, 1), (true, 1)], by decide,
    holdsBitmap_of (by decide +kernel), by decide +kernel, by decide +kernel, isRuns_of (by decide +kernel),
    hasRoom_of (by decide +kernel)⟩

theorem witness_DifEncodes : ∃ (s : State) (bmp : List Byte) (runs : List (Byte × Nat)), HoldsBitmap s 1 bmp ∧ s.isWritten .diffMagic = true ∧
    s.reg .diffMagic = (0x55#8).setWidth 32 ∧ IsRuns bmp runs ∧
    HasRoom s ((chunkStream 0#8 (cutRuns (fun _ => 0x0FFFFFFF) runs)).length + 2) :=
  ⟨load (codec 2 5 [(.diffMagic, 0x55#32)]) (by8 [0x64, 0x5C]), by8 [0x64, 0x5C], [(0x64#8, 1), (0x5C#8, 1)],
    holdsBitmap_of (by decide +kernel), by decide +kernel, by decide +kernel, isRuns_of (by decide +kernel),
    hasRoom_of (by decide +kernel)⟩

theorem witness_NibEncodes : ∃ (s : State) (bmp : List Byte), HoldsBitmap s 1 bmp ∧ s.isWritten .crc16Init = true ∧
    s.reg .crc16Init = (0#16).setWidth 32 ∧
    IsRuns (bmp.map fun b => BitVec.ofNat 4 (b.toNat / 16)) [(0#4, 3), (3#4, 2), (15#4, 1)] ∧ HasRoom s (5 + 2) :=
  ⟨load (codec 6 7 [(.crc16Init, 0#32)]) (by8 [0, 0, 0, 0x37, 0x37, 0xFF]), by8 [0, 0, 0, 0x37, 0x37, 0xFF],
    holdsBitmap_of (by decide +kernel), by decide +kernel, by decide +kernel, isRuns_of (by decide +kernel),
    hasRoom_of (by decide +kernel)⟩

theorem witness_RgbEncodes : ∃ (s : State) (bmp : List Byte), HoldsBitmap s 3 bmp ∧ s.isWritten .rgbRepHi = true ∧
    s.reg .rgbRepHi = (3#4).setWidth 32 ∧
    IsRuns ((List.range (pixelCount s)).map fun p =>
      (⟨BitVec.ofNat 5 ((bmp.getD (3 * p) 0#8).toNat / 8), BitVec.ofNat 5 ((bmp.getD (3 * p + 1) 0#8).toNat / 8),
        BitVec.ofNat 5 ((bmp.getD (3 * p + 2) 0#8).toNat / 8)⟩ : Rgb15)) [(⟨2#5, 6#5, 10#5⟩, 2)] ∧ HasRoom s 4 :=
  ⟨load (codec 2 4 [(.rgbRepHi, 3#32)]) (by8 [0x12, 0x34, 0x56, 0x12, 0x34, 0x56]), by8 [0x12, 0x34, 0x56, 0x12, 0x34, 0x56],
    holdsBitmap_of (by decide +kernel), by decide +kernel, by decide +kernel, isRuns_of (by decide +kernel),
    hasRoom_of (by decide +kernel)⟩

/-- OUT one byte too short for the second token of R7X.ENC, whose piece begins at pixel 2. -/
theorem witness_EncoderErrors_r7x : ∃ (s : State) (bmp : List Byte) (es before after : List Piece) (p : Piece),
    IsEmits s bmp es .r7xEnc ∧ HoldsBitmap s 1 bmp ∧ Ready s (commandReads s .r7xEnc) ∧ es = before ++ p :: after ∧
    (pieceBytes before).length ≤ (s.reg .outCap).toNat ∧
    (s.reg .outCap).toNat < (pieceBytes before).length + p.bytes.length ∧ p.errOff = 2 :=
  ⟨load (codec 4 3 []) (by8 [9, 9, 7, 7]), by8 [9, 9, 7, 7], _, [⟨by8 [0x84, 2], 0⟩], [], ⟨by8 [0x83, 2], 2⟩,
    ⟨[(4#7, 2), (3#7, 2)], isRuns_of (by decide +kernel), rfl⟩, holdsBitmap_of (by decide +kernel),
    ready_of (by decide +kernel), by decide +kernel, by decide +kernel, by decide +kernel, rfl⟩

/-- OUT too short for plane 1 of BPL.ENC, the error offset counted anew in the plane. -/
theorem witness_EncoderErrors_bpl : ∃ (s : State) (bmp : List Byte) (es before after : List Piece) (p : Piece),
    IsEmits s bmp es .bplEncB ∧ HoldsBitmap s 1 bmp ∧ Ready s (commandReads s .bplEncB) ∧ LegalConfig s .bplDec ∧
    es = before ++ p :: after ∧ (pieceBytes before).length ≤ (s.reg .outCap).toNat ∧
    (s.reg .outCap).toNat < (pieceBytes before).length + p.bytes.length ∧ p.errOff = 1 :=
  ⟨load (codec 2 3 [(.aaN, 2#32)]) (by8 [0, 0xFF]), by8 [0, 0xFF], _,
    [⟨by8 [0x01], 0⟩, ⟨by8 [0x81], 1⟩, ⟨by8 [0x01], 0⟩], [], ⟨by8 [0x81], 1⟩,
    ⟨[[(false, 1), (true, 1)], [(false, 1), (true, 1)]], by decide +kernel, fun k h => by
      have hk : k = 0 ∨ k = 1 := by have : k < 2 := h; omega
      rcases hk with rfl | rfl <;> exact isRuns_of (runs := [(false, 1), (true, 1)]) (by decide +kernel), rfl⟩,
    holdsBitmap_of (by decide +kernel), ready_of (by decide +kernel), by simp only [LegalConfig]; decide +kernel,
    by decide +kernel, by decide +kernel, by decide +kernel, rfl⟩

/-- OUT too short for the checksum of DIF.ENC, at P. -/
theorem witness_EncoderErrors_dif : ∃ (s : State) (bmp : List Byte) (es before after : List Piece) (p : Piece),
    IsEmits s bmp es .difEnc ∧ HoldsBitmap s 1 bmp ∧ Ready s (commandReads s .difEnc) ∧ es = before ++ p :: after ∧
    (pieceBytes before).length ≤ (s.reg .outCap).toNat ∧
    (s.reg .outCap).toNat < (pieceBytes before).length + p.bytes.length ∧ p.errOff = 2 :=
  ⟨load (codec 2 2 [(.diffMagic, 0x55#32)]) (by8 [0, 0]), by8 [0, 0], _, [⟨by8 [0x55], 0⟩, ⟨by8 [0x02], 0⟩], [],
    ⟨by8 [0xFD], 2⟩, ⟨[(0#8, 2)], _, isRuns_of (by decide +kernel), rfl, rfl⟩, holdsBitmap_of (by decide +kernel),
    ready_of (by decide +kernel), by decide +kernel, by decide +kernel, by decide +kernel, rfl⟩

/-- OUT too short for the second token of RGB.ENC, at 3 times its first pixel. -/
theorem witness_EncoderErrors_rgb : ∃ (s : State) (bmp : List Byte) (es before after : List Piece) (p : Piece),
    IsEmits s bmp es .rgbEnc ∧ HoldsBitmap s 3 bmp ∧ Ready s (commandReads s .rgbEnc) ∧ es = before ++ p :: after ∧
    (pieceBytes before).length ≤ (s.reg .outCap).toNat ∧
    (s.reg .outCap).toNat < (pieceBytes before).length + p.bytes.length ∧ p.errOff = 3 :=
  ⟨load (codec 2 3 [(.rgbRepHi, 3#32)]) (by8 [0, 0, 8, 0, 0, 16]), by8 [0, 0, 8, 0, 0, 16], _, [⟨by8 [1, 0], 0⟩], [],
    ⟨by8 [2, 0], 3⟩, ⟨[(⟨0#5, 0#5, 1#5⟩, 1), (⟨0#5, 0#5, 2#5⟩, 1)], isRuns_of (by decide +kernel), rfl⟩,
    holdsBitmap_of (by decide +kernel), ready_of (by decide +kernel), by decide +kernel, by decide +kernel,
    by decide +kernel, rfl⟩

/-- IN one byte short, and an `emit` one byte too long. -/
theorem witness_EncoderErrors :
    Ready (load (codec 3 9 []) (by8 [0, 0])) (commandReads (load (codec 3 9 []) (by8 [0, 0])) .r7xEnc) ∧
    ((load (codec 3 9 []) (by8 [0, 0])).reg .inLen).toNat ≠ 1 * pixelCount (load (codec 3 9 []) (by8 [0, 0])) ∧
    (pieceBytes [⟨by8 [1], 0⟩]).length ≤ ((load (codec 3 2 []) []).reg .outCap).toNat ∧
    ((load (codec 3 2 []) []).reg .outCap).toNat < (pieceBytes [⟨by8 [1], 0⟩]).length + (by8 [2, 3]).length ∧
    HasRoom (load (codec 3 2 []) []) (pieceBytes [⟨by8 [1, 2], 0⟩]).length :=
  ⟨ready_of (by decide +kernel), by decide +kernel, by decide +kernel, by decide +kernel, hasRoom_of (by decide +kernel)⟩

/-- OUT of exactly the worst case: P, N · P, 2P + 2 and 2P bytes. -/
theorem witness_WorstCaseSizes :
    HoldsBitmap (load (codec 1 1 []) (by8 [5])) 1 (by8 [5]) ∧ HasRoom (load (codec 1 1 []) (by8 [5])) 1 ∧
    LegalConfig (load (codec 1 16 [(.aaN, 16#32)]) (by8 [5])) .bplDec ∧
    HasRoom (load (codec 1 16 [(.aaN, 16#32)]) (by8 [5])) 16 ∧
    HasRoom (load (codec 1 4 [(.diffMagic, 0#32), (.crc16Init, 0#32)]) (by8 [5])) 4 ∧
    HoldsBitmap (load (codec 1 2 [(.rgbRepHi, 0#32)]) (by8 [5, 6, 7])) 3 (by8 [5, 6, 7]) ∧
    HasRoom (load (codec 1 2 [(.rgbRepHi, 0#32)]) (by8 [5, 6, 7])) 2 :=
  ⟨holdsBitmap_of (by decide +kernel), hasRoom_of (by decide +kernel), by simp only [LegalConfig]; decide +kernel,
    hasRoom_of (by decide +kernel), hasRoom_of (by decide +kernel), holdsBitmap_of (by decide +kernel),
    hasRoom_of (by decide +kernel)⟩

/-- The round trips' premises: an encode that ends DONE, in less than the worst case, and the copy of its output to IN. -/
theorem witness_R7xRoundTrip : ∃ (s : State) (t : State) (u : State), HoldsBitmap s 1 (by8 [5, 4]) ∧ HasRoom s (pixelCount s) ∧
    exec .r7xEnc s = .next t ∧ hostInFromOut t = .next u :=
  ⟨load (codec 2 2 []) (by8 [5, 4]), _, _, holdsBitmap_of (by decide +kernel), hasRoom_of (by decide +kernel), rfl, rfl⟩

theorem witness_BplRoundTrip : ∃ (s : State) (t : State) (u : State), (Instr.bplEnc .a, Variant.a) ∈ bplEncoders ∧
    HoldsBitmap s 1 (by8 [5, 5, 5]) ∧
    s.isWritten .aaN = true ∧ LegalConfig s .bplDec ∧ HasRoom s (pixelCount s) ∧
    exec (.bplEnc .a) s = .next t ∧ t.reg .status = 0x00000002#32 ∧ hostInFromOut t = .next u :=
  ⟨load (codec 3 3 [(.aaN, 2#32)]) (by8 [5, 5, 5]), _, _, by decide, holdsBitmap_of (by decide +kernel), by decide +kernel,
    by simp only [LegalConfig]; decide +kernel, hasRoom_of (by decide +kernel), rfl, by decide +kernel, rfl⟩

theorem witness_DifRoundTrip : ∃ (s : State) (t : State) (u : State), HoldsBitmap s 1 (by8 [5, 5]) ∧ s.isWritten .diffMagic = true ∧
    HasRoom s (pixelCount s) ∧ exec .difEnc s = .next t ∧ t.reg .status = 0x00000002#32 ∧ hostInFromOut t = .next u :=
  ⟨load (codec 2 4 [(.diffMagic, 0x55#32)]) (by8 [5, 5]), _, _, holdsBitmap_of (by decide +kernel), by decide +kernel,
    hasRoom_of (by decide +kernel), rfl, by decide +kernel, rfl⟩

theorem witness_NibRoundTrip : ∃ (s : State) (t : State) (u : State), HoldsBitmap s 1 (by8 [5, 4]) ∧ s.isWritten .crc16Init = true ∧
    HasRoom s (pixelCount s) ∧ exec .nibEnc s = .next t ∧ t.reg .status = 0x00000002#32 ∧ hostInFromOut t = .next u :=
  ⟨load (codec 2 4 [(.crc16Init, 0#32)]) (by8 [5, 4]), _, _, holdsBitmap_of (by decide +kernel), by decide +kernel,
    hasRoom_of (by decide +kernel), rfl, by decide +kernel, rfl⟩

theorem witness_RgbRoundTrip : ∃ (s : State) (t : State) (u : State), HoldsBitmap s 3 (by8 [5, 4, 3]) ∧ s.isWritten .rgbRepHi = true ∧
    HasRoom s (3 * pixelCount s) ∧ exec .rgbEnc s = .next t ∧ hostInFromOut t = .next u :=
  ⟨load (codec 1 3 [(.rgbRepHi, 0#32)]) (by8 [5, 4, 3]), _, _, holdsBitmap_of (by decide +kernel), by decide +kernel,
    hasRoom_of (by decide +kernel), rfl, rfl⟩

theorem witness_LcgTransforms : (Instr.decrypt1, LcgSet.set1) ∈ lcgNames ∧
    HoldsInput (load (cipher 1#32 0#32) (by8 [0, 1])) (by8 [0, 1]) ∧ HasRoom (load (cipher 1#32 0#32) (by8 [0, 1])) 2 ∧
    Ready (load (cipher 1#32 0#32) (by8 [0, 1])) ([.seed, .layer] ++ lcgRegs .set1) ∧
    (load (cipher 1#32 0#32) (by8 [0, 1])).reg .seed ≠ 0#32 ∧ (load (cipher 0#32 0#32) (by8 [0, 1])).reg .seed = 0#32 :=
  ⟨by decide, holdsInput_of (by decide +kernel), hasRoom_of (by decide +kernel), ready_of (by decide +kernel),
    by decide +kernel, by decide +kernel⟩

theorem witness_LcgSelfInverse : ∃ (s : State) (t : State) (u : State), (Instr.encrypt0, LcgSet.set0) ∈ lcgNames ∧ (Instr.decrypt0, LcgSet.set0) ∈ lcgNames ∧
    HoldsInput s (by8 [9]) ∧ HasRoom s 1 ∧ exec .encrypt0 s = .next t ∧ hostInFromOut t = .next u :=
  ⟨load (cipher 1#32 0#32) (by8 [9]), _, _, by decide, by decide, holdsInput_of (by decide +kernel),
    hasRoom_of (by decide +kernel), rfl, rfl⟩

theorem witness_Crc16Completes : (Instr.crc16Raw, CrcForm.raw) ∈ crc16Names ∧
    HoldsInput (load [(.crc16Init, 0xFFFF#32)] []) [] ∧
    (load [(.crc16Init, 0xFFFF#32)] []).isWritten .crc16Init = true ∧
    (load [(.crc16Init, 0xFFFF#32)] []).reg .crc16Init = (0xFFFF#16).setWidth 32 :=
  ⟨by decide, holdsInput_of (by decide +kernel), by decide +kernel, by decide +kernel⟩

theorem witness_Crc32Completes : HoldsInput (load [] []) [] := holdsInput_of (by decide +kernel)

theorem witness_Crc32FileSeals : (by8 [0, 0, 0, 0]).length = 4 ∧
    HoldsInput (load [(.outCap, 4#32)] (by8 [0, 0, 0, 0])) ([] ++ by8 [0, 0, 0, 0]) ∧
    HasRoom (load [(.outCap, 4#32)] (by8 [0, 0, 0, 0])) 4 ∧ (by8 [1, 2, 3]).length < 4 ∧
    HoldsInput (load [(.outCap, 4#32)] (by8 [1, 2, 3])) (by8 [1, 2, 3]) :=
  ⟨by decide, holdsInput_of (by decide +kernel), hasRoom_of (by decide +kernel), by decide, holdsInput_of (by decide +kernel)⟩

theorem witness_Crc32FileVerifies :
    HoldsInput (load [] (by8 [0, 0, 0, 0])) ([] ++ leBytes 4 (crc32Of []).toNat) ∧
    by8 [1, 0, 0, 0] ≠ leBytes 4 (crc32Of []).toNat ∧ HoldsInput (load [] (by8 [1, 0, 0, 0])) ([] ++ by8 [1, 0, 0, 0]) ∧
    HoldsInput (load [] (by8 [1, 2, 3])) (by8 [1, 2, 3]) :=
  ⟨holdsInput_of (by decide +kernel), by decide +kernel, holdsInput_of (by decide +kernel), holdsInput_of (by decide +kernel)⟩

theorem witness_ShaCompletes : HoldsInput (load [(.outCap, 32#32)] []) [] ∧ HasRoom (load [(.outCap, 20#32)] []) 20 ∧
    HasRoom (load [(.outCap, 32#32)] []) 32 :=
  ⟨holdsInput_of (by decide +kernel), hasRoom_of (by decide +kernel), hasRoom_of (by decide +kernel)⟩

theorem witness_ShaPadding : (by8 [1]).length < 2 ^ 32 := by decide

theorem witness_ShaSchedules : (List.replicate 16 1#32).length = 16 := by decide

theorem witness_ShaCompressions : (List.replicate 16 1#32).length = 16 := by decide

/-- Every register SIG.GEN reads, and no other but IN_LEN: a field of 4 bytes and a key of 16. -/
def shortKey : List (Reg × Word) :=
  [(.outCap, 32#32), (.sigFieldBytes, 4#32), (.sigvalLo, 1#32), (.aesKlen, 16#32), (.aesKey 0, 1#32), (.aesKey 1, 2#32),
    (.aesKey 2, 3#32), (.aesKey 3, 4#32), (.aesIv 0, 5#32), (.aesIv 1, 6#32), (.aesIv 2, 7#32), (.aesIv 3, 8#32)]

theorem witness_SigGenCompletes : LegalConfig (load shortKey []) .sigGen ∧
    Ready (load shortKey []) (commandReads (load shortKey []) .sigGen) ∧ HasRoom (load shortKey []) 32 :=
  ⟨by simp only [LegalConfig]; decide +kernel, ready_of (by decide +kernel), hasRoom_of (by decide +kernel)⟩

/-- The stored signature itself, one whose last byte differs, and one of 31 bytes. -/
theorem witness_SigVerifyCompares :
    LegalConfig (load keyMaterial (by8 sigS1)) .sigGen ∧
    Ready (load keyMaterial (by8 sigS1)) (commandReads (load keyMaterial (by8 sigS1)) .sigVerify) ∧
    HoldsInput (load keyMaterial (by8 sigS1)) (by8 sigS1) ∧ by8 sigS1 = signature (load keyMaterial (by8 sigS1)) ∧
    HoldsInput (load keyMaterial (by8 (sigS1.take 31 ++ [0]))) (by8 (sigS1.take 31 ++ [0])) ∧
    (by8 (sigS1.take 31 ++ [0]))[31]? ≠ (by8 sigS1)[31]? ∧
    HoldsInput (load keyMaterial (by8 (sigS1.take 31))) (by8 (sigS1.take 31)) :=
  ⟨by simp only [LegalConfig]; decide +kernel, ready_of (by decide +kernel), holdsInput_of (by decide +kernel),
    by decide +kernel, holdsInput_of (by decide +kernel), by decide +kernel, holdsInput_of (by decide +kernel)⟩

theorem witness_VerifyAcceptsExactlyTheSignature : ∃ (t : State) (u : State),
    HoldsInput (load ((.outCap, 32#32) :: keyMaterial) (by8 sigS1)) (by8 sigS1) ∧
    exec .sigGen (load ((.outCap, 32#32) :: keyMaterial) (by8 sigS1)) = .next t ∧ t.reg .status = 0x00000002#32 ∧
    exec .sigVerify (load ((.outCap, 32#32) :: keyMaterial) (by8 sigS1)) = .next u := by
  have hg : (result (exec .sigGen (load ((.outCap, 32#32) :: keyMaterial) (by8 sigS1)))).map Prod.fst = some 2 := by
    decide +kernel
  have hv : (result (exec .sigVerify (load ((.outCap, 32#32) :: keyMaterial) (by8 sigS1)))).map Prod.fst = some 2 := by
    decide +kernel
  revert hg hv
  cases hgt : exec .sigGen (load ((.outCap, 32#32) :: keyMaterial) (by8 sigS1)) with
  | next t =>
    cases hvt : exec .sigVerify (load ((.outCap, 32#32) :: keyMaterial) (by8 sigS1)) with
    | next u =>
      intro hg _
      refine ⟨t, u, holdsInput_of (by decide +kernel), rfl, ?_, rfl⟩
      simp only [result, Option.map_some, Option.some.injEq] at hg
      exact BitVec.eq_of_toNat_eq hg
    | fault => intro _ hv; simp [result] at hv
    | refused => intro _ hv; simp [result] at hv
  | fault => intro hg; simp [result] at hg
  | refused => intro hg; simp [result] at hg

end Sys2Proof.Tests
end

/-! The encoders' pieces (00_scope.md R14): `runsOf` computes the one sequence of maximal runs, `cutRun` is the greedy cut,
and the pieces lie end to end from pixel 0. -/

namespace Sys2Proof.Machine

section Runs

variable {κ : Type}

theorem isRuns_nil_iff {keys : List κ} : IsRuns keys [] ↔ keys = [] where
  mp h := h.join.symm
  mpr h := ⟨h.symm, by simp, by simp⟩

/-- The shape every induction over runs uses: the first run, and the runs of what follows it. -/
theorem isRuns_cons_iff {keys : List κ} {k : κ} {n : Nat} {rs : List (κ × Nat)} :
    IsRuns keys ((k, n) :: rs) ↔
      0 < n ∧ (∀ r ∈ rs.head?, k ≠ r.1) ∧ ∃ ys, keys = List.replicate n k ++ ys ∧ IsRuns ys rs := by
  constructor
  · rintro ⟨hjoin, hpos, hmax⟩
    refine ⟨hpos _ List.mem_cons_self, ?_, _, hjoin.symm, rfl, fun r hr => hpos r (List.mem_cons_of_mem _ hr), ?_⟩
    · cases rs with
      | nil => simp
      | cons r rs => simpa using hmax 0 (by simp)
    · exact fun j hj => hmax (j + 1) (Nat.succ_lt_succ hj)
  · rintro ⟨hn, hhead, ys, rfl, hjoin, hpos, hmax⟩
    refine ⟨congrArg (List.replicate n k ++ ·) hjoin, List.forall_mem_cons.mpr ⟨hn, hpos⟩, ?_⟩
    rintro (_ | j) hj
    · exact hhead _ (by simp [List.head?_eq_getElem?])
    · exact hmax j (Nat.lt_of_succ_lt_succ hj)

variable [DecidableEq κ]

theorem runsOf_cons_same {x : κ} {xs : List κ} {n : Nat} {rs : List (κ × Nat)} (h : runsOf xs = (x, n) :: rs) :
    runsOf (x :: xs) = (x, n + 1) :: rs := by
  simp [runsOf, h]

theorem runsOf_cons_new {x : κ} {xs : List κ} (h : ∀ r ∈ (runsOf xs).head?, x ≠ r.1) :
    runsOf (x :: xs) = (x, 1) :: runsOf xs := by
  cases hr : runsOf xs with
  | nil => simp [runsOf, hr]
  | cons r rs =>
    have hne : x ≠ r.1 := h r (by simp [hr])
    simp [runsOf, hr, hne]

theorem runsOf_replicate_append {k : κ} {ys : List κ} (h : ∀ r ∈ (runsOf ys).head?, k ≠ r.1) (n : Nat) :
    runsOf (List.replicate (n + 1) k ++ ys) = (k, n + 1) :: runsOf ys := by
  induction n with
  | zero => exact runsOf_cons_new h
  | succ n ih => exact runsOf_cons_same ih

theorem isRuns_runsOf (keys : List κ) : IsRuns keys (runsOf keys) := by
  induction keys with
  | nil => exact isRuns_nil_iff.mpr rfl
  | cons x xs ih =>
    by_cases h : ∀ r ∈ (runsOf xs).head?, x ≠ r.1
    · rw [runsOf_cons_new h]
      exact isRuns_cons_iff.mpr ⟨Nat.one_pos, h, xs, rfl, ih⟩
    · obtain ⟨n, rs, hr⟩ : ∃ n rs, runsOf xs = (x, n) :: rs := by
        cases hr : runsOf xs with
        | nil => simp [hr] at h
        | cons r rs => exact ⟨r.2, rs, by simpa [hr, Prod.ext_iff, eq_comm] using h⟩
      rw [hr] at ih
      obtain ⟨-, hhead, ys, rfl, hys⟩ := isRuns_cons_iff.mp ih
      rw [runsOf_cons_same hr]
      exact isRuns_cons_iff.mpr ⟨n.succ_pos, hhead, ys, rfl, hys⟩

theorem IsRuns.eq_runsOf {keys : List κ} {runs : List (κ × Nat)} (h : IsRuns keys runs) : runs = runsOf keys := by
  induction runs generalizing keys with
  | nil => rw [isRuns_nil_iff.mp h]; rfl
  | cons r rs ih =>
    obtain ⟨k, _ | n⟩ := r
    · exact absurd (isRuns_cons_iff.mp h).1 (Nat.lt_irrefl 0)
    · obtain ⟨-, hhead, ys, rfl, hys⟩ := isRuns_cons_iff.mp h
      rw [ih hys] at hhead ⊢
      exact (runsOf_replicate_append hhead n).symm

end Runs

section Cuts

variable {max n : Nat}

@[simp] theorem cutRun_zero (max : Nat) : cutRun max 0 = [] := by
  simp [cutRun]

theorem cutRun_of_le (hn : 0 < n) (h : n ≤ max) : cutRun max n = [n] := by
  obtain rfl | hlt := h.eq_or_lt
  · simp [cutRun, Nat.div_self hn]
  · simp [cutRun, Nat.div_eq_of_lt hlt, Nat.mod_eq_of_lt hlt, hn.ne']

theorem cutRun_of_lt (hmax : 0 < max) (h : max < n) : cutRun max n = max :: cutRun max (n - max) := by
  have hdiv : n / max = (n - max) / max + 1 := Nat.div_eq_sub_div hmax h.le
  have hmod : n % max = (n - max) % max := Nat.mod_eq_sub_mod h.le
  simp [cutRun, hdiv, hmod, List.replicate_succ]

theorem greedyFrom_eq_cutRun (hmax : 0 < max) {fuel : Nat} (h : n ≤ fuel) : greedyFrom max fuel n = cutRun max n := by
  induction fuel generalizing n with
  | zero => simp [greedyFrom, Nat.le_zero.mp h]
  | succ fuel ih =>
    obtain rfl | hn := n.eq_zero_or_pos
    · simp [greedyFrom]
    · obtain hle | hlt := le_or_gt n max
      · simp [greedyFrom, cutRun_of_le hn hle, hn.ne', hle]
      · simp [greedyFrom, cutRun_of_lt hmax hlt, hn.ne', hlt.not_ge, ih (n := n - max) (by omega)]

theorem greedy_eq_cutRun (hmax : 0 < max) (n : Nat) : greedy max n = cutRun max n :=
  greedyFrom_eq_cutRun hmax n.le_refl

@[simp] theorem sum_cutRun (max n : Nat) : (cutRun max n).sum = n := by
  have hdiv : n / max * max + n % max = n := Nat.div_add_mod' n max
  by_cases hr : n % max = 0 <;> simp [cutRun, hr] <;> omega

end Cuts

section Pieces

variable {κ : Type}

theorem layOut_keyLen (key : κ) (start : Nat) (ls : List Nat) :
    (layOut key start ls).map (fun p => (p.key, p.len)) = ls.map (key, ·) := by
  induction ls generalizing start with
  | nil => rfl
  | cons l ls ih => simp [layOut, ih]

theorem piecesFrom_keyLen {max : κ → Nat} (hmax : ∀ k, 0 < max k) (start : Nat) (runs : List (κ × Nat)) :
    (piecesFrom max start runs).map (fun p => (p.key, p.len)) = cutRuns max runs := by
  induction runs generalizing start with
  | nil => rfl
  | cons r rs ih =>
    obtain ⟨k, n⟩ := r
    simp only [piecesFrom, List.map_append, layOut_keyLen, ih, cutRuns, List.map_cons, List.flatten_cons,
      greedy_eq_cutRun (hmax k)]

/-- The pieces lie end to end from pixel `a`: each one's index is `a` and the lengths before it. -/
def StartsFrom (a : Nat) (ps : List (RunPiece κ)) : Prop :=
  ∀ (k : Nat) (h : k < ps.length), ps[k].start = a + ((ps.take k).map RunPiece.len).sum

theorem startsFrom_nil (a : Nat) : StartsFrom a ([] : List (RunPiece κ)) := by
  simp [StartsFrom]

theorem startsFrom_cons_iff {a : Nat} {p : RunPiece κ} {ps : List (RunPiece κ)} :
    StartsFrom a (p :: ps) ↔ p.start = a ∧ StartsFrom (a + p.len) ps := by
  constructor
  · intro h
    exact ⟨h 0 (by simp), fun k hk => by simpa [Nat.add_assoc] using h (k + 1) (Nat.succ_lt_succ hk)⟩
  · rintro ⟨hp, hps⟩ (_ | k) hk
    · exact hp
    · simpa [Nat.add_assoc] using hps k (Nat.lt_of_succ_lt_succ hk)

theorem StartsFrom.layOut_append {key : κ} {a : Nat} {ls : List Nat} {ps : List (RunPiece κ)}
    (h : StartsFrom (a + ls.sum) ps) : StartsFrom a (layOut key a ls ++ ps) := by
  induction ls generalizing a with
  | nil => exact h
  | cons l ls ih => exact startsFrom_cons_iff.mpr ⟨rfl, ih (by simpa [Nat.add_assoc] using h)⟩

theorem startsFrom_piecesFrom (max : κ → Nat) (a : Nat) (runs : List (κ × Nat)) :
    StartsFrom a (piecesFrom max a runs) := by
  induction runs generalizing a with
  | nil => exact startsFrom_nil a
  | cons r rs ih => exact StartsFrom.layOut_append (by simpa using ih (a + r.2))

end Pieces

/-- Settles O32: the runs by induction on the keys and on the runs, the cut by induction on its fuel, and the first pixels
by induction on the runs that are laid out. -/
theorem piecesAreGreedyCutsOfMaximalRuns : Obligations.PiecesAreGreedyCutsOfMaximalRuns := by
  intro κ _ keys max hmax
  refine ⟨isRuns_runsOf keys, fun _ h => h.eq_runsOf, piecesFrom_keyLen hmax 0 (runsOf keys), fun k hk => ?_⟩
  exact (startsFrom_piecesFrom max 0 (runsOf keys) k hk).trans (Nat.zero_add _)

end Sys2Proof.Machine

/-! What the two ends of a command leave (R392, R393), what a chain of updates keeps, and the statements about the host's
side of a step: register accesses, reset, and the frame of every instruction. -/

namespace Sys2Proof.Machine

section Ends

@[simp] theorem statusError_eq (e : ErrorKind) : statusError e = errorStatus e := by
  cases e <;> rfl

@[simp] theorem errorStatus_named (e : ErrorKind) : errorStatus e &&& Reg.named .status = errorStatus e := by
  cases e <;> rfl

@[simp] theorem State.reg_status_completed (s : State) (oc : Nat) : (s.completed oc).reg .status = 0x00000002#32 := by
  rw [State.reg, State.regs_get_completed, if_neg (by decide), if_neg (by decide), if_pos rfl]
  rfl

@[simp] theorem State.reg_errOff_completed (s : State) (oc : Nat) : (s.completed oc).reg .errOff = 0#32 := by
  rw [State.reg, State.regs_get_completed, if_neg (by decide), if_pos rfl]
  rfl

@[simp] theorem State.reg_outLen_completed (s : State) (oc : Nat) :
    (s.completed oc).reg .outLen = BitVec.ofNat 32 oc := by
  rw [State.reg, State.regs_get_completed, if_pos rfl]
  exact BitVec.and_allOnes

@[simp] theorem State.reg_status_errored (s : State) (e : ErrorKind) (off : Nat) :
    (s.errored e off).reg .status = errorStatus e := by
  rw [State.reg, State.regs_get_errored, ← errorStatus_named e, ← statusError_eq]
  rfl

@[simp] theorem State.reg_errOff_errored (s : State) (e : ErrorKind) (off : Nat) :
    (s.errored e off).reg .errOff = BitVec.ofNat 32 off := by
  rw [State.reg, State.regs_get_errored, if_neg (by decide), if_pos rfl]
  exact BitVec.and_allOnes

@[simp] theorem State.reg_outLen_errored (s : State) (e : ErrorKind) (off : Nat) :
    (s.errored e off).reg .outLen = 0#32 := by
  rw [State.reg, State.regs_get_errored, if_pos rfl]
  rfl

/-- DONE touches no register but STATUS, ERR_OFF and OUT_LEN (R393). -/
theorem State.keepsRegs_completed (s : State) (oc : Nat) : KeepsRegs s (s.completed oc) [.status, .errOff, .outLen] := by
  intro n hn
  rw [State.regs_get_completed, if_neg (hn .outLen (by simp)), if_neg (hn .errOff (by simp)),
    if_neg (hn .status (by simp))]

/-- ERROR touches no register but STATUS, ERR_OFF and OUT_LEN (R392). -/
theorem State.keepsRegs_errored (s : State) (e : ErrorKind) (off : Nat) :
    KeepsRegs s (s.errored e off) [.status, .errOff, .outLen] := by
  intro n hn
  rw [State.regs_get_errored, if_neg (hn .outLen (by simp)), if_neg (hn .errOff (by simp)),
    if_neg (hn .status (by simp))]

theorem Moves.keepsHost {s t : State} (h : Moves s t) : KeepsHost s t :=
  ⟨h.written, h.inByte, h.host, h.readData⟩

/-- OUT's end as the block sees it is never below OUT_CAP (R60). -/
theorem State.outCap_le_outBound (s : State) : (s.reg .outCap).toNat ≤ s.outBound := by
  unfold State.outBound
  split
  · exact Nat.le_refl _
  · exact Nat.le_of_lt (s.reg .outCap).isLt

/-- `raise E(off)` is the ERROR end of R392. -/
theorem State.raises_errored (s : State) (e : ErrorKind) (off : Nat) : Raises s (s.errored e off) e off [] where
  status := s.reg_status_errored e off
  errOff := s.reg_errOff_errored e off
  outLen := s.reg_outLen_errored e off
  holds := by simp
  keeps := s.keepsRegs_errored e off
  host := ((Moves.refl s).errored e off).keepsHost
  work := rfl
  outBelow a ha := by
    rw [State.errored_outMem, State.forgetOut_outMem, Memory.get_forgetBelow,
      if_pos (Nat.lt_of_lt_of_le ha s.outCap_le_outBound)]
  outBeyond hc a ha := by
    have hm := (Moves.refl s).errored e off
    refine ⟨hm.outMem_beyond hc ha, ?_⟩
    rw [State.outByte, State.outByte, hm.outMem_beyond hc ha, hm.outEpoch_beyond hc ha]

/-- A command whose updates of OUT made it hold `out`, and that touched no register, ends DONE with the output `out` (R393). -/
theorem completes_completed {s u : State} {out : List Byte} (hm : Moves s u) (hregs : u.regs = s.regs)
    (hlen : out.length < 2 ^ 32)
    (hout : ∀ a, u.outByte a = if h : a < out.length then out[a] else s.outByte a) :
    Completes s (u.completed out.length) out [] where
  status := u.reg_status_completed _
  errOff := u.reg_errOff_completed _
  outLen := by
    rw [State.reg_outLen_completed, BitVec.toNat_ofNat, Nat.mod_eq_of_lt hlen]
  holds := by simp
  keeps n hn := (u.keepsRegs_completed _ n hn).trans (by rw [hregs])
  host := (hm.completed _).keepsHost
  work := rfl
  outByte a := hout a

theorem HasRoom.lt {s : State} {n : Nat} (h : HasRoom s n) : n < 2 ^ 32 :=
  Nat.lt_of_le_of_lt h.fits (s.reg .outCap).isLt

/-- A whole output written at offset 0 and completed. -/
theorem completes_putOut {s : State} {out : List Byte} (h : HasRoom s out.length) :
    Completes s ((s.putOut 0 out).completed out.length) out [] := by
  refine completes_completed ((Moves.refl s).putOut 0 out) rfl h.lt fun a => ?_
  rw [State.outByte_putOut s (by simpa using h.fits)]
  simp

/-- An output that OUT already holds, completed. -/
theorem completes_outRange {s : State} {n : Nat} (h : HasRoom s n) :
    Completes s (s.completed n) (s.outRange 0 n) [] := by
  have := completes_completed (out := s.outRange 0 n) (Moves.refl s) rfl (by simpa using h.lt) fun a => by
    split
    · simp [State.outRange]
    · rfl
  rwa [State.length_outRange] at this

end Ends

section Host

theorem step_of_host {s : State} {op : HostOp} {later : List HostOp} (hw : s.work = none) (hh : s.host = op :: later) :
    step s = hostAccess exec op { s with host := later } := by
  simp [step, hw, hh]

theorem step_of_work {s : State} {w : Work} (h : s.work = some w) : step s = sequence exec s w := by
  simp [step, h]

theorem hostWrite_rw (run : Instr → State → Out) {r : Reg} (hr : r.access = .rw) (v : Word) (s : State) :
    hostWrite run r.number v s = .next (s.storeReg r v) := by
  simp [hostWrite, hr]

theorem hostWrite_ro (run : Instr → State → Out) {r : Reg} (hr : r.access = .ro) (v : Word) (s : State) :
    hostWrite run r.number v s = .next s := by
  simp [hostWrite, hr]

theorem hostWrite_cmd (run : Instr → State → Out) (v : Word) (s : State) :
    hostWrite run Reg.cmd.number v s = issueCommand run v s := rfl

theorem hostWrite_reserved (run : Instr → State → Out) {n : Fin 64} (hn : Reg.ofNumber n = none) (v : Word) (s : State) :
    hostWrite run n v s = .next s := by
  simp [hostWrite, hn]

theorem hostRead_number (r : Reg) (s : State) :
    hostRead r.number s = withReg s r fun v => .next { s with readData := v } := by
  simp only [hostRead, Reg.ofNumber_number]

theorem keepsRegs_storeReg (s : State) (r : Reg) (v : Word) : KeepsRegs s (s.storeReg r v) [r] := by
  intro n hn
  rw [State.regs_get_storeReg, if_neg (hn r (by simp))]

end Host

section Reset

theorem reset_regs_get (n : Fin 64) : State.reset.regs.get n = 0#32 := by
  simp [State.reset, Vector.get_eq_getElem]

theorem reset_written_get (n : Fin 64) : State.reset.written.get n = hasResetValue n := by
  simp [State.reset, Vector.get_eq_getElem]

@[simp] theorem reset_reg (r : Reg) : State.reset.reg r = 0#32 := by
  rw [State.reg, reset_regs_get, BitVec.zero_and]

theorem hasResetValue_number (r : Reg) : hasResetValue r.number = decide (r.access ≠ .rw) := by
  simp [hasResetValue]

theorem reset_isWritten (r : Reg) : State.reset.isWritten r = decide (r.access ≠ .rw) := by
  rw [State.isWritten, reset_written_get, hasResetValue_number]

end Reset

/-- Settles O15: every meaning is a chain of updates of the block's own registers, of OUT and of the working registers. -/
theorem instructionFrame : Obligations.InstructionFrame := by
  intro i s t h
  have hm : Moves s t := exec_moves h
  refine ⟨hm.keepsHost, hm.inMem, fun r hr => hm.reg hr, fun n hn => hm.regs_get n ?_⟩
  rintro r - rfl
  simp at hn

/-- Settles O8, by the access code of the register. -/
theorem hostRegisterAccesses : Obligations.HostRegisterAccesses := by
  intro s later hw
  refine ⟨fun r v hh hr => ?_, fun r v hh hr => ?_, fun n v hh hn => ?_, fun r hh hr => ?_, fun r hh hr => ?_,
    fun n hh hn => ?_⟩ <;> rw [step_of_host hw hh]
  · refine ⟨_, hostWrite_rw exec hr v _, ?_, ?_, keepsRegs_storeReg _ r v, fun n hn => ?_, rfl, rfl, rfl, hw,
      rfl, rfl⟩
    · rw [State.reg_storeReg, if_pos rfl]
    · rw [State.isWritten_storeReg, if_pos rfl]
    · rw [State.written_get_storeReg, if_neg (Ne.symm hn)]
  · exact hostWrite_ro exec hr v _
  · exact hostWrite_reserved exec hn v _
  · exact (hostRead_number r _).trans (withReg_of_written (s := { s with host := later }) hr _)
  · exact (hostRead_number r _).trans (withReg_of_unwritten (s := { s with host := later }) hr _)
  · rw [hostAccess, hostRead, hn]

/-- Settles O6: a CMD write is `issueCommand`, whose rejection is the ERROR end of R392. -/
theorem stepRunsCommand : Obligations.StepRunsCommand := by
  intro s w later hw hh
  have hstep : step s = issueCommand exec w { s with host := later } :=
    (step_of_host hw hh).trans (hostWrite_cmd exec w _)
  constructor
  · intro i hi
    rw [hstep, issueCommand, hi]
  · intro e he
    refine ⟨_, ?_, State.raises_errored _ .unsupportedVariant 0⟩
    rw [hstep, issueCommand, he]
    exact rejectCommand_eq _

/-- Settles O10. -/
theorem resetState : Obligations.ResetState := by
  refine ⟨fun r hr => ⟨reset_reg r, ?_⟩, fun r hr => ?_, fun n _ => reset_regs_get n, fun a => rfl, rfl, ?_⟩
  · simpa [reset_isWritten] using hr
  · simpa [reset_isWritten] using hr
  · intro s later hw hh
    refine ⟨applyReset { s with host := later }, step_of_host hw hh, fun r _ => reset_reg r, fun n _ => reset_regs_get n, rfl,
      rfl, fun a => rfl, fun a => rfl, fun a ha => ?_, rfl⟩
    have : (applyReset { s with host := later }).outEpoch a = s.outEpoch a + 1 := by
      simp [State.outEpoch, applyReset, List.countP_cons]
      exact ha
    omega

/-- Settles O13: every register is 0, every memory empty, and the registers with a reset value count as written. -/
theorem resetMeetsInvariant : Obligations.ResetMeetsInvariant where
  inMem := State.reset_inMem_wf
  outMem := State.reset_outMem_wf
  hasValue n hn := (reset_written_get n).trans hn
  unnamed r := by rw [reset_regs_get, BitVec.zero_and]
  reserved n _ := reset_regs_get n
  idle _ := .inl ⟨reset_reg .status, reset_reg .errOff⟩
  busy w hw := by cases hw

end Sys2Proof.Machine

/-! What a decoding command reads at its cursor: the decoders' answers by length and format, and that no token needs a sixth
byte (10_state.md R37). -/

namespace Sys2Proof

theorem tokenSize_pos {i : Instr} (h : i.format ≠ .command) : 0 < tokenSize i := by
  cases i <;> first | exact absurd rfl h | exact Nat.succ_pos _

/-- What a decoder's answer says of a token: its format, and that its bytes and those left over are the bytes given. -/
def Consumes (f : Format) (bs : List Byte) (i : Instr) (rest : List Byte) : Prop :=
  i.format = f ∧ tokenSize i + rest.length = bs.length

theorem decodeR7x_consumes {bs : List Byte} {i : Instr} {rest : List Byte} (h : decodeR7x bs = .ok (i, rest)) :
    Consumes .r7x bs i rest := by
  unfold decodeR7x at h
  repeat' split at h
  all_goals cases h
  all_goals exact ⟨rfl, by simp [tokenSize, tokenBytes, encode]; omega⟩

theorem decodeBpl_consumes {bs : List Byte} {i : Instr} {rest : List Byte} (h : decodeBpl bs = .ok (i, rest)) :
    Consumes .bpl bs i rest := by
  unfold decodeBpl at h
  split at h
  all_goals cases h
  exact ⟨rfl, by simp [tokenSize, tokenBytes, encode]; omega⟩

theorem decodeDif_consumes {bs : List Byte} {i : Instr} {rest : List Byte} (h : decodeDif bs = .ok (i, rest)) :
    Consumes .dif bs i rest := by
  unfold decodeDif at h
  split at h
  · cases h
  · dsimp only at h
    split at h
    all_goals cases h
    all_goals exact ⟨rfl, by simp [tokenSize, tokenBytes, encode]; omega⟩

theorem decodeNib_consumes {bs : List Byte} {i : Instr} {rest : List Byte} (h : decodeNib bs = .ok (i, rest)) :
    Consumes .nib bs i rest := by
  unfold decodeNib at h
  repeat' split at h
  all_goals cases h
  all_goals exact ⟨rfl, by simp [tokenSize, tokenBytes, encode]; omega⟩

theorem decodeRgb_consumes {bs : List Byte} {i : Instr} {rest : List Byte} (h : decodeRgb bs = .ok (i, rest)) :
    Consumes .rgb bs i rest := by
  unfold decodeRgb at h
  split at h
  swap
  · cases h
  dsimp only at h
  repeat' split at h
  all_goals cases h
  all_goals exact ⟨rfl, by simp [tokenSize, tokenBytes, encode]; omega⟩

namespace Machine

theorem decodeBytes_consumes {st : Stream} {bs : List Byte} {i : Instr} {rest : List Byte}
    (h : decodeBytes st.format bs = .ok (i, rest)) : Consumes st.format bs i rest := by
  cases st
  case r7x => exact decodeR7x_consumes h
  case bpl => exact decodeBpl_consumes h
  case dif => exact decodeDif_consumes h
  case nib => exact decodeNib_consumes h
  case rgb => exact decodeRgb_consumes h

/-- With five bytes at hand a decoder's answer does not depend on the bytes after them. -/
theorem decodeBytes_five (st : Stream) (b0 b1 b2 b3 b4 : Byte) (rest : List Byte) :
    (decodeBytes st.format (b0 :: b1 :: b2 :: b3 :: b4 :: rest)).map Prod.fst =
      (decodeBytes st.format [b0, b1, b2, b3, b4]).map Prod.fst := by
  cases st
  case r7x =>
    simp only [Stream.format, decodeBytes, decodeR7x]
    repeat' split
    all_goals rfl
  case bpl => rfl
  case dif =>
    simp only [Stream.format, decodeBytes, decodeDif]
    generalize b0.extractLsb' 4 4 = x
    obtain ⟨x⟩ := x
    fin_cases x <;> rfl
  case nib =>
    simp only [Stream.format, decodeBytes, decodeNib]
    repeat' split
    all_goals rfl
  case rgb =>
    simp only [Stream.format, decodeBytes, decodeRgb]
    repeat' split
    all_goals rfl

/-- No token needs a sixth byte (R37). -/
theorem decodeBytes_take (st : Stream) (bs : List Byte) :
    (decodeBytes st.format (bs.take maxTokenSize)).map Prod.fst = (decodeBytes st.format bs).map Prod.fst := by
  match bs with
  | [] | [_] | [_, _] | [_, _, _] | [_, _, _, _] => rfl
  | b0 :: b1 :: b2 :: b3 :: b4 :: rest => exact (decodeBytes_five st b0 b1 b2 b3 b4 rest).symm

theorem State.take_inRange (s : State) (a n k : Nat) : (s.inRange a n).take k = s.inRange a (min k n) := by
  simp [State.inRange, ← List.map_take, List.take_range]

/-- The token at the cursor is what the whole rest of the token region decodes to (R391). -/
theorem fetchToken_tokens (s : State) {w : Work} (h : w.phase = .tokens) :
    fetchToken s w = (decodeBytes w.stream.format (s.inRange w.ic (w.stop - w.ic))).map Prod.fst := by
  rw [← decodeBytes_take, State.take_inRange]
  simp only [fetchToken, h]

theorem fetchToken_magic (s : State) {w : Work} (h : w.phase = .magic) :
    fetchToken s w = .ok (.difMagic (s.inByte w.ic)) := by
  simp only [fetchToken, h]
  rfl

theorem fetchToken_checksum (s : State) {w : Work} (h : w.phase = .checksum) :
    fetchToken s w = .ok (.difChecksum (s.inByte w.stop)) := by
  simp only [fetchToken, h]
  rfl

/-- A fetched token is of the stream's format and ends within the token region. -/
theorem fetchToken_ok {s : State} {w : Work} {i : Instr} (hp : w.phase = .tokens) (h : fetchToken s w = .ok i) :
    i.format = w.stream.format ∧ w.ic + tokenSize i ≤ w.stop := by
  rw [fetchToken_tokens s hp] at h
  cases hd : decodeBytes w.stream.format (s.inRange w.ic (w.stop - w.ic)) with
  | error e => rw [hd] at h; cases h
  | ok d =>
    obtain ⟨j, rest⟩ := d
    rw [hd] at h
    obtain rfl : j = i := Except.ok.inj h
    obtain ⟨hf, hsize⟩ := decodeBytes_consumes hd
    have hpos : 0 < tokenSize j := tokenSize_pos (by rw [hf]; cases w.stream <;> simp [Stream.format])
    rw [State.length_inRange] at hsize
    exact ⟨hf, by omega⟩

theorem fetchToken_format {s : State} {w : Work} {i : Instr} (h : fetchToken s w = .ok i) : i.format ≠ .command := by
  cases hp : w.phase with
  | magic => rw [fetchToken_magic s hp] at h; cases h; simp [Instr.format]
  | checksum => rw [fetchToken_checksum s hp] at h; cases h; simp [Instr.format]
  | tokens => rw [(fetchToken_ok hp h).1]; cases w.stream <;> simp [Stream.format]

/-- A turn of the sequencer gives a token the meaning that exec gives it. -/
theorem sequence_exec (s : State) (w : Work) : sequence exec s w = sequence execToken s w := by
  unfold sequence
  split
  · rfl
  · split
    · rename_i i hi
      exact (execToken_eq_exec (fetchToken_format hi) s).symm
    · rfl

theorem sequence_of_ok {run : Instr → State → Out} {s : State} {w : Work} {i : Instr} (he : streamEnded w = false)
    (h : fetchToken s w = .ok i) : sequence run s w = run i s := by
  simp [sequence, he, h]

theorem sequence_of_error {run : Instr → State → Out} {s : State} {w : Work} {e : DecodeError} (he : streamEnded w = false)
    (h : fetchToken s w = .error e) : sequence run s w = .next (s.errored .corruptedStream w.ic) := by
  simp [sequence, he, h]

theorem sequence_of_ended {run : Instr → State → Out} {s : State} {w : Work} (he : streamEnded w = true) :
    sequence run s w = finishStream s w := by
  simp [sequence, he]

theorem streamEnded_of_ne_bpl {w : Work} (h : w.stream ≠ .bpl) :
    streamEnded w = (w.phase = .tokens && w.stop ≤ w.ic) := by
  unfold streamEnded
  split
  · exact absurd ‹_› h
  · rfl

theorem streamEnded_of_bpl {w : Work} (h : w.stream = .bpl) : streamEnded w = decide (w.planes ≤ w.plane) := by
  simp [streamEnded, h]

theorem finishStream_of_ne_bpl (s : State) {w : Work} (h : w.stream ≠ .bpl) :
    finishStream s w = finishPixels s w w.stream.pixelBytes := by
  unfold finishStream
  split <;> simp_all [Stream.pixelBytes]

theorem finishStream_of_bpl (s : State) {w : Work} (h : w.stream = .bpl) : finishStream s w = finishBpl s w := by
  simp [finishStream, h]

/-- With no more hits than planes the model's sample is that of R160: the cap at 255 is never reached. -/
theorem reconBpl_eq {n h : Nat} (hn : h ≤ n) : reconBpl n h = sampleBpl n h := by
  have hmul : h * (256 / n) ≤ 256 :=
    calc h * (256 / n) ≤ n * (256 / n) := Nat.mul_le_mul_right _ hn
      _ ≤ 256 := Nat.mul_div_le 256 n
  rw [reconBpl, sampleBpl, byteOf, Nat.min_eq_right (by omega)]

end Machine
end Sys2Proof

namespace Sys2Proof.Machine

/-- Settles O7, by the phase, and by how the stream ends. -/
theorem stepRunsToken : Obligations.StepRunsToken := by
  intro s w hw
  have hstep : step s = sequence exec s w := step_of_work hw
  refine ⟨fun he => ⟨fun hp => ⟨fun i rest hd => ?_, fun e hd => ?_⟩, fun hp => ?_, fun hp => ?_⟩, fun hb hp hs => ?_,
    fun hb hs => ?_⟩
  · rw [hstep, sequence_of_ok he]
    rw [fetchToken_tokens s hp, hd]
    rfl
  · refine ⟨_, hstep.trans (sequence_of_error (e := e) he ?_), s.raises_errored .corruptedStream w.ic⟩
    rw [fetchToken_tokens s hp, hd]
    rfl
  · rw [hstep, sequence_of_ok he (fetchToken_magic s hp)]
  · rw [hstep, sequence_of_ok he (fetchToken_checksum s hp)]
  · have hend : step s = finishPixels s w w.stream.pixelBytes := by
      rw [hstep, sequence_of_ended, finishStream_of_ne_bpl s hb]
      simp [streamEnded_of_ne_bpl hb, hp, hs]
    refine ⟨fun hne => ⟨_, hend.trans (if_pos hne), s.raises_errored _ _⟩, fun heq hroom => ⟨_, ?_, completes_outRange hroom⟩⟩
    exact hend.trans (if_neg (not_not.mpr heq))
  · have hend : step s = finishBpl s w := by
      rw [hstep, sequence_of_ended, finishStream_of_bpl s hb]
      simpa [streamEnded_of_bpl hb] using hs
    refine ⟨fun hne => ⟨_, hend.trans (if_pos hne), s.raises_errored _ _⟩, fun heq hroom hlen hhits => ?_⟩
    have hmap : w.hits.map (reconBpl w.planes) = w.hits.map (sampleBpl w.planes) :=
      List.map_congr_left fun h hh => reconBpl_eq (hhits h hh)
    have hcompletes := completes_putOut (s := s) (out := w.hits.map (sampleBpl w.planes)) (by simpa [hlen] using hroom)
    rw [List.length_map, hlen, ← hmap] at hcompletes
    exact ⟨_, hend.trans (if_neg (not_not.mpr heq)), hmap ▸ hcompletes⟩

end Sys2Proof.Machine

/-! One turn of a decoding command as data: what it writes to OUT and which working registers it leaves, or how the command
ends (10_state.md R36, R37; R391, R393, R395). What a turn can do is then said once, for all streams. -/

namespace Sys2Proof.Machine

section RunTokens

theorem recon7_eq (c : BitVec 7) : recon7 c = sample7 c := by
  revert c; decide

theorem reconNib_eq (c : BitVec 4) : reconNib c = sampleNib c := by
  revert c; decide

theorem channel_eq (c : BitVec 5) : c ++ 0#3 = byteOf (8 * c.toNat) := by
  revert c; decide

theorem expandRgb_eq (r g b : BitVec 5) : expandRgb ⟨r, g, b⟩ = sampleRgb r g b := by
  simp only [expandRgb, sampleRgb, channel_eq]

theorem runToken_spec {i : Instr} {k : RunToken} (h : runToken i = some k) :
    i.format = k.stream.format ∧ tokenSize i = k.size ∧ k.pixel.length = k.stream.pixelBytes ∧ k.stream ≠ .bpl := by
  cases i <;> cases h <;> exact ⟨rfl, rfl, rfl, Stream.noConfusion⟩

theorem deltaToken_spec {i : Instr} {k : DeltaToken} (h : deltaToken i = some k) :
    i.format = .dif ∧ tokenSize i = k.size ∧ runToken i = none := by
  cases i <;> cases h <;> exact ⟨rfl, rfl, rfl⟩

/-- The tokens of the streams: run-length tokens, DELTA chunks, and the bitplane token. -/
theorem token_cases {i : Instr} {st : Stream} (h : i.format = st.format) :
    (∃ k, runToken i = some k ∧ k.stream = st) ∨ (∃ k, deltaToken i = some k ∧ st = .dif) ∨
      (∃ on l, i = .bplTok on l ∧ st = .bpl) := by
  cases st <;> cases i <;> cases h
  all_goals first
    | exact .inl ⟨_, rfl, rfl⟩
    | exact .inr (.inl ⟨_, rfl, rfl⟩)
    | exact .inr (.inr ⟨_, _, rfl, rfl⟩)

theorem Stream.format_inj {a b : Stream} (h : a.format = b.format) : a = b := by
  cases a <;> cases b <;> first | rfl | cases h

theorem Stream.format_ne_command (st : Stream) : st.format ≠ .command := by
  cases st <;> simp [Stream.format]

end RunTokens

section Effects

/-- What one turn of a decoding command does to a state. -/
inductive Effect where
  | fault (f : Fault)
  | raise (e : ErrorKind) (off : Nat)
  /-- The bytes go to OUT from offset 0, and the command is DONE with `oc` bytes of output. -/
  | finish (bs : List Byte) (oc : Nat)
  /-- The bytes go to OUT from offset `a`, and the command goes on with these working registers. -/
  | put (a : Nat) (bs : List Byte) (w : Work)

def Effect.apply (s : State) : Effect → Out
  | .fault f => .fault f
  | .raise e off => .next (s.errored e off)
  | .finish bs oc => .next ((s.putOut 0 bs).completed oc)
  | .put a bs w => .next { s.putOut a bs with work := some w }

@[simp] theorem State.putOut_nil (s : State) (a : Nat) : s.putOut a [] = s := by
  simp [State.putOut, Memory.putAll]

/-- `l` pixels at pixel `pc`, or BufferOverrun (R395): `putRun` as an effect. -/
def runEffect (w : Work) (l : Nat) (px : List Byte) (prev : Byte) : Effect :=
  if w.pc + l > w.pixels then .raise .bufferOverrun w.tok
  else .put (px.length * w.pc) (List.replicate l px).flatten
    { w with pc := w.pc + l, prev := if l > 0 then prev else w.prev }

/-- A DELTA chunk that has been taken (R191, R193). -/
def deltaEffect (w : Work) (k : DeltaToken) : Effect :=
  let v : Int := (w.prev.toNat : Int) + k.delta
  if v < 0 ∨ v > 255 then .raise .corruptedStream w.tok
  else runEffect w k.len [BitVec.ofInt 8 v] (BitVec.ofInt 8 v)

/-- A bitplane token that has been taken (R162, R163). -/
def planeEffect (w : Work) (on : Bool) (l : BitVec 7) : Effect :=
  if w.planes ≤ w.plane then .raise .corruptedStream w.tok
  else if w.pc + l.toNat > w.pixels then .raise .bufferOverrun w.tok
  else .put 0 [] (settlePlane
    { w with pc := w.pc + l.toNat, hits := if on then addHits w.hits w.pc l.toNat else w.hits })

/-- `prev` after a run that produces a pixel: only a diff-chunk chunk sets it (R191). -/
def RunToken.newPrev (k : RunToken) (w : Work) : Byte := if k.stream = .dif then k.pixel.headD 0#8 else w.prev

/-- A token that has been taken. What is no token raises; no stream comes to it. -/
def takenEffect (w : Work) (i : Instr) : Effect :=
  match runToken i, deltaToken i, i with
  | some k, _, _ => runEffect w k.len k.pixel (k.newPrev w)
  | none, some k, _ => deltaEffect w k
  | none, none, .bplTok on l => planeEffect w on l
  | none, none, _ => .raise .corruptedStream w.tok

/-- A token at the cursor: taken, or cut short by the end of its region (R37, R391). -/
def tokenEffect (w : Work) (i : Instr) : Effect :=
  if w.ic + tokenSize i > w.stop then .raise .corruptedStream w.ic
  else takenEffect { w with tok := w.ic, ic := w.ic + tokenSize i } i

theorem takenEffect_run {i : Instr} {k : RunToken} (h : runToken i = some k) (w : Work) :
    takenEffect w i = runEffect w k.len k.pixel (k.newPrev w) := by
  simp only [takenEffect, h]

theorem takenEffect_delta {i : Instr} {k : DeltaToken} (h : deltaToken i = some k) (w : Work) :
    takenEffect w i = deltaEffect w k := by
  simp only [takenEffect, (deltaToken_spec h).2.2, h]

theorem takenEffect_bplTok (on : Bool) (l : BitVec 7) (w : Work) : takenEffect w (.bplTok on l) = planeEffect w on l := rfl

theorem tokenEffect_of_short {w : Work} {i : Instr} (h : w.stop < w.ic + tokenSize i) :
    tokenEffect w i = .raise .corruptedStream w.ic :=
  if_pos h

theorem tokenEffect_of_fits {w : Work} {i : Instr} (h : w.ic + tokenSize i ≤ w.stop) :
    tokenEffect w i = takenEffect { w with tok := w.ic, ic := w.ic + tokenSize i } i :=
  if_neg (by omega)

theorem putRun_eq_apply (s : State) (w : Work) (l : Nat) (px : List Byte) (prev : Byte) :
    putRun s w l px prev = (runEffect w l px prev).apply s := by
  unfold putRun runEffect
  split <;> rfl

theorem withToken_eq_apply {s : State} {w : Work} {i : Instr} {k : Work → Out} (hw : s.work = some w)
    (hp : w.phase = .tokens) (hk : ∀ w' : Work, k w' = (takenEffect w' i).apply s) :
    withToken s w.stream i k = (tokenEffect w i).apply s := by
  unfold withToken tokenEffect
  rw [← hp, withStream_of_work hw]
  split
  · rfl
  · exact hk _

section

variable {s : State} {w : Work} {i : Instr} (hw : s.work = some w) (hp : w.phase = .tokens)
include hw hp

theorem r7xRun_eq_apply {c : BitVec 7} {n l : Nat} (hs : Stream.r7x = w.stream)
    (hi : runToken i = some ⟨.r7x, n, l, [sample7 c]⟩) : r7xRun s i c l = (tokenEffect w i).apply s := by
  rw [r7xRun, hs, withToken_eq_apply hw hp]
  intro w'
  rw [putRun_eq_apply, takenEffect_run hi, recon7_eq]
  rfl

theorem difLiteral_eq_apply {v : Byte} {n l : Nat} (hs : Stream.dif = w.stream)
    (hi : runToken i = some ⟨.dif, n, l, [v]⟩) : difLiteral s i v l = (tokenEffect w i).apply s := by
  rw [difLiteral, hs, withToken_eq_apply hw hp]
  intro w'
  rw [putRun_eq_apply, takenEffect_run hi]
  rfl

theorem nibRun_eq_apply {c : BitVec 4} {n l : Nat} (hs : Stream.nib = w.stream)
    (hi : runToken i = some ⟨.nib, n, l, [sampleNib c]⟩) : nibRun s i c l = (tokenEffect w i).apply s := by
  rw [nibRun, hs, withToken_eq_apply hw hp]
  intro w'
  rw [putRun_eq_apply, takenEffect_run hi, reconNib_eq]
  rfl

theorem rgbRun_eq_apply {r g b : BitVec 5} {n l : Nat} (hs : Stream.rgb = w.stream)
    (hi : runToken i = some ⟨.rgb, n, l, sampleRgb r g b⟩) : rgbRun s i ⟨r, g, b⟩ l = (tokenEffect w i).apply s := by
  rw [rgbRun, hs, withToken_eq_apply hw hp]
  intro w'
  rw [putRun_eq_apply, takenEffect_run hi, expandRgb_eq]
  rfl

theorem difDelta_eq_apply {d : BitVec 4} {n l : Nat} (hs : Stream.dif = w.stream)
    (hi : deltaToken i = some ⟨d.toInt, n, l⟩) : difDelta s i d l = (tokenEffect w i).apply s := by
  rw [difDelta, hs, withToken_eq_apply hw hp]
  intro w'
  rw [takenEffect_delta hi, deltaEffect]
  dsimp only
  split
  · rfl
  · exact putRun_eq_apply _ _ _ _ _

theorem execBplTok_eq_apply {on : Bool} {l : BitVec 7} (hs : Stream.bpl = w.stream) :
    execBplTok on l s = (tokenEffect w (.bplTok on l)).apply s := by
  rw [execBplTok, hs, withToken_eq_apply hw hp]
  intro w'
  rw [takenEffect_bplTok, planeEffect]
  split
  · rfl
  split
  · rfl
  · simp only [Effect.apply, State.putOut_nil]

/-- In a stream of its format a token has its effect. -/
theorem execToken_eq_apply (hf : i.format = w.stream.format) : execToken i s = (tokenEffect w i).apply s := by
  cases i
  case r7xPix | r7xRun7 | r7xRun14 | r7xRun21 | r7xRun28 =>
    exact r7xRun_eq_apply hw hp (Stream.format_inj hf) rfl
  case bplTok => exact execBplTok_eq_apply hw hp (Stream.format_inj hf)
  case difZero0 | difZero1 | difZero2 | difZero3 | difValue0 | difValue1 | difValue2 | difValue3 | difMax0 | difMax1 |
      difMax2 | difMax3 =>
    exact difLiteral_eq_apply hw hp (Stream.format_inj hf) rfl
  case difDelta0 | difDelta1 | difDelta2 | difDelta3 => exact difDelta_eq_apply hw hp (Stream.format_inj hf) rfl
  case nibBlack | nibWhite | nibGrey => exact nibRun_eq_apply hw hp (Stream.format_inj hf) rfl
  case rgbWord | rgbRep => exact rgbRun_eq_apply hw hp (Stream.format_inj hf) rfl
  all_goals
    cases hst : w.stream <;> rw [hst] at hf <;> cases hf

theorem exec_eq_apply (hf : i.format = w.stream.format) : exec i s = (tokenEffect w i).apply s :=
  (execToken_eq_exec (hf ▸ w.stream.format_ne_command) s).symm.trans (execToken_eq_apply hw hp hf)

end

end Effects

section Turns

/-- A framing field or token of a stream. -/
def fieldEffect (s : State) (w : Work) : Instr → Effect
  | .difMagic m =>
    if s.isWritten .diffMagic then
      if m ≠ (s.reg .diffMagic).setWidth 8 then .raise .corruptedStream 0
      else .put 0 [] { w with phase := .checksum, ic := 1 }
    else .fault (.unwrittenRegister .diffMagic)
  | .difChecksum k =>
    if k ≠ dsum (s.inRange 1 (w.stop - 1)) then .raise .checksumMismatch w.stop
    else .put 0 [] { w with phase := .tokens }
  | i => tokenEffect w i

/-- The end of a stream (R132, R163, R193, R232, R262). -/
def endEffect (w : Work) : Effect :=
  if w.stream = .bpl then
    if w.ic ≠ w.stop then .raise .corruptedStream w.ic
    else .finish (w.hits.map (reconBpl w.planes)) w.pixels
  else if w.pc ≠ w.pixels then .raise .corruptedStream w.stop
  else .finish [] (w.stream.pixelBytes * w.pixels)

/-- One turn: the stream's end, or the field at the cursor. -/
def turnEffect (s : State) (w : Work) : Effect :=
  if streamEnded w then endEffect w
  else match fetchToken s w with
    | .ok i => fieldEffect s w i
    | .error _ => .raise .corruptedStream w.ic

theorem finishStream_eq_apply (s : State) (w : Work) : finishStream s w = (endEffect w).apply s := by
  unfold endEffect
  split
  · rw [finishStream_of_bpl s ‹_›, finishBpl]
    split <;> rfl
  · rw [finishStream_of_ne_bpl s ‹_›, finishPixels]
    split
    · rfl
    · simp only [Effect.apply, State.putOut_nil, finishCommand_eq]

theorem execDifMagic_eq_apply {s : State} {w : Work} (hw : s.work = some w) (hs : w.stream = .dif) (hp : w.phase = .magic)
    (m : Byte) : execDifMagic m s = (fieldEffect s w (.difMagic m)).apply s := by
  rw [execDifMagic, ← hs, ← hp, withStream_of_work hw, withReg, fieldEffect]
  split
  · split
    · rfl
    · simp only [Effect.apply, State.putOut_nil]
  · rfl

theorem execDifChecksum_eq_apply {s : State} {w : Work} (hw : s.work = some w) (hs : w.stream = .dif)
    (hp : w.phase = .checksum) (k : Byte) : execDifChecksum k s = (fieldEffect s w (.difChecksum k)).apply s := by
  rw [execDifChecksum, ← hs, ← hp, withStream_of_work hw, fieldEffect]
  split
  · rfl
  · simp only [Effect.apply, State.putOut_nil]

theorem fieldEffect_of_format {s : State} {w : Work} {i : Instr} (h : i.format = w.stream.format) :
    fieldEffect s w i = tokenEffect w i := by
  unfold fieldEffect
  split <;> first | rfl | (cases hst : w.stream <;> rw [hst] at h <;> cases h)

/-- A turn of the sequencer has its effect: framing stands in diff-chunk streams only. -/
theorem sequence_eq_apply {s : State} {w : Work} (hw : s.work = some w) (hf : w.phase ≠ .tokens → w.stream = .dif) :
    sequence execToken s w = (turnEffect s w).apply s := by
  unfold sequence turnEffect
  split
  · exact finishStream_eq_apply s w
  cases hi : fetchToken s w with
  | error e => rfl
  | ok i =>
    show execToken i s = (fieldEffect s w i).apply s
    cases hp : w.phase with
    | magic =>
      rw [fetchToken_magic s hp] at hi
      cases hi
      exact execDifMagic_eq_apply hw (hf (by simp [hp])) hp _
    | checksum =>
      rw [fetchToken_checksum s hp] at hi
      cases hi
      exact execDifChecksum_eq_apply hw (hf (by simp [hp])) hp _
    | tokens =>
      have hfmt := (fetchToken_ok hp hi).1
      rw [fieldEffect_of_format hfmt]
      exact execToken_eq_apply hw hp hfmt

/-- What a turn that goes on does: the framing fields pass, a run is produced, or a plane gets a run. `bs` goes to OUT from
offset `a`. -/
inductive Turn (w : Work) : Nat → List Byte → Work → Prop
  | magic (hs : w.stream = .dif) (hp : w.phase = .magic) : Turn w 0 [] { w with phase := .checksum, ic := 1 }
  | checksum (hs : w.stream = .dif) (hp : w.phase = .checksum) : Turn w 0 [] { w with phase := .tokens }
  | run {n l : Nat} {bs : List Byte} {prev : Byte} (hs : w.stream ≠ .bpl) (hp : w.phase = .tokens) (hn : 0 < n)
      (hic : w.ic + n ≤ w.stop) (hpc : w.pc + l ≤ w.pixels) (hbs : bs.length = w.stream.pixelBytes * l) :
      Turn w (w.stream.pixelBytes * w.pc) bs { w with tok := w.ic, ic := w.ic + n, pc := w.pc + l, prev := prev }
  | plane {on : Bool} {l : Nat} (hs : w.stream = .bpl) (hp : w.phase = .tokens) (hic : w.ic + 1 ≤ w.stop)
      (hplane : w.plane < w.planes) (hpc : w.pc + l ≤ w.pixels) :
      Turn w 0 [] (settlePlane
        { w with tok := w.ic, ic := w.ic + 1, pc := w.pc + l, hits := if on then addHits w.hits w.pc l else w.hits })

/-- The effects a turn can have. -/
inductive IsTurn (s : State) (w : Work) : Effect → Prop
  | fault (hp : w.phase = .magic) (h : s.isWritten .diffMagic = false) :
      IsTurn s w (.fault (.unwrittenRegister .diffMagic))
  | raise {e : ErrorKind} {off : Nat} (h : off ≤ w.stop) : IsTurn s w (.raise e off)
  | pixels (hs : w.stream ≠ .bpl) (h : w.pc = w.pixels) : IsTurn s w (.finish [] (w.stream.pixelBytes * w.pixels))
  | planes (hs : w.stream = .bpl) : IsTurn s w (.finish (w.hits.map (reconBpl w.planes)) w.pixels)
  | put {a : Nat} {bs : List Byte} {w' : Work} (h : Turn w a bs w') : IsTurn s w (.put a bs w')

theorem isTurn_runEffect {s : State} {w : Work} {n l : Nat} {px : List Byte} {prev : Byte} (hs : w.stream ≠ .bpl)
    (hp : w.phase = .tokens) (hn : 0 < n) (hic : w.ic + n ≤ w.stop) (hpx : px.length = w.stream.pixelBytes) :
    IsTurn s w (runEffect { w with tok := w.ic, ic := w.ic + n } l px prev) := by
  unfold runEffect
  split
  · exact .raise (show w.ic ≤ w.stop by omega)
  · rename_i hpc
    rw [hpx]
    refine .put (.run hs hp hn hic (by simpa using hpc) ?_)
    rw [length_replicate_flatten, hpx]

theorem isTurn_tokenEffect {s : State} {w : Work} {i : Instr} (hp : w.phase = .tokens) (hf : i.format = w.stream.format)
    (hic : w.ic ≤ w.stop) : IsTurn s w (tokenEffect w i) := by
  have hpos : 0 < tokenSize i := tokenSize_pos (hf ▸ w.stream.format_ne_command)
  by_cases hfit : w.ic + tokenSize i ≤ w.stop
  swap
  · rw [tokenEffect_of_short (by omega)]
    exact .raise hic
  rw [tokenEffect_of_fits hfit]
  obtain ⟨k, hk, hst⟩ | ⟨k, hk, hst⟩ | ⟨on, l, rfl, hst⟩ := token_cases hf
  · obtain ⟨-, -, hpx, hb⟩ := runToken_spec hk
    rw [takenEffect_run hk]
    exact isTurn_runEffect (hst ▸ hb) hp hpos hfit (hst ▸ hpx)
  · rw [takenEffect_delta hk, deltaEffect]
    dsimp only
    split
    · exact .raise hic
    · exact isTurn_runEffect (by simp [hst]) hp hpos hfit (by simp [hst, Stream.pixelBytes])
  · rw [takenEffect_bplTok, planeEffect]
    split
    · exact .raise hic
    split
    · exact .raise hic
    · rename_i hplane hpc
      exact .put (.plane hst hp hfit (by simpa using hplane) (by simpa using hpc))

theorem isTurn_fieldEffect {s : State} {w : Work} {i : Instr} (hi : fetchToken s w = .ok i) (hc : w.ic ≤ w.stop)
    (hf : w.phase ≠ .tokens → w.stream = .dif) : IsTurn s w (fieldEffect s w i) := by
  cases hp : w.phase with
  | magic =>
    rw [fetchToken_magic s hp] at hi
    cases hi
    rw [fieldEffect]
    split
    · split
      · exact .raise (Nat.zero_le _)
      · exact .put (.magic (hf (by simp [hp])) hp)
    · exact .fault hp (Bool.eq_false_iff.mpr ‹_›)
  | checksum =>
    rw [fetchToken_checksum s hp] at hi
    cases hi
    rw [fieldEffect]
    split
    · exact .raise (Nat.le_refl _)
    · exact .put (.checksum (hf (by simp [hp])) hp)
  | tokens =>
    have hfmt := (fetchToken_ok hp hi).1
    rw [fieldEffect_of_format hfmt]
    exact isTurn_tokenEffect hp hfmt hc

theorem isTurn_endEffect {s : State} {w : Work} (hc : w.ic ≤ w.stop) : IsTurn s w (endEffect w) := by
  unfold endEffect
  split
  · split
    · exact .raise hc
    · exact .planes ‹_›
  · split
    · exact .raise (Nat.le_refl _)
    · exact .pixels ‹_› (not_not.mp ‹_›)

/-- With the cursor within the token region, and framing in a diff-chunk stream only, a turn is one of `IsTurn`. -/
theorem isTurn_turnEffect {s : State} {w : Work} (hc : w.ic ≤ w.stop) (hf : w.phase ≠ .tokens → w.stream = .dif) :
    IsTurn s w (turnEffect s w) := by
  unfold turnEffect
  split
  · exact isTurn_endEffect hc
  · split
    · exact isTurn_fieldEffect ‹_› hc hf
    · exact .raise hc

end Turns

/-- Settles O20. -/
theorem runTokensProducePixels : Obligations.RunTokensProducePixels := by
  intro i k s w hk hw hs hp hfit hpc hroom
  obtain ⟨hf, hsize, -, -⟩ := runToken_spec hk
  have hprev : (if k.len > 0 then k.newPrev w else w.prev) = k.prevAfter w := by
    unfold RunToken.newPrev RunToken.prevAfter
    by_cases hlen : 0 < k.len <;> simp [hlen]
  refine ⟨{ s.putOut (k.pixel.length * w.pc) (List.replicate k.len k.pixel).flatten with
    work := some { w with tok := w.ic, ic := w.ic + k.size, pc := w.pc + k.len, prev := k.prevAfter w } }, ?_, ?_⟩
  · rw [exec_eq_apply hw hp (hs ▸ hf), tokenEffect_of_fits (by omega), takenEffect_run hk, runEffect,
      if_neg (by simpa using hpc), hsize, ← hprev]
    rfl
  · have hend : k.pixel.length * w.pc + k.pixel.length * k.len ≤ k.pixel.length * w.pixels := by
      rw [← Nat.mul_add]
      exact Nat.mul_le_mul_left _ hpc
    refine ⟨rfl, rfl, (((Moves.refl s).putOut _ _).setWork _).keepsHost, fun a => ?_⟩
    refine s.outByte_putOut ?_ a
    rw [length_replicate_flatten]
    exact hend.trans hroom.fits

section Errors

theorem foldl_add_eq (bs : List Byte) (c : Byte) :
    bs.foldl (· + ·) c = BitVec.ofNat 8 (c.toNat + (bs.map BitVec.toNat).sum) := by
  induction bs generalizing c with
  | nil => simp
  | cons b bs ih =>
    rw [List.foldl_cons, ih]
    refine BitVec.eq_of_toNat_eq ?_
    simp only [BitVec.toNat_ofNat, BitVec.toNat_add, List.map_cons, List.sum_cons]
    omega

/-- The model's checksum is the complemented sum of R192. -/
theorem dsum_eq (bs : List Byte) : dsum bs = complementSum bs := by
  rw [dsum, complementSum, foldl_add_eq, byteOf]
  refine BitVec.eq_of_toNat_eq ?_
  simp only [BitVec.toNat_not, BitVec.toNat_ofNat]
  omega

/-- DIFF_MAGIC holds one byte: the comparison of R193 on bytes is one on registers. -/
theorem diffMagic_eq_iff (s : State) (m : Byte) :
    s.reg .diffMagic = m.setWidth 32 ↔ m = (s.reg .diffMagic).setWidth 8 := by
  have hlt : (s.reg .diffMagic).toNat < 2 ^ 8 := by
    have : (s.reg .diffMagic).toNat ≤ 0xFF := by
      rw [State.reg, BitVec.toNat_and]
      exact Nat.and_le_right
    omega
  constructor <;> intro h
  · rw [h]
    simp
  · rw [h]
    refine BitVec.eq_of_toNat_eq ?_
    simp only [BitVec.toNat_setWidth]
    omega

theorem Effect.raises {s : State} {e : ErrorKind} {off : Nat} {o : Out} (h : o = (Effect.raise e off).apply s) :
    ∃ t, o = .next t ∧ Raises s t e off [] :=
  ⟨_, h, s.raises_errored e off⟩

/-- An IN too short for the framing is CorruptedStream(0) once P fits OUT_CAP (R193, R232). -/
theorem exec_raises_of_short {i : Instr} {s : State} (hi : i ∈ [.difDec, .nibDec]) (hr : Ready s [.inLen, .width, .height])
    (hroom : HasRoom s (pixelCount s)) (h : (s.reg .inLen).toNat < 2) :
    ∃ t, exec i s = .next t ∧ Raises s t .corruptedStream 0 [] := by
  simp only [Ready, List.forall_mem_cons] at hr
  obtain ⟨hin, hwidth, hheight, -⟩ := hr
  have hfits : (s.reg .width).toNat * (s.reg .height).toNat ≤ (s.reg .outCap).toNat := hroom.fits
  refine ⟨_, ?_, s.raises_errored .corruptedStream 0⟩
  simp only [List.mem_cons, List.not_mem_nil, or_false] at hi
  rcases hi with rfl | rfl
  · show execDifDec s = _
    rw [execDifDec, withPixels_of_written hwidth hheight, withCapacity_of_fits hroom.written hfits, withReg_of_written hin,
      if_pos h, raiseError_eq]
  · show execNibDec s = _
    rw [execNibDec, withPixels_of_written hwidth hheight, withCapacity_of_fits hroom.written hfits, withReg_of_written hin,
      if_pos h, raiseError_eq]

end Errors

/-- Settles O24, by the effect of each token and framing field. -/
theorem tokenErrors : Obligations.TokenErrors := by
  refine ⟨fun i s hi hr hroom h => exec_raises_of_short hi hr hroom h, fun s w hw => ⟨fun i k hk hs hp => ?_,
    fun i k hk hs hp => ?_, fun on l hs hp => ?_, fun m hs hp hwr hm => ?_, fun k hs hp hk => ?_⟩⟩
  · obtain ⟨hf, hsize, -, -⟩ := runToken_spec hk
    have happly := exec_eq_apply hw hp (hs ▸ hf)
    refine ⟨fun hshort => Effect.raises ?_, fun hfit hpast => Effect.raises ?_⟩
    · rw [happly, tokenEffect_of_short (by omega)]
    · rw [happly, tokenEffect_of_fits (by omega), takenEffect_run hk, runEffect, if_pos (by simpa using hpast)]
  · obtain ⟨hf, hsize, -⟩ := deltaToken_spec hk
    have happly := exec_eq_apply (i := i) hw hp (by rw [hf, hs]; rfl)
    refine ⟨fun hshort => Effect.raises ?_, fun hfit hout => Effect.raises ?_, fun hfit h0 h255 hpast => Effect.raises ?_⟩
    · rw [happly, tokenEffect_of_short (by omega)]
    · rw [happly, tokenEffect_of_fits (by omega), takenEffect_delta hk, deltaEffect]
      exact congrArg (Effect.apply s) (if_pos hout)
    · rw [happly, tokenEffect_of_fits (by omega), takenEffect_delta hk, deltaEffect]
      refine congrArg (Effect.apply s) ((if_neg ?_).trans (if_pos hpast))
      show ¬((w.prev.toNat : Int) + k.delta < 0 ∨ (w.prev.toNat : Int) + k.delta > 255)
      omega
  · have happly := exec_eq_apply (i := .bplTok on l) hw hp (by rw [hs]; rfl)
    refine ⟨fun hshort => Effect.raises ?_, fun hfit hleft => Effect.raises ?_, fun hfit hplane hpast => Effect.raises ?_⟩
    · rw [happly, tokenEffect_of_short hshort]
    · rw [happly, tokenEffect_of_fits hfit, takenEffect_bplTok, planeEffect, if_pos hleft]
    · rw [happly, tokenEffect_of_fits hfit, takenEffect_bplTok, planeEffect, if_neg (by simpa using hplane), if_pos hpast]
  · refine Effect.raises ((execDifMagic_eq_apply hw hs hp m).trans ?_)
    rw [fieldEffect, if_pos hwr, if_pos (mt (diffMagic_eq_iff s m).mpr hm)]
  · refine Effect.raises ((execDifChecksum_eq_apply hw hs hp k).trans ?_)
    rw [fieldEffect, dsum_eq, if_pos hk]

end Sys2Proof.Machine

/-! A whole run of turns: every turn keeps the ranges of the working registers (R36, R37, R163) and brings the stream's end
nearer, so a decoding command ends, and its turns are the steps of the machine. -/

namespace Sys2Proof.Machine

section Hits

theorem addHits_zero (hits : List Nat) (p : Nat) : addHits hits p 0 = hits := by
  simp [addHits]

theorem addHits_cons_succ (x : Nat) (hits : List Nat) (p l : Nat) :
    addHits (x :: hits) (p + 1) l = x :: addHits hits p l := by
  simp [addHits, Nat.add_right_comm]

theorem addHits_cons_zero (x : Nat) (hits : List Nat) (l : Nat) :
    addHits (x :: hits) 0 (l + 1) = (x + 1) :: addHits hits 0 l := by
  simp [addHits]

/-- One more hit for the pixels of the run, and for no other (R163). -/
theorem getElem?_addHits (hits : List Nat) (p l q : Nat) :
    (addHits hits p l)[q]? = hits[q]?.map (· + if p ≤ q ∧ q < p + l then 1 else 0) := by
  induction hits generalizing p l q with
  | nil => simp [addHits]
  | cons x hits ih =>
    cases p with
    | succ p =>
      rw [addHits_cons_succ]
      cases q with
      | zero => simp
      | succ q => simp [ih, Nat.add_right_comm _ 1]
    | zero =>
      cases l with
      | zero => simp [addHits_zero]
      | succ l =>
        rw [addHits_cons_zero]
        cases q with
        | zero => simp
        | succ q => simp [ih]

@[simp] theorem length_addHits (hits : List Nat) (p l : Nat) : (addHits hits p l).length = hits.length := by
  simp only [addHits, List.length_append, List.length_take, List.length_map, List.length_drop]
  omega

theorem getElem_addHits {hits : List Nat} {p l q : Nat} (h : q < hits.length) :
    (addHits hits p l)[q]'(by simpa using h) = hits[q] + if p ≤ q ∧ q < p + l then 1 else 0 := by
  have := getElem?_addHits hits p l q
  rw [List.getElem?_eq_getElem (by simpa using h), List.getElem?_eq_getElem h] at this
  exact Option.some.inj this

end Hits

section Ranges

/-- The end of a plane moves `plane` and `pc` only (R163). -/
theorem settlePlane_eq (w : Work) :
    settlePlane w = w ∨
      (w.pixels = 0 ∧ settlePlane w = { w with plane := w.planes }) ∨
      (w.pixels ≠ 0 ∧ w.pixels ≤ w.pc ∧ settlePlane w = { w with plane := w.plane + 1, pc := 0 }) := by
  unfold settlePlane
  split
  · exact .inl rfl
  · split
    · exact .inr (.inl ⟨‹_›, rfl⟩)
    · exact .inr (.inr ⟨‹_›, by omega, rfl⟩)

@[simp] theorem settlePlane_stream (w : Work) : (settlePlane w).stream = w.stream := by
  obtain heq | ⟨-, heq⟩ | ⟨-, -, heq⟩ := settlePlane_eq w <;> rw [heq]

@[simp] theorem settlePlane_phase (w : Work) : (settlePlane w).phase = w.phase := by
  obtain heq | ⟨-, heq⟩ | ⟨-, -, heq⟩ := settlePlane_eq w <;> rw [heq]

@[simp] theorem settlePlane_pixels (w : Work) : (settlePlane w).pixels = w.pixels := by
  obtain heq | ⟨-, heq⟩ | ⟨-, -, heq⟩ := settlePlane_eq w <;> rw [heq]

@[simp] theorem settlePlane_ic (w : Work) : (settlePlane w).ic = w.ic := by
  obtain heq | ⟨-, heq⟩ | ⟨-, -, heq⟩ := settlePlane_eq w <;> rw [heq]

@[simp] theorem settlePlane_stop (w : Work) : (settlePlane w).stop = w.stop := by
  obtain heq | ⟨-, heq⟩ | ⟨-, -, heq⟩ := settlePlane_eq w <;> rw [heq]

/-- The ranges depend on the registers alone. -/
theorem Work.Inv.congr {s t : State} {w : Work} (h : Work.Inv s w) (hr : ∀ r : Reg, r.access ≠ .ro → t.reg r = s.reg r)
    (hw : t.written = s.written) : Work.Inv t w where
  inLen := (State.isWritten_congr hw _).trans h.inLen
  region := by rw [hr .inLen (by decide)]; exact h.region
  cursor := h.cursor
  token := h.token
  pixels := h.pixels
  outCap := (State.isWritten_congr hw _).trans h.outCap
  room := by rw [hr .outCap (by decide)]; exact h.room
  framing := h.framing
  magic := h.magic
  planes := h.planes
  hits := h.hits

theorem Work.Inv.settlePlane {s : State} {w : Work} (h : Work.Inv s w) (hp : w.plane < w.planes) :
    Work.Inv s (settlePlane w) := by
  obtain heq | ⟨h0, heq⟩ | ⟨h0, hle, heq⟩ := settlePlane_eq w
  · rwa [heq]
  · rw [heq]
    refine { h with planes := fun hb => ?_, hits := fun hb => ?_ }
    · obtain ⟨h1, h16, -⟩ := h.planes hb
      exact ⟨h1, h16, Nat.le_refl _⟩
    · obtain ⟨hlen, -⟩ := h.hits hb
      exact ⟨hlen, fun p hpl => absurd (hlen ▸ hpl) (by simp [h0])⟩
  · rw [heq]
    refine { h with pixels := Nat.zero_le _, planes := fun hb => ?_, hits := fun hb => ?_ }
    · obtain ⟨h1, h16, -⟩ := h.planes hb
      exact ⟨h1, h16, hp⟩
    · obtain ⟨hlen, hle'⟩ := h.hits hb
      refine ⟨hlen, fun p hpl => ?_⟩
      have hpl' : p < w.hits.length := hpl
      have := hle' p hpl'
      rw [if_pos (by omega)] at this
      simpa using this

/-- Every turn keeps the ranges. -/
theorem Turn.inv {s : State} {w w' : Work} {a : Nat} {bs : List Byte} (ht : Turn w a bs w') (h : Work.Inv s w) :
    Work.Inv s w' := by
  cases ht with
  | magic hs hp =>
    obtain ⟨hic, hstop⟩ := h.magic hp
    have htok : w.tok = 0 := by have := h.token; omega
    exact { h with
      cursor := hstop
      token := by simp [htok]
      framing := fun _ => hs
      magic := fun hp' => by cases hp'
      planes := fun hb => by cases hs.symm.trans hb
      hits := fun hb => by cases hs.symm.trans hb }
  | checksum hs hp =>
    exact { h with
      framing := fun hp' => absurd rfl hp'
      magic := fun hp' => by cases hp' }
  | run hs hp hn hic hpc hbs =>
    exact { h with
      cursor := hic
      token := Nat.le_add_right _ _
      pixels := hpc
      magic := fun hp' => by cases hp.symm.trans hp'
      planes := fun hb => absurd hb hs
      hits := fun hb => absurd hb hs }
  | @plane on l hs hp hic hplane hpc =>
    refine Work.Inv.settlePlane (w := { w with
      tok := w.ic, ic := w.ic + 1, pc := w.pc + l, hits := if on then addHits w.hits w.pc l else w.hits }) ?_ hplane
    obtain ⟨hlen, hle⟩ := h.hits hs
    refine { h with
      cursor := hic
      token := Nat.le_add_right _ _
      pixels := hpc
      magic := fun hp' => by cases hp.symm.trans hp'
      hits := fun _ => ⟨?_, fun p hpl => ?_⟩ }
    · cases on <;> simpa using hlen
    · have hpl' : p < w.hits.length := by cases on <;> simpa using hpl
      have hold := hle p hpl'
      have hnew : (if on then addHits w.hits w.pc l else w.hits)[p]'hpl ≤
          w.hits[p] + if w.pc ≤ p ∧ p < w.pc + l then 1 else 0 := by
        cases on
        · exact Nat.le_add_right _ _
        · exact (getElem_addHits hpl').le
      refine hnew.trans ?_
      show w.hits[p] + _ ≤ w.plane + if p < w.pc + l then 1 else 0
      split at hold <;> split <;> split <;> omega

/-- What a turn leaves: the stream, its token region and P. -/
theorem Turn.keeps {w w' : Work} {a : Nat} {bs : List Byte} (h : Turn w a bs w') :
    w'.stream = w.stream ∧ w'.stop = w.stop ∧ w'.pixels = w.pixels := by
  cases h <;> simp

/-- A turn leads away from the magic, and never back into the framing. -/
theorem Turn.phase {w w' : Work} {a : Nat} {bs : List Byte} (h : Turn w a bs w') :
    w'.phase ≠ .magic ∧ (w'.phase ≠ .tokens → w.phase ≠ .tokens) := by
  cases h <;> simp [*]

/-- A bound on the turns to come, the last among them. -/
def Work.turnsLeft (w : Work) : Nat :=
  match w.phase with
  | .magic => w.stop + 3
  | .checksum => w.stop - w.ic + 2
  | .tokens => w.stop - w.ic + 1

theorem Work.turnsLeft_pos (w : Work) : 0 < w.turnsLeft := by
  unfold Work.turnsLeft
  split <;> omega

@[simp] theorem turnsLeft_settlePlane (w : Work) : (settlePlane w).turnsLeft = w.turnsLeft := by
  simp only [Work.turnsLeft, settlePlane_phase, settlePlane_stop, settlePlane_ic]

theorem Turn.turnsLeft_lt {w w' : Work} {a : Nat} {bs : List Byte} (h : Turn w a bs w') : w'.turnsLeft < w.turnsLeft := by
  cases h with
  | magic hs hp => simp only [Work.turnsLeft, hp]; omega
  | checksum hs hp => simp only [Work.turnsLeft, hp]; omega
  | run hs hp hn hic => simp only [Work.turnsLeft, hp]; omega
  | plane hs hp hic =>
    rw [turnsLeft_settlePlane]
    simp only [Work.turnsLeft, hp]
    omega

end Ranges

section Runs

/-- How a decoding command ends: DONE with `size` bytes of output, or ERROR at an offset of at most `stop`. -/
def StreamEnd (size stop : Nat) (t : State) : Prop :=
  (∃ u, t = State.completed u size) ∨ ∃ u e off, t = State.errored u e off ∧ off ≤ stop

theorem StreamEnd.work {size stop : Nat} {t : State} (h : StreamEnd size stop t) : t.work = none := by
  obtain ⟨u, rfl⟩ | ⟨u, e, off, rfl, -⟩ := h <;> rfl

/-- An effect, and where the command goes on `n` more turns. -/
def Effect.thenTurns (n : Nat) (s : State) : Effect → Out
  | .put a bs w => runStream n { s.putOut a bs with work := some w }
  | e => e.apply s

theorem runStream_eq_thenTurns {s : State} {w : Work} (hw : s.work = some w) (hf : w.phase ≠ .tokens → w.stream = .dif)
    (n : Nat) : runStream (n + 1) s = (turnEffect s w).thenTurns n s := by
  rw [runStream_succ hw, sequence_eq_apply hw hf]
  cases turnEffect s w with
  | fault f => rfl
  | raise e off => exact runStream_of_idle rfl n
  | finish bs oc => exact runStream_of_idle rfl n
  | put a bs w' => rfl

/-- With a turn for each that is left, a decoding command ends, or faults at the magic on an unwritten DIFF_MAGIC. -/
theorem runStream_ends {n : Nat} {s : State} {w : Work} (hw : s.work = some w) (hi : Work.Inv s w) (hn : w.turnsLeft ≤ n) :
    (w.phase = .magic ∧ s.isWritten .diffMagic = false ∧ runStream n s = .fault (.unwrittenRegister .diffMagic)) ∨
      ∃ t, runStream n s = .next t ∧ StreamEnd (w.stream.pixelBytes * w.pixels) w.stop t := by
  induction n generalizing s w with
  | zero => exact absurd hn (Nat.not_le.mpr w.turnsLeft_pos)
  | succ n ih =>
    have hturn := isTurn_turnEffect (s := s) hi.cursor hi.framing
    rw [runStream_eq_thenTurns hw hi.framing]
    generalize turnEffect s w = e at hturn ⊢
    cases hturn with
    | fault hp h => exact .inl ⟨hp, h, rfl⟩
    | raise hoff => exact .inr ⟨_, rfl, .inr ⟨s, _, _, rfl, hoff⟩⟩
    | pixels hs hpc => exact .inr ⟨_, rfl, .inl ⟨_, rfl⟩⟩
    | planes hs =>
      refine .inr ⟨_, rfl, .inl ⟨s.putOut 0 (w.hits.map (reconBpl w.planes)), ?_⟩⟩
      simp [hs, Stream.pixelBytes]
    | @put a bs w' ht =>
      obtain ⟨hstream, hstop, hpixels⟩ := ht.keeps
      have hinv : Work.Inv { s.putOut a bs with work := some w' } w' := (ht.inv hi).congr (fun _ _ => rfl) rfl
      have hend := ih (s := { s.putOut a bs with work := some w' }) rfl hinv (by have := ht.turnsLeft_lt; omega)
      rw [hstream, hstop, hpixels] at hend
      obtain ⟨hp, -⟩ | hend := hend
      · exact absurd hp ht.phase.1
      · exact .inr hend

theorem run_succ {M : Host.Core} {s u : M.State} (h : M.step s = .next u) (k : Nat) : M.run (k + 1) s = M.run k u := by
  rw [Host.Core.run, h]

/-- Turns of the sequencer are steps of the machine. -/
theorem run_of_runStream {n : Nat} {s t : State} (h : runStream n s = .next t) :
    ∃ k, k ≤ n ∧ core.run k s = .next t := by
  induction n generalizing s with
  | zero => exact ⟨0, Nat.le_refl 0, h⟩
  | succ n ih =>
    cases hw : s.work with
    | none =>
      rw [runStream_of_idle hw] at h
      exact ⟨0, Nat.zero_le _, h⟩
    | some w =>
      rw [runStream_succ hw] at h
      cases hseq : sequence execToken s w with
      | fault f => rw [hseq] at h; cases h
      | refused r => rw [hseq] at h; cases h
      | next u =>
        rw [hseq] at h
        obtain ⟨k, hk, hrun⟩ := ih h
        have hstep : core.step s = .next u := (step_of_work hw).trans ((sequence_exec s w).trans hseq)
        exact ⟨k + 1, Nat.succ_le_succ hk, (run_succ hstep k).trans hrun⟩

end Runs

section Opening

theorem withPixels_eq_pixelCount {s : State} (hw : s.isWritten .width = true) (hh : s.isWritten .height = true)
    (k : Nat → Out) : withPixels s k = k (pixelCount s) :=
  withPixels_of_written hw hh k

/-- The working registers a decoding command begins with (R36). -/
def openWork (st : Stream) (ph : Phase) (p stop planes : Nat) : Work :=
  { stream := st, phase := ph, ic := 0, tok := 0, pc := 0, pixels := p, stop := stop, prev := 0#8
    planes := planes, plane := 0, hits := List.replicate (if st = .bpl then p else 0) 0 }

theorem moves_openStream (s : State) (st : Stream) (ph : Phase) (p stop planes : Nat) :
    Moves s (openStream s st ph p stop planes) := (Moves.refl s).openStream st ph p stop planes

/-- The ranges hold when a command begins to scan its stream. -/
theorem openWork_inv {s : State} {st : Stream} {ph : Phase} {p stop planes : Nat} (hin : s.isWritten .inLen = true)
    (hstop : stop ≤ (s.reg .inLen).toNat) (hroom : HasRoom s (st.pixelBytes * p))
    (hf : ph ≠ .tokens → st = .dif) (hm : ph = .magic → 1 ≤ stop)
    (hplanes : st = .bpl → 1 ≤ planes ∧ planes ≤ Config.maxAa) : Work.Inv s (openWork st ph p stop planes) where
  inLen := hin
  region := hstop
  cursor := Nat.zero_le _
  token := Nat.le_refl _
  pixels := Nat.zero_le _
  outCap := hroom.written
  room := hroom.fits
  framing := hf
  magic hp := ⟨rfl, hm hp⟩
  planes hb := ⟨(hplanes hb).1, (hplanes hb).2, Nat.zero_le _⟩
  hits hb := by
    have hb' : st = .bpl := hb
    simp [openWork, hb']

/-- A decoding command that has passed its checks: the stream it begins to scan, the size of its output, and the ranges of
its working registers. -/
structure Opened (s u : State) (w : Work) (size : Nat) : Prop where
  work : u.work = some w
  moves : Moves s u
  inv : Work.Inv s w
  turns : w.turnsLeft ≤ turnsFor (s.reg .inLen).toNat
  size : w.stream.pixelBytes * w.pixels = size
  /-- The checksum of a diff-chunk stream lies within IN. -/
  framed : w.phase ≠ .tokens → w.stop < (s.reg .inLen).toNat

theorem Opened.inv_opened {s u : State} {w : Work} {size : Nat} (h : Opened s u w size) : Work.Inv u w :=
  h.inv.congr (fun _ hr => h.moves.reg hr) h.moves.written

theorem opened_tokens {s : State} {st : Stream} {p stop : Nat} (hst : st ≠ .bpl) (hin : s.isWritten .inLen = true)
    (hstop : stop ≤ (s.reg .inLen).toNat) (hroom : HasRoom s (st.pixelBytes * p)) :
    Opened s (openStream s st .tokens p stop 0) (openWork st .tokens p stop 0) (st.pixelBytes * p) where
  work := rfl
  moves := moves_openStream _ _ _ _ _ _
  inv := openWork_inv hin hstop hroom (fun h => absurd rfl h) (fun h => by cases h) (fun h => absurd h hst)
  turns := by simp only [Work.turnsLeft, openWork, turnsFor]; omega
  size := rfl
  framed h := absurd rfl h

theorem opened_dif {s : State} {p : Nat} (hin : s.isWritten .inLen = true) (h2 : 2 ≤ (s.reg .inLen).toNat)
    (hroom : HasRoom s p) :
    Opened s (openStream s .dif .magic p ((s.reg .inLen).toNat - 1) 0)
      (openWork .dif .magic p ((s.reg .inLen).toNat - 1) 0) p where
  work := rfl
  moves := moves_openStream _ _ _ _ _ _
  inv := openWork_inv hin (Nat.sub_le _ _) (by simpa [Stream.pixelBytes] using hroom) (fun _ => rfl) (fun _ => by omega)
    (fun h => by cases h)
  turns := by simp only [Work.turnsLeft, openWork, turnsFor]; omega
  size := Nat.one_mul p
  framed _ := by simp only [openWork]; omega

theorem opened_bpl {s : State} {p planes : Nat} (hin : s.isWritten .inLen = true) (hroom : HasRoom s p)
    (hplanes : 1 ≤ planes ∧ planes ≤ Config.maxAa) :
    Opened s (openBpl s p (s.reg .inLen).toNat planes)
      (settlePlane (openWork .bpl .tokens p (s.reg .inLen).toNat planes)) p where
  work := rfl
  moves := openBpl_moves (.refl s) _ _ _
  inv := Work.Inv.settlePlane (openWork_inv hin (Nat.le_refl _) (by simpa [Stream.pixelBytes] using hroom)
    (fun h => absurd rfl h) (fun h => by cases h) (fun _ => hplanes)) hplanes.1
  turns := by rw [turnsLeft_settlePlane]; simp only [Work.turnsLeft, openWork, turnsFor]; omega
  size := by
    rw [settlePlane_stream, settlePlane_pixels]
    exact Nat.one_mul p
  framed h := by
    rw [settlePlane_phase] at h
    exact absurd rfl h

/-- A decoding command past its checks ends, or DIF.DEC faults on an unwritten DIFF_MAGIC. -/
theorem Opened.ends {s u : State} {w : Work} {size : Nat} (h : Opened s u w size) :
    (w.phase = .magic ∧ s.isWritten .diffMagic = false ∧
        runStream (turnsFor (s.reg .inLen).toNat) u = .fault (.unwrittenRegister .diffMagic)) ∨
      ∃ t, runStream (turnsFor (s.reg .inLen).toNat) u = .next t ∧ StreamEnd size (s.reg .inLen).toNat t := by
  obtain ⟨hp, hwr, hrun⟩ | ⟨t, hrun, hend⟩ := runStream_ends h.work h.inv_opened h.turns
  · exact .inl ⟨hp, (h.moves.isWritten _).symm.trans hwr, hrun⟩
  · refine .inr ⟨t, hrun, ?_⟩
    rw [h.size] at hend
    exact hend.imp_right fun ⟨v, e, off, ht, hoff⟩ => ⟨v, e, off, ht, hoff.trans h.inv.region⟩

end Opening

/-- A decoding command whose checks pass is the run of its stream's turns. -/
theorem exec_eq_runStream {i : Instr} {s u : State} (ho : openedStream s i = some u) (hlegal : LegalConfig s i)
    (hlong : LongEnough s i) (hready : Ready s [.inLen, .width, .height]) (haa : i = .bplDec → s.isWritten .aaN = true)
    (hroom : ∀ size, fixedSize s i = some size → HasRoom s size) :
    exec i s = runStream (turnsFor (s.reg .inLen).toNat) u ∧ ∃ w size, Opened s u w size := by
  simp only [Ready, List.forall_mem_cons] at hready
  obtain ⟨hin, hwidth, hheight, -⟩ := hready
  cases i <;> cases ho
  case r7xDec =>
    have hr := hroom _ rfl
    refine ⟨?_, _, _, opened_tokens (by decide) hin (Nat.le_refl _) (by simpa [Stream.pixelBytes] using hr)⟩
    show execR7xDec s = _
    rw [execR7xDec, withPixels_eq_pixelCount hwidth hheight, withCapacity_of_fits hr.written hr.fits, withReg_of_written hin]
  case bplDec =>
    have hr := hroom _ rfl
    obtain ⟨h1, h16⟩ : 1 ≤ (s.reg .aaN).toNat ∧ (s.reg .aaN).toNat ≤ 16 := hlegal
    refine ⟨?_, _, _, opened_bpl hin hr ⟨h1, h16⟩⟩
    show execBplDec s = _
    rw [execBplDec, withLevel, withReg_of_written (haa rfl), if_neg (by simp only [Config.maxAa]; omega),
      withPixels_eq_pixelCount hwidth hheight, withCapacity_of_fits hr.written hr.fits, withReg_of_written hin]
  case difDec =>
    have hr := hroom _ rfl
    have h2 : 2 ≤ (s.reg .inLen).toNat := hlong
    refine ⟨?_, _, _, opened_dif hin h2 hr⟩
    show execDifDec s = _
    rw [execDifDec, withPixels_eq_pixelCount hwidth hheight, withCapacity_of_fits hr.written hr.fits, withReg_of_written hin,
      if_neg (by omega)]
  case nibDec =>
    have hr := hroom _ rfl
    have h2 : 2 ≤ (s.reg .inLen).toNat := hlong
    refine ⟨?_, _, _, opened_tokens (by decide) hin (Nat.sub_le _ _) (by simpa [Stream.pixelBytes] using hr)⟩
    show execNibDec s = _
    rw [execNibDec, withPixels_eq_pixelCount hwidth hheight, withCapacity_of_fits hr.written hr.fits, withReg_of_written hin,
      if_neg (by omega)]
  case rgbDec =>
    have hr := hroom _ rfl
    refine ⟨?_, _, _, opened_tokens (by decide) hin (Nat.le_refl _) hr⟩
    show execRgbDec s = _
    rw [execRgbDec, withPixels_eq_pixelCount hwidth hheight, withCapacity_of_fits hr.written hr.fits, withReg_of_written hin]

/-- Settles O11: the command is the run of its stream's turns, each turn is a step, and the turns that are allowed suffice. -/
theorem atomicCommandIsItsSteps : Obligations.AtomicCommandIsItsSteps := by
  intro i s u t ho hlegal hlong hready haa hroom hexec
  obtain ⟨hrun, w, size, hopened⟩ := exec_eq_runStream ho hlegal hlong hready haa hroom
  rw [hrun] at hexec
  obtain ⟨k, hk, hsteps⟩ := run_of_runStream hexec
  refine ⟨k, hk, hsteps, ?_⟩
  obtain ⟨-, -, hfault⟩ | ⟨v, hnext, hend⟩ := hopened.ends
  · rw [hfault] at hexec
    cases hexec
  · rw [hnext] at hexec
    cases hexec
    exact hend.work

end Sys2Proof.Machine

/-! The signature (48_signature.md R370 to R372): the lengths of AES blocks and digests, and the bytes that the registers hold
as the bytes that are signed, the key and the IV. -/

namespace Sys2Proof.Machine

section Lengths

@[simp] theorem length_leBytes (k v : Nat) : (leBytes k v).length = k := by simp [leBytes]

@[simp] theorem length_beBytes (k v : Nat) : (beBytes k v).length = k := by simp [beBytes]

@[simp] theorem length_xorBytes (xs ys : List Byte) : (xorBytes xs ys).length = min xs.length ys.length := by
  simp [xorBytes]

@[simp] theorem length_aesShiftRows (st : List Byte) : (aesShiftRows st).length = 16 := rfl

theorem length_aesMixColumns : ∀ st : List Byte, (aesMixColumns st).length = st.length / 4 * 4
  | a :: b :: c :: d :: rest => by
    simp only [aesMixColumns, aesMixColumn, List.length_append, length_aesMixColumns rest, List.length_cons, List.length_nil]
    omega
  | [] | [_] | [_, _] | [_, _, _] => by simp [aesMixColumns]

/-- With round keys of 16 bytes the rounds keep the block's 16 bytes. -/
theorem length_aesRounds : ∀ {ks : List (List Byte)} {st : List Byte}, st.length = 16 → (∀ k ∈ ks, k.length = 16) →
    (aesRounds ks st).length = 16
  | [], _, hst, _ => hst
  | [k], st, hst, hks => by simp [aesRounds, hks k (by simp)]
  | k :: k' :: ks, st, hst, hks => by
    obtain ⟨hk, hks⟩ := List.forall_mem_cons.mp hks
    have hst' : (xorBytes (aesMixColumns (aesShiftRows (st.map aesSub))) k).length = 16 := by
      simp [length_aesMixColumns, hk]
    show (aesRounds (k' :: ks) _).length = 16
    exact length_aesRounds hst' hks

theorem length_of_mem_aesKeyWords : ∀ {key : List Byte} {w : List Byte}, w ∈ aesKeyWords key → w.length = 4
  | a :: b :: c :: d :: rest, w, h => by
    rcases List.mem_cons.mp h with rfl | h
    · rfl
    · exact length_of_mem_aesKeyWords h
  | [], _, h | [_], _, h | [_, _], _, h | [_, _, _], _, h => by simp [aesKeyWords] at h

theorem length_aesKeyWords : ∀ key : List Byte, (aesKeyWords key).length = key.length / 4
  | a :: b :: c :: d :: rest => by
    simp only [aesKeyWords, List.length_cons, length_aesKeyWords rest]
    omega
  | [] | [_] | [_, _] | [_, _, _] => by simp [aesKeyWords]

theorem length_getD {ws : List (List Byte)} {n j : Nat} (hws : ∀ w ∈ ws, w.length = n) (hj : j < ws.length) :
    (ws.getD j []).length = n := by
  rw [List.getD_eq_getElem _ _ hj]
  exact hws _ (List.getElem_mem hj)

theorem length_aesNextKeyWord {nk i : Nat} {rcon : Byte} {ws : List (List Byte)} (h0 : 0 < nk) (hlen : nk ≤ ws.length)
    (hws : ∀ w ∈ ws, w.length = 4) : (aesNextKeyWord nk i rcon ws).length = 4 := by
  have hprev : (ws.getD 0 []).length = 4 := length_getD hws (by omega)
  have hbase : (ws.getD (nk - 1) []).length = 4 := length_getD hws (by omega)
  unfold aesNextKeyWord
  dsimp only
  split
  · simp only [length_xorBytes, List.length_map, List.length_append, List.length_drop, List.length_take, hprev, hbase]
    rfl
  · split
    · simp only [length_xorBytes, List.length_map, hprev, hbase]
      rfl
    · simp only [length_xorBytes, hprev, hbase]
      rfl

/-- The key schedule consists of words of four bytes. -/
theorem length_of_mem_aesExpand {nk n i : Nat} {rcon : Byte} {ws : List (List Byte)} (h0 : 0 < nk) (hlen : nk ≤ ws.length)
    (hws : ∀ w ∈ ws, w.length = 4) : ∀ w ∈ aesExpand nk n i rcon ws, w.length = 4 := by
  induction n generalizing i rcon ws with
  | zero => exact hws
  | succ n ih =>
    exact ih (by simp only [List.length_cons]; omega)
      (List.forall_mem_cons.mpr ⟨length_aesNextKeyWord h0 hlen hws, hws⟩)

theorem length_of_mem_aesRoundKeys : ∀ {ws : List (List Byte)}, (∀ w ∈ ws, w.length = 4) →
    ∀ k ∈ aesRoundKeys ws, k.length = 16
  | a :: b :: c :: d :: rest, hws, k, hk => by
    simp only [List.forall_mem_cons] at hws
    obtain ⟨ha, hb, hc, hd, hrest⟩ := hws
    rcases List.mem_cons.mp hk with rfl | hk
    · simp [ha, hb, hc, hd]
    · exact length_of_mem_aesRoundKeys hrest k hk
  | [], _, _, h | [_], _, _, h | [_, _], _, _, h | [_, _, _], _, _, h => by simp [aesRoundKeys] at h

/-- A block stays one of 16 bytes, under any key of at least one word. -/
theorem length_aesEnc {key block : List Byte} (hkey : 4 ≤ key.length) (hblock : block.length = 16) :
    (aesEnc key block).length = 16 := by
  have hkeys : ∀ k ∈ aesRoundKeys (aesExpand (key.length / 4) (4 * (key.length / 4 + 7) - key.length / 4) (key.length / 4)
      0x01#8 (aesKeyWords key).reverse).reverse, k.length = 16 := by
    refine length_of_mem_aesRoundKeys fun w hw => ?_
    refine length_of_mem_aesExpand (by omega) ?_ (fun v hv => ?_) w (List.mem_reverse.mp hw)
    · rw [List.length_reverse, length_aesKeyWords]
    · exact length_of_mem_aesKeyWords (List.mem_reverse.mp hv)
  unfold aesEnc
  dsimp only
  split
  · exact hblock
  · rename_i k ks heq
    rw [heq, List.forall_mem_cons] at hkeys
    exact length_aesRounds (by simp [hblock, hkeys.1]) hkeys.2

@[simp] theorem length_sha1Of (m : List Byte) : (sha1Of m).length = 20 := by simp [sha1Of, shaDigest]

@[simp] theorem length_sha256Of (m : List Byte) : (sha256Of m).length = 32 := by simp [sha256Of, shaDigest]

/-- A signature is two blocks. -/
theorem length_signatureOf (m : List Byte) {key iv : List Byte} (hkey : 4 ≤ key.length) (hiv : iv.length = 16) :
    (signatureOf aesEnc m key iv).length = 32 := by
  have h0 : (aesEnc key (xorBytes ((sha256Of m).take 16) iv)).length = 16 := length_aesEnc hkey (by simp [hiv])
  have h1 := length_aesEnc (block := xorBytes ((sha256Of m).drop 16) (aesEnc key (xorBytes ((sha256Of m).take 16) iv))) hkey
    (by simp [h0])
  simp only [signatureOf, cbcEncrypt, List.length_append, h0, h1]

end Lengths

section Registers

@[simp] theorem registerBytes_nil : registerBytes [] = [] := rfl

@[simp] theorem registerBytes_cons (w : Word) (ws : List Word) :
    registerBytes (w :: ws) = leBytes 4 w.toNat ++ registerBytes ws := by
  simp [registerBytes]

theorem length_registerBytes (ws : List Word) : (registerBytes ws).length = 4 * ws.length := by
  induction ws with
  | nil => rfl
  | cons w ws ih => rw [registerBytes_cons, List.length_append, ih, length_leBytes, List.length_cons]; omega

/-- The bytes of a word, least significant first (R11). -/
theorem leBytes_four (w : Word) :
    leBytes 4 w.toNat =
      [(w >>> 0).setWidth 8, (w >>> 8).setWidth 8, (w >>> 16).setWidth 8, (w >>> 24).setWidth 8] := by
  simp only [leBytes, List.range_succ, List.range_zero, List.nil_append, List.cons_append, List.map_cons, List.map_nil]
  simp [BitVec.toNat_eq]

/-- Two words in consecutive registers are a little-endian number of 64 bits (R33). -/
theorem leBytes_eight (lo hi : Word) :
    leBytes 8 (2 ^ 32 * hi.toNat + lo.toNat) = leBytes 4 lo.toNat ++ leBytes 4 hi.toNat := by
  have hlo := lo.isLt
  simp only [leBytes, List.range_succ, List.range_zero, List.nil_append, List.cons_append, List.map_cons, List.map_nil,
    Nat.shiftRight_eq_div_pow, List.cons.injEq, and_true]
  refine ⟨?_, ?_, ?_, ?_, ?_, ?_, ?_, ?_⟩ <;>
    (refine BitVec.eq_of_toNat_eq ?_; simp only [BitVec.toNat_ofNat]; omega)

theorem legalFieldBytes_iff (w : Word) : legalFieldBytes w = true ↔ w = 4#32 ∨ w = 8#32 := by
  simp [legalFieldBytes]

theorem legalKeyLength_iff (w : Word) : legalKeyLength w = true ↔ w = 16#32 ∨ w = 24#32 ∨ w = 32#32 := by
  simp [legalKeyLength, or_assoc]

/-- The registers of the signed field, by the value of SIG_FIELD_BYTES (R370). -/
theorem fieldRegs_toNat (w : Word) : fieldRegs w.toNat = [.sigvalLo] ++ if w = 8#32 then [.sigvalHi] else [] := by
  have : w.toNat = 8 ↔ w = 8#32 := ⟨fun h => BitVec.eq_of_toNat_eq h, fun h => by rw [h]; rfl⟩
  simp only [fieldRegs, this]
  split <;> rfl

/-- The registers of a key of legal length: those with a byte below AES_KLEN (R371). -/
theorem keyRegs_of_legal {w : Word} (h : legalKeyLength w = true) :
    keyRegs w.toNat = ((List.finRange 8).filter fun k => decide (4 * k.val < w.toNat)).map Reg.aesKey := by
  rcases (legalKeyLength_iff w).mp h with rfl | rfl | rfl <;> decide

theorem ivRegs_eq : ivRegs = [.aesIv 0, .aesIv 1, .aesIv 2, .aesIv 3] := by decide

theorem length_keyRegs_of_legal {w : Word} (h : legalKeyLength w = true) : 4 ≤ (keyRegs w.toNat).length := by
  rcases (legalKeyLength_iff w).mp h with rfl | rfl | rfl <;> decide

theorem signedBytes_eq {s : State} (h : legalFieldBytes (s.reg .sigFieldBytes) = true) :
    registerBytes ((fieldRegs (s.reg .sigFieldBytes).toNat).map s.reg) = signedBytes s := by
  rw [signedBytes, leBytes_eight]
  rcases (legalFieldBytes_iff _).mp h with h | h <;> rw [h]
  · simp [fieldRegs]
  · simp [fieldRegs, List.take_of_length_le]

theorem keyBytes_eq {s : State} (h : legalKeyLength (s.reg .aesKlen) = true) :
    registerBytes ((keyRegs (s.reg .aesKlen).toNat).map s.reg) = keyBytes s := by
  unfold keyBytes
  rcases (legalKeyLength_iff _).mp h with h | h | h <;> rw [h]
  · simp [keyRegs, List.finRange, leBytes_four, List.range_succ, -Fin.ofNat_eq_cast]
  · simp [keyRegs, List.finRange, leBytes_four, List.range_succ, -Fin.ofNat_eq_cast]
  · simp [keyRegs, List.finRange, leBytes_four, List.range_succ, -Fin.ofNat_eq_cast]

theorem ivBytes_eq (s : State) : registerBytes (ivRegs.map s.reg) = ivBytes s := by
  simp [ivRegs_eq, ivBytes, leBytes_four, List.range_succ, -Fin.ofNat_eq_cast]

/-- The signature the registers give is that of R371. -/
theorem signatureOf_registers {s : State} (hw : legalFieldBytes (s.reg .sigFieldBytes) = true)
    (hkl : legalKeyLength (s.reg .aesKlen) = true) :
    signatureOf aesEnc (registerBytes ((fieldRegs (s.reg .sigFieldBytes).toNat).map s.reg))
      (registerBytes ((keyRegs (s.reg .aesKlen).toNat).map s.reg)) (registerBytes (ivRegs.map s.reg)) = signature s := by
  rw [signedBytes_eq hw, keyBytes_eq hkl, ivBytes_eq]
  rfl

theorem length_signature {s : State} (hw : legalFieldBytes (s.reg .sigFieldBytes) = true)
    (hkl : legalKeyLength (s.reg .aesKlen) = true) : (signature s).length = 32 := by
  rw [← signatureOf_registers hw hkl]
  refine length_signatureOf _ ?_ ?_
  · rw [length_registerBytes, List.length_map]
    have := length_keyRegs_of_legal hkl
    omega
  · rw [length_registerBytes, List.length_map]
    rfl

end Registers

/-- Settles O57. -/
theorem sigGenCompletes : Obligations.SigGenCompletes := by
  rintro s ⟨hw, hkl⟩ hready hroom
  rw [← legalFieldBytes_iff] at hw
  rw [← legalKeyLength_iff] at hkl
  have hlen := length_signature hw hkl
  have hcompletes := completes_putOut (s := s) (out := signature s) (by rwa [hlen])
  rw [hlen] at hcompletes
  refine ⟨hlen, _, ?_, hcompletes⟩
  have hmaterial : ∀ r ∈ fieldRegs (s.reg .sigFieldBytes).toNat ++ keyRegs (s.reg .aesKlen).toNat ++ ivRegs,
      s.isWritten r = true := by
    intro r hr
    rw [fieldRegs_toNat, keyRegs_of_legal hkl, ivRegs_eq] at hr
    refine hready r ?_
    simp only [commandReads, commandReads.signatureReads, List.mem_cons, List.mem_append] at hr ⊢
    tauto
  show execSigGen s = _
  rw [execSigGen, withSignatureConfig, withReg_of_written (hready _ (by simp [commandReads, commandReads.signatureReads])),
    withReg_of_written (hready _ (by simp [commandReads, commandReads.signatureReads])), if_pos (by simp [hw, hkl]),
    withCapacity_of_fits hroom.written hroom.fits, withSignature_next_iff.mpr ⟨hmaterial, ?_⟩]
  rw [signatureOf_registers hw hkl, finishWith_eq]

end Sys2Proof.Machine

/-! How commands end, and where they fault (R35, R392, R393, R396, R401): a command reads its registers line after line, faults
at the first line with one that is not written, and past the last line it ends DONE or ERROR. -/

namespace Sys2Proof.Machine

section Reading

/-- A command that reads these groups of registers in order: it faults in the first group that holds an unwritten one, and
where all are written it ends as `E` says. -/
def ReadsThen (s : State) (E : Out → Prop) (o : Out) : List (List Reg) → Prop
  | [] => E o
  | g :: gs =>
    (∃ r ∈ g, s.isWritten r = false ∧ o = .fault (.unwrittenRegister r)) ∨ (Ready s g ∧ ReadsThen s E o gs)

variable {s : State} {E : Out → Prop}

theorem ReadsThen.mono {E' : Out → Prop} {o : Out} {gs : List (List Reg)} (hE : E o → E' o) (h : ReadsThen s E o gs) :
    ReadsThen s E' o gs := by
  induction gs with
  | nil => exact hE h
  | cons g gs ih => exact h.imp_right fun ⟨hg, hgs⟩ => ⟨hg, ih hgs⟩

theorem ReadsThen.fault_or_end {o : Out} {gs : List (List Reg)} (h : ReadsThen s E o gs) :
    (∃ g ∈ gs, ∃ r ∈ g, s.isWritten r = false ∧ o = .fault (.unwrittenRegister r)) ∨ E o := by
  induction gs with
  | nil => exact .inr h
  | cons g gs ih =>
    obtain h | ⟨-, h⟩ := h
    · exact .inl ⟨g, by simp, h⟩
    · exact (ih h).imp_left fun ⟨g', hg', h'⟩ => ⟨g', by simp [hg'], h'⟩

theorem not_ready_of_unwritten {g : List Reg} {r : Reg} (hr : r ∈ g) (h : s.isWritten r = false) : ¬Ready s g :=
  fun hg => by simp [hg r hr] at h

theorem ReadsThen.end_of_ready {o : Out} {gs : List (List Reg)} (h : ReadsThen s E o gs) (hgs : ∀ g ∈ gs, Ready s g) :
    E o := by
  obtain ⟨g, hg, r, hr, hw, -⟩ | h := h.fault_or_end
  · exact absurd (hgs g hg) (not_ready_of_unwritten hr hw)
  · exact h

/-- The fault is at the first group that is not ready (R401). -/
theorem ReadsThen.fault_at {o : Out} {before after : List (List Reg)} {g : List Reg}
    (h : ReadsThen s E o (before ++ g :: after)) (hb : ∀ g' ∈ before, Ready s g') (hg : ¬Ready s g) :
    ∃ r ∈ g, s.isWritten r = false ∧ o = .fault (.unwrittenRegister r) := by
  induction before with
  | nil => exact h.resolve_right fun h' => hg h'.1
  | cons b bs ih =>
    obtain ⟨r, hr, hw, -⟩ | ⟨-, h⟩ := h
    · exact absurd (hb b (by simp)) (not_ready_of_unwritten hr hw)
    · exact ih h fun g' hg' => hb g' (by simp [hg'])

/-- A read within a line. -/
theorem readsThen_withReg {r : Reg} {k : Word → Out} {g : List Reg} {gs : List (List Reg)}
    (h : s.isWritten r = true → ReadsThen s E (k (s.reg r)) (g :: gs)) :
    ReadsThen s E (withReg s r k) ((r :: g) :: gs) := by
  cases hw : s.isWritten r with
  | false => exact .inl ⟨r, by simp, hw, withReg_of_unwritten hw k⟩
  | true =>
    rw [withReg_of_written hw]
    obtain ⟨q, hq, h'⟩ | ⟨hg, h'⟩ := h hw
    · exact .inl ⟨q, by simp [hq], h'⟩
    · exact .inr ⟨List.forall_mem_cons.mpr ⟨hw, hg⟩, h'⟩

theorem readsThen_nil_cons {o : Out} {gs : List (List Reg)} (h : ReadsThen s E o gs) : ReadsThen s E o ([] :: gs) :=
  .inr ⟨by simp [Ready], h⟩

/-- A read that ends its line. -/
theorem readsThen_withReg_last {r : Reg} {k : Word → Out} {gs : List (List Reg)}
    (h : s.isWritten r = true → ReadsThen s E (k (s.reg r)) gs) : ReadsThen s E (withReg s r k) ([r] :: gs) :=
  readsThen_withReg fun hw => readsThen_nil_cons (h hw)

theorem readsThen_withRegs {rs g : List Reg} {k : List Word → Out} {gs : List (List Reg)}
    (h : ReadsThen s E (k (rs.map s.reg)) (g :: gs)) : ReadsThen s E (withRegs s rs k) ((rs ++ g) :: gs) := by
  induction rs generalizing k with
  | nil => exact h
  | cons r rs ih => exact readsThen_withReg fun _ => ih h

theorem readsThen_withRegs_last {rs : List Reg} {k : List Word → Out} {gs : List (List Reg)}
    (h : ReadsThen s E (k (rs.map s.reg)) gs) : ReadsThen s E (withRegs s rs k) (rs :: gs) := by
  have := readsThen_withRegs (g := []) (readsThen_nil_cons h)
  rwa [List.append_nil] at this

theorem readsThen_withPixels {k : Nat → Out} {gs : List (List Reg)} (h : ReadsThen s E (k (pixelCount s)) gs) :
    ReadsThen s E (withPixels s k) ([.width, .height] :: gs) :=
  readsThen_withReg fun _ => readsThen_withReg_last fun _ => h

theorem readsThen_withCapacity {size : Nat} {k : Unit → Out} {rest : List (List Reg)}
    (herr : E (.next (s.errored .bufferOverrun 0))) (h : HasRoom s size → ReadsThen s E (k ()) rest) :
    ReadsThen s E (withCapacity s size k) (readGroups.capacity s size rest) := by
  refine readsThen_withReg_last fun hw => ?_
  by_cases hfit : size ≤ (s.reg .outCap).toNat
  · rw [if_neg (by omega), if_pos hfit]
    exact h ⟨hw, hfit⟩
  · rw [if_pos (by omega), if_neg hfit]
    exact herr

theorem readsThen_withLevel {k : Nat → Out} {rest : List (List Reg)} (herr : E (.next (s.errored .unsupportedVariant 0)))
    (h : 1 ≤ (s.reg .aaN).toNat ∧ (s.reg .aaN).toNat ≤ Config.maxAa → ReadsThen s E (k (s.reg .aaN).toNat) rest) :
    ReadsThen s E (withLevel s k) (readGroups.level s rest) := by
  refine readsThen_withReg_last fun _ => ?_
  by_cases hlegal : 1 ≤ (s.reg .aaN).toNat ∧ (s.reg .aaN).toNat ≤ 16
  · rw [if_neg (by simp only [Config.maxAa]; omega), if_pos hlegal]
    exact h hlegal
  · rw [if_pos (by simp only [Config.maxAa]; omega), if_neg hlegal]
    exact herr

theorem readsThen_withBitmap {per : Nat} {k : List Byte → Out} {rest : List (List Reg)}
    (herr : E (.next (s.errored .corruptedStream 0)))
    (h : ∀ bmp : List Byte, bmp.length = (s.reg .inLen).toNat → bmp.length = per * pixelCount s → ReadsThen s E (k bmp) rest) :
    ReadsThen s E (withBitmap s per k) (readGroups.encoder s per rest) := by
  refine readsThen_withPixels (readsThen_withReg_last fun _ => ?_)
  by_cases hlen : (s.reg .inLen).toNat = per * pixelCount s
  · rw [if_neg (by simpa using hlen), if_pos hlen]
    exact h _ (s.length_inRange _ _) ((s.length_inRange _ _).trans hlen)
  · rw [if_pos hlen, if_neg hlen]
    exact herr

theorem legalConfig_iff (w kl : Word) :
    (legalFieldBytes w && legalKeyLength kl) = true ↔ w ∈ [4#32, 8#32] ∧ kl ∈ [16#32, 24#32, 32#32] := by
  simp [legalFieldBytes_iff, legalKeyLength_iff]

theorem readsThen_withSignatureConfig {k : Nat → Nat → Out} {rest : List (List Reg)}
    (herr : E (.next (s.errored .unsupportedVariant 0)))
    (h : legalFieldBytes (s.reg .sigFieldBytes) = true → legalKeyLength (s.reg .aesKlen) = true →
      ReadsThen s E (k (s.reg .sigFieldBytes).toNat (s.reg .aesKlen).toNat) rest) :
    ReadsThen s E (withSignatureConfig s k) (readGroups.signing s rest) := by
  refine readsThen_withReg fun _ => readsThen_withReg_last fun _ => ?_
  by_cases hlegal : (legalFieldBytes (s.reg .sigFieldBytes) && legalKeyLength (s.reg .aesKlen)) = true
  · rw [if_pos hlegal, if_pos ((legalConfig_iff _ _).mp hlegal)]
    rw [Bool.and_eq_true] at hlegal
    exact h hlegal.1 hlegal.2
  · rw [if_neg hlegal, if_neg (mt (legalConfig_iff _ _).mpr hlegal)]
    exact herr

theorem readsThen_withSignature {k : List Byte → Out} (hw : legalFieldBytes (s.reg .sigFieldBytes) = true)
    (hkl : legalKeyLength (s.reg .aesKlen) = true) (h : E (k (signature s))) :
    ReadsThen s E (withSignature s (s.reg .sigFieldBytes).toNat (s.reg .aesKlen).toNat k) (readGroups.material s) := by
  unfold readGroups.material
  rw [← fieldRegs_toNat, ← keyRegs_of_legal hkl, ← ivRegs_eq]
  refine readsThen_withRegs_last (readsThen_withRegs (readsThen_withRegs_last ?_))
  rw [signatureOf_registers hw hkl]
  exact h

/-- Emission reads OUT_CAP where there is something to emit (R64). -/
theorem readsThen_emitAll {ps : List Piece} {k : State → Out}
    (herr : ∀ p ∈ ps, E (.next (s.errored .bufferOverrun p.errOff)))
    (h : ∀ u, (pieceBytes ps).length ≤ (s.reg .outCap).toNat → E (k u)) :
    ReadsThen s E (emitAll s ps k) (if ps = [] then [] else [[.outCap]]) := by
  cases ps with
  | nil => exact h s (by simp)
  | cons p ps =>
    rw [if_neg (by simp), emitAll]
    refine readsThen_withReg_last fun _ => ?_
    cases hover : firstOverrun (s.reg .outCap).toNat 0 (p :: ps) with
    | none =>
      have := (firstOverrun_none_iff (Nat.zero_le _)).mp hover
      exact h _ (by omega)
    | some off =>
      obtain ⟨before, q, after, heq, rfl, -, -⟩ := (firstOverrun_some_iff (Nat.zero_le _)).mp hover
      exact herr q (by simp [heq])

end Reading

section Ending

/-- The output sizes a command may end DONE with. -/
structure DoneSize (s : State) (i : Instr) (oc : Nat) : Prop where
  fixed : ∀ size, fixedSize s i = some size → oc = size
  room : .outCap ∈ commandReads s i → oc ≤ (s.reg .outCap).toNat
  noOutput : .outCap ∉ commandReads s i → oc = 0

/-- The error offsets a command may raise: 0, or an offset in IN (R413). -/
def ErrorOffset (s : State) (i : Instr) (off : Nat) : Prop :=
  off = 0 ∨ (.inLen ∈ commandReads s i ∧ off ≤ (s.reg .inLen).toNat)

/-- A command's two ends. -/
inductive EndsAs (s : State) (i : Instr) : Out → Prop
  | done {u : State} {oc : Nat} (h : DoneSize s i oc) : EndsAs s i (.next (u.completed oc))
  | error {u : State} {e : ErrorKind} {off : Nat} (h : ErrorOffset s i off) : EndsAs s i (.next (u.errored e off))

variable {s : State} {i : Instr}

theorem EndsAs.error_zero {u : State} {e : ErrorKind} : EndsAs s i (.next (u.errored e 0)) := .error (.inl rfl)

theorem ErrorOffset.of_le {off : Nat} (hin : .inLen ∈ commandReads s i) (h : off ≤ (s.reg .inLen).toNat) :
    ErrorOffset s i off := .inr ⟨hin, h⟩

/-- The size of an output that was fixed in advance and has passed the pre-check. -/
theorem DoneSize.of_fixed {size : Nat} (hfix : fixedSize s i = some size) (hcap : .outCap ∈ commandReads s i)
    (hroom : HasRoom s size) : DoneSize s i size where
  fixed size' h := by rw [hfix] at h; exact Option.some.inj h
  room _ := hroom.fits
  noOutput h := absurd hcap h

theorem DoneSize.of_emitted {oc : Nat} (hfix : fixedSize s i = none) (hcap : .outCap ∈ commandReads s i)
    (h : oc ≤ (s.reg .outCap).toNat) : DoneSize s i oc where
  fixed size h := by rw [hfix] at h; cases h
  room _ := h
  noOutput h := absurd hcap h

theorem DoneSize.zero (hfix : fixedSize s i = none) : DoneSize s i 0 where
  fixed size h := by rw [hfix] at h; cases h
  room _ := Nat.zero_le _
  noOutput _ := rfl

theorem DoneSize.lt {oc : Nat} (h : DoneSize s i oc) : oc < 2 ^ 32 := by
  have hlt := (s.reg .outCap).isLt
  by_cases hcap : .outCap ∈ commandReads s i
  · exact Nat.lt_of_le_of_lt (h.room hcap) hlt
  · rw [h.noOutput hcap]
    exact Nat.two_pow_pos 32

end Ending

section Decoders

variable {s : State} {i : Instr}

theorem endsAs_of_streamEnd {size : Nat} {t : State} (hfix : fixedSize s i = some size)
    (hcap : .outCap ∈ commandReads s i) (hin : .inLen ∈ commandReads s i) (hroom : HasRoom s size)
    (h : StreamEnd size (s.reg .inLen).toNat t) : EndsAs s i (.next t) := by
  obtain ⟨u, rfl⟩ | ⟨u, e, off, rfl, hoff⟩ := h
  · exact .done (.of_fixed hfix hcap hroom)
  · exact .error (.of_le hin hoff)

theorem Opened.hasRoom {u : State} {w : Work} {size : Nat} (h : Opened s u w size) : HasRoom s size :=
  ⟨h.inv.outCap, h.size ▸ h.inv.room⟩

theorem Opened.endsAs {u : State} {w : Work} {size : Nat} (h : Opened s u w size) (hfix : fixedSize s i = some size)
    (hcap : .outCap ∈ commandReads s i) (hin : .inLen ∈ commandReads s i)
    (hm : w.phase = .magic → s.isWritten .diffMagic = true) :
    EndsAs s i (runStream (turnsFor (s.reg .inLen).toNat) u) := by
  obtain ⟨hp, hw, -⟩ | ⟨t, hrun, hend⟩ := h.ends
  · rw [hm hp] at hw
    cases hw
  · rw [hrun]
    exact endsAs_of_streamEnd hfix hcap hin h.hasRoom hend

/-- DIF.DEC faults at the magic where DIFF_MAGIC is not written (R193). -/
theorem runStream_magic_unwritten {u : State} {w : Work} (hw : u.work = some w) (hs : w.stream = .dif)
    (hp : w.phase = .magic) (h : u.isWritten .diffMagic = false) (n : Nat) :
    runStream (n + 1) u = .fault (.unwrittenRegister .diffMagic) := by
  rw [runStream_eq_thenTurns hw (fun _ => hs), turnEffect, streamEnded_of_ne_bpl (by simp [hs]), fetchToken_magic u hp]
  simp [hp, fieldEffect, h, Effect.thenTurns, Effect.apply]

theorem execR7xDec_reads : ReadsThen s (EndsAs s .r7xDec) (execR7xDec s) (readGroups s .r7xDec) :=
  readsThen_withPixels <| readsThen_withCapacity .error_zero fun hroom => readsThen_withReg_last fun hin =>
    (opened_tokens (st := .r7x) (by decide) hin (Nat.le_refl _) (by simpa [Stream.pixelBytes] using hroom)).endsAs
      (by simp [fixedSize, Stream.pixelBytes]) (by simp [commandReads]) (by simp [commandReads]) (fun h => by cases h)

theorem execBplDec_reads : ReadsThen s (EndsAs s .bplDec) (execBplDec s) (readGroups s .bplDec) :=
  readsThen_withLevel .error_zero fun hlegal => readsThen_withPixels <| readsThen_withCapacity .error_zero fun hroom =>
    readsThen_withReg_last fun hin =>
      (opened_bpl hin hroom hlegal).endsAs rfl (by simp [commandReads]) (by simp [commandReads])
        (fun h => by rw [settlePlane_phase] at h; cases h)

theorem execNibDec_reads : ReadsThen s (EndsAs s .nibDec) (execNibDec s) (readGroups s .nibDec) := by
  refine readsThen_withPixels <| readsThen_withCapacity .error_zero fun hroom => readsThen_withReg_last fun hin => ?_
  show EndsAs s .nibDec _
  split
  · exact .error_zero
  · exact (opened_tokens (st := .nib) (by decide) hin (Nat.sub_le _ _)
      (by simpa [Stream.pixelBytes] using hroom)).endsAs (by simp [fixedSize, Stream.pixelBytes]) (by simp [commandReads])
      (by simp [commandReads]) (fun h => by cases h)

theorem execRgbDec_reads : ReadsThen s (EndsAs s .rgbDec) (execRgbDec s) (readGroups s .rgbDec) :=
  readsThen_withPixels <| readsThen_withCapacity .error_zero fun hroom => readsThen_withReg_last fun hin =>
    (opened_tokens (st := .rgb) (by decide) hin (Nat.le_refl _) hroom).endsAs rfl (by simp [commandReads])
      (by simp [commandReads]) (fun h => by cases h)

theorem execDifDec_reads : ReadsThen s (EndsAs s .difDec) (execDifDec s) (readGroups s .difDec) := by
  refine readsThen_withPixels <| readsThen_withCapacity .error_zero fun hroom => readsThen_withReg_last fun hin => ?_
  by_cases h2 : 2 ≤ (s.reg .inLen).toNat
  · rw [if_neg (by omega), if_pos h2]
    have hopened := opened_dif hin h2 hroom
    cases hw : s.isWritten .diffMagic with
    | false =>
      exact .inl ⟨_, List.mem_singleton_self _, hw,
        runStream_magic_unwritten hopened.work rfl rfl ((hopened.moves.isWritten _).trans hw) _⟩
    | true =>
      exact .inr ⟨List.forall_mem_singleton.mpr hw, hopened.endsAs rfl (by simp [commandReads]) (by simp [commandReads])
        fun _ => hw⟩
  · rw [if_pos (by omega), if_neg h2]
    exact .error_zero

end Decoders

end Sys2Proof.Machine

/-! How the encoders, the digests, the cipher and the signature commands end (R64, R413), and the statement on all commands. -/

namespace Sys2Proof.Machine

section Offsets

variable {κ : Type}

theorem layOut_within {key : κ} {a : Nat} {ls : List Nat} : ∀ p ∈ layOut key a ls, p.start ≤ a + ls.sum := by
  induction ls generalizing a with
  | nil => simp [layOut]
  | cons l ls ih =>
    rw [layOut, List.forall_mem_cons]
    refine ⟨Nat.le_add_right _ _, fun p hp => ?_⟩
    have := ih p hp
    rw [List.sum_cons]
    omega

theorem piecesFrom_within {max : κ → Nat} {a : Nat} {runs : List (κ × Nat)} :
    ∀ p ∈ piecesFrom max a runs, p.start ≤ a + (runs.map Prod.snd).sum := by
  induction runs generalizing a with
  | nil => simp [piecesFrom]
  | cons r rs ih =>
    intro p hp
    rw [piecesFrom, List.mem_append] at hp
    rw [List.map_cons, List.sum_cons]
    obtain hp | hp := hp
    · have := layOut_within p hp
      rw [sum_cutRun] at this
      omega
    · have := ih p hp
      omega

theorem IsRuns.sum_length {keys : List κ} {runs : List (κ × Nat)} (h : IsRuns keys runs) :
    (runs.map Prod.snd).sum = keys.length := by
  rw [← h.join, List.length_flatten, List.map_map]
  refine congrArg List.sum (List.map_congr_left fun r _ => ?_)
  simp

/-- A piece begins within the keys it was cut from. -/
theorem piecesOf_within [DecidableEq κ] {max : κ → Nat} {keys : List κ} {p : RunPiece κ} (hp : p ∈ piecesOf max keys) :
    p.start ≤ keys.length := by
  have := piecesFrom_within p hp
  rwa [(isRuns_runsOf keys).sum_length, Nat.zero_add] at this

theorem map_len_layOut (key : κ) (a : Nat) (ls : List Nat) : (layOut key a ls).map RunPiece.len = ls := by
  induction ls generalizing a with
  | nil => rfl
  | cons l ls ih => rw [layOut, List.map_cons, ih]

/-- The pieces' lengths add up to the keys. -/
theorem sum_len_piecesOf [DecidableEq κ] (max : κ → Nat) (keys : List κ) :
    ((piecesOf max keys).map RunPiece.len).sum = keys.length := by
  rw [← (isRuns_runsOf keys).sum_length, piecesOf]
  generalize runsOf keys = runs
  generalize 0 = a
  induction runs generalizing a with
  | nil => rfl
  | cons r rs ih =>
    rw [piecesFrom, List.map_append, List.sum_append, map_len_layOut, sum_cutRun, ih, List.map_cons, List.sum_cons]

theorem piecesOf_eq_nil_iff [DecidableEq κ] {max : κ → Nat} {keys : List κ} : piecesOf max keys = [] ↔ keys = [] := by
  constructor
  · intro h
    have := sum_len_piecesOf max keys
    rw [h] at this
    exact List.length_eq_zero_iff.mp this.symm
  · rintro rfl
    rfl

theorem chunkPieces_errOff {prev : Byte} {ps : List (RunPiece Byte)} :
    ∀ q ∈ chunkPieces prev ps, ∃ p ∈ ps, q.errOff = p.start := by
  induction ps generalizing prev with
  | nil => simp [chunkPieces]
  | cons p ps ih =>
    rw [chunkPieces, List.forall_mem_cons]
    refine ⟨⟨p, by simp, rfl⟩, fun q hq => ?_⟩
    obtain ⟨p', hp', h⟩ := ih q hq
    exact ⟨p', by simp [hp'], h⟩

theorem encode7x_errOff {bmp : List Byte} {p : Piece} (hp : p ∈ encode7x bmp) : p.errOff ≤ bmp.length := by
  obtain ⟨q, hq, rfl⟩ := List.mem_map.mp hp
  simpa using piecesOf_within hq

theorem encode7x_eq_nil_iff {bmp : List Byte} : encode7x bmp = [] ↔ bmp = [] := by
  rw [encode7x, List.map_eq_nil_iff, piecesOf_eq_nil_iff, List.map_eq_nil_iff]

theorem encodePlane_errOff {bits : List Bool} {p : Piece} (hp : p ∈ encodePlane bits) : p.errOff ≤ bits.length := by
  obtain ⟨q, hq, rfl⟩ := List.mem_map.mp hp
  exact piecesOf_within hq

theorem encodePlane_eq_nil_iff {bits : List Bool} : encodePlane bits = [] ↔ bits = [] := by
  rw [encodePlane, List.map_eq_nil_iff, piecesOf_eq_nil_iff]

theorem encodeBpl_errOff {v : Variant} {n : Nat} {bmp : List Byte} {p : Piece} (hp : p ∈ (encodeBpl v n bmp).flatten) :
    p.errOff ≤ bmp.length := by
  obtain ⟨plane, hplane, hp⟩ := List.mem_flatten.mp hp
  obtain ⟨k, -, rfl⟩ := List.mem_map.mp hplane
  simpa using encodePlane_errOff hp

theorem encodeBpl_eq_nil_iff {v : Variant} {n : Nat} {bmp : List Byte} (hn : 1 ≤ n) :
    (encodeBpl v n bmp).flatten = [] ↔ bmp = [] := by
  simp only [encodeBpl, List.flatten_eq_nil_iff, List.forall_mem_map, encodePlane_eq_nil_iff, List.map_eq_nil_iff,
    List.mem_range]
  exact ⟨fun h => h 0 hn, fun h _ _ => h⟩

theorem encodeDif_errOff {magic : Byte} {bmp : List Byte} {p : Piece} (hp : p ∈ encodeDif magic bmp) :
    p.errOff ≤ bmp.length := by
  simp only [encodeDif, List.mem_append, List.mem_singleton] at hp
  obtain (rfl | hp) | rfl := hp
  · exact Nat.zero_le _
  · obtain ⟨q, hq, h⟩ := chunkPieces_errOff p hp
    exact h ▸ piecesOf_within hq
  · exact Nat.le_refl _

theorem encodeNib_errOff {init : BitVec 16} {bmp : List Byte} {p : Piece} (hp : p ∈ encodeNib init bmp) :
    p.errOff ≤ bmp.length := by
  simp only [encodeNib, List.mem_append, List.mem_singleton] at hp
  obtain hp | rfl := hp
  · obtain ⟨q, hq, rfl⟩ := List.mem_map.mp hp
    simpa using piecesOf_within hq
  · exact Nat.le_refl _

theorem length_packPixels : ∀ bmp : List Byte, (packPixels bmp).length = bmp.length / 3
  | r :: g :: b :: rest => by
    simp only [packPixels, List.length_cons, length_packPixels rest]
    omega
  | [] | [_] | [_, _] => by simp [packPixels]

theorem rgbPieces_within {bmp : List Byte} {p : RunPiece Rgb15} (hp : p ∈ rgbPieces bmp) : 3 * p.start ≤ bmp.length := by
  have := piecesOf_within hp
  rw [length_packPixels] at this
  omega

theorem emitRgb_errOff {hi : BitVec 4} {bmp : List Byte} {ps : List (RunPiece Rgb15)} (hps : ∀ q ∈ ps, q ∈ rgbPieces bmp)
    {p : Piece} (hp : p ∈ emitRgb hi ps) : p.errOff ≤ bmp.length := by
  obtain ⟨q, hq, rfl⟩ := List.mem_map.mp hp
  exact rgbPieces_within (hps q hq)

theorem emitRgb_eq_nil_iff {hi : BitVec 4} {ps : List (RunPiece Rgb15)} : emitRgb hi ps = [] ↔ ps = [] :=
  List.map_eq_nil_iff

end Offsets

section Encoders

variable {s : State} {i : Instr}

/-- An encoder's emission, with error offsets in its bitmap: it reads OUT_CAP, and ends DONE with what it has emitted or ERROR
at the emit that does not fit (R64). -/
theorem emitCommand_reads {ps : List Piece} (hfix : fixedSize s i = none) (hcap : .outCap ∈ commandReads s i)
    (hin : .inLen ∈ commandReads s i) (hoff : ∀ p ∈ ps, p.errOff ≤ (s.reg .inLen).toNat) :
    ReadsThen s (EndsAs s i) (emitCommand s ps) (if ps = [] then [] else [[.outCap]]) :=
  readsThen_emitAll (fun p hp => .error (.of_le hin (hoff p hp))) fun _ hfit => .done (.of_emitted hfix hcap hfit)

/-- An encoder that emits nothing but the tokens of its pixels emits exactly where there is a pixel. -/
theorem emitsPixels_eq {α : Type} {ps : List α} {bmp : List Byte} (hlen : bmp.length = pixelCount s) (hnil : ps = [] ↔ bmp = []) :
    readGroups.emitsPixels s = if ps = [] then [] else [[.outCap]] := by
  have : ps = [] ↔ ¬0 < pixelCount s := by rw [hnil, ← List.length_eq_zero_iff, hlen]; omega
  unfold readGroups.emitsPixels
  simp only [this, ite_not]

theorem execR7xEnc_reads : ReadsThen s (EndsAs s .r7xEnc) (execR7xEnc s) (readGroups s .r7xEnc) := by
  refine readsThen_withBitmap .error_zero fun bmp hin hlen => ?_
  rw [emitsPixels_eq (hlen.trans (Nat.one_mul _)) encode7x_eq_nil_iff]
  exact emitCommand_reads rfl (by simp [commandReads]) (by simp [commandReads]) fun p hp => hin ▸ encode7x_errOff hp

theorem bplEncode_reads {v : Variant} (hfix : fixedSize s i = none) (hcap : .outCap ∈ commandReads s i)
    (hin : .inLen ∈ commandReads s i) :
    ReadsThen s (EndsAs s i) (bplEncode v s) (readGroups.level s (readGroups.encoder s 1 (readGroups.emitsPixels s))) := by
  refine readsThen_withLevel .error_zero fun hlegal => readsThen_withBitmap .error_zero fun bmp hbmp hlen => ?_
  rw [emitsPixels_eq (hlen.trans (Nat.one_mul _)) (encodeBpl_eq_nil_iff (v := v) hlegal.1)]
  exact readsThen_emitAll (fun p hp => .error (.of_le hin (hbmp ▸ encodeBpl_errOff hp)))
    fun _ hfit => .done (.of_emitted hfix hcap hfit)

theorem execDifEnc_reads : ReadsThen s (EndsAs s .difEnc) (execDifEnc s) (readGroups s .difEnc) := by
  refine readsThen_withBitmap .error_zero fun bmp hin _ => readsThen_withReg fun _ => ?_
  have := emitCommand_reads (s := s) (i := .difEnc) (ps := encodeDif ((s.reg .diffMagic).setWidth 8) bmp) rfl
    (by simp [commandReads]) (by simp [commandReads]) fun p hp => hin ▸ encodeDif_errOff hp
  rwa [if_neg (by simp [encodeDif])] at this

theorem execNibEnc_reads : ReadsThen s (EndsAs s .nibEnc) (execNibEnc s) (readGroups s .nibEnc) := by
  refine readsThen_withBitmap .error_zero fun bmp hin _ => readsThen_withReg_last fun _ => ?_
  have := emitCommand_reads (s := s) (i := .nibEnc) (ps := encodeNib ((s.reg .crc16Init).setWidth 16) bmp) rfl
    (by simp [commandReads]) (by simp [commandReads]) fun p hp => hin ▸ encodeNib_errOff hp
  rwa [if_neg (by simp [encodeNib])] at this

/-- What RGB.ENC does with its bitmap (R263). -/
def rgbEmission (s : State) (bmp : List Byte) : Out :=
  let ps := rgbPieces bmp
  let plain := ps.takeWhile fun p => p.len ≤ 2
  if plain.length = ps.length then emitCommand s (emitRgb 0#4 ps)
  else emitAll s (emitRgb 0#4 plain) fun _ =>
    withReg s .rgbRepHi fun hi => emitCommand s (emitRgb (hi.setWidth 4) ps)

theorem execRgbEnc_eq (s : State) : execRgbEnc s = withBitmap s 3 (rgbEmission s) := rfl

/-- A fault of an emit of RGB.ENC (R263). -/
def EmitFault (s : State) (o : Out) : Prop :=
  ∃ r ∈ [Reg.outCap, Reg.rgbRepHi], s.isWritten r = false ∧ o = .fault (.unwrittenRegister r)

theorem emitAll_ends_or_faults {ps : List Piece} {k : State → Out} {E : Out → Prop}
    (herr : ∀ p ∈ ps, E (.next (s.errored .bufferOverrun p.errOff)))
    (h : ∀ u, (pieceBytes ps).length ≤ (s.reg .outCap).toNat → E (k u) ∨ EmitFault s (k u)) :
    E (emitAll s ps k) ∨ EmitFault s (emitAll s ps k) := by
  have := readsThen_emitAll (E := fun o => E o ∨ EmitFault s o) (fun p hp => .inl (herr p hp)) h
  obtain ⟨g, hg, r, hr, hw, ho⟩ | h := this.fault_or_end
  · split at hg
    · cases hg
    · rw [List.mem_singleton.mp hg, List.mem_singleton] at hr
      exact .inr ⟨r, by simp [hr], hw, ho⟩
  · exact h

theorem rgbEmission_ends {bmp : List Byte} (hlen : bmp.length = (s.reg .inLen).toNat) :
    EndsAs s .rgbEnc (rgbEmission s bmp) ∨ EmitFault s (rgbEmission s bmp) := by
  have herr {hi : BitVec 4} {ps : List (RunPiece Rgb15)} (hps : ∀ q ∈ ps, q ∈ rgbPieces bmp) (p : Piece)
      (hp : p ∈ emitRgb hi ps) : EndsAs s .rgbEnc (.next (s.errored .bufferOverrun p.errOff)) :=
    .error (.of_le (by simp [commandReads]) (hlen ▸ emitRgb_errOff hps hp))
  have hall (hi : BitVec 4) : EndsAs s .rgbEnc (emitCommand s (emitRgb hi (rgbPieces bmp))) ∨
      EmitFault s (emitCommand s (emitRgb hi (rgbPieces bmp))) :=
    emitAll_ends_or_faults (herr fun _ hq => hq) fun _ hfit => .inl (.done (.of_emitted rfl (by simp [commandReads]) hfit))
  unfold rgbEmission
  dsimp only
  split
  · exact hall _
  · refine emitAll_ends_or_faults (herr fun _ hq => (List.takeWhile_sublist _).subset hq) fun _ _ => ?_
    cases hw : s.isWritten .rgbRepHi with
    | false => exact .inr ⟨.rgbRepHi, by simp, hw, withReg_of_unwritten hw _⟩
    | true =>
      rw [withReg_of_written hw]
      exact hall _

theorem execRgbEnc_reads :
    ReadsThen s (fun o => EndsAs s .rgbEnc o ∨ EmitFault s o) (execRgbEnc s) (readGroups s .rgbEnc) :=
  readsThen_withBitmap (.inl .error_zero) fun _ hin _ => rgbEmission_ends hin

end Encoders

section Others

variable {s : State} {i : Instr}

theorem lcgRegs_set0 : lcgRegs .set0 = [.lcg0 0, .lcg0 1, .lcg0 2, .lcg0 3] := by decide

theorem lcgRegs_set1 : lcgRegs .set1 = [.lcg1 0, .lcg1 1, .lcg1 2, .lcg1 3] := by decide

theorem lcgCommand_reads {c : LcgSet} {cs : List Reg} (hcs : lcgRegs c = cs)
    (hfix : fixedSize s i = some (s.reg .inLen).toNat) (hcap : .outCap ∈ commandReads s i) :
    ReadsThen s (EndsAs s i) (lcgCommand c s) (readGroups.cipher s cs) := by
  subst hcs
  refine readsThen_withReg_last fun _ => readsThen_withCapacity .error_zero fun hroom => readsThen_withReg fun _ =>
    readsThen_withReg_last fun _ => ?_
  by_cases hseed : s.reg .seed = 0#32
  · rw [if_pos hseed, if_pos hseed]
    exact .done (.of_fixed hfix hcap hroom)
  · rw [if_neg hseed, if_neg hseed]
    exact readsThen_withRegs_last (EndsAs.done (.of_fixed hfix hcap hroom))

theorem crc16Command_reads {f : CrcForm} (hfix : fixedSize s i = none) :
    ReadsThen s (EndsAs s i) (crc16Command f s) [[.crc16Init, .inLen]] :=
  readsThen_withReg fun _ => readsThen_withReg_last fun _ => EndsAs.done (.zero hfix)

theorem execCrc32_reads : ReadsThen s (EndsAs s .crc32) (execCrc32 s) (readGroups s .crc32) :=
  readsThen_withReg_last fun _ => EndsAs.done (.zero rfl)

theorem sealFile_reads (hfix : fixedSize s i = some 4) (hcap : .outCap ∈ commandReads s i) :
    ReadsThen s (EndsAs s i) (sealFile s) [[.inLen], [.outCap]] := by
  have hgroups : readGroups.capacity s 4 [] = [[.outCap]] := by simp [readGroups.capacity]
  refine readsThen_withReg_last fun _ => hgroups ▸ readsThen_withCapacity .error_zero fun hroom => ?_
  show EndsAs s i _
  split
  · exact .error_zero
  · exact .done (.of_fixed hfix hcap hroom)

theorem verifyFile_reads (hfix : fixedSize s i = none) (hin : .inLen ∈ commandReads s i) :
    ReadsThen s (EndsAs s i) (verifyFile s) [[.inLen]] := by
  refine readsThen_withReg_last fun _ => ?_
  show EndsAs s i _
  split
  · exact .error_zero
  · dsimp only
    split
    · exact .error (.of_le hin (Nat.sub_le _ _))
    · exact .done (.zero hfix)

theorem execSha1_reads : ReadsThen s (EndsAs s .sha1) (execSha1 s) (readGroups s .sha1) :=
  readsThen_withCapacity .error_zero fun hroom => readsThen_withReg_last fun _ =>
    EndsAs.done (.of_fixed rfl (by simp [commandReads]) hroom)

theorem execSha256_reads : ReadsThen s (EndsAs s .sha256) (execSha256 s) (readGroups s .sha256) :=
  readsThen_withCapacity .error_zero fun hroom => readsThen_withReg_last fun _ =>
    EndsAs.done (.of_fixed rfl (by simp [commandReads]) hroom)

theorem execSigGen_reads : ReadsThen s (EndsAs s .sigGen) (execSigGen s) (readGroups s .sigGen) :=
  readsThen_withSignatureConfig .error_zero fun hw hkl => readsThen_withCapacity .error_zero fun hroom =>
    readsThen_withSignature hw hkl (.done (.of_fixed rfl (by simp [commandReads]) hroom))

theorem firstDifference_le {xs ys : List Byte} {k : Nat} (h : firstDifference xs ys = some k) : k ≤ xs.length := by
  induction xs generalizing ys k with
  | nil =>
    cases ys <;> simp [firstDifference] at h
    omega
  | cons x xs ih =>
    cases ys with
    | nil => simp [firstDifference] at h; omega
    | cons y ys =>
      rw [firstDifference] at h
      split at h
      · cases h; exact Nat.zero_le _
      · obtain ⟨j, hj, rfl⟩ := Option.map_eq_some_iff.mp h
        exact Nat.succ_le_succ (ih hj)

theorem execSigVerify_reads : ReadsThen s (EndsAs s .sigVerify) (execSigVerify s) (readGroups s .sigVerify) := by
  refine readsThen_withSignatureConfig .error_zero fun hw hkl => readsThen_withReg_last fun _ => ?_
  by_cases hlen : s.reg .inLen = 32#32
  · rw [if_neg (by simpa using hlen), if_pos hlen]
    refine readsThen_withSignature hw hkl ?_
    split
    · rename_i k hk
      refine .error (.of_le (by simp [commandReads]) ?_)
      have := firstDifference_le hk
      rwa [State.length_inRange, show 32 = (s.reg .inLen).toNat by rw [hlen]; rfl] at this
    · exact .done (.zero rfl)
  · rw [if_pos hlen, if_neg hlen]
    exact .error_zero

end Others

end Sys2Proof.Machine

/-! The statement on all commands: the groups of registers that a command comes to read are among those it may read, each
command reads them in order, and then ends. -/

namespace Sys2Proof.Machine

section Groups

variable {s : State} {g : List Reg} {rest : List (List Reg)}

theorem mem_capacity {size : Nat} (h : g ∈ readGroups.capacity s size rest) : g = [.outCap] ∨ g ∈ rest := by
  rw [readGroups.capacity, List.mem_cons] at h
  exact h.imp_right fun h => (List.mem_ite_nil_right.mp h).2

theorem mem_decoder {size : Nat} (h : g ∈ readGroups.decoder s size rest) :
    g = [.width, .height] ∨ g = [.outCap] ∨ g ∈ rest := by
  rw [readGroups.decoder, List.mem_cons] at h
  exact h.imp_right mem_capacity

theorem mem_encoder {per : Nat} (h : g ∈ readGroups.encoder s per rest) :
    g = [.width, .height] ∨ g = [.inLen] ∨ g ∈ rest := by
  rw [readGroups.encoder, List.mem_cons, List.mem_cons] at h
  exact h.imp_right fun h => h.imp_right fun h => (List.mem_ite_nil_right.mp h).2

theorem mem_emitsPixels (h : g ∈ readGroups.emitsPixels s) : g = [.outCap] := by
  rw [readGroups.emitsPixels] at h
  exact List.mem_singleton.mp (List.mem_ite_nil_right.mp h).2

theorem mem_level (h : g ∈ readGroups.level s rest) : g = [.aaN] ∨ g ∈ rest := by
  rw [readGroups.level, List.mem_cons] at h
  exact h.imp_right fun h => (List.mem_ite_nil_right.mp h).2

theorem mem_cipher {cs : List Reg} (h : g ∈ readGroups.cipher s cs) :
    g = [.inLen] ∨ g = [.outCap] ∨ g = [.seed, .layer] ∨ (s.reg .seed ≠ 0#32 ∧ g = cs) := by
  rw [readGroups.cipher, List.mem_cons] at h
  refine h.imp_right fun h => (mem_capacity h).imp_right fun h => ?_
  rw [List.mem_cons] at h
  exact h.imp_right fun h => by simpa using h

theorem mem_signing (h : g ∈ readGroups.signing s rest) : g = [.sigFieldBytes, .aesKlen] ∨ g ∈ rest := by
  rw [readGroups.signing, List.mem_cons] at h
  exact h.imp_right fun h => (List.mem_ite_nil_right.mp h).2

/-- What a command comes to read, it may read, and the host writes it (R35). -/
def ReadsOnly (s : State) (i : Instr) (g : List Reg) : Prop := ∀ r ∈ g, r ∈ commandReads s i ∧ r.access = .rw

theorem readsOnly_of_cipher {i : Instr} {cs : List Reg} (hreads : commandReads s i = commandReads.lcgReads s cs)
    (hcs : ∀ r ∈ cs, r.access = .rw) (h : g ∈ readGroups.cipher s cs) : ReadsOnly s i g := by
  rw [ReadsOnly, hreads, commandReads.lcgReads]
  obtain rfl | rfl | rfl | ⟨hseed, rfl⟩ := mem_cipher h
  · simp [Reg.access]
  · simp [Reg.access]
  · simp [Reg.access]
  · rw [if_neg hseed]
    exact fun r hr => ⟨by simp [hr], hcs r hr⟩

theorem readsOnly_of_material {i : Instr} (hreads : ∀ r ∈ commandReads.signatureReads s, r ∈ commandReads s i)
    (h : g ∈ readGroups.material s) : ReadsOnly s i g := by
  simp only [readGroups.material, List.mem_cons, List.not_mem_nil, or_false] at h
  obtain rfl | rfl := h
  · refine fun r hr => ⟨hreads r ?_, ?_⟩
    · simp only [commandReads.signatureReads, List.mem_append, List.mem_cons] at hr ⊢
      tauto
    · simp only [List.mem_append, List.mem_singleton, List.mem_ite_nil_right] at hr
      obtain rfl | ⟨-, rfl⟩ := hr <;> rfl
  · refine fun r hr => ⟨hreads r ?_, ?_⟩
    · simp only [commandReads.signatureReads, List.mem_append] at hr ⊢
      tauto
    · simp only [List.mem_append, List.mem_map, List.mem_cons, List.not_mem_nil, or_false] at hr
      obtain ⟨k, -, rfl⟩ | rfl | rfl | rfl | rfl := hr <;> rfl

theorem readsOnly_of_readGroups {i : Instr} (h : g ∈ readGroups s i) : ReadsOnly s i g := by
  cases i
  case r7xDec | nibDec | rgbDec =>
    have h := (mem_decoder h).imp_right (Or.imp_right List.mem_singleton.mp)
    obtain rfl | rfl | rfl := h <;> simp [ReadsOnly, commandReads, Reg.access]
  case bplDec =>
    have h := (mem_level h).imp_right fun h => (mem_decoder h).imp_right (Or.imp_right List.mem_singleton.mp)
    obtain rfl | rfl | rfl | rfl := h <;> simp [ReadsOnly, commandReads, Reg.access]
  case difDec =>
    have h := (mem_decoder h).imp_right (Or.imp_right List.mem_cons.mp)
    rw [List.mem_ite_nil_right, List.mem_singleton] at h
    obtain rfl | rfl | rfl | ⟨-, rfl⟩ := h <;> simp [ReadsOnly, commandReads, Reg.access]
  case r7xEnc =>
    have h := (mem_encoder h).imp_right (Or.imp_right mem_emitsPixels)
    obtain rfl | rfl | rfl := h <;> simp [ReadsOnly, commandReads, Reg.access]
  case bplEnc | bplEncA | bplEncB =>
    have h := (mem_level h).imp_right fun h => (mem_encoder h).imp_right (Or.imp_right mem_emitsPixels)
    obtain rfl | rfl | rfl | rfl := h <;> simp [ReadsOnly, commandReads, Reg.access]
  case difEnc =>
    have h := (mem_encoder h).imp_right (Or.imp_right List.mem_singleton.mp)
    obtain rfl | rfl | rfl := h <;> simp [ReadsOnly, commandReads, Reg.access]
  case nibEnc =>
    have h := (mem_encoder h).imp_right (Or.imp_right List.mem_pair.mp)
    obtain rfl | rfl | rfl | rfl := h <;> simp [ReadsOnly, commandReads, Reg.access]
  case rgbEnc =>
    obtain rfl | rfl | h := mem_encoder h
    · simp [ReadsOnly, commandReads, Reg.access]
    · simp [ReadsOnly, commandReads, Reg.access]
    · cases h
  case lcgXor c => cases c <;> exact readsOnly_of_cipher rfl (by decide) h
  case lcgXor0 | encrypt0 | decrypt0 | lcgXor1 | encrypt1 | decrypt1 => exact readsOnly_of_cipher rfl (by decide) h
  case crc32File m =>
    cases m
    · obtain rfl | rfl := List.mem_pair.mp h <;> simp [ReadsOnly, commandReads, Reg.access]
    · rw [List.mem_singleton.mp h]
      simp [ReadsOnly, commandReads, Reg.access]
  case crc32Seal =>
    obtain rfl | rfl := List.mem_pair.mp h <;> simp [ReadsOnly, commandReads, Reg.access]
  case crc16 | crc16Raw | crc32 | crc32Check =>
    rw [List.mem_singleton.mp h]
    simp [ReadsOnly, commandReads, Reg.access]
  case sha1 | sha256 =>
    obtain rfl | rfl := (mem_capacity h).imp_right List.mem_singleton.mp <;> simp [ReadsOnly, commandReads, Reg.access]
  case sigGen =>
    obtain rfl | rfl | h := (mem_signing h).imp_right mem_capacity
    · simp [ReadsOnly, commandReads, commandReads.signatureReads, Reg.access]
    · simp [ReadsOnly, commandReads, Reg.access]
    · exact readsOnly_of_material (fun r hr => List.mem_cons_of_mem _ hr) h
  case sigVerify =>
    have h := (mem_signing h).imp_right List.mem_cons.mp
    rw [List.mem_ite_nil_right] at h
    obtain rfl | rfl | ⟨-, h⟩ := h
    · simp [ReadsOnly, commandReads, commandReads.signatureReads, Reg.access]
    · simp [ReadsOnly, commandReads, Reg.access]
    · exact readsOnly_of_material (fun r hr => List.mem_cons_of_mem _ hr) h
  all_goals cases h

end Groups

section Commands

variable {s : State} {i : Instr}

/-- How a command may end past its lines: DONE or ERROR, and RGB.ENC also with a fault of an emit. -/
def CommandEnd (s : State) (i : Instr) (o : Out) : Prop := EndsAs s i o ∨ (i = .rgbEnc ∧ EmitFault s o)

/-- Every command reads its groups of registers in order, and then ends. -/
theorem exec_reads (h : i.format = .command) : ReadsThen s (CommandEnd s i) (exec i s) (readGroups s i) := by
  by_cases hrgb : i = .rgbEnc
  · subst hrgb
    exact execRgbEnc_reads.mono fun h => h.imp_right fun h => ⟨rfl, h⟩
  refine ReadsThen.mono (E := EndsAs s i) .inl ?_
  cases i
  case r7xDec => exact execR7xDec_reads
  case bplDec => exact execBplDec_reads
  case difDec => exact execDifDec_reads
  case nibDec => exact execNibDec_reads
  case rgbDec => exact execRgbDec_reads
  case r7xEnc => exact execR7xEnc_reads
  case difEnc => exact execDifEnc_reads
  case nibEnc => exact execNibEnc_reads
  case rgbEnc => exact absurd rfl hrgb
  case bplEnc | bplEncA | bplEncB => exact bplEncode_reads rfl (by simp [commandReads]) (by simp [commandReads])
  case lcgXor c =>
    cases c
    · exact lcgCommand_reads lcgRegs_set0 rfl (by simp [commandReads, commandReads.lcgReads])
    · exact lcgCommand_reads lcgRegs_set1 rfl (by simp [commandReads, commandReads.lcgReads])
  case lcgXor0 | encrypt0 | decrypt0 =>
    exact lcgCommand_reads lcgRegs_set0 rfl (by simp [commandReads, commandReads.lcgReads])
  case lcgXor1 | encrypt1 | decrypt1 =>
    exact lcgCommand_reads lcgRegs_set1 rfl (by simp [commandReads, commandReads.lcgReads])
  case crc16 | crc16Raw => exact crc16Command_reads rfl
  case crc32 => exact execCrc32_reads
  case crc32File m =>
    cases m
    · exact sealFile_reads rfl (by simp [commandReads])
    · exact verifyFile_reads rfl (by simp [commandReads])
  case crc32Seal => exact sealFile_reads rfl (by simp [commandReads])
  case crc32Check => exact verifyFile_reads rfl (by simp [commandReads])
  case sha1 => exact execSha1_reads
  case sha256 => exact execSha256_reads
  case sigGen => exact execSigGen_reads
  case sigVerify => exact execSigVerify_reads
  all_goals cases h

/-- A command faults on a register that it reads and that is not written, or it ends. -/
theorem exec_faults_or_ends (h : i.format = .command) :
    (∃ r, exec i s = .fault (.unwrittenRegister r) ∧ r ∈ commandReads s i ∧ r.access = .rw ∧ s.isWritten r = false) ∨
      EndsAs s i (exec i s) := by
  obtain ⟨g, hg, r, hr, hw, ho⟩ | hend | ⟨rfl, r, hr, hw, ho⟩ := (exec_reads (s := s) h).fault_or_end
  · obtain ⟨hreads, haccess⟩ := readsOnly_of_readGroups hg r hr
    exact .inl ⟨r, ho, hreads, haccess, hw⟩
  · exact .inr hend
  · refine .inl ⟨r, ho, ?_, ?_, hw⟩ <;> simp only [List.mem_cons, List.not_mem_nil, or_false] at hr
    · rcases hr with rfl | rfl <;> simp [commandReads]
    · rcases hr with rfl | rfl <;> rfl

theorem EndsAs.registers {o : Out} (h : EndsAs s i o) :
    ∃ t, o = .next t ∧ t.work = none ∧
      ((t.reg .status = 0x00000002#32 ∧ t.reg .errOff = 0#32 ∧
          (∀ size, fixedSize s i = some size → (t.reg .outLen).toNat = size) ∧
          (.outCap ∈ commandReads s i → (t.reg .outLen).toNat ≤ (s.reg .outCap).toNat) ∧
          (.outCap ∉ commandReads s i → t.reg .outLen = 0#32)) ∨
        (∃ e, t.reg .status = errorStatus e ∧ t.reg .outLen = 0#32 ∧
          (t.reg .errOff = 0#32 ∨
            (.inLen ∈ commandReads s i ∧ (t.reg .errOff).toNat ≤ (s.reg .inLen).toNat)))) := by
  cases h with
  | @done u oc h =>
    refine ⟨_, rfl, rfl, .inl ⟨u.reg_status_completed oc, u.reg_errOff_completed oc, ?_⟩⟩
    have hlen : ((u.completed oc).reg .outLen).toNat = oc := by
      rw [State.reg_outLen_completed, BitVec.toNat_ofNat, Nat.mod_eq_of_lt h.lt]
    rw [hlen]
    exact ⟨h.fixed, h.room, fun hcap => by rw [State.reg_outLen_completed, h.noOutput hcap]⟩
  | @error u e off h =>
    refine ⟨_, rfl, rfl, .inr ⟨e, u.reg_status_errored e off, u.reg_outLen_errored e off, ?_⟩⟩
    rw [State.reg_errOff_errored]
    refine h.imp (fun h0 => by rw [h0]) fun ⟨hin, hoff⟩ => ⟨hin, ?_⟩
    rw [BitVec.toNat_ofNat]
    exact (Nat.mod_le _ _).trans hoff

end Commands

section RgbEncoder

variable {s : State}

theorem HoldsInput.inRange_eq {bs : List Byte} (h : HoldsInput s bs) : s.inRange 0 (s.reg .inLen).toNat = bs := by
  refine List.ext_getElem (by rw [State.length_inRange, h.length]) fun a h1 h2 => ?_
  simpa [State.inRange] using h.bytes a h2

theorem withBitmap_of_length {per : Nat} (hr : Ready s [.width, .height, .inLen])
    (h : (s.reg .inLen).toNat = per * pixelCount s) (k : List Byte → Out) :
    withBitmap s per k = k (s.inRange 0 (s.reg .inLen).toNat) := by
  simp only [Ready, List.forall_mem_cons] at hr
  obtain ⟨hwidth, hheight, hin, -⟩ := hr
  rw [withBitmap, withPixels_eq_pixelCount hwidth hheight, withReg_of_written hin, if_neg (by simpa using h)]

theorem emitAll_of_unwritten {ps : List Piece} (hps : ps ≠ []) (h : s.isWritten .outCap = false) (k : State → Out) :
    emitAll s ps k = .fault (.unwrittenRegister .outCap) := by
  cases ps with
  | nil => exact absurd rfl hps
  | cons p ps =>
    rw [emitAll]
    exact withReg_of_unwritten h _

/-- With OUT_CAP not written, RGB.ENC faults at the first `emit` of a bitmap that has a pixel (R263). -/
theorem rgbEmission_faults {bmp : List Byte} (hb : rgbPieces bmp ≠ []) (h : s.isWritten .outCap = false) :
    EmitFault s (rgbEmission s bmp) := by
  have hall (hi : BitVec 4) : EmitFault s (emitCommand s (emitRgb hi (rgbPieces bmp))) :=
    ⟨.outCap, by simp, h, emitAll_of_unwritten (mt emitRgb_eq_nil_iff.mp hb) h _⟩
  unfold rgbEmission
  dsimp only
  split
  · exact hall _
  generalize (rgbPieces bmp).takeWhile (fun p => decide (p.len ≤ 2)) = plain
  cases plain with
  | cons p ps => exact ⟨.outCap, by simp, h, emitAll_of_unwritten (by simp [emitRgb]) h _⟩
  | nil =>
    rw [emitRgb_eq_nil_iff.mpr rfl, emitAll]
    cases hw : s.isWritten .rgbRepHi with
    | false => exact ⟨.rgbRepHi, by simp, hw, withReg_of_unwritten hw _⟩
    | true =>
      rw [withReg_of_written hw]
      exact hall _

theorem packRgb_eq (r g b : Byte) :
    packRgb r g b = ⟨BitVec.ofNat 5 (r.toNat / 8), BitVec.ofNat 5 (g.toNat / 8), BitVec.ofNat 5 (b.toNat / 8)⟩ := by
  have hchannel (x : Byte) : x.extractLsb' 3 5 = BitVec.ofNat 5 (x.toNat / 8) := by
    refine BitVec.eq_of_toNat_eq ?_
    simp [Nat.shiftRight_eq_div_pow]
  rw [packRgb, hchannel, hchannel, hchannel]

/-- The packed colours by numbers are the encoder's (R260). -/
theorem packPixels_eq {p : Nat} {bmp : List Byte} (h : bmp.length = 3 * p) : packPixels bmp = packedColours p bmp := by
  induction p generalizing bmp with
  | zero => rw [List.length_eq_zero_iff.mp h]; rfl
  | succ p ih =>
    match bmp, h with
    | r :: g :: b :: rest, h =>
      have hrest : rest.length = 3 * p := by simp only [List.length_cons] at h; omega
      rw [packPixels, ih hrest, packedColours, packedColours, List.range_succ_eq_map, List.map_cons, List.map_map, packRgb_eq]
      rfl

theorem length_tokRgb_plain {hi : BitVec 4} {c : Rgb15} {l : Nat} (h : l ≤ 2) :
    ((tokRgb hi c l).map tokenBytes).flatten.length = 2 * l := by
  have htok : (tokenBytes (.rgbWord c.r c.g c.b)).length = 2 := rfl
  rw [tokRgb, if_pos h, List.map_replicate, length_replicate_flatten, htok]

/-- Plain words take two bytes for each pixel (R106). -/
theorem length_emitRgb_plain {hi : BitVec 4} {ps : List (RunPiece Rgb15)} (h : ∀ p ∈ ps, p.len ≤ 2) :
    (pieceBytes (emitRgb hi ps)).length = 2 * (ps.map RunPiece.len).sum := by
  induction ps with
  | nil => rfl
  | cons p ps ih =>
    obtain ⟨hp, hps⟩ := List.forall_mem_cons.mp h
    show (pieceBytes (_ :: emitRgb hi ps)).length = _
    rw [pieceBytes_cons, List.length_append, ih hps, List.map_cons, List.sum_cons, length_tokRgb_plain hp]
    omega

/-- At its first flagged token RGB.ENC faults where RGB_REP_HI is not written, the plain words before it having fitted. -/
theorem rgbEmission_faults_at_flagged {bmp : List Byte} {before after : List (RunPiece Rgb15)} {p : RunPiece Rgb15}
    (hps : rgbPieces bmp = before ++ p :: after) (hb : ∀ q ∈ before, q.len ≤ 2) (hp : 2 < p.len)
    (hroom : HasRoom s (2 * (before.map RunPiece.len).sum)) (hw : s.isWritten .rgbRepHi = false) :
    rgbEmission s bmp = .fault (.unwrittenRegister .rgbRepHi) := by
  have hplain : (rgbPieces bmp).takeWhile (fun q => decide (q.len ≤ 2)) = before := by
    rw [hps, List.takeWhile_append_of_pos (by simpa using hb), List.takeWhile_cons_of_neg (by simpa using hp),
      List.append_nil]
  unfold rgbEmission
  dsimp only
  rw [hplain, hps, if_neg (by simp)]
  rw [emitAll_of_fits hroom.written (by rw [length_emitRgb_plain hb]; exact hroom.fits), withReg_of_unwritten hw]

end RgbEncoder

/-- Settles O18: its first three clauses from the lines each command reads, the last two from the emission of RGB.ENC. -/
theorem commandsEnd : Obligations.CommandsEnd := by
  refine ⟨fun i s hi => ?_, fun i s before after g hi hgs hb hg => ?_, fun i s hi hready hrgb => ?_,
    fun s hr hlen hpos hcap => ?_, fun s bmp runs before after c l hbmp hruns hcut hb hl hroom hw => ?_⟩
  · exact (exec_faults_or_ends hi).imp_right EndsAs.registers
  · have := exec_reads (s := s) hi
    rw [hgs] at this
    exact this.fault_at hb hg
  · obtain hend | ⟨rfl, r, hr, hw, -⟩ := (exec_reads hi).end_of_ready hready
    · obtain ⟨t, ht, -⟩ := hend.registers
      exact ⟨t, ht⟩
    · exact absurd (hrgb rfl) (not_ready_of_unwritten hr hw)
  · have hne : rgbPieces (s.inRange 0 (s.reg .inLen).toNat) ≠ [] := by
      rw [rgbPieces, Ne, piecesOf_eq_nil_iff, ← List.length_eq_zero_iff, length_packPixels, State.length_inRange, hlen]
      omega
    have := rgbEmission_faults hne hcap
    rwa [← withBitmap_of_length hr hlen (rgbEmission s)] at this
  · have hlen : (s.reg .inLen).toNat = 3 * pixelCount s := hbmp.input.length.trans hbmp.pixels
    have hready : Ready s [.width, .height, .inLen] :=
      fun r hr => by
        simp only [List.mem_cons, List.not_mem_nil, or_false] at hr
        rcases hr with rfl | rfl | rfl
        exacts [hbmp.size _ (by simp), hbmp.size _ (by simp), hbmp.input.written]
    show execRgbEnc s = _
    rw [execRgbEnc_eq, withBitmap_of_length hready hlen, hbmp.input.inRange_eq]
    have hkeys : (rgbPieces bmp).map (fun p => (p.key, p.len)) = before ++ (c, l) :: after := by
      rw [← hcut, hruns.eq_runsOf, ← packPixels_eq hbmp.pixels]
      exact piecesFrom_keyLen (by simp) 0 _
    obtain ⟨psb, rest, hps, rfl, hrest⟩ := List.map_eq_append_iff.mp hkeys
    obtain ⟨p, psa, rfl, hp, -⟩ := List.map_eq_cons_iff.mp hrest
    cases hp
    refine rgbEmission_faults_at_flagged hps (fun q hq => hb _ (List.mem_map_of_mem hq)) hl ?_ hw
    simpa [List.map_map, Function.comp_def] using hroom

end Sys2Proof.Machine

/-! The invariant of the machine: the end of a command, an access of the host and a turn of a stream keep it. -/

namespace Sys2Proof.Machine

section Keeping

variable {s t : State}

/-- The registers that the block writes hold all their bits, but STATUS. -/
theorem Reg.named_of_ro {r : Reg} (h : r.access = .ro) (hne : r ≠ .status) : r.named = BitVec.allOnes 32 := by
  cases r <;> first | exact absurd rfl hne | rfl | cases h

/-- What the invariant asks of the fields that no access of the host's side of a register touches. -/
theorem Inv.congr (h : Inv s) (hregs : t.regs = s.regs) (hwritten : t.written = s.written) (hwork : t.work = s.work)
    (hin : t.inMem.wf = true) (hout : t.outMem.wf = true) : Inv t where
  inMem := hin
  outMem := hout
  hasValue n hn := by rw [hwritten]; exact h.hasValue n hn
  unnamed r := by rw [hregs]; exact h.unnamed r
  reserved n hn := by rw [hregs]; exact h.reserved n hn
  idle hw := by
    rw [State.reg_congr hregs, State.reg_congr hregs, State.reg_congr hregs]
    exact h.idle (hwork ▸ hw)
  busy w hw := by
    obtain ⟨hstatus, hinv⟩ := h.busy w (hwork ▸ hw)
    exact ⟨(State.reg_congr hregs _).trans hstatus, hinv.congr (fun r _ => State.reg_congr hregs r) hwritten⟩

/-- A command's end: what updates of the block lead to, and DONE or ERROR. -/
theorem Inv.of_end (h : Inv s) (hm : Moves s t)
    (hend : (∃ u oc, t = State.completed u oc) ∨ ∃ u e off, t = State.errored u e off) : Inv t where
  inMem := by rw [hm.inMem]; exact h.inMem
  outMem := hm.outMem_wf h.outMem
  hasValue n hn := by rw [hm.written]; exact h.hasValue n hn
  unnamed r := by
    by_cases hro : r.access = .ro
    · by_cases hr : r = .status
      · subst hr
        obtain ⟨u, oc, rfl⟩ | ⟨u, e, off, rfl⟩ := hend
        · rw [State.regs_get_completed, if_neg (by decide), if_neg (by decide), if_pos rfl]
          rfl
        · rw [State.regs_get_errored, if_neg (by decide), if_neg (by decide), if_pos rfl, statusError_eq,
            errorStatus_named]
      · rw [Reg.named_of_ro hro hr, BitVec.and_allOnes]
    · rw [hm.regs_get r.number fun q hq he => hro (Reg.number_inj.mp he ▸ hq)]
      exact h.unnamed r
  reserved n hn := by
    rw [hm.regs_get n fun r _ hr => by rw [← hr, Reg.ofNumber_number] at hn; cases hn]
    exact h.reserved n hn
  idle _ := by
    obtain ⟨u, oc, rfl⟩ | ⟨u, e, off, rfl⟩ := hend
    · exact .inr (.inl ⟨u.reg_status_completed oc, u.reg_errOff_completed oc⟩)
    · exact .inr (.inr ⟨e, u.reg_status_errored e off, u.reg_outLen_errored e off⟩)
  busy w hw := by obtain ⟨u, oc, rfl⟩ | ⟨u, e, off, rfl⟩ := hend <;> cases hw

theorem Inv.of_exec {i : Instr} (h : Inv s) (hi : i.format = .command) (hexec : exec i s = .next t) : Inv t := by
  refine h.of_end (exec_moves hexec) ?_
  obtain ⟨r, hfault, -⟩ | hend := exec_faults_or_ends (s := s) hi
  · rw [hexec] at hfault
    cases hfault
  · rw [hexec] at hend
    cases hend with
    | done => exact .inl ⟨_, _, rfl⟩
    | error => exact .inr ⟨_, _, _, rfl⟩

/-- A turn of a stream keeps the invariant. -/
theorem Inv.of_turn {w : Work} (h : Inv s) (hw : s.work = some w) (hseq : sequence execToken s w = .next t) : Inv t := by
  obtain ⟨hstatus, hinv⟩ := h.busy w hw
  have hm : Moves s t := sequence_moves hseq
  rw [sequence_eq_apply hw hinv.framing] at hseq
  have hturn := isTurn_turnEffect (s := s) hinv.cursor hinv.framing
  generalize turnEffect s w = e at hseq hturn
  cases hturn with
  | fault => cases hseq
  | raise => cases hseq; exact h.of_end hm (.inr ⟨_, _, _, rfl⟩)
  | pixels => cases hseq; exact h.of_end hm (.inl ⟨_, _, rfl⟩)
  | planes => cases hseq; exact h.of_end hm (.inl ⟨_, _, rfl⟩)
  | put ht =>
    cases hseq
    exact { h with
      outMem := hm.outMem_wf h.outMem
      idle := fun hidle => by cases hidle
      busy := fun w' hw' => by
        cases hw'
        exact ⟨hstatus, (ht.inv hinv).congr (fun _ _ => rfl) rfl⟩ }

end Keeping

section Accesses

variable {s t : State}

/-- A write of an RW register by the host, between commands. -/
theorem Inv.storeReg (h : Inv s) (hw : s.work = none) {r : Reg} (hr : r.access = .rw) (v : Word) : Inv (s.storeReg r v) where
  inMem := h.inMem
  outMem := h.outMem
  hasValue n hn := by
    rw [State.written_get_storeReg, h.hasValue n hn, ite_self]
  unnamed q := by
    rw [State.regs_get_storeReg]
    split
    · rename_i hq
      rw [Reg.number_inj.mp hq, BitVec.and_assoc, BitVec.and_self]
    · exact h.unnamed q
  reserved n hn := by
    rw [State.regs_get_storeReg, if_neg fun hq => by rw [← hq, Reg.ofNumber_number] at hn; cases hn]
    exact h.reserved n hn
  idle _ := by
    have hne {q : Reg} (hq : q.access = .ro) : r ≠ q := fun he => by rw [he, hq] at hr; cases hr
    rw [State.reg_storeReg, State.reg_storeReg, State.reg_storeReg, if_neg (hne rfl), if_neg (hne rfl), if_neg (hne rfl)]
    exact h.idle hw
  busy w hw' := by
    rw [State.storeReg_work, hw] at hw'
    cases hw'

/-- CMD takes a word, between commands. -/
theorem Inv.setCmd (h : Inv s) (hw : s.work = none) (v : Word) : Inv (s.setReg .cmd v) where
  inMem := h.inMem
  outMem := h.outMem
  hasValue := h.hasValue
  unnamed q := by
    rw [State.regs_get_setReg]
    split
    · rename_i hq
      rw [← Reg.number_inj.mp hq]
      exact BitVec.and_allOnes
    · exact h.unnamed q
  reserved n hn := by
    rw [State.regs_get_setReg, if_neg fun hq => by rw [← hq, Reg.ofNumber_number] at hn; cases hn]
    exact h.reserved n hn
  idle _ := by
    rw [State.reg_setReg, State.reg_setReg, State.reg_setReg, if_neg (by decide), if_neg (by decide), if_neg (by decide)]
    exact h.idle hw
  busy w hw' := by
    rw [State.setReg_work, hw] at hw'
    cases hw'

theorem plainCommand_ok {opt : BitVec 4} {i j : Instr} (h : plainCommand opt i = .ok j) : j = i := by
  unfold plainCommand at h
  split at h
  · exact (Except.ok.inj h).symm
  · cases h

theorem optionCommand_ok {opt : BitVec 4} {i0 i1 j : Instr} (h : optionCommand opt i0 i1 = .ok j) : j = i0 ∨ j = i1 := by
  unfold optionCommand at h
  split at h
  · exact .inl (Except.ok.inj h).symm
  · split at h
    · exact .inr (Except.ok.inj h).symm
    · cases h

theorem of_ite_eq {α : Type} {c P : Prop} [Decidable c] {x y z : α} (hx : x = z → P) (hy : y = z → P)
    (h : (if c then x else y) = z) : P := by
  split at h
  exacts [hx h, hy h]

theorem decodeOpcode_format {opc : BitVec 8} {opt : BitVec 4} {i : Instr} (h : decodeOpcode opc opt = .ok i) :
    i.format = .command := by
  have plain {j : Instr} (hj : j.format = .command) (h : plainCommand opt j = .ok i) : i.format = .command :=
    plainCommand_ok h ▸ hj
  have option {j0 j1 : Instr} (h0 : j0.format = .command) (h1 : j1.format = .command)
      (h : optionCommand opt j0 j1 = .ok i) : i.format = .command := by
    obtain rfl | rfl := optionCommand_ok h
    exacts [h0, h1]
  exact of_ite_eq (plain rfl) (of_ite_eq (plain rfl) (of_ite_eq (plain rfl) (of_ite_eq (option rfl rfl)
    (of_ite_eq (plain rfl) (of_ite_eq (plain rfl) (of_ite_eq (plain rfl) (of_ite_eq (plain rfl) (of_ite_eq (plain rfl)
    (of_ite_eq (plain rfl) (of_ite_eq (option rfl rfl) (of_ite_eq (option rfl rfl) (of_ite_eq (plain rfl)
    (of_ite_eq (option rfl rfl) (of_ite_eq (plain rfl) (of_ite_eq (plain rfl) (of_ite_eq (plain rfl)
    (of_ite_eq (plain rfl) fun h => by cases h))))))))))))))))) h

theorem decodeCommand_format {w : Word} {i : Instr} (h : decodeCommand w = .ok i) : i.format = .command :=
  of_ite_eq decodeOpcode_format (fun h => by cases h) h

theorem Inv.of_issueCommand (h : Inv s) (hw : s.work = none) {v : Word} (hissue : issueCommand exec v s = .next t) :
    Inv t := by
  unfold issueCommand at hissue
  split at hissue
  · exact (h.setCmd hw v).of_exec (decodeCommand_format ‹_›) hissue
  · cases hissue
    exact (h.setCmd hw v).of_end ((Moves.refl _).errored _ _) (.inr ⟨_, _, _, rfl⟩)

theorem Inv.of_hostWrite (h : Inv s) (hw : s.work = none) {n : Fin 64} {v : Word}
    (hwrite : hostWrite exec n v s = .next t) : Inv t := by
  unfold hostWrite at hwrite
  split at hwrite
  · cases hwrite; exact h
  · split at hwrite
    · cases hwrite; exact h.storeReg hw ‹_› v
    · cases hwrite; exact h
    · exact h.of_issueCommand hw hwrite

theorem Inv.of_hostRead (h : Inv s) {n : Fin 64} (hread : hostRead n s = .next t) : Inv t := by
  unfold hostRead at hread
  split at hread
  · cases hread
    exact h.congr rfl rfl rfl h.inMem h.outMem
  · cases (withReg_next_iff.mp hread).2
    exact h.congr rfl rfl rfl h.inMem h.outMem

/-- A buffer load: IN_LEN is written, and IN holds bytes below 2^32 only. -/
theorem Inv.loadIn (h : Inv s) (hw : s.work = none) (v : Word) {bs : List Byte} (hbs : bs.length ≤ 2 ^ 32) :
    Inv { s.storeReg .inLen v with inMem := s.inMem.putAll 0 bs } :=
  (h.storeReg hw rfl v).congr rfl rfl rfl (Memory.wf_putAll h.inMem (by simpa using hbs)) h.outMem

/-- Reset between commands: IN stays, all else is as at power-on. -/
theorem Inv.applyReset (h : Inv s) : Inv (applyReset s) :=
  resetMeetsInvariant.congr rfl rfl rfl h.inMem State.reset_outMem_wf

theorem Inv.of_hostAccess (h : Inv s) (hw : s.work = none) {op : HostOp} (hop : hostAccess exec op s = .next t) : Inv t := by
  cases op with
  | write n v => exact h.of_hostWrite hw hop
  | read n => exact h.of_hostRead hop
  | inLoad bs =>
    rw [hostAccess, hostInLoad] at hop
    split at hop
    · cases hop; exact h.loadIn hw _ (Nat.le_of_lt ‹_›)
    · cases hop
  | inFromOut =>
    cases hop
    exact h.loadIn hw _ (by rw [State.length_outRange]; exact Nat.le_of_lt (s.reg .outLen).isLt)
  | writeIn a b => cases hop; exact h.congr rfl rfl rfl (Memory.wf_put h.inMem a.isLt b) h.outMem
  | readIn a => cases hop; exact h.congr rfl rfl rfl h.inMem h.outMem
  | writeOut a b => cases hop; exact h.congr rfl rfl rfl h.inMem (Memory.wf_put h.outMem a.isLt b)
  | readOut a => cases hop; exact h.congr rfl rfl rfl h.inMem h.outMem
  | reset => cases hop; exact h.applyReset

end Accesses

/-- Settles O12: a step is a turn of a stream, an access of the host, or nothing. -/
theorem stepKeepsInvariant : Obligations.StepKeepsInvariant := by
  intro s t h hstep
  cases hw : s.work with
  | some w => exact h.of_turn hw (by rw [← sequence_exec, ← step_of_work hw, hstep])
  | none =>
    cases hh : s.host with
    | nil =>
      simp only [step, hw, hh, Host.Outcome.next.injEq] at hstep
      exact hstep ▸ h
    | cons op later =>
      rw [step_of_host hw hh] at hstep
      have h' : Inv { s with host := later } := h.congr rfl rfl rfl h.inMem h.outMem
      exact h'.of_hostAccess hw hstep

end Sys2Proof.Machine

/-! A command depends on the written registers and on IN below IN_LEN alone (R41): two states that agree there take every
operation of a command alike. -/

namespace Sys2Proof.Machine

section Inputs

variable {s t : State}

theorem SameInputs.isWritten (h : SameInputs s t) (r : Reg) : t.isWritten r = s.isWritten r :=
  State.isWritten_congr h.written r

theorem SameInputs.inRange (h : SameInputs s t) (hin : s.isWritten .inLen = true) {a n : Nat}
    (hn : a + n ≤ (s.reg .inLen).toNat) : t.inRange a n = s.inRange a n :=
  List.map_congr_left fun j hj => h.inByte hin _ (by have := List.mem_range.mp hj; omega)

theorem SameInputs.putOut (h : SameInputs s t) (a : Nat) (bs : List Byte) : SameInputs (s.putOut a bs) (t.putOut a bs) :=
  ⟨h.written, h.regs, h.inByte⟩

theorem SameInputs.setWork (h : SameInputs s t) (w w' : Option Work) :
    SameInputs { s with work := w } { t with work := w' } :=
  ⟨h.written, h.regs, h.inByte⟩

/-- The block writes one of its registers alike. -/
theorem SameInputs.setReg (h : SameInputs s t) {r : Reg} (hr : r.access = .ro) (v : Word) :
    SameInputs (s.setReg r v) (t.setReg r v) where
  written := h.written
  regs q hq := by
    rw [State.reg_setReg, State.reg_setReg]
    split
    · rfl
    · exact h.regs q hq
  inByte hin a ha := by
    rw [State.reg_setReg, if_neg (by rintro rfl; cases hr)] at ha
    exact h.inByte hin a ha

theorem SameInputs.setPlaneLens (h : SameInputs s t) (lens : List Nat) :
    SameInputs (s.setPlaneLens lens) (t.setPlaneLens lens) := by
  unfold State.setPlaneLens
  generalize List.finRange 16 = ks
  induction ks generalizing s t with
  | nil => exact h
  | cons k ks ih => exact ih (h.setReg rfl _)

@[simp] theorem State.outByte_setPlaneLens (s : State) (lens : List Nat) (a : Nat) :
    (s.setPlaneLens lens).outByte a = s.outByte a := by
  unfold State.setPlaneLens
  generalize List.finRange 16 = ks
  induction ks generalizing s with
  | nil => rfl
  | cons k ks ih => exact (ih _).trans (State.outByte_setReg _ _ _ _)

theorem SameInputs.openStream (h : SameInputs s t) (st : Stream) (ph : Phase) (p stop planes : Nat) :
    SameInputs (openStream s st ph p stop planes) (openStream t st ph p stop planes) :=
  (h.setReg (r := .status) rfl statusBusy).setWork _ _

theorem SameInputs.hasRoom (h : SameInputs s t) {n : Nat} (hroom : HasRoom s n) : HasRoom t n :=
  ⟨(h.isWritten _).trans hroom.written, by rw [h.regs _ hroom.written]; exact hroom.fits⟩

/-- Bytes that fit OUT are there in both states, and elsewhere both keep what they had. -/
theorem SameInputs.outByte_putOut (h : SameInputs s t) {a : Nat} {bs : List Byte} (hroom : HasRoom s (a + bs.length)) {n : Nat}
    (hn : n ≤ a + bs.length) (hout : ∀ k, k < a → t.outByte k = s.outByte k) :
    ∀ k, k < n → (t.putOut a bs).outByte k = (s.putOut a bs).outByte k := by
  intro k hk
  rw [s.outByte_putOut hroom.fits, t.outByte_putOut (h.hasRoom hroom).fits]
  split
  · rfl
  · exact hout k (by omega)

end Inputs

section Results

variable {s t : State}

theorem State.reg_completed (s : State) (oc : Nat) (r : Reg) :
    (s.completed oc).reg r =
      if r = .outLen then BitVec.ofNat 32 oc else if r = .errOff then 0#32 else if r = .status then 0x00000002#32
      else s.reg r := by
  split
  · subst r; exact s.reg_outLen_completed oc
  split
  · subst r; exact s.reg_errOff_completed oc
  split
  · subst r; exact s.reg_status_completed oc
  · rw [State.reg, State.reg, s.keepsRegs_completed oc]
    simp only [List.forall_mem_cons, Ne, Reg.number_inj, List.not_mem_nil, false_imp_iff, implies_true, and_true]
    exact ⟨Ne.symm ‹_›, Ne.symm ‹_›, Ne.symm ‹_›⟩

theorem State.reg_errored (s : State) (e : ErrorKind) (off : Nat) (r : Reg) :
    (s.errored e off).reg r =
      if r = .outLen then 0#32 else if r = .errOff then BitVec.ofNat 32 off else if r = .status then errorStatus e
      else s.reg r := by
  split
  · subst r; exact s.reg_outLen_errored e off
  split
  · subst r; exact s.reg_errOff_errored e off
  split
  · subst r; exact s.reg_status_errored e off
  · rw [State.reg, State.reg, s.keepsRegs_errored e off]
    simp only [List.forall_mem_cons, Ne, Reg.number_inj, List.not_mem_nil, false_imp_iff, implies_true, and_true]
    exact ⟨Ne.symm ‹_›, Ne.symm ‹_›, Ne.symm ‹_›⟩

theorem SameInputs.completed (h : SameInputs s t) {oc : Nat} (hout : ∀ a, a < oc → t.outByte a = s.outByte a) :
    SameResults (s.completed oc) (t.completed oc) where
  regs r hr := by rw [State.reg_completed, State.reg_completed, h.regs r hr]
  work := ⟨rfl, rfl⟩
  outByte a ha := by
    rw [State.reg_outLen_completed, BitVec.toNat_ofNat] at ha
    exact hout a (Nat.lt_of_lt_of_le ha (Nat.mod_le _ _))

theorem SameInputs.errored (h : SameInputs s t) (e : ErrorKind) (off : Nat) :
    SameResults (s.errored e off) (t.errored e off) where
  regs r hr := by rw [State.reg_errored, State.reg_errored, h.regs r hr]
  work := ⟨rfl, rfl⟩
  outByte a ha := by
    rw [State.reg_outLen_errored] at ha
    exact absurd ha (Nat.not_lt_zero a)

/-- Two outcomes of one command: the same fault, or the same results. -/
inductive SameOut : Out → Out → Prop
  | next {s t : State} (h : SameResults s t) : SameOut (.next s) (.next t)
  | fault (f : Fault) : SameOut (.fault f) (.fault f)

end Results

section Operations

variable {s t : State} (h : SameInputs s t)
include h

theorem sameOut_raiseError (e : ErrorKind) (off : Nat) : SameOut (raiseError s e off) (raiseError t e off) :=
  .next (h.errored e off)

theorem sameOut_finishCommand {oc : Nat} (hout : ∀ a, a < oc → t.outByte a = s.outByte a) :
    SameOut (finishCommand s oc) (finishCommand t oc) :=
  .next (h.completed hout)

theorem sameOut_finishZero : SameOut (finishCommand s 0) (finishCommand t 0) :=
  sameOut_finishCommand h fun a ha => absurd ha (Nat.not_lt_zero a)

theorem sameOut_finishWith {bs : List Byte} {oc : Nat} (hroom : HasRoom s oc) (hlen : bs.length = oc) :
    SameOut (finishWith s bs oc) (finishWith t bs oc) := by
  subst hlen
  refine sameOut_finishCommand (h.putOut 0 bs) (h.outByte_putOut ?_ (by omega) fun k hk => absurd hk (Nat.not_lt_zero k))
  rwa [Nat.zero_add]

theorem sameOut_withReg {r : Reg} {k k' : Word → Out}
    (hk : s.isWritten r = true → SameOut (k (s.reg r)) (k' (s.reg r))) : SameOut (withReg s r k) (withReg t r k') := by
  have ht := h.isWritten r
  cases hw : s.isWritten r with
  | false =>
    rw [withReg_of_unwritten hw, withReg_of_unwritten (ht.trans hw)]
    exact .fault _
  | true =>
    rw [withReg_of_written hw, withReg_of_written (ht.trans hw), h.regs r hw]
    exact hk hw

theorem sameOut_withRegs {rs : List Reg} {k k' : List Word → Out} (hk : SameOut (k (rs.map s.reg)) (k' (rs.map s.reg))) :
    SameOut (withRegs s rs k) (withRegs t rs k') := by
  induction rs generalizing k k' with
  | nil => exact hk
  | cons r rs ih => exact sameOut_withReg h fun _ => ih hk

theorem sameOut_withPixels {k k' : Nat → Out} (hk : ∀ p, SameOut (k p) (k' p)) :
    SameOut (withPixels s k) (withPixels t k') :=
  sameOut_withReg h fun _ => sameOut_withReg h fun _ => hk _

theorem sameOut_withCapacity {size : Nat} {k k' : Unit → Out} (hk : HasRoom s size → SameOut (k ()) (k' ())) :
    SameOut (withCapacity s size k) (withCapacity t size k') := by
  refine sameOut_withReg h fun hw => ?_
  split
  · exact sameOut_raiseError h _ _
  · exact hk ⟨hw, by omega⟩

theorem sameOut_withLevel {k k' : Nat → Out}
    (hk : ∀ n, 1 ≤ n ∧ n ≤ Config.maxAa → SameOut (k n) (k' n)) : SameOut (withLevel s k) (withLevel t k') := by
  refine sameOut_withReg h fun _ => ?_
  split
  · exact sameOut_raiseError h _ _
  · exact hk _ (by omega)

theorem sameOut_withBitmap {per : Nat} {k k' : List Byte → Out} (hk : ∀ bmp, SameOut (k bmp) (k' bmp)) :
    SameOut (withBitmap s per k) (withBitmap t per k') := by
  refine sameOut_withPixels h fun p => sameOut_withReg h fun hin => ?_
  split
  · exact sameOut_raiseError h _ _
  · rw [h.inRange hin (by omega)]
    exact hk _

theorem sameOut_withSignatureConfig {k k' : Nat → Nat → Out}
    (hk : legalFieldBytes (s.reg .sigFieldBytes) = true → legalKeyLength (s.reg .aesKlen) = true →
      SameOut (k (s.reg .sigFieldBytes).toNat (s.reg .aesKlen).toNat) (k' (s.reg .sigFieldBytes).toNat (s.reg .aesKlen).toNat)) :
    SameOut (withSignatureConfig s k) (withSignatureConfig t k') := by
  refine sameOut_withReg h fun _ => sameOut_withReg h fun _ => ?_
  split
  · rename_i hlegal
    rw [Bool.and_eq_true] at hlegal
    exact hk hlegal.1 hlegal.2
  · exact sameOut_raiseError h _ _

theorem sameOut_withSignature (hw : legalFieldBytes (s.reg .sigFieldBytes) = true)
    (hkl : legalKeyLength (s.reg .aesKlen) = true) {k k' : List Byte → Out} (hk : SameOut (k (signature s)) (k' (signature s))) :
    SameOut (withSignature s (s.reg .sigFieldBytes).toNat (s.reg .aesKlen).toNat k)
      (withSignature t (s.reg .sigFieldBytes).toNat (s.reg .aesKlen).toNat k') := by
  refine sameOut_withRegs h (sameOut_withRegs h (sameOut_withRegs h ?_))
  rw [signatureOf_registers hw hkl]
  exact hk

theorem sameOut_emitAll {ps : List Piece} {k k' : State → Out}
    (hk : ∀ u v : State, SameInputs u v → (∀ a, a < (pieceBytes ps).length → v.outByte a = u.outByte a) →
      SameOut (k u) (k' v)) : SameOut (emitAll s ps k) (emitAll t ps k') := by
  cases ps with
  | nil => exact hk s t h fun a ha => absurd ha (Nat.not_lt_zero a)
  | cons p ps =>
    rw [emitAll, emitAll]
    refine sameOut_withReg h fun hw => ?_
    cases hover : firstOverrun (s.reg .outCap).toNat 0 (p :: ps) with
    | some off => exact sameOut_raiseError h _ _
    | none =>
      refine hk _ _ (h.putOut 0 _) (h.outByte_putOut ⟨hw, ?_⟩ (by omega) fun k hk => absurd hk (Nat.not_lt_zero k))
      exact (firstOverrun_none_iff (Nat.zero_le _)).mp hover

theorem sameOut_emitCommand (ps : List Piece) : SameOut (emitCommand s ps) (emitCommand t ps) :=
  sameOut_emitAll h fun _ _ huv hout => sameOut_finishCommand huv hout

end Operations

section Streams

/-- A decoding command in progress in two states: the same working registers, in their ranges, and the pixels so far are the
same. -/
structure SameStream (s t : State) (w : Work) : Prop where
  inputs : SameInputs s t
  left : s.work = some w
  right : t.work = some w
  inv : Work.Inv s w
  framed : w.phase ≠ .tokens → w.stop < (s.reg .inLen).toNat
  out : w.stream ≠ .bpl → ∀ a, a < w.stream.pixelBytes * w.pc → t.outByte a = s.outByte a

variable {s t : State} {w : Work}

theorem SameStream.fetchToken_eq (h : SameStream s t w) : fetchToken t w = fetchToken s w := by
  have hin := h.inv.inLen
  cases hp : w.phase with
  | magic =>
    obtain ⟨hic, hstop⟩ := h.inv.magic hp
    have := h.framed (by simp [hp])
    rw [fetchToken_magic t hp, fetchToken_magic s hp, h.inputs.inByte hin _ (by omega)]
  | checksum =>
    rw [fetchToken_checksum t hp, fetchToken_checksum s hp, h.inputs.inByte hin _ (h.framed (by simp [hp]))]
  | tokens =>
    have hcursor := h.inv.cursor
    have hregion := h.inv.region
    rw [fetchToken_tokens t hp, fetchToken_tokens s hp, h.inputs.inRange hin (by omega)]

/-- A turn depends on the inputs alone. -/
theorem SameStream.turnEffect_eq (h : SameStream s t w) : turnEffect t w = turnEffect s w := by
  unfold turnEffect
  rw [h.fetchToken_eq]
  split
  · rfl
  cases hi : fetchToken s w with
  | error e => rfl
  | ok i =>
    show fieldEffect t w i = fieldEffect s w i
    cases hp : w.phase with
    | magic =>
      rw [fetchToken_magic s hp] at hi
      cases hi
      rw [fieldEffect, fieldEffect, h.inputs.isWritten]
      split
      · rw [h.inputs.regs _ ‹_›]
      · rfl
    | checksum =>
      rw [fetchToken_checksum s hp] at hi
      cases hi
      have := h.framed (by simp [hp])
      rw [fieldEffect, fieldEffect, h.inputs.inRange h.inv.inLen (by omega)]
    | tokens =>
      have hfmt := (fetchToken_ok hp hi).1
      rw [fieldEffect_of_format hfmt, fieldEffect_of_format hfmt]

/-- A turn that goes on leaves both states with the same pixels. -/
theorem SameStream.put (h : SameStream s t w) {a : Nat} {bs : List Byte} {w' : Work} (ht : Turn w a bs w') :
    SameStream { s.putOut a bs with work := some w' } { t.putOut a bs with work := some w' } w' where
  inputs := (h.inputs.putOut a bs).setWork _ _
  left := rfl
  right := rfl
  inv := (ht.inv h.inv).congr (fun _ _ => rfl) rfl
  framed hp := by
    obtain ⟨-, hstop, -⟩ := ht.keeps
    rw [hstop]
    exact h.framed (ht.phase.2 hp)
  out hb := by
    rw [ht.keeps.1] at hb
    rw [ht.keeps.1]
    cases ht with
    | magic hs => rw [State.putOut_nil, State.putOut_nil]; exact h.out (by simp [hs])
    | checksum hs => rw [State.putOut_nil, State.putOut_nil]; exact h.out (by simp [hs])
    | plane hs => exact absurd hs hb
    | @run n l bs prev hs hp hn hic hpc hbs =>
      have hend : w.stream.pixelBytes * w.pc + bs.length ≤ w.stream.pixelBytes * w.pixels := by
        rw [hbs, ← Nat.mul_add]
        exact Nat.mul_le_mul_left _ hpc
      refine h.inputs.outByte_putOut ⟨h.inv.outCap, hend.trans h.inv.room⟩ ?_ (h.out hs)
      rw [hbs, ← Nat.mul_add]

theorem sameOut_runStream {n : Nat} (h : SameStream s t w) (hn : w.turnsLeft ≤ n) :
    SameOut (runStream n s) (runStream n t) := by
  induction n generalizing s t w with
  | zero => exact absurd hn (Nat.not_le.mpr w.turnsLeft_pos)
  | succ n ih =>
    have hturn := isTurn_turnEffect (s := s) h.inv.cursor h.inv.framing
    rw [runStream_eq_thenTurns h.left h.inv.framing, runStream_eq_thenTurns h.right h.inv.framing, h.turnEffect_eq]
    generalize turnEffect s w = e at hturn ⊢
    cases hturn with
    | fault => exact .fault _
    | raise => exact .next (h.inputs.errored _ _)
    | pixels hs hpc =>
      refine .next ((h.inputs.putOut 0 []).completed ?_)
      rw [State.putOut_nil, State.putOut_nil, ← hpc]
      exact h.out hs
    | planes hs =>
      obtain ⟨hlen, -⟩ := h.inv.hits hs
      have hroom := h.inv.room
      rw [hs, Stream.pixelBytes, Nat.one_mul] at hroom
      · refine .next ((h.inputs.putOut 0 _).completed
          (h.inputs.outByte_putOut ⟨h.inv.outCap, ?_⟩ ?_ fun k hk => absurd hk (Nat.not_lt_zero k)))
        · rwa [List.length_map, hlen, Nat.zero_add]
        · rw [List.length_map, hlen, Nat.zero_add]
      · simp
    | put ht => exact ih (h.put ht) (by have := ht.turnsLeft_lt; omega)

theorem Opened.sameOut {u v : State} {size : Nat} (h : Opened s u w size) (huv : SameInputs u v) (hv : v.work = some w)
    (hpc : w.stream ≠ .bpl → w.pc = 0) :
    SameOut (runStream (turnsFor (s.reg .inLen).toNat) u) (runStream (turnsFor (s.reg .inLen).toNat) v) := by
  refine sameOut_runStream ⟨huv, h.work, hv, h.inv_opened, fun hp => ?_, fun hb a ha => ?_⟩ h.turns
  · rw [h.moves.reg (by decide)]
    exact h.framed hp
  · rw [hpc hb] at ha
    exact absurd ha (Nat.not_lt_zero a)

end Streams

section Commands

theorem length_lcgStream (init : Word) (i : Nat) (key : Word) (bs : List Byte) :
    (lcgStream init i key bs).length = bs.length := by
  induction bs generalizing i key with
  | nil => rfl
  | cons b bs ih =>
    rw [lcgStream, List.length_cons, List.length_cons]
    split <;> rw [ih]

variable {s t : State} (h : SameInputs s t)
include h

theorem sameOut_execR7xDec : SameOut (execR7xDec s) (execR7xDec t) :=
  sameOut_withPixels h fun p => sameOut_withCapacity h fun hroom => sameOut_withReg h fun hin =>
    (opened_tokens (st := .r7x) (by decide) hin (Nat.le_refl _) (by simpa [Stream.pixelBytes] using hroom)).sameOut
      (h.openStream _ _ _ _ _) rfl fun _ => rfl

theorem sameOut_execBplDec : SameOut (execBplDec s) (execBplDec t) :=
  sameOut_withLevel h fun _ hn => sameOut_withPixels h fun _ => sameOut_withCapacity h fun hroom =>
    sameOut_withReg h fun hin =>
      (opened_bpl hin hroom hn).sameOut ((h.openStream _ _ _ _ _).setWork _ _) rfl fun hb => absurd (settlePlane_stream _) hb

theorem sameOut_execDifDec : SameOut (execDifDec s) (execDifDec t) := by
  refine sameOut_withPixels h fun p => sameOut_withCapacity h fun hroom => sameOut_withReg h fun hin => ?_
  split
  · exact sameOut_raiseError h _ _
  · exact (opened_dif hin (by omega) hroom).sameOut (h.openStream _ _ _ _ _) rfl fun _ => rfl

theorem sameOut_execNibDec : SameOut (execNibDec s) (execNibDec t) := by
  refine sameOut_withPixels h fun p => sameOut_withCapacity h fun hroom => sameOut_withReg h fun hin => ?_
  split
  · exact sameOut_raiseError h _ _
  · exact (opened_tokens (st := .nib) (by decide) hin (Nat.sub_le _ _)
      (by simpa [Stream.pixelBytes] using hroom)).sameOut (h.openStream _ _ _ _ _) rfl fun _ => rfl

theorem sameOut_execRgbDec : SameOut (execRgbDec s) (execRgbDec t) :=
  sameOut_withPixels h fun p => sameOut_withCapacity h fun hroom => sameOut_withReg h fun hin =>
    (opened_tokens (st := .rgb) (by decide) hin (Nat.le_refl _) hroom).sameOut (h.openStream _ _ _ _ _) rfl fun _ => rfl

theorem sameOut_execR7xEnc : SameOut (execR7xEnc s) (execR7xEnc t) :=
  sameOut_withBitmap h fun _ => sameOut_emitCommand h _

theorem sameOut_bplEncode (v : Variant) : SameOut (bplEncode v s) (bplEncode v t) :=
  sameOut_withLevel h fun _ _ => sameOut_withBitmap h fun _ => sameOut_emitAll h fun _ _ huv hout =>
    sameOut_finishCommand (huv.setPlaneLens _) fun a ha => by simpa using hout a ha

theorem sameOut_execDifEnc : SameOut (execDifEnc s) (execDifEnc t) :=
  sameOut_withBitmap h fun _ => sameOut_withReg h fun _ => sameOut_emitCommand h _

theorem sameOut_execNibEnc : SameOut (execNibEnc s) (execNibEnc t) :=
  sameOut_withBitmap h fun _ => sameOut_withReg h fun _ => sameOut_emitCommand h _

theorem sameOut_execRgbEnc : SameOut (execRgbEnc s) (execRgbEnc t) := by
  refine sameOut_withBitmap h fun bmp => ?_
  dsimp only
  split
  · exact sameOut_emitCommand h _
  · exact sameOut_emitAll h fun _ _ _ _ => sameOut_withReg h fun _ => sameOut_emitCommand h _

theorem sameOut_lcgCommand (c : LcgSet) : SameOut (lcgCommand c s) (lcgCommand c t) := by
  refine sameOut_withReg h fun hin => sameOut_withCapacity h fun hroom => sameOut_withReg h fun _ =>
    sameOut_withReg h fun _ => ?_
  rw [h.inRange hin (by omega)]
  split
  · exact sameOut_finishWith h hroom (by simp)
  · exact sameOut_withRegs h (sameOut_finishWith h hroom (by rw [lcgTransform, length_lcgStream, State.length_inRange]))

theorem sameOut_crc16Command (f : CrcForm) : SameOut (crc16Command f s) (crc16Command f t) := by
  refine sameOut_withReg h fun _ => sameOut_withReg h fun hin => ?_
  rw [h.inRange hin (by omega)]
  exact sameOut_finishZero (h.setReg rfl _)

theorem sameOut_execCrc32 : SameOut (execCrc32 s) (execCrc32 t) := by
  refine sameOut_withReg h fun hin => ?_
  rw [h.inRange hin (by omega)]
  exact sameOut_finishZero (h.setReg rfl _)

theorem sameOut_sealFile : SameOut (sealFile s) (sealFile t) := by
  refine sameOut_withReg h fun hin => sameOut_withCapacity h fun hroom => ?_
  rw [h.inRange hin (by omega)]
  split
  · exact sameOut_raiseError h _ _
  · refine sameOut_finishWith (h.setReg rfl _) ⟨hroom.written, ?_⟩ (length_leBytes 4 _)
    rw [State.reg_setReg, if_neg (by decide)]
    exact hroom.fits

theorem sameOut_verifyFile : SameOut (verifyFile s) (verifyFile t) := by
  refine sameOut_withReg h fun hin => ?_
  split
  · exact sameOut_raiseError h _ _
  · dsimp only
    rw [h.inRange hin (by omega), h.inRange hin (by omega)]
    split
    · exact sameOut_raiseError (h.setReg rfl _) _ _
    · exact sameOut_finishZero (h.setReg rfl _)

theorem sameOut_execSha1 : SameOut (execSha1 s) (execSha1 t) := by
  refine sameOut_withCapacity h fun hroom => sameOut_withReg h fun hin => ?_
  rw [h.inRange hin (by omega)]
  exact sameOut_finishWith h hroom (length_sha1Of _)

theorem sameOut_execSha256 : SameOut (execSha256 s) (execSha256 t) := by
  refine sameOut_withCapacity h fun hroom => sameOut_withReg h fun hin => ?_
  rw [h.inRange hin (by omega)]
  exact sameOut_finishWith h hroom (length_sha256Of _)

theorem sameOut_execSigGen : SameOut (execSigGen s) (execSigGen t) :=
  sameOut_withSignatureConfig h fun hw hkl => sameOut_withCapacity h fun hroom =>
    sameOut_withSignature h hw hkl (sameOut_finishWith h hroom (length_signature hw hkl))

theorem sameOut_execSigVerify : SameOut (execSigVerify s) (execSigVerify t) := by
  refine sameOut_withSignatureConfig h fun hw hkl => sameOut_withReg h fun hin => ?_
  split
  · exact sameOut_raiseError h _ _
  · rename_i hlen
    rw [not_not] at hlen
    refine sameOut_withSignature h hw hkl ?_
    rw [h.inRange hin (by rw [hlen]; decide)]
    split
    · exact sameOut_raiseError h _ _
    · exact sameOut_finishZero h

theorem sameOut_exec {i : Instr} (hi : i.format = .command) : SameOut (exec i s) (exec i t) := by
  cases i
  case r7xDec => exact sameOut_execR7xDec h
  case bplDec => exact sameOut_execBplDec h
  case difDec => exact sameOut_execDifDec h
  case nibDec => exact sameOut_execNibDec h
  case rgbDec => exact sameOut_execRgbDec h
  case r7xEnc => exact sameOut_execR7xEnc h
  case bplEnc | bplEncA | bplEncB => exact sameOut_bplEncode h _
  case difEnc => exact sameOut_execDifEnc h
  case nibEnc => exact sameOut_execNibEnc h
  case rgbEnc => exact sameOut_execRgbEnc h
  case lcgXor | lcgXor0 | encrypt0 | decrypt0 | lcgXor1 | encrypt1 | decrypt1 => exact sameOut_lcgCommand h _
  case crc16 | crc16Raw => exact sameOut_crc16Command h _
  case crc32 => exact sameOut_execCrc32 h
  case crc32File m => cases m; exacts [sameOut_sealFile h, sameOut_verifyFile h]
  case crc32Seal => exact sameOut_sealFile h
  case crc32Check => exact sameOut_verifyFile h
  case sha1 => exact sameOut_execSha1 h
  case sha256 => exact sameOut_execSha256 h
  case sigGen => exact sameOut_execSigGen h
  case sigVerify => exact sameOut_execSigVerify h
  all_goals cases hi

end Commands

/-- Settles O19: operation by operation, and turn by turn in a decoding command. -/
theorem commandsAreDeterministic : Obligations.CommandsAreDeterministic := by
  intro i s t hi h
  have hsame := sameOut_exec h hi
  constructor
  · intro f hf
    rw [hf] at hsame
    cases hout : exec i t <;> rw [hout] at hsame <;> cases hsame
    rfl
  · intro s' hs'
    rw [hs'] at hsame
    cases hout : exec i t <;> rw [hout] at hsame <;> cases hsame
    exact ⟨_, rfl, ‹_›⟩

end Sys2Proof.Machine

/-! The buffers IN and OUT: what the host's accesses leave in them (20_memory.md R60, 30_encoding.md R110), the bound of the
block's writes (R62), and the pre-check of a fixed output size (R65). -/

namespace Sys2Proof.Machine

section Buffers

/-- The byte of IN at an offset after one byte of IN was written. -/
theorem inByte_put (s : State) (a : Nat) (b : Byte) (k : Nat) :
    ({ s with inMem := s.inMem.put a b } : State).inByte k = if k = a then b else s.inByte k := by
  simp only [State.inByte, Memory.get_put]
  split <;> rfl

/-- The byte of OUT at an offset after one byte of OUT was written. -/
theorem outByte_put (s : State) (a : Nat) (b : Byte) (k : Nat) :
    ({ s with outMem := s.outMem.put a b } : State).outByte k = if k = a then b else s.outByte k := by
  simp only [State.outByte, State.outEpoch, Memory.get_put]
  split <;> rfl

/-- The byte of IN at an offset after a block of bytes was written from offset 0. -/
theorem inByte_putAll (s : State) (bs : List Byte) (k : Nat) :
    ({ s with inMem := s.inMem.putAll 0 bs } : State).inByte k = if h : k < bs.length then bs[k] else s.inByte k := by
  simp only [State.inByte, Memory.get_putAll]
  split <;> simp_all

/-- IN as both loads of R110 leave it: the bytes from offset 0 on, and their count in IN_LEN. -/
theorem holdsInput_load (s : State) {v : Word} {bs : List Byte} (h : v.toNat = bs.length) :
    HoldsInput { s.storeReg .inLen v with inMem := s.inMem.putAll 0 bs } bs where
  written := by
    show (s.storeReg .inLen v).isWritten .inLen = true
    rw [State.isWritten_storeReg, if_pos rfl]
  length := by
    show ((s.storeReg .inLen v).reg .inLen).toNat = bs.length
    rw [State.reg_storeReg, if_pos rfl, ← h]
    exact congrArg BitVec.toNat BitVec.and_allOnes
  bytes a ha := (inByte_putAll (s.storeReg .inLen v) bs a).trans (dif_pos ha)

/-- Both loads of R110 leave the bytes beyond what they load (log entry 20). -/
theorem inByte_load_beyond (s : State) (v : Word) {bs : List Byte} {a : Nat} (h : bs.length ≤ a) :
    ({ s.storeReg .inLen v with inMem := s.inMem.putAll 0 bs } : State).inByte a = s.inByte a :=
  (inByte_putAll (s.storeReg .inLen v) bs a).trans (dif_neg (by omega))

/-- No chain of the block's updates changes a byte of OUT at or beyond OUT_CAP (R62, R63). -/
theorem Moves.outByte_beyond {s t : State} (h : Moves s t) (hc : s.isWritten .outCap = true) {a : Nat}
    (ha : (s.reg .outCap).toNat ≤ a) : t.outByte a = s.outByte a := by
  rw [State.outByte, State.outByte, h.outMem_beyond hc ha, h.outEpoch_beyond hc ha]

/-- A write at or beyond OUT_CAP is not performed (R62). -/
theorem State.putOut_of_beyond (s : State) {a : Nat} (bs : List Byte) (h : (s.reg .outCap).toNat ≤ a) :
    s.putOut a bs = s := by
  rw [State.putOut, Nat.sub_eq_zero_of_le h]
  rfl

/-- One byte written to OUT: performed below OUT_CAP only, and no other byte changes (R62). -/
theorem State.outByte_putOut_byte (s : State) (a : Nat) (v : Byte) (k : Nat) :
    (s.putOut a [v]).outByte k = if k = a ∧ a < (s.reg .outCap).toNat then v else s.outByte k := by
  by_cases hlt : a < (s.reg .outCap).toNat
  · have hiff : (a ≤ k ∧ k < a + 1) ↔ (k = a ∧ a < (s.reg .outCap).toNat) := by omega
    simp only [State.outByte_putOut s (bs := [v]) hlt, List.length_singleton, hiff, List.getElem_singleton, dite_eq_ite]
  · rw [s.putOut_of_beyond [v] (by omega), if_neg (fun h => hlt h.2)]

end Buffers

/-- Settles O9, access by access. -/
theorem hostBufferAccesses : Obligations.HostBufferAccesses := by
  intro s later hw
  refine ⟨fun bs hh hbs => ?_, fun hh => ?_, fun a b hh => ?_, fun a b hh => ?_, fun a hh => ?_, fun a hh => ?_⟩ <;>
    rw [step_of_host hw hh]
  · have hlen : (BitVec.ofNat 32 bs.length).toNat = bs.length := by rw [BitVec.toNat_ofNat, Nat.mod_eq_of_lt hbs]
    exact ⟨_, if_pos hbs, holdsInput_load _ hlen, fun a ha => inByte_load_beyond _ _ ha, keepsRegs_storeReg _ _ _, rfl, rfl,
      rfl⟩
  · have hlen := (s.length_outRange 0 (s.reg .outLen).toNat).symm
    exact ⟨_, rfl, holdsInput_load _ hlen, fun a ha => inByte_load_beyond _ _ (hlen ▸ ha), keepsRegs_storeReg _ _ _, rfl, rfl,
      rfl⟩
  · exact ⟨_, rfl, inByte_put { s with host := later } a.toNat b, rfl, rfl, rfl⟩
  · exact ⟨_, rfl, outByte_put { s with host := later } a.toNat b, rfl, rfl, rfl⟩
  · rfl
  · rfl

/-- Settles O16: the block reaches OUT by `putOut` alone, and every meaning is a chain of its updates. -/
theorem noWriteBeyondCapacity : Obligations.NoWriteBeyondCapacity := by
  refine ⟨State.outByte_putOut_byte, fun s a v => ⟨_, rfl⟩, fun i s t h hc a ha => ?_⟩
  have hm : Moves s t := exec_moves h
  exact ⟨hm.outMem_beyond hc ha, hm.outByte_beyond hc ha⟩

section Capacity

variable {s : State}

theorem Ready.mono {rs qs : List Reg} (h : Ready s rs) (hq : qs ⊆ rs) : Ready s qs := fun r hr => h r (hq hr)

/-- The pre-check of R65, where it does not pass. -/
theorem withCapacity_of_overrun {size : Nat} (hc : s.isWritten .outCap = true) (h : (s.reg .outCap).toNat < size)
    (k : Unit → Out) : withCapacity s size k = .next (s.errored .bufferOverrun 0) := by
  rw [withCapacity, withReg_of_written hc, if_pos h, raiseError_eq]

/-- The pre-check of a decoder, whose output size is a function of P. -/
theorem withPixels_of_overrun {size : Nat → Nat} {k : Nat → Unit → Out} (hr : Ready s [.width, .height, .outCap])
    (h : (s.reg .outCap).toNat < size (pixelCount s)) :
    (withPixels s fun p => withCapacity s (size p) (k p)) = .next (s.errored .bufferOverrun 0) := by
  rw [withPixels_eq_pixelCount (hr _ (by simp)) (hr _ (by simp)), withCapacity_of_overrun (hr _ (by simp)) h]

theorem withLevel_of_legal (hr : s.isWritten .aaN = true) (h : LegalConfig s .bplDec) (k : Nat → Out) :
    withLevel s k = k (s.reg .aaN).toNat := by
  obtain ⟨hone, hmax⟩ := h
  rw [withLevel, withReg_of_written hr, if_neg (by simp only [Config.maxAa]; omega)]

theorem withSignatureConfig_of_legal (hr : Ready s [.sigFieldBytes, .aesKlen]) (h : LegalConfig s .sigGen)
    (k : Nat → Nat → Out) :
    withSignatureConfig s k = k (s.reg .sigFieldBytes).toNat (s.reg .aesKlen).toNat := by
  obtain ⟨hw, hkl⟩ := h
  rw [← legalFieldBytes_iff] at hw
  rw [← legalKeyLength_iff] at hkl
  rw [withSignatureConfig, withReg_of_written (hr _ (by simp)), withReg_of_written (hr _ (by simp)),
    if_pos (by rw [hw, hkl]; rfl)]

theorem lcgCommand_of_overrun {c : LcgSet} (hr : Ready s [.inLen, .outCap])
    (h : (s.reg .outCap).toNat < (s.reg .inLen).toNat) : lcgCommand c s = .next (s.errored .bufferOverrun 0) := by
  rw [lcgCommand, withReg_of_written (hr _ (by simp)), withCapacity_of_overrun (hr _ (by simp)) h]

theorem sealFile_of_overrun (hr : Ready s [.inLen, .outCap]) (h : (s.reg .outCap).toNat < 4) :
    sealFile s = .next (s.errored .bufferOverrun 0) := by
  rw [sealFile, withReg_of_written (hr _ (by simp)), withCapacity_of_overrun (hr _ (by simp)) h]

/-- Each command with a fixed output size comes to its pre-check (R65), and fails it. -/
theorem exec_of_overrun {i : Instr} {size : Nat} (hfix : fixedSize s i = some size) (hlegal : LegalConfig s i)
    (hr : Ready s (commandReads s i)) (h : (s.reg .outCap).toNat < size) :
    exec i s = .next (s.errored .bufferOverrun 0) := by
  cases i
  case r7xDec =>
    cases hfix
    show execR7xDec s = _
    rw [execR7xDec]
    exact withPixels_of_overrun (size := id) (hr.mono (by simp [commandReads])) h
  case difDec =>
    cases hfix
    show execDifDec s = _
    rw [execDifDec]
    exact withPixels_of_overrun (size := id) (hr.mono (by simp [commandReads])) h
  case nibDec =>
    cases hfix
    show execNibDec s = _
    rw [execNibDec]
    exact withPixels_of_overrun (size := id) (hr.mono (by simp [commandReads])) h
  case rgbDec =>
    cases hfix
    show execRgbDec s = _
    rw [execRgbDec]
    exact withPixels_of_overrun (size := (3 * ·)) (hr.mono (by simp [commandReads])) h
  case bplDec =>
    cases hfix
    show execBplDec s = _
    rw [execBplDec, withLevel_of_legal (hr _ (by simp [commandReads])) hlegal]
    exact withPixels_of_overrun (size := id) (hr.mono (by simp [commandReads])) h
  case lcgXor | lcgXor0 | encrypt0 | decrypt0 | lcgXor1 | encrypt1 | decrypt1 =>
    cases hfix
    exact lcgCommand_of_overrun (hr.mono (by simp [commandReads, commandReads.lcgReads])) h
  case crc32File m =>
    cases m <;> cases hfix
    exact sealFile_of_overrun (hr.mono (by simp [commandReads])) h
  case crc32Seal =>
    cases hfix
    exact sealFile_of_overrun (hr.mono (by simp [commandReads])) h
  case sha1 =>
    cases hfix
    show execSha1 s = _
    rw [execSha1, withCapacity_of_overrun (hr _ (by simp [commandReads])) h]
  case sha256 =>
    cases hfix
    show execSha256 s = _
    rw [execSha256, withCapacity_of_overrun (hr _ (by simp [commandReads])) h]
  case sigGen =>
    cases hfix
    show execSigGen s = _
    rw [execSigGen, withSignatureConfig_of_legal (hr.mono (by simp [commandReads, commandReads.signatureReads])) hlegal,
      withCapacity_of_overrun (hr _ (by simp [commandReads])) h]
  all_goals cases hfix

end Capacity

/-- Settles O30. -/
theorem capacityPreCheck : Obligations.CapacityPreCheck :=
  fun _ s _ hfix hlegal hr h => ⟨_, exec_of_overrun hfix hlegal hr h, s.raises_errored .bufferOverrun 0⟩

end Sys2Proof.Machine

/-! The bytes of the encoders' tokens by the tables of R134, R162, R196, R105 and R106: a token's bit fields as numbers. -/

namespace Sys2Proof.Machine

section Fields

variable {m n w l : Nat}

theorem toNat_append_eq_add (c : BitVec m) (d : BitVec n) : (c ++ d).toNat = c.toNat * 2 ^ n + d.toNat := by
  rw [BitVec.toNat_append, ← Nat.shiftLeft_add_eq_or_of_lt d.isLt, Nat.shiftLeft_eq]

/-- A code's leading bits and a field, as one number. -/
theorem append_eq_ofNat (c : BitVec m) (d : BitVec n) : c ++ d = BitVec.ofNat (m + n) (c.toNat * 2 ^ n + d.toNat) := by
  rw [← toNat_append_eq_add, BitVec.ofNat_toNat, BitVec.setWidth_eq]

/-- A code's leading bits and a number that its field holds, as one number. -/
theorem append_ofNat (c : BitVec m) (h : l < 2 ^ n) : c ++ BitVec.ofNat n l = BitVec.ofNat (m + n) (c.toNat * 2 ^ n + l) := by
  rw [append_eq_ofNat, BitVec.toNat_ofNat, Nat.mod_eq_of_lt h]

theorem extract_eq_ofNat (x : BitVec w) (start len : Nat) :
    x.extractLsb' start len = BitVec.ofNat len (x.toNat / 2 ^ start) := by
  refine BitVec.eq_of_toNat_eq ?_
  rw [BitVec.extractLsb'_toNat, BitVec.toNat_ofNat, Nat.shiftRight_eq_div_pow]

/-- A part of a number that a field holds. -/
theorem extract_ofNat (start len : Nat) (h : l < 2 ^ w) :
    (BitVec.ofNat w l).extractLsb' start len = BitVec.ofNat len (l / 2 ^ start) := by
  rw [extract_eq_ofNat, BitVec.toNat_ofNat, Nat.mod_eq_of_lt h]

end Fields

section TokenBytes

variable {l : Nat}

/-- `tok7(c, L)` by the table of R134. -/
theorem tokenBytes_tok7 (c : BitVec 7) (hl : l ≤ 0x0FFFFFFF) : tokenBytes (tok7 c l) = tok7Bytes c l := by
  have hplain : 0#1 ++ c = byteOf c.toNat := (append_eq_ofNat 0#1 c).trans (congrArg byteOf (Nat.zero_add _))
  have hflag : 1#1 ++ c = byteOf (0x80 + c.toNat) := append_eq_ofNat 1#1 c
  have hlen (h : l ≤ 0x7F) : 0#1 ++ BitVec.ofNat 7 l = byteOf l :=
    (append_ofNat 0#1 (by omega)).trans (congrArg byteOf (Nat.zero_add _))
  unfold tok7 tok7Bytes
  split_ifs <;>
    simp (disch := omega) only [tokenBytes, encode, hplain, hflag, hlen, append_ofNat, extract_ofNat, Nat.pow_zero,
      Nat.div_one] <;>
    rfl

/-- A bitplane token: the state in the top bit, the length below (R102, R164). -/
theorem tokenBytes_bplTok (on : Bool) (hl : l ≤ 125) :
    tokenBytes (.bplTok on (BitVec.ofNat 7 l)) = [byteOf ((if on then 0x80 else 0) + l)] := by
  cases on <;> simp (disch := omega) only [tokenBytes, encode, append_ofNat] <;> rfl

/-- A ZERO chunk by the table of R196. -/
theorem tokenBytes_zeroChunk (hl : l ≤ 0x0FFFFFFF) : tokenBytes (zeroChunk l) = literalBytes 0 [] l := by
  unfold zeroChunk literalBytes
  split_ifs <;> simp (disch := omega) only [tokenBytes, encode, append_ofNat, extract_ofNat, Nat.pow_zero, Nat.div_one] <;> rfl

/-- A MAX chunk by the table of R196. -/
theorem tokenBytes_maxChunk (hl : l ≤ 0x0FFFFFFF) : tokenBytes (maxChunk l) = literalBytes 3 [] l := by
  unfold maxChunk literalBytes
  split_ifs <;> simp (disch := omega) only [tokenBytes, encode, append_ofNat, extract_ofNat, Nat.pow_zero, Nat.div_one] <;> rfl

/-- A VALUE chunk by the table of R196. -/
theorem tokenBytes_valueChunk (v : Byte) (hl : l ≤ 0x0FFFFFFF) : tokenBytes (valueChunk v l) = literalBytes 1 [v] l := by
  unfold valueChunk literalBytes
  split_ifs <;> simp (disch := omega) only [tokenBytes, encode, append_ofNat, extract_ofNat, Nat.pow_zero, Nat.div_one] <;> rfl

theorem toNat_delta (v prev : Byte) :
    ((v - prev).setWidth 4).toNat = (((v.toNat : Int) - (prev.toNat : Int)) % 16).toNat := by
  have hv := v.isLt
  have hprev := prev.isLt
  rw [BitVec.toNat_setWidth, BitVec.toNat_sub]
  omega

/-- A DELTA chunk by the table of R196. -/
theorem tokenBytes_deltaChunk (v prev : Byte) (hl : l ≤ 0xFFFFFF) :
    tokenBytes (deltaChunk ((v - prev).setWidth 4) l) = deltaBytes ((v.toNat : Int) - (prev.toNat : Int)) l := by
  unfold deltaChunk deltaBytes
  rw [← toNat_delta]
  dsimp only
  split_ifs <;> simp (disch := omega) only [tokenBytes, encode, append_eq_ofNat, extract_ofNat, Nat.pow_zero, Nat.div_one] <;> rfl

/-- A nibble token by R105. -/
theorem tokenBytes_tokNib (q : BitVec 4) (hl : l ≤ maxNib q) : tokenBytes (tokNib q l) = nibBytes q l := by
  unfold maxNib at hl
  unfold tokNib nibBytes
  by_cases h0 : q = 0x0#4
  · subst h0
    have hl : l ≤ 4095 := hl
    show tokenBytes (.nibBlack (BitVec.ofNat 12 l)) = [byteOf (0 + l / 0x100), byteOf l]
    simp (disch := omega) only [tokenBytes, encode, append_ofNat, extract_ofNat, Nat.pow_zero, Nat.div_one]
    rfl
  · by_cases hF : q = 0xF#4
    · subst hF
      have hl : l ≤ 4095 := hl
      show tokenBytes (.nibWhite (BitVec.ofNat 12 l)) = [byteOf (240 + l / 0x100), byteOf l]
      simp (disch := omega) only [tokenBytes, encode, append_ofNat, extract_ofNat, Nat.pow_zero, Nat.div_one]
      rfl
    · have hq : ¬(q.toNat = 0 ∨ q.toNat = 15) := by
        rw [not_or]
        exact ⟨fun h => h0 (BitVec.eq_of_toNat_eq h), fun h => hF (BitVec.eq_of_toNat_eq h)⟩
      rw [if_neg (by tauto)] at hl
      rw [if_neg h0, if_neg hF, if_neg hq, Nat.mul_comm 16]
      exact congrArg (fun b => [b]) (append_ofNat q (n := 4) (by omega))

/-- The trailer is its value's bytes, the low one first (R233). -/
theorem tokenBytes_nibTrailer (f : BitVec 16) : tokenBytes (.nibTrailer f) = leBytes 2 f.toNat := by
  simp only [tokenBytes, encode, extract_eq_ofNat]
  simp [leBytes, List.range_succ, Nat.shiftRight_eq_div_pow]

/-- The 16-bit word of a packed colour (R260). -/
def rgbWordOf (c : Rgb15) : Nat := 2048 * c.r.toNat + 64 * c.g.toNat + c.b.toNat

theorem rgbWordOf_low (c : Rgb15) (flag : BitVec 1) :
    c.g.extractLsb' 0 2 ++ flag ++ c.b = byteOf (rgbWordOf c + 32 * flag.toNat) := by
  have hb := c.b.isLt
  have hflag := flag.isLt
  refine BitVec.eq_of_toNat_eq ?_
  simp only [toNat_append_eq_add, BitVec.extractLsb'_toNat, Nat.shiftRight_eq_div_pow, byteOf, BitVec.toNat_ofNat, rgbWordOf]
  omega

theorem rgbWordOf_high (c : Rgb15) : c.r ++ c.g.extractLsb' 2 3 = byteOf (rgbWordOf c / 0x100) := by
  have hr := c.r.isLt
  have hg := c.g.isLt
  have hb := c.b.isLt
  refine BitVec.eq_of_toNat_eq ?_
  simp only [toNat_append_eq_add, BitVec.extractLsb'_toNat, Nat.shiftRight_eq_div_pow, byteOf, BitVec.toNat_ofNat, rgbWordOf]
  omega

theorem tokenBytes_rgbWord (c : Rgb15) :
    tokenBytes (.rgbWord c.r c.g c.b) = [byteOf (rgbWordOf c), byteOf (rgbWordOf c / 0x100)] := by
  simp only [tokenBytes, encode, rgbWordOf_low, rgbWordOf_high]
  rfl

theorem tokenBytes_rgbRep (hi : BitVec 4) (c : Rgb15) (hl : l < 4096) :
    tokenBytes (.rgbRep c.r c.g c.b (BitVec.ofNat 12 l) hi) =
      [byteOf (rgbWordOf c + 0x20), byteOf (rgbWordOf c / 0x100), byteOf l, byteOf (16 * hi.toNat + l / 0x100)] := by
  have hhigh : hi ++ BitVec.ofNat 4 (l / 0x100) = byteOf (16 * hi.toNat + l / 0x100) := by
    rw [Nat.mul_comm]
    exact append_ofNat hi (n := 4) (by omega)
  simp (disch := omega) only [tokenBytes, encode, rgbWordOf_low, rgbWordOf_high, extract_ofNat, Nat.pow_zero, Nat.div_one]
  exact congrArg (fun b => [_, _, _, b]) hhigh

/-- The tokens of an RGB15 piece by R263. -/
theorem tokenBytes_tokRgb (hi : BitVec 4) (c : Rgb15) (hpos : 0 < l) (hl : l ≤ 4096) :
    ((tokRgb hi c l).map tokenBytes).flatten = rgbBytes hi c l := by
  obtain rfl | rfl | hlong : l = 1 ∨ l = 2 ∨ 2 < l := by omega
  · simp [tokRgb, rgbBytes, tokenBytes_rgbWord, rgbWordOf]
  · simp [tokRgb, rgbBytes, tokenBytes_rgbWord, rgbWordOf, List.replicate_succ]
  · rw [tokRgb, if_neg (by omega), List.map_singleton, tokenBytes_rgbRep hi c (by omega), rgbBytes, if_neg (by omega),
      if_neg (by omega)]
    rfl

end TokenBytes

section ChunkChoice

variable {l : Nat}

/-- Bytes of a ZERO or MAX chunk, and of a VALUE chunk but its value (R196). -/
def literalSize (l : Nat) : Nat := if l ≤ 0xF then 1 else if l ≤ 0xFFF then 2 else if l ≤ 0xFFFFF then 3 else 4

/-- Bytes of a DELTA chunk (R196). -/
def deltaSize (l : Nat) : Nat := if l = 1 then 1 else if l ≤ 0xFF then 2 else if l ≤ 0xFFFF then 3 else 4

theorem length_literalBytes (ty : Nat) (v : List Byte) (l : Nat) :
    (literalBytes ty v l).length = v.length + literalSize l := by
  unfold literalBytes literalSize
  split_ifs <;> simp

theorem length_deltaBytes (d : Int) (l : Nat) : (deltaBytes d l).length = deltaSize l := by
  unfold deltaBytes deltaSize
  dsimp only
  split_ifs <;> rfl

theorem tokenSize_zeroChunk (hl : l ≤ 0x0FFFFFFF) : tokenSize (zeroChunk l) = literalSize l := by
  rw [tokenSize, tokenBytes_zeroChunk hl, length_literalBytes, List.length_nil, Nat.zero_add]

theorem tokenSize_maxChunk (hl : l ≤ 0x0FFFFFFF) : tokenSize (maxChunk l) = literalSize l := by
  rw [tokenSize, tokenBytes_maxChunk hl, length_literalBytes, List.length_nil, Nat.zero_add]

theorem tokenSize_valueChunk (v : Byte) (hl : l ≤ 0x0FFFFFFF) : tokenSize (valueChunk v l) = 1 + literalSize l := by
  rw [tokenSize, tokenBytes_valueChunk v hl, length_literalBytes, List.length_singleton]

theorem tokenSize_deltaChunk (v prev : Byte) (hl : l ≤ 0xFFFFFF) :
    tokenSize (deltaChunk ((v - prev).setWidth 4) l) = deltaSize l := by
  rw [tokenSize, tokenBytes_deltaChunk v prev hl, length_deltaBytes]

/-- A DELTA chunk is never shorter than a ZERO or MAX chunk of its length (R194). -/
theorem literalSize_le_deltaSize (l : Nat) : literalSize l ≤ deltaSize l := by
  unfold literalSize deltaSize
  split_ifs <;> omega

/-- The lengths for which a DELTA chunk is shorter than a VALUE chunk (R194). -/
theorem deltaSize_lt_iff (h : 1 ≤ l) :
    deltaSize l < 1 + literalSize l ↔
      l = 1 ∨ (16 ≤ l ∧ l ≤ 255) ∨ (4096 ≤ l ∧ l ≤ 65535) ∨ 2 ^ 20 ≤ l := by
  unfold literalSize deltaSize
  split_ifs <;> omega

/-- A candidate that no later one undercuts is the chunk taken. -/
theorem fewestBytes_eq_of_le {best : Instr} {is : List Instr} (h : ∀ i ∈ is, tokenSize best ≤ tokenSize i) :
    fewestBytes best is = best := by
  induction is with
  | nil => rfl
  | cons i is ih =>
    obtain ⟨hi, his⟩ := List.forall_mem_cons.mp h
    rw [fewestBytes, if_neg (by omega), ih his]

/-- The candidates that stand behind a ZERO or MAX chunk: VALUE, and DELTA where it fits (R194). -/
theorem literalSize_le_of_mem {v prev : Byte} {i : Instr} (hl : l ≤ 0x0FFFFFFF)
    (hi : i ∈ if deltaFits v prev l then [valueChunk v l, deltaChunk ((v - prev).setWidth 4) l] else [valueChunk v l]) :
    literalSize l ≤ tokenSize i := by
  have hvalue : literalSize l ≤ tokenSize (valueChunk v l) := by rw [tokenSize_valueChunk v hl]; omega
  split at hi
  · rename_i hfits
    have hlen : l ≤ 0xFFFFFF := by simp [deltaFits] at hfits; omega
    obtain rfl | rfl := List.mem_pair.mp hi
    · exact hvalue
    · rw [tokenSize_deltaChunk v prev hlen]
      exact literalSize_le_deltaSize l
  · rw [List.mem_singleton.mp hi]
    exact hvalue

theorem chooseChunk_zero (prev : Byte) (hl : l ≤ 0x0FFFFFFF) : chooseChunk 0x00#8 l prev = zeroChunk l := by
  refine fewestBytes_eq_of_le fun i hi => ?_
  rw [tokenSize_zeroChunk hl]
  exact literalSize_le_of_mem hl hi

theorem chooseChunk_max (prev : Byte) (hl : l ≤ 0x0FFFFFFF) : chooseChunk 0xFF#8 l prev = maxChunk l := by
  refine fewestBytes_eq_of_le fun i hi => ?_
  rw [tokenSize_maxChunk hl]
  exact literalSize_le_of_mem hl hi

/-- Of a VALUE and a DELTA chunk the shorter one is taken, and VALUE where they are equally long (R194). -/
theorem chooseChunk_other {v : Byte} (prev : Byte) (h0 : v ≠ 0x00#8) (hF : v ≠ 0xFF#8) :
    chooseChunk v l prev =
      if deltaFits v prev l = true ∧ tokenSize (deltaChunk ((v - prev).setWidth 4) l) < tokenSize (valueChunk v l) then
        deltaChunk ((v - prev).setWidth 4) l
      else valueChunk v l := by
  rw [chooseChunk, chunkCandidates, if_neg h0, if_neg hF]
  cases deltaFits v prev l <;> simp [fewestBytes]

/-- The chunk that DIF.ENC takes is the one that R194 names as its rule's result. -/
theorem tokenBytes_chooseChunk (v prev : Byte) (hpos : 0 < l) (hl : l ≤ 0x0FFFFFFF) :
    tokenBytes (chooseChunk v l prev) = chunkBytes v l prev := by
  rw [chunkBytes]
  by_cases h0 : v = 0x00#8
  · rw [if_pos h0, h0, chooseChunk_zero prev hl, tokenBytes_zeroChunk hl]
  by_cases hF : v = 0xFF#8
  · rw [if_neg h0, if_pos hF, hF, chooseChunk_max prev hl, tokenBytes_maxChunk hl]
  rw [if_neg h0, if_neg hF, chooseChunk_other prev h0 hF, apply_ite tokenBytes, tokenBytes_valueChunk v hl]
  by_cases hlen : l ≤ 0xFFFFFF
  · rw [tokenBytes_deltaChunk v prev hlen]
    refine if_congr ?_ rfl rfl
    rw [tokenSize_deltaChunk v prev hlen, tokenSize_valueChunk v hl, deltaSize_lt_iff hpos]
    simp only [deltaFits, decide_eq_true_eq]
    omega
  · rw [if_neg (by simp [deltaFits]; omega), if_neg (by omega)]

end ChunkChoice

end Sys2Proof.Machine

/-! The table-driven CRC update is the bit-serial one (46_crc.md R310, R311, R320, R321), for every width and polynomial. -/

namespace Sys2Proof.Machine

section Crc

variable {w : Nat} (poly : BitVec w)

theorem crcShift_xor (x y : BitVec w) : crcShift poly (x ^^^ y) = crcShift poly x ^^^ crcShift poly y := by
  unfold crcShift
  rw [BitVec.getLsbD_xor, BitVec.ushiftRight_xor_distrib]
  generalize x >>> 1 = u, y >>> 1 = v
  have hcancel : u ^^^ poly ^^^ (v ^^^ poly) = u ^^^ v := by
    rw [BitVec.xor_comm v, ← BitVec.xor_assoc, BitVec.xor_assoc u, BitVec.xor_self, BitVec.xor_zero]
  cases x.getLsbD 0 <;> cases y.getLsbD 0
  · rfl
  · exact BitVec.xor_assoc u v poly
  · show u ^^^ v ^^^ poly = u ^^^ poly ^^^ v
    rw [BitVec.xor_assoc, BitVec.xor_comm v, BitVec.xor_assoc]
  · exact hcancel.symm

theorem repeat_crcShift_xor (n : Nat) (x y : BitVec w) :
    Nat.repeat (crcShift poly) n (x ^^^ y) = Nat.repeat (crcShift poly) n x ^^^ Nat.repeat (crcShift poly) n y := by
  induction n with
  | zero => rfl
  | succ n ih => exact (congrArg (crcShift poly) ih).trans (crcShift_xor poly _ _)

/-- Shift steps over zero bits only shift. -/
theorem repeat_crcShift_of_low_zero {n : Nat} {x : BitVec w} (h : ∀ i < n, x.getLsbD i = false) :
    Nat.repeat (crcShift poly) n x = x >>> n := by
  induction n with
  | zero => simp [Nat.repeat]
  | succ n ih =>
    have hbit : (x >>> n).getLsbD 0 = false := by rw [BitVec.getLsbD_ushiftRight]; exact h n n.lt_succ_self
    show crcShift poly (Nat.repeat (crcShift poly) n x) = _
    rw [ih fun i hi => h i (by omega), crcShift, hbit, if_neg Bool.false_ne_true, BitVec.shiftRight_add]

/-- Eight shift steps of a register: its upper bits shifted down, and the shift steps of its low byte. -/
theorem repeat_crcShift_byte (x : BitVec w) :
    Nat.repeat (crcShift poly) 8 x = (x >>> 8) ^^^ Nat.repeat (crcShift poly) 8 ((x.setWidth 8).setWidth w) := by
  have hsplit : x = (x >>> 8) <<< 8 ^^^ (x.setWidth 8).setWidth w := by
    ext i hi
    by_cases h8 : i < 8
    · simp [h8, hi]
    · simp [h8, hi, show 8 + (i - 8) = i by omega]
  have hlow (i : Nat) (hi : i < 8) : ((x >>> 8) <<< 8).getLsbD i = false := by simp [hi]
  have hupper : ((x >>> 8) <<< 8) >>> 8 = x >>> 8 := by
    ext i hi
    simp only [BitVec.getElem_ushiftRight, BitVec.getLsbD_shiftLeft, BitVec.getLsbD_ushiftRight]
    by_cases h : 8 + i < w
    · simp [h]
    · simp [h, BitVec.getLsbD_of_ge x (8 + i) (by omega)]
  conv_lhs => rw [hsplit, repeat_crcShift_xor, repeat_crcShift_of_low_zero poly hlow, hupper]

/-- Bits into the register one by one: the message may stand in the register from the start. -/
theorem foldl_crcBit (c x : BitVec w) (n : Nat) :
    ((List.range n).map x.getLsbD).foldl (crcBit poly) c = Nat.repeat (crcShift poly) n (c ^^^ x) ^^^ (x >>> n) := by
  induction n with
  | zero => simp [Nat.repeat]
  | succ n ih =>
    rw [List.range_succ, List.map_append, List.foldl_append, ih]
    show crcBit poly (Nat.repeat (crcShift poly) n (c ^^^ x) ^^^ (x >>> n)) (x.getLsbD n) =
      crcShift poly (Nat.repeat (crcShift poly) n (c ^^^ x)) ^^^ (x >>> (n + 1))
    generalize Nat.repeat (crcShift poly) n (c ^^^ x) = r
    rw [crcBit, crcShift, BitVec.getLsbD_xor, BitVec.getLsbD_ushiftRight, Nat.add_zero, Bool.xor_assoc, Bool.xor_self,
      Bool.xor_false, BitVec.ushiftRight_xor_distrib, BitVec.shiftRight_add]
    split
    · rw [BitVec.xor_assoc, BitVec.xor_assoc, BitVec.xor_comm poly]
    · rfl

/-- One byte of a message: eight bits one by one, or one look into the table (R310, R320). -/
theorem foldl_crcBit_byte (hw : 8 ≤ w) (c : BitVec w) (b : Byte) :
    ((List.range 8).map b.getLsbD).foldl (crcBit poly) c =
      (c >>> 8) ^^^ Nat.repeat (crcShift poly) 8 ((c.setWidth 8 ^^^ b).setWidth w) := by
  have hbits : (List.range 8).map b.getLsbD = (List.range 8).map (b.setWidth w).getLsbD := by
    refine List.map_congr_left fun i hi => ?_
    have : i < w := by have := List.mem_range.mp hi; omega
    simp [this]
  have hgone : b.setWidth w >>> 8 = 0#w := by
    refine BitVec.eq_of_toNat_eq ?_
    rw [BitVec.toNat_ushiftRight, BitVec.toNat_setWidth, Nat.shiftRight_eq_div_pow]
    exact Nat.div_eq_of_lt (Nat.lt_of_le_of_lt (Nat.mod_le _ _) b.isLt)
  have hlow : (c ^^^ b.setWidth w).setWidth 8 = c.setWidth 8 ^^^ b := by
    rw [BitVec.setWidth_xor]
    simp [hw]
  rw [hbits, foldl_crcBit, hgone, BitVec.xor_zero, repeat_crcShift_byte, BitVec.ushiftRight_xor_distrib, hgone, BitVec.xor_zero,
    hlow]

/-- The table-driven CRC of a message is the bit-serial one. -/
theorem bitSerialCrc_eq_foldl {step : BitVec w → Byte → BitVec w}
    (hstep : ∀ c b, ((List.range 8).map b.getLsbD).foldl (crcBit poly) c = step c b) (init : BitVec w) (bs : List Byte) :
    bitSerialCrc poly init bs = bs.foldl step init := by
  rw [bitSerialCrc, messageBits, List.foldl_flatten, List.foldl_map]
  simp only [hstep]

end Crc

theorem crc16Raw_eq (init : BitVec 16) (bs : List Byte) : crc16Raw init bs = bitSerialCrc 0xA001#16 init bs :=
  (bitSerialCrc_eq_foldl _ (foldl_crcBit_byte _ (by decide)) init bs).symm

end Sys2Proof.Machine

/-! What the encoders emit: their pieces are the emits that R133, R164, R195, R233 and R263 list, bytes and error offsets. -/

namespace Sys2Proof.Machine

section Emits

variable {κ : Type}

theorem mem_cutRun {max n l : Nat} (hmax : 0 < max) (h : l ∈ cutRun max n) : 0 < l ∧ l ≤ max := by
  rw [cutRun, List.mem_append] at h
  obtain h | h := h
  · rw [List.eq_of_mem_replicate h]
    exact ⟨hmax, Nat.le_refl _⟩
  · split at h
    · cases h
    · rw [List.mem_singleton.mp h]
      exact ⟨by omega, Nat.le_of_lt (Nat.mod_lt _ hmax)⟩

theorem mem_cutRuns {max : κ → Nat} (hmax : ∀ k, 0 < max k) {runs : List (κ × Nat)} {p : κ × Nat}
    (h : p ∈ cutRuns max runs) : 0 < p.2 ∧ p.2 ≤ max p.1 := by
  simp only [cutRuns, List.mem_flatten, List.mem_map] at h
  obtain ⟨_, ⟨r, -, rfl⟩, hp⟩ := h
  obtain ⟨l, hl, rfl⟩ := List.mem_map.mp hp
  rw [greedy_eq_cutRun (hmax r.1)] at hl
  exact mem_cutRun (hmax r.1) hl

/-- Pieces that lie end to end are emitted in order, each with the offset of its first pixel. -/
theorem StartsFrom.map_eq_emitsFrom {a per : Nat} {ps : List (RunPiece κ)} (hps : StartsFrom a ps)
    (bytes : κ → Nat → List Byte) :
    (ps.map fun p => ⟨bytes p.key p.len, per * p.start⟩) = emitsFrom per bytes a (ps.map fun p => (p.key, p.len)) := by
  induction ps generalizing a with
  | nil => rfl
  | cons p ps ih =>
    obtain ⟨rfl, hps⟩ := startsFrom_cons_iff.mp hps
    rw [List.map_cons, ih hps, List.map_cons, emitsFrom]

/-- Diff-chunk pieces that lie end to end, each after the value of the one before. -/
theorem StartsFrom.chunkPieces_eq {a : Nat} {prev : Byte} {ps : List (RunPiece Byte)} (hps : StartsFrom a ps)
    (hlen : ∀ p ∈ ps, 0 < p.len ∧ p.len ≤ 0x0FFFFFFF) :
    chunkPieces prev ps = chunkEmits prev a (ps.map fun p => (p.key, p.len)) := by
  induction ps generalizing a prev with
  | nil => rfl
  | cons p ps ih =>
    obtain ⟨rfl, hps⟩ := startsFrom_cons_iff.mp hps
    obtain ⟨⟨hpos, hmax⟩, hlen⟩ := List.forall_mem_cons.mp hlen
    rw [chunkPieces, ih hps hlen, tokenBytes_chooseChunk _ _ hpos hmax, List.map_cons, chunkEmits]

variable [DecidableEq κ] {max : κ → Nat} {keys : List κ} {runs : List (κ × Nat)}

theorem startsFrom_piecesOf : StartsFrom 0 (piecesOf max keys) := startsFrom_piecesFrom max 0 (runsOf keys)

/-- The pieces that an encoder cuts are the greedy cuts of the maximal runs (R14). -/
theorem IsRuns.map_piecesOf (h : IsRuns keys runs) (hmax : ∀ k, 0 < max k) :
    ((piecesOf max keys).map fun p => (p.key, p.len)) = cutRuns max runs := by
  rw [h.eq_runsOf]
  exact piecesFrom_keyLen hmax 0 (runsOf keys)

theorem length_of_mem_piecesOf (hmax : ∀ k, 0 < max k) {p : RunPiece κ} (hp : p ∈ piecesOf max keys) :
    0 < p.len ∧ p.len ≤ max p.key := by
  have := List.mem_map_of_mem (f := fun p : RunPiece κ => (p.key, p.len)) hp
  rw [(isRuns_runsOf keys).map_piecesOf hmax] at this
  exact mem_cutRuns hmax this

/-- An encoder whose piece is emitted as `emit` says emits the cuts of the maximal runs, where `emit` gives a piece its
bytes and the offset of its first pixel. -/
theorem IsRuns.map_eq_emitsFrom (h : IsRuns keys runs) (hmax : ∀ k, 0 < max k) {per : Nat} {bytes : κ → Nat → List Byte}
    {emit : RunPiece κ → Piece}
    (hemit : ∀ p : RunPiece κ, 0 < p.len → p.len ≤ max p.key → emit p = ⟨bytes p.key p.len, per * p.start⟩) :
    (piecesOf max keys).map emit = emitsFrom per bytes 0 (cutRuns max runs) := by
  rw [← h.map_piecesOf hmax, ← startsFrom_piecesOf.map_eq_emitsFrom]
  refine List.map_congr_left fun p hp => ?_
  obtain ⟨hpos, hle⟩ := length_of_mem_piecesOf hmax hp
  exact hemit p hpos hle

end Emits

section Encoders

variable {bmp : List Byte}

theorem colour7_eq (b : Byte) : colour7 b = BitVec.ofNat 7 (b.toNat / 2) := extract_eq_ofNat b 1 7

theorem colourNib_eq (b : Byte) : colourNib b = BitVec.ofNat 4 (b.toNat / 16) := extract_eq_ofNat b 4 4

/-- The emits of R7X.ENC (R133). -/
theorem encode7x_eq {runs : List (BitVec 7 × Nat)} (h : IsRuns (bmp.map fun b => BitVec.ofNat 7 (b.toNat / 2)) runs) :
    encode7x bmp = emitsFrom 1 tok7Bytes 0 (cutRuns (fun _ => 0x0FFFFFFF) runs) := by
  simp only [← colour7_eq] at h
  refine h.map_eq_emitsFrom (fun _ => by decide) fun p _ hle => ?_
  rw [tokenBytes_tok7 _ hle, Nat.one_mul]

/-- The emits of one plane of BPL.ENC (R164). -/
theorem encodePlane_eq {bits : List Bool} {runs : List (Bool × Nat)} (h : IsRuns bits runs) :
    encodePlane bits = emitsFrom 1 (fun on l => [byteOf ((if on then 0x80 else 0) + l)]) 0 (cutRuns (fun _ => 125) runs) := by
  refine h.map_eq_emitsFrom (fun _ => by decide) fun p _ hle => ?_
  rw [tokenBytes_bplTok _ hle, Nat.one_mul]

/-- The emits of BPL.ENC (R164). -/
theorem encodeBpl_eq {v : Variant} {n : Nat} {es : List Piece} (h : IsPlaneEmits v n bmp es) :
    (encodeBpl v n bmp).flatten = es := by
  obtain ⟨runs, rfl, hruns, rfl⟩ := h
  refine congrArg List.flatten (List.ext_getElem (by simp [encodeBpl]) fun k h1 h2 => ?_)
  simp only [encodeBpl, List.getElem_map, List.getElem_range]
  exact encodePlane_eq (hruns k (by simpa using h2))

/-- The chunks of DIF.ENC (R195). -/
theorem encodeDifChunks_eq {runs : List (Byte × Nat)} (h : IsRuns bmp runs) :
    encodeDifChunks bmp = chunkEmits 0#8 0 (cutRuns (fun _ => 0x0FFFFFFF) runs) := by
  rw [encodeDifChunks, ← h.map_piecesOf (fun _ => by decide)]
  exact startsFrom_piecesOf.chunkPieces_eq fun p hp => length_of_mem_piecesOf (fun _ => by decide) hp

/-- The tokens of NIB.ENC (R233). -/
theorem encodeNibTokens_eq {runs : List (BitVec 4 × Nat)} (h : IsRuns (bmp.map fun b => BitVec.ofNat 4 (b.toNat / 16)) runs) :
    encodeNibTokens bmp =
      emitsFrom 1 nibBytes 0 (cutRuns (fun q => if q.toNat = 0 ∨ q.toNat = 15 then 4095 else 15) runs) := by
  simp only [← colourNib_eq] at h
  have hmax : (fun q : BitVec 4 => if q.toNat = 0 ∨ q.toNat = 15 then 4095 else 15) = maxNib := by
    funext q
    simp only [maxNib, ← BitVec.toNat_inj]
    rfl
  rw [hmax]
  refine h.map_eq_emitsFrom (fun q => ?_) fun p _ hle => ?_
  · unfold maxNib
    split <;> decide
  · rw [tokenBytes_tokNib _ hle, Nat.one_mul]

/-- The emits of RGB.ENC (R263). -/
theorem emitRgb_eq {p : Nat} {runs : List (Rgb15 × Nat)} (hi : BitVec 4) (hlen : bmp.length = 3 * p)
    (h : IsRuns (packedColours p bmp) runs) :
    emitRgb hi (rgbPieces bmp) = emitsFrom 3 (rgbBytes hi) 0 (cutRuns (fun _ => 4096) runs) := by
  rw [← packPixels_eq hlen] at h
  refine h.map_eq_emitsFrom (fun _ => by decide) fun p hpos hle => ?_
  rw [tokenBytes_tokRgb hi _ hpos hle]

end Encoders

end Sys2Proof.Machine

/-! Where the encoders raise (R64, R391, R401, R413): a wrong IN_LEN, and the first `emit` that does not fit. -/

namespace Sys2Proof.Machine

section Emission

variable {s : State}

/-- How an emission of the pieces ends (R64): BufferOverrun at the offset of the first `emit` that does not fit, DONE with
all bytes where all fit. -/
structure EmissionEnds (s : State) (es : List Piece) (o : Out) : Prop where
  overrun : ∀ (before after : List Piece) (p : Piece), es = before ++ p :: after →
    (pieceBytes before).length ≤ (s.reg .outCap).toNat →
    (s.reg .outCap).toNat < (pieceBytes before).length + p.bytes.length →
    ∃ t, o = .next t ∧ Raises s t .bufferOverrun p.errOff []
  done : (pieceBytes es).length ≤ (s.reg .outCap).toNat →
    ∃ t, o = .next t ∧ t.reg .status = 0x00000002#32 ∧ (t.reg .outLen).toNat = (pieceBytes es).length

/-- The `emit` that does not fit ends the command, whatever was to follow. -/
theorem emitAll_of_firstOverrun {ps : List Piece} {off : Nat} (hc : s.isWritten .outCap = true)
    (h : firstOverrun (s.reg .outCap).toNat 0 ps = some off) (k : State → Out) :
    emitAll s ps k = .next (s.errored .bufferOverrun off) := by
  refine emitAll_next_iff.mpr (.inr ⟨?_, hc, .inl ⟨off, h, rfl⟩⟩)
  rintro rfl
  cases h

theorem emitAll_of_overrun {before after : List Piece} {p : Piece} (hc : s.isWritten .outCap = true)
    (hfit : (pieceBytes before).length ≤ (s.reg .outCap).toNat)
    (hover : (s.reg .outCap).toNat < (pieceBytes before).length + p.bytes.length) (k : State → Out) :
    emitAll s (before ++ p :: after) k = .next (s.errored .bufferOverrun p.errOff) :=
  emitAll_of_firstOverrun hc
    ((firstOverrun_some_iff (Nat.zero_le _)).mpr ⟨before, p, after, rfl, rfl, by omega, by omega⟩) k

/-- An emission after which the command is DONE with the bytes emitted. -/
theorem emissionEnds_emitAll {es : List Piece} {k : State → Out} (hc : s.isWritten .outCap = true)
    (hk : ∀ u, ∃ v : State, k u = .next (v.completed (pieceBytes es).length)) : EmissionEnds s es (emitAll s es k) where
  overrun before after p hes hfit hover := by
    subst hes
    exact ⟨_, emitAll_of_overrun hc hfit hover k, s.raises_errored .bufferOverrun p.errOff⟩
  done hfit := by
    obtain ⟨v, hv⟩ := hk (if es = [] then s else s.putOut 0 (pieceBytes es))
    have hlt : (pieceBytes es).length < 2 ^ 32 := Nat.lt_of_le_of_lt hfit (s.reg .outCap).isLt
    refine ⟨_, (emitAll_of_fits hc hfit k).trans hv, v.reg_status_completed _, ?_⟩
    rw [State.reg_outLen_completed, BitVec.toNat_ofNat, Nat.mod_eq_of_lt hlt]

theorem emissionEnds_emitCommand {es : List Piece} (hc : s.isWritten .outCap = true) :
    EmissionEnds s es (emitCommand s es) :=
  emissionEnds_emitAll hc fun u => ⟨u, rfl⟩

theorem emitCommand_completes {ps : List Piece} (h : HasRoom s (pieceBytes ps).length) :
    ∃ t, emitCommand s ps = .next t ∧ Completes s t (pieceBytes ps) [] := by
  refine ⟨_, emitAll_of_fits h.written h.fits _, ?_⟩
  split
  · rename_i hnil
    subst hnil
    exact completes_outRange h
  · exact completes_putOut h

/-- Pieces emitted first on trial change nothing: what does not fit among them is the first that does not fit at all. -/
theorem emitAll_then_emitCommand (ps qs : List Piece) (hc : s.isWritten .outCap = true) :
    (emitAll s ps fun _ => emitCommand s (ps ++ qs)) = emitCommand s (ps ++ qs) := by
  cases hover : firstOverrun (s.reg .outCap).toNat 0 ps with
  | none =>
    have := (firstOverrun_none_iff (Nat.zero_le _)).mp hover
    rw [emitAll_of_fits hc (by omega)]
  | some off =>
    obtain ⟨before, p, after, rfl, rfl, hfit, hp⟩ := (firstOverrun_some_iff (Nat.zero_le _)).mp hover
    rw [emitAll_of_overrun hc (by omega) (by omega), emitCommand, List.append_assoc, List.cons_append,
      emitAll_of_overrun hc (by omega) (by omega)]

/-- Plain words do not hold RGB_REP_HI (R106). -/
theorem emitRgb_of_plain (hi hi' : BitVec 4) {ps : List (RunPiece Rgb15)} (h : ∀ p ∈ ps, p.len ≤ 2) :
    emitRgb hi ps = emitRgb hi' ps := by
  refine List.map_congr_left fun p hp => ?_
  rw [tokRgb, tokRgb, if_pos (h p hp), if_pos (h p hp)]

/-- With OUT_CAP and RGB_REP_HI written, RGB.ENC emits its pieces in order (R263). -/
theorem rgbEmission_eq (hr : Ready s [.outCap, .rgbRepHi]) (bmp : List Byte) :
    rgbEmission s bmp = emitCommand s (emitRgb ((s.reg .rgbRepHi).setWidth 4) (rgbPieces bmp)) := by
  have hplain : ∀ p ∈ (rgbPieces bmp).takeWhile (fun p => decide (p.len ≤ 2)), p.len ≤ 2 :=
    fun p hp => of_decide_eq_true (List.mem_takeWhile_imp (p := fun p : RunPiece Rgb15 => decide (p.len ≤ 2)) hp)
  have hsplit (hi : BitVec 4) : emitRgb hi (rgbPieces bmp) =
      emitRgb hi ((rgbPieces bmp).takeWhile fun p => decide (p.len ≤ 2)) ++
        emitRgb hi ((rgbPieces bmp).dropWhile fun p => decide (p.len ≤ 2)) := by
    rw [emitRgb, emitRgb, emitRgb, ← List.map_append, List.takeWhile_append_dropWhile]
  unfold rgbEmission
  dsimp only
  split
  · rename_i hall
    rw [(List.takeWhile_sublist _).eq_of_length hall] at hplain
    rw [emitRgb_of_plain 0#4 _ hplain]
  · rw [emitRgb_of_plain 0#4 ((s.reg .rgbRepHi).setWidth 4) hplain, withReg_of_written (hr _ (by simp)), hsplit]
    exact emitAll_then_emitCommand _ _ (hr _ (by simp))

end Emission

section Errors

variable {s : State} {i : Instr} {bmp : List Byte} {es : List Piece}

theorem withBitmap_of_wrong_length {per : Nat} (hr : Ready s [.width, .height, .inLen])
    (h : (s.reg .inLen).toNat ≠ per * pixelCount s) (k : List Byte → Out) :
    withBitmap s per k = .next (s.errored .corruptedStream 0) := by
  rw [withBitmap, withPixels_eq_pixelCount (hr _ (by simp)) (hr _ (by simp)), withReg_of_written (hr _ (by simp)), if_pos h,
    raiseError_eq]

theorem withBitmap_of_holds {per : Nat} (h : HoldsBitmap s per bmp) (k : List Byte → Out) : withBitmap s per k = k bmp := by
  have hready : Ready s [.width, .height, .inLen] :=
    List.forall_mem_cons.mpr ⟨h.size _ (by simp), List.forall_mem_cons.mpr
      ⟨h.size _ (by simp), List.forall_mem_singleton.mpr h.input.written⟩⟩
  rw [withBitmap_of_length hready (h.input.length.trans h.pixels), h.input.inRange_eq]

/-- BPL.ENC past its check of AA_N (R401). -/
theorem bplEncode_of_legal {v : Variant} (haa : s.isWritten .aaN = true) (hlegal : LegalConfig s .bplDec) :
    bplEncode v s = withBitmap s 1 fun bitmap =>
      let planes := encodeBpl v (s.reg .aaN).toNat bitmap
      emitAll s planes.flatten fun t =>
        finishCommand (t.setPlaneLens (planes.map fun ps => (pieceBytes ps).length)) (pieceBytes planes.flatten).length := by
  rw [bplEncode, withLevel_of_legal haa hlegal]

theorem bplEncode_wrong_length {v : Variant} (hr : Ready s [.width, .height, .inLen, .aaN]) (hlegal : LegalConfig s .bplDec)
    (h : (s.reg .inLen).toNat ≠ 1 * pixelCount s) : bplEncode v s = .next (s.errored .corruptedStream 0) := by
  rw [bplEncode_of_legal (hr _ (by simp)) hlegal, withBitmap_of_wrong_length (hr.mono (by simp)) h]

theorem bplEncode_ends {v : Variant} (hr : Ready s [.outCap, .aaN]) (hlegal : LegalConfig s .bplDec) (hb : HoldsBitmap s 1 bmp)
    (hes : IsPlaneEmits v (s.reg .aaN).toNat bmp es) : EmissionEnds s es (bplEncode v s) := by
  rw [bplEncode_of_legal (hr _ (by simp)) hlegal, withBitmap_of_holds hb]
  dsimp only
  rw [encodeBpl_eq hes]
  exact emissionEnds_emitAll (hr _ (by simp)) fun u => ⟨_, rfl⟩

theorem execR7xEnc_ends (hc : s.isWritten .outCap = true) (hb : HoldsBitmap s 1 bmp) (hes : IsEmits s bmp es .r7xEnc) :
    EmissionEnds s es (execR7xEnc s) := by
  obtain ⟨runs, hruns, rfl⟩ := hes
  rw [execR7xEnc, withBitmap_of_holds hb, encode7x_eq hruns]
  exact emissionEnds_emitCommand hc

theorem execDifEnc_ends (hr : Ready s [.outCap, .diffMagic]) (hb : HoldsBitmap s 1 bmp) (hes : IsEmits s bmp es .difEnc) :
    EmissionEnds s es (execDifEnc s) := by
  obtain ⟨runs, chunks, hruns, rfl, rfl⟩ := hes
  rw [execDifEnc, withBitmap_of_holds hb, withReg_of_written (hr _ (by simp)), encodeDif, dsum_eq, encodeDifChunks_eq hruns]
  exact emissionEnds_emitCommand (hr _ (by simp))

theorem execNibEnc_ends (hr : Ready s [.outCap, .crc16Init]) (hb : HoldsBitmap s 1 bmp) (hes : IsEmits s bmp es .nibEnc) :
    EmissionEnds s es (execNibEnc s) := by
  obtain ⟨runs, toks, hruns, rfl, rfl⟩ := hes
  rw [execNibEnc, withBitmap_of_holds hb, withReg_of_written (hr _ (by simp)), encodeNib, crc16Raw_eq, tokenBytes_nibTrailer,
    encodeNibTokens_eq hruns]
  exact emissionEnds_emitCommand (hr _ (by simp))

theorem execRgbEnc_ends (hr : Ready s [.outCap, .rgbRepHi]) (hb : HoldsBitmap s 3 bmp) (hes : IsEmits s bmp es .rgbEnc) :
    EmissionEnds s es (execRgbEnc s) := by
  obtain ⟨runs, hruns, rfl⟩ := hes
  rw [execRgbEnc_eq, withBitmap_of_holds hb, rgbEmission_eq hr, emitRgb_eq _ hb.pixels hruns]
  exact emissionEnds_emitCommand (hr _ (by simp))

/-- A wrong IN_LEN, after the check of AA_N (R391, R401). -/
theorem encoder_wrong_length (hi : i ∈ [.r7xEnc, .bplEnc .a, .bplEnc .b, .bplEncA, .bplEncB, .difEnc, .nibEnc, .rgbEnc])
    (hr : Ready s (commandReads s i)) (hlegal : i ∈ bplEncoders.map Prod.fst → LegalConfig s .bplDec)
    (h : (s.reg .inLen).toNat ≠ (if i = .rgbEnc then 3 else 1) * pixelCount s) :
    exec i s = .next (s.errored .corruptedStream 0) := by
  cases i
  case r7xEnc =>
    show execR7xEnc s = _
    rw [execR7xEnc, withBitmap_of_wrong_length (per := 1) (hr.mono (by simp [commandReads])) h]
  case difEnc =>
    show execDifEnc s = _
    rw [execDifEnc, withBitmap_of_wrong_length (per := 1) (hr.mono (by simp [commandReads])) h]
  case nibEnc =>
    show execNibEnc s = _
    rw [execNibEnc, withBitmap_of_wrong_length (per := 1) (hr.mono (by simp [commandReads])) h]
  case rgbEnc =>
    show execRgbEnc s = _
    rw [execRgbEnc_eq, withBitmap_of_wrong_length (per := 3) (hr.mono (by simp [commandReads])) h]
  case bplEnc v => exact bplEncode_wrong_length (hr.mono (by simp [commandReads])) (hlegal (by cases v <;> decide)) h
  case bplEncA | bplEncB => exact bplEncode_wrong_length (hr.mono (by simp [commandReads])) (hlegal (by decide)) h
  all_goals simp at hi

/-- Every encoder's emission ends as its rule says. -/
theorem encoder_ends (hes : IsEmits s bmp es i) (hb : HoldsBitmap s (if i = .rgbEnc then 3 else 1) bmp)
    (hr : Ready s (commandReads s i)) (hlegal : i ∈ bplEncoders.map Prod.fst → LegalConfig s .bplDec) :
    EmissionEnds s es (exec i s) := by
  cases i
  case r7xEnc => exact execR7xEnc_ends (hr _ (by simp [commandReads])) hb hes
  case difEnc => exact execDifEnc_ends (hr.mono (by simp [commandReads])) hb hes
  case nibEnc => exact execNibEnc_ends (hr.mono (by simp [commandReads])) hb hes
  case rgbEnc => exact execRgbEnc_ends (hr.mono (by simp [commandReads])) hb hes
  case bplEnc v =>
    exact bplEncode_ends (hr.mono (by simp [commandReads])) (hlegal (by cases v <;> decide)) hb hes
  case bplEncA | bplEncB => exact bplEncode_ends (hr.mono (by simp [commandReads])) (hlegal (by decide)) hb hes
  all_goals cases hes

end Errors

/-- Settles O40: each encoder emits the list its rule gives, and an emission ends at its first `emit` that does not fit. -/
theorem encoderErrors : Obligations.EncoderErrors := by
  refine ⟨fun i s hi hr hlegal h => ⟨_, encoder_wrong_length hi hr hlegal h, s.raises_errored .corruptedStream 0⟩,
    fun i s bmp es hes hb hr hlegal => ?_, fun s before after p hc hfit hover => ?_, fun s ps h => emitCommand_completes h⟩
  · have hends := encoder_ends hes hb hr hlegal
    exact ⟨hends.overrun, hends.done⟩
  · exact (emissionEnds_emitCommand hc).overrun before after p rfl hfit hover

end Sys2Proof.Machine

/-! The codes of 30_encoding.md, both ways: what is encoded reads back, and what is read encodes back; which patterns and which
CMD words are no instruction (R90 to R93, R100 to R108). -/

namespace Sys2Proof

section Fields

/-- A code is its leading bits and what lies below them. -/
theorem append_low_of_top {m k : Nat} {x : BitVec (m + k)} {c : BitVec m} (h : x.extractLsb' k m = c) :
    c ++ x.extractLsb' 0 k = x := by
  rw [← h, BitVec.extractLsb'_append_extractLsb']

/-- The leading bits of a byte, as a number. -/
theorem top_eq_iff {start len : Nat} (h : start + len = 8) (b : Byte) (c : BitVec len) :
    b.extractLsb' start len = c ↔ b.toNat / 2 ^ start = c.toNat := by
  have hlt : b.toNat / 2 ^ start < 2 ^ len := by
    rw [Nat.div_lt_iff_lt_mul (by positivity), ← pow_add, Nat.add_comm len, h]
    exact b.isLt
  rw [← BitVec.toNat_inj, BitVec.extractLsb'_toNat, Nat.shiftRight_eq_div_pow, Nat.mod_eq_of_lt hlt]

theorem flag_eq_one {x : BitVec 1} (h : x ≠ 0#1) : x = 1#1 := (BitVec.eq_zero_or_eq_one x).resolve_left h

theorem extract_extract {n start len a l : Nat} (x : BitVec n) (h : a + l ≤ len) :
    (x.extractLsb' start len).extractLsb' a l = x.extractLsb' (start + a) l := by
  ext i hi
  simp [BitVec.getElem_extractLsb', Nat.add_assoc, show a + i < len by omega]

/-- Green lies across the two bytes of a colour word (R106). -/
theorem colourWord_green (r g b : BitVec 5) (flag : BitVec 1) :
    (r ++ g.extractLsb' 2 3 ++ (g.extractLsb' 0 2 ++ flag ++ b)).extractLsb' 6 5 = g := by
  rw [← BitVec.extractLsb'_append_extractLsb'_eq_extractLsb' (start₂ := 8) (len₁ := 2) (len₂ := 3) rfl]
  simp (disch := omega) only [BitVec.extractLsb'_append_eq_of_le, BitVec.extractLsb'_append_eq_of_add_le,
    BitVec.extractLsb'_append_extractLsb'_eq_extractLsb', BitVec.extractLsb'_eq_self, Nat.sub_self]

/-- The low byte of a colour word: two bits of green, the flag, blue (R106). -/
theorem colourWord_low (w : BitVec 16) :
    (w.extractLsb' 6 5).extractLsb' 0 2 ++ w.extractLsb' 5 1 ++ w.extractLsb' 0 5 = w.extractLsb' 0 8 := by
  simp (disch := omega) only [extract_extract, BitVec.extractLsb'_append_extractLsb'_eq_extractLsb']

/-- The high byte of a colour word: red, three bits of green (R106). -/
theorem colourWord_high (w : BitVec 16) :
    w.extractLsb' 11 5 ++ (w.extractLsb' 6 5).extractLsb' 2 3 = w.extractLsb' 8 8 := by
  simp (disch := omega) only [extract_extract, BitVec.extractLsb'_append_extractLsb'_eq_extractLsb']

end Fields

section Encoded

variable {i : Instr}

theorem wellFormed_of_format (h : i.format ≠ .nib) : i.wellFormed = true := by
  cases i <;> first | rfl | exact absurd rfl h

theorem encode_eq_bytes (h : i.format ≠ .command) : encode i = .bytes (tokenBytes i) := by
  cases i <;> first | rfl | exact absurd rfl h

theorem decodeR7x_tokenBytes_append (hf : i.format = .r7x) (rest : List Byte) :
    decodeR7x (tokenBytes i ++ rest) = .ok (i, rest) := by
  cases i <;> cases hf
  all_goals
    simp (disch := omega) only [tokenBytes, encode, decodeR7x, List.cons_append, List.nil_append,
      BitVec.extractLsb'_append_eq_of_le, BitVec.extractLsb'_append_eq_of_add_le,
      BitVec.extractLsb'_append_extractLsb'_eq_extractLsb', BitVec.extractLsb'_eq_self]
    rfl

theorem decodeBpl_tokenBytes_append (hf : i.format = .bpl) (rest : List Byte) :
    decodeBpl (tokenBytes i ++ rest) = .ok (i, rest) := by
  cases i <;> cases hf
  case bplTok on l =>
    simp (disch := omega) only [tokenBytes, encode, decodeBpl, List.cons_append, List.nil_append,
      BitVec.extractLsb'_append_eq_of_le, BitVec.extractLsb'_append_eq_of_add_le, BitVec.extractLsb'_eq_self]
    cases on <;> rfl

theorem decodeDif_tokenBytes_append (hf : i.format = .dif) (rest : List Byte) :
    decodeDif (tokenBytes i ++ rest) = .ok (i, rest) := by
  cases i <;> cases hf
  all_goals
    simp (disch := omega) only [tokenBytes, encode, decodeDif, List.cons_append, List.nil_append,
      BitVec.extractLsb'_append_eq_of_le, BitVec.extractLsb'_append_eq_of_add_le,
      BitVec.extractLsb'_append_extractLsb'_eq_extractLsb', BitVec.extractLsb'_eq_self, Nat.sub_self]

/-- A grey token's colour is neither that of NIB.BLACK nor that of NIB.WHITE (R105). -/
theorem decodeNib_tokenBytes_append (hf : i.format = .nib) (hwf : i.wellFormed = true) (rest : List Byte) :
    decodeNib (tokenBytes i ++ rest) = .ok (i, rest) := by
  cases i <;> cases hf
  all_goals
    simp (disch := omega) only [tokenBytes, encode, decodeNib, List.cons_append, List.nil_append,
      BitVec.extractLsb'_append_eq_of_le, BitVec.extractLsb'_append_eq_of_add_le,
      BitVec.extractLsb'_append_extractLsb'_eq_extractLsb', BitVec.extractLsb'_eq_self, Nat.sub_self]
  case nibBlack | nibWhite => rfl
  case nibGrey c l =>
    simp only [Instr.wellFormed, Bool.and_eq_true, bne_iff_ne] at hwf
    obtain ⟨h0, hF⟩ := hwf
    rw [if_neg h0, if_neg hF]

theorem decodeRgb_tokenBytes_append (hf : i.format = .rgb) (rest : List Byte) :
    decodeRgb (tokenBytes i ++ rest) = .ok (i, rest) := by
  cases i <;> cases hf
  all_goals
    simp (disch := omega) only [tokenBytes, encode, decodeRgb, List.cons_append, List.nil_append, colourWord_green,
      BitVec.extractLsb'_append_eq_of_le, BitVec.extractLsb'_append_eq_of_add_le,
      BitVec.extractLsb'_append_extractLsb'_eq_extractLsb', BitVec.extractLsb'_eq_self, Nat.sub_self]
    simp

/-- A token or framing field reads back from its bytes, whatever follows them. -/
theorem decodeBytes_tokenBytes_append (hf : i.format ≠ .command) (hwf : i.wellFormed = true) (rest : List Byte) :
    decodeBytes i.format (tokenBytes i ++ rest) = .ok (i, rest) := by
  cases h : i.format
  case command => exact absurd h hf
  case r7x => exact decodeR7x_tokenBytes_append h rest
  case bpl => exact decodeBpl_tokenBytes_append h rest
  case dif => exact decodeDif_tokenBytes_append h rest
  case nib => exact decodeNib_tokenBytes_append h hwf rest
  case rgb => exact decodeRgb_tokenBytes_append h rest
  case difMagic | difChecksum =>
    cases i <;> cases h
    rfl
  case nibTrailer =>
    cases i <;> cases h
    simp (disch := omega) only [tokenBytes, encode, decodeBytes, List.cons_append, List.nil_append,
      BitVec.extractLsb'_append_extractLsb'_eq_extractLsb', BitVec.extractLsb'_eq_self]

/-- A command reads back from its word as the command whose name it is (R111). -/
theorem decodeCommand_encode (h : i.format = .command) : ∃ w, encode i = .word w ∧ decodeCommand w = .ok i.canon := by
  cases i
  case bplEnc v => cases v <;> exact ⟨_, rfl, rfl⟩
  case lcgXor c => cases c <;> exact ⟨_, rfl, rfl⟩
  case crc16 f => cases f <;> exact ⟨_, rfl, rfl⟩
  case crc32File m => cases m <;> exact ⟨_, rfl, rfl⟩
  all_goals first | exact ⟨_, rfl, rfl⟩ | cases h

end Encoded

/-- Settles O1, format by format. -/
theorem decodeEncodeAgree : Obligations.DecodeEncodeAgree := by
  refine fun i hwf => ⟨fun hc => ?_, fun hf => ⟨encode_eq_bytes hf, decodeBytes_tokenBytes_append hf hwf⟩⟩
  obtain ⟨w, hw, hd⟩ := decodeCommand_encode hc
  rw [hw, decode, hd]
  rfl

section Decoded

variable {bs rest : List Byte} {i : Instr}

theorem tokenBytes_of_decodeR7x (h : decodeR7x bs = .ok (i, rest)) : tokenBytes i ++ rest = bs := by
  match bs, h with
  | b0 :: bs, h =>
    simp only [decodeR7x] at h
    split_ifs at h with h0
    · cases h
      exact congrArg (· :: _) (append_low_of_top (m := 1) (k := 7) (x := b0) h0)
    have hflag := append_low_of_top (m := 1) (k := 7) (x := b0) (flag_eq_one h0)
    match bs, h with
    | b1 :: bs, h =>
      dsimp only at h
      split_ifs at h with h7 h14 h21 h28
      · cases h
        have htop := append_low_of_top (m := 1) (k := 7) (x := b1) h7
        simp only [tokenBytes, encode, List.cons_append, List.nil_append, hflag, htop]
      · match bs, h with
        | b2 :: bs, h =>
          cases h
          have htop := append_low_of_top (m := 2) (k := 6) (x := b1) h14
          simp (disch := omega) only [tokenBytes, encode, List.cons_append, List.nil_append,
            BitVec.extractLsb'_append_eq_of_le, BitVec.extractLsb'_append_eq_of_add_le, BitVec.extractLsb'_eq_self,
            Nat.sub_self, hflag, htop]
      · match bs, h with
        | b2 :: b3 :: bs, h =>
          cases h
          have htop := append_low_of_top (m := 3) (k := 5) (x := b1) h21
          simp (disch := omega) only [tokenBytes, encode, List.cons_append, List.nil_append,
            BitVec.extractLsb'_append_eq_of_le, BitVec.extractLsb'_append_eq_of_add_le, BitVec.extractLsb'_eq_self,
            Nat.sub_self, hflag, htop]
      · match bs, h with
        | b2 :: b3 :: b4 :: bs, h =>
          cases h
          have htop := append_low_of_top (m := 4) (k := 4) (x := b1) h28
          simp (disch := omega) only [tokenBytes, encode, List.cons_append, List.nil_append,
            BitVec.extractLsb'_append_eq_of_le, BitVec.extractLsb'_append_eq_of_add_le, BitVec.extractLsb'_eq_self,
            Nat.sub_self, hflag, htop]

theorem tokenBytes_of_decodeBpl (h : decodeBpl bs = .ok (i, rest)) : tokenBytes i ++ rest = bs := by
  match bs, h with
  | b :: bs, h =>
    cases h
    refine congrArg (· :: _) (append_low_of_top (m := 1) (k := 7) (x := b) ?_)
    obtain h | h := BitVec.eq_zero_or_eq_one (b.extractLsb' 7 1) <;> rw [h] <;> rfl

theorem tokenBytes_of_decodeDif (h : decodeDif bs = .ok (i, rest)) : tokenBytes i ++ rest = bs := by
  match bs, h with
  | b0 :: bs, h =>
    unfold decodeDif at h
    dsimp only at h
    split at h <;> cases h
    all_goals
      have htop := append_low_of_top (m := 4) (k := 4) (x := b0) ‹_›
      simp (disch := omega) only [tokenBytes, encode, List.cons_append, List.nil_append,
        BitVec.extractLsb'_append_eq_of_le, BitVec.extractLsb'_append_eq_of_add_le, BitVec.extractLsb'_eq_self,
        Nat.sub_self, htop]

/-- A two-byte nibble token, by its colour (R105). -/
theorem tokenBytes_of_nibLong {b0 b1 : Byte} {c : BitVec 4} (h : b0.extractLsb' 4 4 = c) :
    [c ++ (b0.extractLsb' 0 4 ++ b1).extractLsb' 8 4, (b0.extractLsb' 0 4 ++ b1).extractLsb' 0 8] = [b0, b1] := by
  have htop := append_low_of_top (m := 4) (k := 4) (x := b0) h
  simp (disch := omega) only [BitVec.extractLsb'_append_eq_of_le, BitVec.extractLsb'_append_eq_of_add_le,
    BitVec.extractLsb'_eq_self, Nat.sub_self, htop]

theorem tokenBytes_of_decodeNib (h : decodeNib bs = .ok (i, rest)) : i.wellFormed = true ∧ tokenBytes i ++ rest = bs := by
  match bs, h with
  | b0 :: bs, h =>
    simp only [decodeNib] at h
    split_ifs at h with h0 hF
    · cases bs <;> cases h
      exact ⟨rfl, congrArg (· ++ rest) (tokenBytes_of_nibLong h0)⟩
    · cases bs <;> cases h
      exact ⟨rfl, congrArg (· ++ rest) (tokenBytes_of_nibLong hF)⟩
    · cases h
      exact ⟨by simp [Instr.wellFormed, h0, hF],
        congrArg (· :: _) (append_low_of_top (m := 4) (k := 4) (x := b0) rfl)⟩

theorem tokenBytes_of_decodeRgb (h : decodeRgb bs = .ok (i, rest)) : tokenBytes i ++ rest = bs := by
  match bs, h with
  | b0 :: b1 :: bs, h =>
    simp only [decodeRgb] at h
    have hhigh := (colourWord_high (b1 ++ b0)).trans BitVec.extractLsb'_append_eq_left
    have hlow {flag : BitVec 1} (hflag : (b1 ++ b0).extractLsb' 5 1 = flag) :=
      hflag ▸ (colourWord_low (b1 ++ b0)).trans BitVec.extractLsb'_append_eq_right
    split_ifs at h with hflag
    · cases h
      simp only [tokenBytes, encode, List.cons_append, List.nil_append, hlow hflag, hhigh]
    · match bs, h with
      | b2 :: b3 :: bs, h =>
        cases h
        simp only [tokenBytes, encode, List.cons_append, List.nil_append, hlow (flag_eq_one hflag), hhigh]
        simp (disch := omega) only [BitVec.extractLsb'_append_eq_of_le, BitVec.extractLsb'_append_eq_of_add_le,
          BitVec.extractLsb'_eq_self, Nat.sub_self, append_low_of_top (m := 4) (k := 4) (x := b3) rfl]

/-- What a decoder answers: an instruction of its format, and the bytes it was read from. -/
def ReadFrom (f : Format) (bs : List Byte) (i : Instr) (rest : List Byte) : Prop :=
  i.format = f ∧ i.wellFormed = true ∧ tokenBytes i ++ rest = bs

theorem readFrom_of_decodeBytes {f : Format} (h : decodeBytes f bs = .ok (i, rest)) : ReadFrom f bs i rest := by
  have hread {f : Format} (hf : i.format = f) (hne : f ≠ .nib) (hbs : tokenBytes i ++ rest = bs) : ReadFrom f bs i rest :=
    ⟨hf, wellFormed_of_format (hf ▸ hne), hbs⟩
  cases f
  case command => cases h
  case r7x => exact hread (decodeR7x_consumes h).1 (by decide) (tokenBytes_of_decodeR7x h)
  case bpl => exact hread (decodeBpl_consumes h).1 (by decide) (tokenBytes_of_decodeBpl h)
  case dif => exact hread (decodeDif_consumes h).1 (by decide) (tokenBytes_of_decodeDif h)
  case nib => exact ⟨(decodeNib_consumes h).1, tokenBytes_of_decodeNib h⟩
  case rgb => exact hread (decodeRgb_consumes h).1 (by decide) (tokenBytes_of_decodeRgb h)
  case difMagic | difChecksum =>
    match bs, h with
    | b :: bs, h => cases h; exact ⟨rfl, rfl, rfl⟩
  case nibTrailer =>
    match bs, h with
    | f0 :: f1 :: bs, h =>
      cases h
      refine ⟨rfl, rfl, ?_⟩
      simp only [tokenBytes, encode, List.cons_append, List.nil_append, BitVec.extractLsb'_append_eq_right,
        BitVec.extractLsb'_append_eq_left]

end Decoded

section Commands

variable {opt : BitVec 4} {opc : BitVec 8} {i j i0 i1 : Instr} {w : Word}

theorem plainCommand_ok_iff : plainCommand opt i = .ok j ↔ opt = 0#4 ∧ j = i := by
  unfold plainCommand
  split <;> simp [*, eq_comm]

theorem optionCommand_ok_iff : optionCommand opt i0 i1 = .ok j ↔ (opt = 0#4 ∧ j = i0) ∨ (opt = 1#4 ∧ j = i1) := by
  unfold optionCommand
  split_ifs with h0 h1
  · simp [h0, eq_comm]
  · simp [h1, eq_comm]
  · simp [h0, h1]

/-- A command as the opcode map has it (R91, R92): it is no second name, and its word holds `opt` and `opc`. -/
structure IsCommand (opt : BitVec 4) (opc : BitVec 8) (i : Instr) : Prop where
  format : i.format = .command
  canon : i.canon = i
  word : encode i = .word (commandWord opt opc)

/-- A line of the opcode map without options, and the lines below it. -/
theorem of_plainLine {c : BitVec 8} {y : Except DecodeError Instr} (hj : IsCommand 0#4 c j)
    (hy : y = .ok i → IsCommand opt opc i) (h : (if opc = c then plainCommand opt j else y) = .ok i) :
    IsCommand opt opc i := by
  split at h
  · subst opc
    obtain ⟨rfl, rfl⟩ := plainCommand_ok_iff.mp h
    exact hj
  · exact hy h

/-- A line of the opcode map with an option, and the lines below it. -/
theorem of_optionLine {c : BitVec 8} {y : Except DecodeError Instr} (h0 : IsCommand 0#4 c i0) (h1 : IsCommand 1#4 c i1)
    (hy : y = .ok i → IsCommand opt opc i) (h : (if opc = c then optionCommand opt i0 i1 else y) = .ok i) :
    IsCommand opt opc i := by
  split at h
  · subst opc
    obtain ⟨rfl, rfl⟩ | ⟨rfl, rfl⟩ := optionCommand_ok_iff.mp h
    exacts [h0, h1]
  · exact hy h

/-- The opcode map, line by line. -/
theorem isCommand_of_decodeOpcode : decodeOpcode opc opt = .ok i → IsCommand opt opc i := by
  unfold decodeOpcode
  iterate 3 refine of_plainLine (by exact ⟨rfl, rfl, rfl⟩) ?_
  refine of_optionLine (by exact ⟨rfl, rfl, rfl⟩) (by exact ⟨rfl, rfl, rfl⟩) ?_
  iterate 6 refine of_plainLine (by exact ⟨rfl, rfl, rfl⟩) ?_
  iterate 2 refine of_optionLine (by exact ⟨rfl, rfl, rfl⟩) (by exact ⟨rfl, rfl, rfl⟩) ?_
  refine of_plainLine (by exact ⟨rfl, rfl, rfl⟩) ?_
  refine of_optionLine (by exact ⟨rfl, rfl, rfl⟩) (by exact ⟨rfl, rfl, rfl⟩) ?_
  iterate 4 refine of_plainLine (by exact ⟨rfl, rfl, rfl⟩) ?_
  exact fun h => nomatch h

/-- A CMD word with RSV = 0 is its two fields (R90). -/
theorem commandWord_fields (h : w.extractLsb' 12 20 = 0#20) : commandWord (w.extractLsb' 8 4) (w.extractLsb' 0 8) = w := by
  rw [commandWord, ← h]
  simp (disch := omega) only [BitVec.extractLsb'_append_extractLsb'_eq_extractLsb', BitVec.extractLsb'_eq_self]

theorem encode_of_decodeCommand (h : decodeCommand w = .ok i) : i.format = .command ∧ i.canon = i ∧ encode i = .word w := by
  unfold decodeCommand at h
  split at h
  · obtain ⟨hf, hc, hw⟩ := isCommand_of_decodeOpcode h
    rw [commandWord_fields ‹_›] at hw
    exact ⟨hf, hc, hw⟩
  · cases h

/-- The words of R91 and R92. -/
def commandWords : List Word :=
  [0x001#32, 0x002#32, 0x003#32, 0x004#32, 0x104#32, 0x005#32, 0x006#32, 0x007#32, 0x008#32, 0x009#32, 0x00A#32, 0x010#32,
    0x110#32, 0x020#32, 0x120#32, 0x021#32, 0x022#32, 0x122#32, 0x030#32, 0x031#32, 0x040#32, 0x041#32]

/-- The words that are commands are the codes of the commands. -/
theorem decodeCommand_ok_iff : (∃ i, decodeCommand w = .ok i) ↔ w ∈ commandWords := by
  constructor
  · rintro ⟨i, h⟩
    obtain ⟨hf, -, hw⟩ := encode_of_decodeCommand h
    clear h
    cases i
    case bplEnc v => cases v <;> cases hw <;> decide
    case lcgXor c => cases c <;> cases hw <;> decide
    case crc16 f => cases f <;> cases hw <;> decide
    case crc32File m => cases m <;> cases hw <;> decide
    all_goals cases hf <;> cases hw <;> decide
  · intro hw
    fin_cases hw <;> exact ⟨_, rfl⟩

/-- The words of R91 and R92 by their fields. -/
theorem mem_commandWords_iff :
    w ∈ commandWords ↔
      w.toNat < 0x1000 ∧
      (w.toNat % 0x100) ∈ [0x01, 0x02, 0x03, 0x04, 0x05, 0x06, 0x07, 0x08, 0x09, 0x0A, 0x10, 0x20, 0x21, 0x22, 0x30, 0x31,
        0x40, 0x41] ∧
      w.toNat / 0x100 ≤ 1 ∧
      (w.toNat / 0x100 = 1 → (w.toNat % 0x100) ∈ [0x04, 0x10, 0x20, 0x22]) := by
  constructor
  · intro h
    fin_cases h <;> decide
  · rintro ⟨-, hopc, hopt, hone⟩
    have hw : w = BitVec.ofNat 32 (w.toNat / 0x100 * 0x100 + w.toNat % 0x100) := by
      rw [Nat.div_add_mod', BitVec.ofNat_toNat, BitVec.setWidth_eq]
    rw [hw]
    generalize w.toNat % 0x100 = opc at *
    generalize w.toNat / 0x100 = opt at *
    interval_cases opt
    · fin_cases hopc <;> decide
    · have hopc' := hone rfl
      clear hopc hone hw
      fin_cases hopc' <;> decide

theorem error_iff_not_ok {ε α : Type} {x : Except ε α} : (∃ e, x = .error e) ↔ ¬∃ a, x = .ok a := by
  cases x <;> simp

end Commands

/-- Settles O2: a command word by the opcode map, a token by its decoder. -/
theorem decodedEncodesBack : Obligations.DecodedEncodesBack := by
  refine ⟨fun w i h => ?_, fun f bs i rest h => readFrom_of_decodeBytes h⟩
  obtain ⟨hf, hc, hw⟩ := encode_of_decodeCommand h
  exact ⟨hf, wellFormed_of_format (by rw [hf]; decide), hc, hw⟩

/-- Settles O5: a word is a command exactly where it is a command's code. -/
theorem illegalCommandWords : Obligations.IllegalCommandWords := by
  intro w
  rw [error_iff_not_ok, decodeCommand_ok_iff, mem_commandWords_iff, not_and_or, not_and_or, not_and_or, Nat.not_lt, Nat.not_le,
    Classical.not_imp]

section Illegal

/-- The 7-bit-extend length byte 1111xxxx after a flagged colour byte (R100, R108). -/
theorem decodeR7x_illegalPattern {b0 b1 : Byte} (h0 : 0x80 ≤ b0.toNat) (h1 : 0xF0 ≤ b1.toNat) (rest : List Byte) :
    decodeR7x (b0 :: b1 :: rest) = .error .illegalPattern := by
  have hlt0 := b0.isLt
  have hlt1 := b1.isLt
  simp (disch := omega) only [decodeR7x, top_eq_iff, BitVec.reduceToNat, Nat.reducePow]
  rw [if_neg (by omega), if_neg (by omega), if_neg (by omega), if_neg (by omega), if_neg (by omega)]

theorem decodeR7x_five_ok {b0 b1 : Byte} (h : ¬(0x80 ≤ b0.toNat ∧ 0xF0 ≤ b1.toNat)) (b2 b3 b4 : Byte)
    (rest : List Byte) :
    ∃ d, decodeR7x (b0 :: b1 :: b2 :: b3 :: b4 :: rest) = .ok d := by
  have hlt0 := b0.isLt
  have hlt1 := b1.isLt
  simp (disch := omega) only [decodeR7x, top_eq_iff, BitVec.reduceToNat, Nat.reducePow]
  split_ifs
  iterate 5 exact ⟨_, rfl⟩
  omega

/-- With five bytes at hand only a 7-bit-extend token can be illegal (R108). -/
theorem decodeBytes_five_ok {f : Format} (hc : f ≠ .command) (h7 : f ≠ .r7x) (b0 b1 b2 b3 b4 : Byte) (rest : List Byte) :
    ∃ d, decodeBytes f (b0 :: b1 :: b2 :: b3 :: b4 :: rest) = .ok d := by
  cases f
  case command => exact absurd rfl hc
  case r7x => exact absurd rfl h7
  case bpl | difMagic | difChecksum | nibTrailer => exact ⟨_, rfl⟩
  case dif =>
    simp only [decodeBytes, decodeDif]
    generalize b0.extractLsb' 4 4 = x
    obtain ⟨x⟩ := x
    fin_cases x <;> exact ⟨_, rfl⟩
  case nib =>
    simp only [decodeBytes, decodeNib]
    split_ifs <;> exact ⟨_, rfl⟩
  case rgb =>
    simp only [decodeBytes, decodeRgb]
    split_ifs <;> exact ⟨_, rfl⟩

end Illegal

/-- Settles O4: the 7-bit-extend decoder by its two bytes, every other one accepts. -/
theorem onlyIllegalTokenPattern : Obligations.OnlyIllegalTokenPattern := by
  intro f b0 b1 b2 b3 b4 rest hf
  by_cases h7 : f = .r7x
  · subst h7
    refine ⟨⟨fun herr => ⟨rfl, ?_⟩, fun ⟨_, h0, h1⟩ => ⟨_, decodeR7x_illegalPattern h0 h1 _⟩⟩,
      fun _ h0 h1 => decodeR7x_illegalPattern h0 h1 _⟩
    by_contra h
    exact error_iff_not_ok.mp herr (decodeR7x_five_ok h b2 b3 b4 rest)
  · have hok := decodeBytes_five_ok hf h7 b0 b1 b2 b3 b4 rest
    exact ⟨⟨fun herr => absurd hok (error_iff_not_ok.mp herr), fun h => absurd h.1 h7⟩, fun h => absurd h h7⟩

/-- Settles O3, word by word. -/
theorem specWordsDecode : Obligations.SpecWordsDecode :=
  ⟨rfl, rfl, rfl, rfl, rfl, rfl, rfl, rfl, rfl, rfl, rfl, rfl⟩

end Sys2Proof

/-! The tokens of a stream as one run: a decoding command that stands at tokens for all its pixels writes them and ends DONE
(R131, R191, R106, R393). The framing fields that pass, and the emission of DIF.ENC. -/

namespace Sys2Proof.Machine

section Framing

/-- A turn that writes nothing. -/
theorem advances_put_nil (s : State) (w : Work) :
    ∃ t, (Effect.put 0 [] w).apply s = .next t ∧ Advances s t w 0 [] := by
  refine ⟨{ s with work := some w }, ?_, rfl, rfl, ((Moves.refl s).setWork _).keepsHost, fun a => ?_⟩
  · simp only [Effect.apply, State.putOut_nil]
  · rw [dif_neg (by simp only [List.length_nil]; omega)]
    rfl

/-- A DIF.MAGIC that equals DIFF_MAGIC (R193). -/
theorem fieldEffect_magic {s : State} {m : Byte} (hwr : s.isWritten .diffMagic = true)
    (hm : s.reg .diffMagic = m.setWidth 32) (w : Work) :
    fieldEffect s w (.difMagic m) = .put 0 [] { w with phase := .checksum, ic := 1 } := by
  rw [fieldEffect, if_pos hwr, if_neg (not_not.mpr ((diffMagic_eq_iff s m).mp hm))]

/-- A DIF.CHECKSUM that equals the complemented sum of the chunk bytes (R192, R193). -/
theorem fieldEffect_checksum {s : State} {w : Work} {k : Byte} (hk : k = complementSum (s.inRange 1 (w.stop - 1))) :
    fieldEffect s w (.difChecksum k) = .put 0 [] { w with phase := .tokens } := by
  rw [fieldEffect, dsum_eq, if_neg (not_not.mpr hk)]

theorem execNibTrailer_eq_apply {s : State} {w : Work} (hw : s.work = some w) (hs : w.stream = .nib) (hp : w.phase = .tokens)
    (hstop : w.stop ≤ w.ic) (f : BitVec 16) :
    execNibTrailer f s = (Effect.put 0 [] { w with tok := w.ic, ic := w.ic + 2 }).apply s := by
  rw [execNibTrailer, ← hs, ← hp, withStream_of_work hw, if_neg (by omega)]
  simp only [Effect.apply, State.putOut_nil]
  rfl

end Framing

/-- Settles O23, field by field. -/
theorem framingFieldsPass : Obligations.FramingFieldsPass := by
  intro s w hw
  refine ⟨fun m hs hp hwr hm => ?_, fun k hs hp hk => ?_, fun f hs hp hstop => ?_⟩
  · show ∃ t, execDifMagic m s = .next t ∧ _
    rw [execDifMagic_eq_apply hw hs hp, fieldEffect_magic hwr hm]
    exact advances_put_nil s _
  · show ∃ t, execDifChecksum k s = .next t ∧ _
    rw [execDifChecksum_eq_apply hw hs hp, fieldEffect_checksum hk]
    exact advances_put_nil s _
  · show ∃ t, execNibTrailer f s = .next t ∧ _
    rw [execNibTrailer_eq_apply hw hs hp hstop]
    exact advances_put_nil s _

theorem pieceBytes_chunkEmits (prev : Byte) (start : Nat) (ps : List (Byte × Nat)) :
    pieceBytes (chunkEmits prev start ps) = chunkStream prev ps := by
  induction ps generalizing prev start with
  | nil => rfl
  | cons p ps ih => rw [chunkEmits, pieceBytes_cons, ih, chunkStream]

/-- Settles O37: the emits of R195 fit OUT, so their bytes are its output. -/
theorem difEncodes : Obligations.DifEncodes := by
  intro s magic bmp runs chunks hb hwr hmagic hruns hchunks hroom
  have hbytes : pieceBytes (encodeDif magic bmp) = [magic] ++ chunks ++ [complementSum chunks] := by
    rw [encodeDif, dsum_eq, encodeDifChunks_eq hruns, pieceBytes_append, pieceBytes_append, pieceBytes_chunkEmits, ← hchunks]
    rfl
  have hexec : exec .difEnc s = emitCommand s (encodeDif magic bmp) := by
    show execDifEnc s = _
    rw [execDifEnc, withBitmap_of_holds hb, withReg_of_written hwr, ← (diffMagic_eq_iff s magic).mp hmagic]
  rw [hexec, ← hbytes]
  refine emitCommand_completes ?_
  rw [hbytes]
  simpa using hroom

section Pixels

/-- `prev` after a run that came after a pixel of value `prev` (R191). -/
def RunToken.prevFrom (k : RunToken) (prev : Byte) : Byte :=
  if k.stream = .dif ∧ 0 < k.len then k.pixel.headD 0#8 else prev

/-- The pixels of one token after a pixel of value `prev`: how many, their bytes, and `prev` after them (R131, R191). -/
inductive TokenMakes (prev : Byte) (i : Instr) : Nat → List Byte → Byte → Prop
  | run {k : RunToken} (hk : runToken i = some k) :
      TokenMakes prev i k.len (List.replicate k.len k.pixel).flatten (k.prevFrom prev)
  | delta {k : DeltaToken} {v : Byte} (hk : deltaToken i = some k) (hv : (v.toNat : Int) = (prev.toNat : Int) + k.delta) :
      TokenMakes prev i k.len (List.replicate k.len v) (if 0 < k.len then v else prev)

/-- The pixels of tokens, one after the other. -/
inductive Makes : Byte → List Instr → List Byte → Prop
  | nil (prev : Byte) : Makes prev [] []
  | cons {prev prev' : Byte} {i : Instr} {is : List Instr} {l : Nat} {bs px : List Byte}
      (h : TokenMakes prev i l bs prev') (hs : Makes prev' is px) : Makes prev (i :: is) (bs ++ px)

variable {prev prev' : Byte} {i : Instr} {l : Nat} {bs : List Byte} {toks : List Instr}

theorem TokenMakes.length_eq (h : TokenMakes prev i l bs prev') {st : Stream} (hf : i.format = st.format) :
    bs.length = st.pixelBytes * l := by
  cases h with
  | run hk =>
    obtain ⟨hk', -, hpx, -⟩ := runToken_spec hk
    rw [length_replicate_flatten, hpx, Stream.format_inj (hk'.symm.trans hf)]
  | delta hk =>
    obtain rfl : Stream.dif = st := Stream.format_inj ((deltaToken_spec hk).1.symm.trans hf)
    rw [List.length_replicate]
    exact (Nat.one_mul _).symm

/-- A token that fits in the token region and in P pixels: it is passed, and its pixels go to OUT (R37, R395). -/
theorem TokenMakes.tokenEffect_eq {w : Work} (h : TokenMakes w.prev i l bs prev') (hf : i.format = w.stream.format)
    (hfit : w.ic + tokenSize i ≤ w.stop) (hpc : w.pc + l ≤ w.pixels) :
    tokenEffect w i = .put (w.stream.pixelBytes * w.pc) bs
      { w with tok := w.ic, ic := w.ic + tokenSize i, pc := w.pc + l, prev := prev' } := by
  rw [tokenEffect_of_fits hfit]
  cases h with
  | @run k hk =>
    obtain ⟨hk', -, hpx, -⟩ := runToken_spec hk
    obtain hst : k.stream = w.stream := Stream.format_inj (hk'.symm.trans hf)
    rw [takenEffect_run hk, runEffect, if_neg (by simpa using hpc), hpx, hst, RunToken.newPrev, RunToken.prevFrom]
    by_cases hlen : 0 < k.len <;> simp [hlen, hst]
  | @delta k v hk hv =>
    obtain hst : Stream.dif = w.stream := Stream.format_inj ((deltaToken_spec hk).1.symm.trans hf)
    have hlt := v.isLt
    rw [takenEffect_delta hk, deltaEffect, ← hst]
    dsimp only
    rw [← hv, if_neg (by omega), runEffect, if_neg (by simpa using hpc)]
    simp [Stream.pixelBytes]

theorem makes_streamPixels (h : ∀ i ∈ toks, ∃ k, runToken i = some k) (prev : Byte) :
    Makes prev toks (streamPixels toks) := by
  induction toks generalizing prev with
  | nil => exact .nil prev
  | cons i is ih =>
    obtain ⟨⟨k, hk⟩, his⟩ := List.forall_mem_cons.mp h
    have := Makes.cons (.run hk) (ih his (k.prevFrom prev))
    simpa [streamPixels, hk] using this

/-- The chunks of R104 make the pixels that R191 gives them. -/
theorem makes_difPixels {px : List Byte} (hf : ∀ i ∈ toks, i.format = .dif) (h : difPixels prev toks = some px) :
    Makes prev toks px := by
  induction toks generalizing prev px with
  | nil => cases h; exact .nil prev
  | cons i is ih =>
    obtain ⟨hi, his⟩ := List.forall_mem_cons.mp hf
    obtain ⟨k, hk, hst⟩ | ⟨k, hk, -⟩ | ⟨_, _, _, hst⟩ := token_cases (st := .dif) hi
    · have hd : deltaToken i = none := by
        cases hd : deltaToken i with
        | none => rfl
        | some k' => rw [(deltaToken_spec hd).2.2] at hk; cases hk
      simp only [difPixels, hd, hk, Option.map_eq_some_iff] at h
      obtain ⟨px', hpx', rfl⟩ := h
      refine .cons (.run hk) ?_
      simp only [RunToken.prevFrom, hst, true_and]
      exact ih his hpx'
    · simp only [difPixels, hk] at h
      split at h
      · obtain ⟨px', hpx', rfl⟩ := Option.map_eq_some_iff.mp h
        refine .cons (.delta hk ?_) (ih his hpx')
        rw [byteOf, BitVec.toNat_ofNat]
        omega
      · cases h
    · cases hst

end Pixels

section Scan

variable {s : State} {w : Work}

theorem State.inRange_add (s : State) (a m n : Nat) : s.inRange a (m + n) = s.inRange a m ++ s.inRange (a + m) n := by
  simp [State.inRange, List.range_add, Nat.add_assoc]

theorem State.inRange_split {a n : Nat} {xs ys : List Byte} (h : s.inRange a n = xs ++ ys) :
    s.inRange a xs.length = xs ∧ s.inRange (a + xs.length) (n - xs.length) = ys := by
  have hn : n = xs.length + ys.length := by simpa using congrArg List.length h
  subst hn
  rw [State.inRange_add] at h
  rw [Nat.add_sub_cancel_left]
  exact List.append_inj h (by simp)

theorem Memory.putAll_append (m : Memory) (a : Nat) (xs ys : List Byte) :
    m.putAll a (xs ++ ys) = (m.putAll a xs).putAll (a + xs.length) ys := by
  induction xs generalizing m a with
  | nil => rfl
  | cons x xs ih =>
    rw [List.cons_append, Memory.putAll, ih, Memory.putAll, List.length_cons, Nat.add_right_comm, Nat.add_assoc]

/-- Bytes written end to end below OUT_CAP are written as one. -/
theorem State.putOut_append (s : State) {a : Nat} {xs ys : List Byte} (h : a + (xs ++ ys).length ≤ (s.reg .outCap).toNat) :
    (s.putOut a xs).putOut (a + xs.length) ys = s.putOut a (xs ++ ys) := by
  rw [List.length_append] at h
  have htake {b : Nat} {zs : List Byte} (hz : b + zs.length ≤ (s.reg .outCap).toNat) :
      zs.take ((s.reg .outCap).toNat - b) = zs := List.take_of_length_le (by omega)
  unfold State.putOut
  rw [htake (b := a) (zs := xs) (by omega), htake (b := a) (zs := xs ++ ys) (by simpa using h), Memory.putAll_append]
  exact congrArg (fun zs => { s with outMem := (s.outMem.putAll a xs).putAll (a + xs.length) zs })
    (htake (b := a + xs.length) (zs := ys) (by omega))

/-- A decoding command at the first of the tokens, with room for all its pixels. -/
structure TokensAhead (s : State) (w : Work) (toks : List Instr) : Prop where
  work : s.work = some w
  phase : w.phase = .tokens
  stream : w.stream ≠ .bpl
  tokens : ∀ i ∈ toks, i.format = w.stream.format ∧ i.wellFormed = true
  bytes : s.inRange w.ic (w.stop - w.ic) = streamBytes toks
  room : HasRoom s (w.stream.pixelBytes * w.pixels)

variable {toks : List Instr}

theorem TokensAhead.turnEffect_nil (h : TokensAhead s w []) : turnEffect s w = endEffect w := by
  have hend : w.stop - w.ic = 0 := by simpa [streamBytes] using congrArg List.length h.bytes
  rw [turnEffect, streamEnded_of_ne_bpl h.stream, if_pos]
  simp only [h.phase, decide_true, Bool.true_and, decide_eq_true_eq]
  omega

/-- The turn at the first token takes it, whatever follows (R107). -/
theorem TokensAhead.turnEffect_cons {i : Instr} (h : TokensAhead s w (i :: toks)) :
    turnEffect s w = tokenEffect w i ∧ w.ic + tokenSize i ≤ w.stop := by
  obtain ⟨⟨hf, hwf⟩, -⟩ := List.forall_mem_cons.mp h.tokens
  have hcmd : i.format ≠ .command := hf ▸ w.stream.format_ne_command
  have hbytes : s.inRange w.ic (w.stop - w.ic) = tokenBytes i ++ streamBytes toks := h.bytes
  have hfit : w.ic + tokenSize i ≤ w.stop := by
    have := tokenSize_pos hcmd
    have : w.stop - w.ic = tokenSize i + (streamBytes toks).length := by
      simpa [tokenSize] using congrArg List.length hbytes
    omega
  have hgoes : streamEnded w = false := by
    have := tokenSize_pos hcmd
    rw [streamEnded_of_ne_bpl h.stream, Bool.and_eq_false_iff, decide_eq_false_iff_not (p := w.stop ≤ w.ic)]
    omega
  have hfetch : fetchToken s w = .ok i := by
    rw [fetchToken_tokens s h.phase, hbytes, ← hf, decodeBytes_tokenBytes_append hcmd hwf]
    rfl
  refine ⟨?_, hfit⟩
  simp only [turnEffect, hgoes, Bool.false_eq_true, if_false, hfetch, fieldEffect_of_format hf]

/-- Past its first token a decoding command stands at the next one. -/
theorem TokensAhead.tail {i : Instr} (h : TokensAhead s w (i :: toks)) (a l : Nat) (bs : List Byte) (prev : Byte) :
    let w' := { w with tok := w.ic, ic := w.ic + tokenSize i, pc := w.pc + l, prev := prev }
    TokensAhead { s.putOut a bs with work := some w' } w' toks where
  work := rfl
  phase := h.phase
  stream := h.stream
  tokens := (List.forall_mem_cons.mp h.tokens).2
  bytes := by
    have hbytes : s.inRange w.ic (w.stop - w.ic) = tokenBytes i ++ streamBytes toks := h.bytes
    have := (State.inRange_split hbytes).2
    rwa [Nat.sub_sub] at this
  room := ⟨h.room.written, h.room.fits⟩

/-- A decoding command that stands at tokens for all its pixels to come writes them and ends DONE (R37, R393). -/
theorem TokensAhead.runStream_eq {px : List Byte} {n : Nat} (h : TokensAhead s w toks) (hm : Makes w.prev toks px)
    (hpx : w.stream.pixelBytes * w.pc + px.length = w.stream.pixelBytes * w.pixels) (hn : w.turnsLeft ≤ n) :
    runStream n s =
      .next ((s.putOut (w.stream.pixelBytes * w.pc) px).completed (w.stream.pixelBytes * w.pixels)) := by
  have hper : 0 < w.stream.pixelBytes := by cases w.stream <;> decide
  generalize hprev : w.prev = prev at hm
  induction hm generalizing s w n with
  | nil prev =>
    have hpos := w.turnsLeft_pos
    obtain ⟨n, rfl⟩ : ∃ m, n = m + 1 := ⟨n - 1, by omega⟩
    have hpc : w.pc = w.pixels := Nat.eq_of_mul_eq_mul_left hper hpx
    rw [runStream_eq_thenTurns h.work (fun hp => absurd h.phase hp), h.turnEffect_nil, endEffect, if_neg h.stream,
      if_neg (not_not.mpr hpc), State.putOut_nil]
    simp only [Effect.thenTurns, Effect.apply, State.putOut_nil]
  | @cons prev prev' i is l bs px hi his ih =>
    subst hprev
    have hpos := w.turnsLeft_pos
    obtain ⟨n, rfl⟩ : ∃ m, n = m + 1 := ⟨n - 1, by omega⟩
    obtain ⟨hturn, hfit⟩ := h.turnEffect_cons
    obtain ⟨⟨hf, -⟩, -⟩ := List.forall_mem_cons.mp h.tokens
    have hbs : bs.length = w.stream.pixelBytes * l := hi.length_eq hf
    rw [List.length_append, hbs, ← Nat.add_assoc, ← Nat.mul_add] at hpx
    have hpc : w.pc + l ≤ w.pixels := Nat.le_of_mul_le_mul_left (by omega) hper
    have hleft := tokenSize_pos (hf ▸ w.stream.format_ne_command)
    rw [runStream_eq_thenTurns h.work (fun hp => absurd h.phase hp), hturn, hi.tokenEffect_eq hf hfit hpc]
    rw [Effect.thenTurns, ih (h.tail _ l bs prev') hpx ?_ hper rfl]
    · rw [← s.putOut_append (by
        rw [List.length_append, hbs, ← Nat.add_assoc, ← Nat.mul_add, hpx]
        exact h.room.fits), hbs, ← Nat.mul_add]
      rfl
    · simp only [Work.turnsLeft, h.phase] at hn ⊢
      omega

end Scan

section Decoders

variable {s : State} {toks : List Instr} {px : List Byte}

/-- A state in which a decoding command has begun its scan, with these working registers (R32, R36). -/
def scanning (s : State) (w : Work) : State := { s.setReg .status statusBusy with work := some w }

theorem openStream_eq_scanning (s : State) (st : Stream) (ph : Phase) (p stop planes : Nat) :
    openStream s st ph p stop planes = scanning s (openWork st ph p stop planes) := rfl

theorem moves_scanning (s : State) (w : Work) : Moves s (scanning s w) :=
  .setWork (.setReg (.refl s) .status statusBusy rfl) _

theorem HasRoom.scanning {n : Nat} (h : HasRoom s n) (w : Work) : HasRoom (scanning s w) n where
  written := h.written
  fits := by
    rw [(moves_scanning s w).reg (r := .outCap) (by decide)]
    exact h.fits

/-- That a command had begun a scan leaves no trace in the state after its end (R393). -/
theorem completed_scanning (s : State) (w : Work) (px : List Byte) (oc : Nat) :
    ((scanning s w).putOut 0 px).completed oc = (s.putOut 0 px).completed oc := by
  have hcap : (scanning s w).reg .outCap = s.reg .outCap := (moves_scanning s w).reg (by decide)
  have hout : ((scanning s w).putOut 0 px).outMem = (s.putOut 0 px).outMem := by
    rw [State.putOut_outMem, hcap]
    rfl
  have hregs : (scanning s w).regs.set (Reg.number .status) statusDone = s.regs.set (Reg.number .status) statusDone :=
    Vector.set_set ..
  simp only [State.completed, State.setReg, hout, State.putOut_regs, hregs]
  rfl

/-- The scan of all tokens of a stream, from its begin to DONE. -/
theorem runStream_scanning {w : Work} {n : Nat} (h : TokensAhead (scanning s w) w toks) (hm : Makes w.prev toks px)
    (hpc : w.pc = 0) (hpx : px.length = w.stream.pixelBytes * w.pixels) (hroom : HasRoom s px.length)
    (hn : w.turnsLeft ≤ n) : ∃ t, runStream n (scanning s w) = .next t ∧ Completes s t px [] := by
  refine ⟨_, h.runStream_eq hm (by rw [hpc, hpx, Nat.mul_zero, Nat.zero_add]) hn, ?_⟩
  rw [hpc, Nat.mul_zero, completed_scanning, ← hpx]
  exact completes_putOut hroom

/-- A decoder without framing before its tokens, past its checks (R132, R232, R262). -/
theorem tokenStream_completes {st : Stream} {p stop : Nat} (hst : st ≠ .bpl) (hin : s.isWritten .inLen = true)
    (hstop : stop ≤ (s.reg .inLen).toNat) (htoks : ∀ i ∈ toks, i.format = st.format ∧ i.wellFormed = true)
    (hbytes : s.inRange 0 stop = streamBytes toks) (hm : Makes 0#8 toks px) (hpx : px.length = st.pixelBytes * p)
    (hroom : HasRoom s px.length) :
    ∃ t, runStream (turnsFor (s.reg .inLen).toNat) (openStream s st .tokens p stop 0) = .next t ∧ Completes s t px [] := by
  have hroom' : HasRoom s (st.pixelBytes * p) := hpx ▸ hroom
  exact runStream_scanning
    ⟨rfl, rfl, hst, htoks, hbytes, hroom'.scanning _⟩ hm rfl hpx hroom (opened_tokens hst hin hstop hroom').turns

/-- Outside the diff-chunk and the bitplane streams every token is a run (R131, R231, R106). -/
theorem exists_runToken {i : Instr} {st : Stream} (h : i.format = st.format) (hd : st ≠ .dif) (hb : st ≠ .bpl) :
    ∃ k, runToken i = some k := by
  obtain ⟨k, hk, -⟩ | ⟨-, -, hst⟩ | ⟨-, -, -, hst⟩ := token_cases h
  exacts [⟨k, hk⟩, absurd hst hd, absurd hst hb]

theorem scanning_put_nil (s : State) (w w' : Work) :
    ({ (scanning s w).putOut 0 [] with work := some w' } : State) = scanning s w' := by
  rw [State.putOut_nil]
  rfl

/-- The bytes of a diff-chunk stream at their offsets (R103). -/
theorem HoldsInput.framing {magic check : Byte} {bs : List Byte} (h : HoldsInput s ([magic] ++ bs ++ [check])) :
    (s.reg .inLen).toNat = bs.length + 2 ∧ s.inByte 0 = magic ∧ s.inRange 1 bs.length = bs ∧
      s.inByte (bs.length + 1) = check := by
  have hlen : (s.reg .inLen).toNat = bs.length + 2 := by
    rw [h.length, List.length_append, List.length_append, List.length_singleton, List.length_singleton]
    omega
  have hall := h.inRange_eq
  rw [hlen, List.append_assoc] at hall
  obtain ⟨hmagic, hrest⟩ := State.inRange_split hall
  obtain ⟨hbs, hcheck⟩ := State.inRange_split hrest
  simp only [List.length_singleton] at hbs hcheck hrest
  rw [show bs.length + 2 - 1 - bs.length = 1 by omega] at hcheck
  rw [Nat.add_comm _ bs.length] at hcheck
  exact ⟨hlen, List.singleton_inj.mp hmagic, hbs, List.singleton_inj.mp hcheck⟩

/-- The turn at a DIF.MAGIC that passes (R193). -/
theorem runStream_magic {w : Work} (hp : w.phase = .magic) (hs : w.stream = .dif) (hwr : s.isWritten .diffMagic = true)
    (hm : s.reg .diffMagic = (s.inByte w.ic).setWidth 32) (n : Nat) :
    runStream (n + 1) (scanning s w) = runStream n (scanning s { w with phase := .checksum, ic := 1 }) := by
  have hreg : (scanning s w).reg .diffMagic = s.reg .diffMagic := (moves_scanning s w).reg (by decide)
  have hturn : turnEffect (scanning s w) w = .put 0 [] { w with phase := .checksum, ic := 1 } := by
    rw [turnEffect, streamEnded_of_ne_bpl (by simp [hs]), if_neg (by simp [hp]), fetchToken_magic _ hp]
    exact fieldEffect_magic (s := scanning s w) hwr (hreg.trans hm) w
  rw [runStream_eq_thenTurns (w := w) rfl (fun _ => hs), hturn, Effect.thenTurns, scanning_put_nil]

/-- The turn at a DIF.CHECKSUM that passes (R192, R193). -/
theorem runStream_checksum {w : Work} (hp : w.phase = .checksum) (hs : w.stream = .dif)
    (hk : s.inByte w.stop = complementSum (s.inRange 1 (w.stop - 1))) (n : Nat) :
    runStream (n + 1) (scanning s w) = runStream n (scanning s { w with phase := .tokens }) := by
  have hturn : turnEffect (scanning s w) w = .put 0 [] { w with phase := .tokens } := by
    rw [turnEffect, streamEnded_of_ne_bpl (by simp [hs]), if_neg (by simp [hp]), fetchToken_checksum _ hp]
    exact fieldEffect_checksum (s := scanning s w) hk
  rw [runStream_eq_thenTurns (w := w) rfl (fun _ => hs), hturn, Effect.thenTurns, scanning_put_nil]

/-- The working registers of DIF.DEC past its framing, with `n` bytes of chunks to come (R193). -/
def chunkWork (p n : Nat) : Work := { openWork .dif .tokens p (n + 1) 0 with ic := 1 }

/-- The framing passed, DIF.DEC scans its chunks (R193). -/
theorem runStream_framing {n : Nat} (p : Nat) (hwr : s.isWritten .diffMagic = true)
    (hm : s.reg .diffMagic = (s.inByte 0).setWidth 32) (hk : s.inByte (n + 1) = complementSum (s.inRange 1 n)) (m : Nat) :
    runStream (m + 2) (openStream s .dif .magic p (n + 1) 0) = runStream m (scanning s (chunkWork p n)) := by
  rw [openStream_eq_scanning, runStream_magic rfl rfl hwr hm, runStream_checksum rfl rfl hk]
  rfl

end Decoders

/-- Settles O29: RGB.DEC past its checks, on tokens that are all runs. -/
theorem rgbDecodesItsTokens : Obligations.RgbDecodesItsTokens := by
  intro s toks hf hin hsize hroom hpx
  have hready : Ready s [.inLen, .width, .height] := List.forall_mem_cons.mpr ⟨hin.written, hsize⟩
  have hexec := (exec_eq_runStream (i := .rgbDec) rfl trivial trivial hready (fun h => nomatch h)
    (fun size h => by cases h; exact hroom)).1
  rw [hexec]
  refine tokenStream_completes (st := .rgb) (by decide) hin.written (Nat.le_refl _) (fun i hi => ⟨hf i hi, ?_⟩)
    hin.inRange_eq (makes_streamPixels (fun i hi => ?_) _) hpx (hpx ▸ hroom)
  · exact wellFormed_of_format (by rw [hf i hi]; decide)
  · exact exists_runToken (st := .rgb) (hf i hi) (by decide) (by decide)

/-- Settles O27: DIF.DEC past its checks and its framing, on the chunks. -/
theorem difDecodesItsChunks : Obligations.DifDecodesItsChunks := by
  intro s magic toks px hf hdif hin hwr hmagic hsize hroom hpx
  have hready : Ready s [.inLen, .width, .height] := List.forall_mem_cons.mpr ⟨hin.written, hsize⟩
  obtain ⟨hlen, hfirst, hchunks, hlast⟩ := hin.framing
  have hlong : LongEnough s .difDec := by
    show 2 ≤ (s.reg .inLen).toNat
    omega
  have hexec := (exec_eq_runStream (i := .difDec) rfl trivial hlong hready (fun h => nomatch h)
    (fun size h => by cases h; exact hroom)).1
  have htoks : TokensAhead (scanning s (chunkWork (pixelCount s) (streamBytes toks).length))
      (chunkWork (pixelCount s) (streamBytes toks).length) toks :=
    ⟨rfl, rfl, Stream.noConfusion, fun i hi => ⟨hf i hi, wellFormed_of_format (by rw [hf i hi]; decide)⟩, hchunks,
      by simpa [chunkWork, openWork, Stream.pixelBytes] using hroom.scanning _⟩
  rw [hexec, hlen, Nat.add_sub_assoc (by decide), turnsFor,
    runStream_framing _ hwr (by rw [hfirst, hmagic]) (by rw [hlast, hchunks]) _]
  refine runStream_scanning htoks (makes_difPixels hf hdif) rfl ?_ (hpx ▸ hroom) ?_
  · rw [hpx]
    exact (Nat.one_mul _).symm
  · simp only [Work.turnsLeft, chunkWork, openWork]
    omega

end Sys2Proof.Machine

/-! The 7-bit-extend codec (40_rle7x.md): R7X.DEC on any tokens, the token that R7X.ENC takes, what R7X.ENC emits, and the
round trip over `in.from_out`. -/

namespace Sys2Proof.Machine

/-- Settles O25: R7X.DEC past its checks, on tokens that are all runs. -/
theorem r7xDecodesItsTokens : Obligations.R7xDecodesItsTokens := by
  intro s toks hf hin hsize hroom hpx
  have hready : Ready s [.inLen, .width, .height] := List.forall_mem_cons.mpr ⟨hin.written, hsize⟩
  have hexec := (exec_eq_runStream (i := .r7xDec) rfl trivial trivial hready (fun h => nomatch h)
    (fun size h => by cases h; exact hroom)).1
  have hper : (streamPixels toks).length = Stream.r7x.pixelBytes * pixelCount s := hpx.trans (Nat.one_mul _).symm
  rw [hexec]
  refine tokenStream_completes (st := .r7x) (by decide) hin.written (Nat.le_refl _) (fun i hi => ⟨hf i hi, ?_⟩)
    hin.inRange_eq (makes_streamPixels (fun i hi => ?_) _) hper (hpx ▸ hroom)
  · exact wellFormed_of_format (by rw [hf i hi]; decide)
  · exact exists_runToken (st := .r7x) (hf i hi) (by decide) (by decide)

section Tok7

variable {c : BitVec 7} {l : Nat}

theorem length_tok7Bytes (c : BitVec 7) (l : Nat) :
    (tok7Bytes c l).length =
      if l = 1 then 1 else if l ≤ 0x7F then 2 else if l ≤ 0x3FFF then 3 else if l ≤ 0x1FFFFF then 4 else 5 := by
  unfold tok7Bytes
  split_ifs <;> rfl

/-- No token is longer than its run (R431). -/
theorem length_tok7Bytes_le (c : BitVec 7) (hl : 0 < l) : (tok7Bytes c l).length ≤ l := by
  rw [length_tok7Bytes]
  split_ifs <;> omega

theorem tok7_format (c : BitVec 7) (l : Nat) : (tok7 c l).format = .r7x := by
  unfold tok7
  split_ifs <;> rfl

/-- The token of each class holds the run length it was built for (R131, R134). -/
theorem runToken_tok7 (c : BitVec 7) (hl : l ≤ 0x0FFFFFFF) :
    runToken (tok7 c l) = some ⟨.r7x, (tok7Bytes c l).length, l, [sample7 c]⟩ := by
  rw [length_tok7Bytes]
  unfold tok7
  split_ifs with h1 <;> simp only [runToken, BitVec.toNat_ofNat]
  · rw [h1]
  all_goals rw [Nat.mod_eq_of_lt (by omega)]

/-- A class of the format that holds a run is no shorter than the one of R134. -/
theorem length_tok7Bytes_le_size {i : Instr} {k : RunToken} (hk : runToken i = some k) (hst : k.stream = .r7x) (c : BitVec 7) :
    (tok7Bytes c k.len).length ≤ k.size := by
  rw [length_tok7Bytes]
  cases i <;> cases hk
  case r7xPix c => exact Nat.le_refl 1
  case r7xRun7 c l | r7xRun14 c l | r7xRun21 c l | r7xRun28 c l =>
    have := l.isLt
    dsimp only
    split_ifs <;> omega
  all_goals cases hst

end Tok7

/-- Settles O33: the token's bytes, its run length, and the five classes against it. -/
theorem tok7TakesTheSmallestClass : Obligations.Tok7TakesTheSmallestClass := by
  intro c l _ hl
  refine ⟨tokenBytes_tok7 c hl, runToken_tok7 c hl, fun i k hk hst hlen => ?_⟩
  rw [← hlen]
  exact length_tok7Bytes_le_size hk hst c

theorem pieceBytes_emitsFrom {κ : Type} (per : Nat) (bytes : κ → Nat → List Byte) (start : Nat) (ps : List (κ × Nat)) :
    pieceBytes (emitsFrom per bytes start ps) = (ps.map fun p => bytes p.1 p.2).flatten := by
  induction ps generalizing start with
  | nil => rfl
  | cons p ps ih => rw [emitsFrom, pieceBytes_cons, ih, List.map_cons, List.flatten_cons]

/-- Settles O35: the emits of R133 fit OUT, so their bytes are its output. -/
theorem r7xEncodes : Obligations.R7xEncodes := by
  intro s bmp runs out hb hruns hout hroom
  have hbytes : pieceBytes (encode7x bmp) = out := by rw [encode7x_eq hruns, pieceBytes_emitsFrom, hout]
  have hexec : exec .r7xEnc s = emitCommand s (encode7x bmp) := by
    show execR7xEnc s = _
    rw [execR7xEnc, withBitmap_of_holds hb]
  rw [hexec, ← hbytes]
  exact emitCommand_completes (hbytes ▸ hroom)

section Expansion

variable {κ : Type}

/-- The keys that runs or pieces stand for, put end to end. -/
def expandRuns (runs : List (κ × Nat)) : List κ := (runs.map fun r => List.replicate r.2 r.1).flatten

theorem expandRuns_append (ps qs : List (κ × Nat)) : expandRuns (ps ++ qs) = expandRuns ps ++ expandRuns qs := by
  simp [expandRuns]

theorem expandRuns_cons (p : κ × Nat) (ps : List (κ × Nat)) :
    expandRuns (p :: ps) = List.replicate p.2 p.1 ++ expandRuns ps := rfl

/-- Pieces of one key stand for as many of it as their lengths add up to. -/
theorem expandRuns_map_key (k : κ) (ls : List Nat) : expandRuns (ls.map fun l => (k, l)) = List.replicate ls.sum k := by
  induction ls with
  | nil => rfl
  | cons l ls ih => rw [List.map_cons, expandRuns_cons, ih, List.sum_cons, List.replicate_add]

/-- Cutting runs into pieces changes no key (R14). -/
theorem expandRuns_cutRuns {max : κ → Nat} (hmax : ∀ k, 0 < max k) (runs : List (κ × Nat)) :
    expandRuns (cutRuns max runs) = expandRuns runs := by
  induction runs with
  | nil => rfl
  | cons r rs ih =>
    have hcut : cutRuns max (r :: rs) = (greedy (max r.1) r.2).map (fun l => (r.1, l)) ++ cutRuns max rs := rfl
    rw [hcut, expandRuns_append, ih, greedy_eq_cutRun (hmax r.1), expandRuns_map_key, sum_cutRun, expandRuns_cons]

/-- The pieces of maximal runs stand for the keys (R14). -/
theorem IsRuns.expandRuns_cutRuns {keys : List κ} {runs : List (κ × Nat)} (h : IsRuns keys runs) {max : κ → Nat}
    (hmax : ∀ k, 0 < max k) : expandRuns (cutRuns max runs) = keys :=
  (Machine.expandRuns_cutRuns hmax runs).trans h.join

/-- Codes that take no more bytes than their pieces have keys take no more bytes together. -/
theorem length_flatten_le_expandRuns {α : Type} {ps : List (κ × Nat)} {code : κ × Nat → List α}
    (h : ∀ p ∈ ps, (code p).length ≤ p.2) : (ps.map code).flatten.length ≤ (expandRuns ps).length := by
  induction ps with
  | nil => exact Nat.le_refl 0
  | cons p ps ih =>
    obtain ⟨hp, hps⟩ := List.forall_mem_cons.mp h
    rw [List.map_cons, List.flatten_cons, expandRuns_cons, List.length_append, List.length_append, List.length_replicate]
    exact Nat.add_le_add hp (ih hps)

/-- Run tokens of one byte to a pixel, one token for each piece, stand for the pixels of the keys. -/
theorem streamPixels_map {ps : List (κ × Nat)} {token : κ × Nat → Instr} {sample : κ → Byte}
    (h : ∀ p ∈ ps, ∃ k, runToken (token p) = some k ∧ k.len = p.2 ∧ k.pixel = [sample p.1]) :
    streamPixels (ps.map token) = (expandRuns ps).map sample := by
  induction ps with
  | nil => rfl
  | cons p ps ih =>
    obtain ⟨⟨k, hk, hlen, hpx⟩, hps⟩ := List.forall_mem_cons.mp h
    have htail : streamPixels (token p :: ps.map token) =
        (List.replicate k.len k.pixel).flatten ++ streamPixels (ps.map token) := by
      simp only [streamPixels, List.map_cons, List.flatten_cons, hk]
    rw [List.map_cons, htail, ih hps, hlen, hpx, List.flatten_replicate_singleton, expandRuns_cons, List.map_append,
      List.map_replicate]

end Expansion

section FromOut

variable {s t u : State} {i : Instr}

/-- After `in.from_out` IN holds the output of the command that ended DONE (R110, R393). -/
theorem Completes.holdsInput_fromOut {out : List Byte} {results : List (Reg × Word)} (h : Completes s t out results)
    (hu : hostInFromOut t = .next u) : HoldsInput u out := by
  obtain rfl := Host.Outcome.next.inj hu
  have hout : t.outRange 0 (t.reg .outLen).toNat = out := by
    rw [h.outLen]
    refine List.ext_getElem (t.length_outRange 0 _) fun a _ ha => ?_
    simp only [State.outRange, List.getElem_map, List.getElem_range, Nat.zero_add]
    rw [h.outByte, dif_pos ha]
  rw [hout]
  exact holdsInput_load t h.outLen

/-- A command and `in.from_out` keep the host's registers but IN_LEN (R110, R430). -/
theorem reg_fromOut (hexec : exec i s = .next t) (hu : hostInFromOut t = .next u) {r : Reg} (hr : r.access ≠ .ro)
    (hin : r ≠ .inLen) : u.reg r = s.reg r := by
  obtain rfl := Host.Outcome.next.inj hu
  exact ((t.reg_storeReg .inLen r _).trans (if_neg hin.symm)).trans ((exec_moves hexec).reg hr)

/-- A register that was written stays so over a command and `in.from_out` (R35, R110). -/
theorem isWritten_fromOut (hexec : exec i s = .next t) (hu : hostInFromOut t = .next u) {r : Reg}
    (hw : s.isWritten r = true) : u.isWritten r = true := by
  obtain rfl := Host.Outcome.next.inj hu
  have hstore : (t.storeReg .inLen (t.reg .outLen)).isWritten r = true := by
    rw [State.isWritten_storeReg, (exec_moves hexec).isWritten, hw, ite_self]
  exact hstore

theorem Ready.fromOut {rs : List Reg} (h : Ready s rs) (hexec : exec i s = .next t) (hu : hostInFromOut t = .next u) :
    Ready u rs := fun r hr => isWritten_fromOut hexec hu (h r hr)

theorem HasRoom.fromOut {n : Nat} (h : HasRoom s n) (hexec : exec i s = .next t) (hu : hostInFromOut t = .next u) :
    HasRoom u n where
  written := isWritten_fromOut hexec hu h.written
  fits := by
    rw [reg_fromOut hexec hu (r := .outCap) (by decide) (by decide)]
    exact h.fits

theorem pixelCount_fromOut (hexec : exec i s = .next t) (hu : hostInFromOut t = .next u) : pixelCount u = pixelCount s := by
  rw [pixelCount, pixelCount, reg_fromOut hexec hu (r := .width) (by decide) (by decide),
    reg_fromOut hexec hu (r := .height) (by decide) (by decide)]

end FromOut

section RoundTrip

/-- The sample that a colour keeps of a sample (R130). -/
theorem sample7_colour7 (b : Byte) : sample7 (colour7 b) = if b.toNat ≤ 1 then 0#8 else b ||| 1#8 := by
  have hzero : colour7 b = 0#7 ↔ b.toNat ≤ 1 := by
    rw [colour7, top_eq_iff (start := 1) rfl, BitVec.toNat_zero]
    omega
  have hodd : colour7 b ++ 1#1 = b ||| 1#8 := by
    refine BitVec.eq_of_getLsbD_eq fun k hk => ?_
    rw [BitVec.getLsbD_append]
    cases k with
    | zero => simp
    | succ k => simp [colour7, Nat.add_comm, show k < 7 by omega]
  rw [← recon7_eq, recon7, hodd]
  simp only [hzero]

/-- The tokens of R7X.ENC for pieces of runs (R133). -/
def tokens7 (ps : List (BitVec 7 × Nat)) : List Instr := ps.map fun p => tok7 p.1 p.2

variable {ps : List (BitVec 7 × Nat)}

theorem format_of_mem_tokens7 {i : Instr} (h : i ∈ tokens7 ps) : i.format = .r7x := by
  obtain ⟨p, -, rfl⟩ := List.mem_map.mp h
  exact tok7_format p.1 p.2

theorem streamBytes_tokens7 (h : ∀ p ∈ ps, p.2 ≤ 0x0FFFFFFF) :
    streamBytes (tokens7 ps) = (ps.map fun p => tok7Bytes p.1 p.2).flatten := by
  rw [streamBytes, tokens7, List.map_map]
  exact congrArg List.flatten (List.map_congr_left fun p hp => tokenBytes_tok7 p.1 (h p hp))

theorem streamPixels_tokens7 (h : ∀ p ∈ ps, p.2 ≤ 0x0FFFFFFF) :
    streamPixels (tokens7 ps) = (expandRuns ps).map sample7 :=
  streamPixels_map fun p hp => ⟨_, runToken_tok7 p.1 (h p hp), rfl, rfl⟩

/-- The pieces that R7X.ENC cuts a bitmap into (R133). -/
def pieces7 (bmp : List Byte) : List (BitVec 7 × Nat) := cutRuns (fun _ => 0x0FFFFFFF) (runsOf (bmp.map colour7))

theorem mem_pieces7 {bmp : List Byte} {p : BitVec 7 × Nat} (h : p ∈ pieces7 bmp) : 0 < p.2 ∧ p.2 ≤ 0x0FFFFFFF :=
  mem_cutRuns (fun _ => by decide) h

theorem expandRuns_pieces7 (bmp : List Byte) : expandRuns (pieces7 bmp) = bmp.map colour7 :=
  (isRuns_runsOf _).expandRuns_cutRuns fun _ => by decide

/-- R7X.ENC emits no more bytes than the bitmap has (R431). -/
theorem length_streamBytes_pieces7_le (bmp : List Byte) : (streamBytes (tokens7 (pieces7 bmp))).length ≤ bmp.length := by
  rw [streamBytes_tokens7 fun p hp => (mem_pieces7 hp).2]
  have hle := length_flatten_le_expandRuns (code := fun p => tok7Bytes p.1 p.2)
    fun p (hp : p ∈ pieces7 bmp) => length_tok7Bytes_le p.1 (mem_pieces7 hp).1
  rwa [expandRuns_pieces7, List.length_map] at hle

theorem streamPixels_pieces7 (bmp : List Byte) :
    streamPixels (tokens7 (pieces7 bmp)) = bmp.map fun b => if b.toNat ≤ 1 then 0#8 else b ||| 1#8 := by
  rw [streamPixels_tokens7 fun p hp => (mem_pieces7 hp).2, expandRuns_pieces7, List.map_map]
  exact List.map_congr_left fun b _ => sample7_colour7 b

/-- With room for P bytes R7X.ENC ends DONE with its tokens (R133, R431). -/
theorem execR7xEnc_completes {s : State} {bmp : List Byte} (hb : HoldsBitmap s 1 bmp) (hroom : HasRoom s (pixelCount s)) :
    ∃ t, exec .r7xEnc s = .next t ∧ Completes s t (streamBytes (tokens7 (pieces7 bmp))) [] := by
  have hlen : bmp.length = pixelCount s := hb.pixels.trans (Nat.one_mul _)
  have hruns : IsRuns (bmp.map fun b => BitVec.ofNat 7 (b.toNat / 2)) (runsOf (bmp.map colour7)) := by
    simp only [← colour7_eq]
    exact isRuns_runsOf _
  exact r7xEncodes s bmp _ _ hb hruns (streamBytes_tokens7 fun p hp => (mem_pieces7 hp).2)
    ⟨hroom.written, (length_streamBytes_pieces7_le bmp).trans (hlen ▸ hroom.fits)⟩

end RoundTrip

/-- Settles O42: R7X.ENC ends DONE with tokens that stand for the canonical bitmap, and R7X.DEC decodes any tokens. -/
theorem r7xRoundTrip : Obligations.R7xRoundTrip := by
  intro s t u bmp hb hroom hexec hu
  obtain ⟨t', hexec', hdone⟩ := execR7xEnc_completes hb hroom
  obtain rfl : t = t' := Host.Outcome.next.inj (hexec.symm.trans hexec')
  have hcount : pixelCount u = pixelCount s := pixelCount_fromOut hexec hu
  rw [← streamPixels_pieces7]
  refine r7xDecodesItsTokens u _ (fun i hi => format_of_mem_tokens7 hi) (hdone.holdsInput_fromOut hu)
    (hb.size.fromOut hexec hu) (hcount ▸ hroom.fromOut hexec hu) ?_
  rw [streamPixels_pieces7, List.length_map, hb.pixels, Nat.one_mul, hcount]

end Sys2Proof.Machine

/-! The bitplane decoder (41_bitplane.md): what a token does in a plane that is not yet complete, the turns that take a whole
plane, and BPL.DEC on N planes (R160, R162, R163). -/

namespace Sys2Proof.Machine

section PlaneToken

/-- The working registers after a bitplane token, before a full plane ends (R162, R163). -/
def Work.afterRun (w : Work) (on : Bool) (l : Nat) : Work :=
  { w with tok := w.ic, ic := w.ic + 1, pc := w.pc + l, hits := if on then addHits w.hits w.pc l else w.hits }

variable {w : Work} {on : Bool} {l : BitVec 7}

/-- A bitplane token that fits in the token region and in its plane (R162, R395). -/
theorem tokenEffect_bplTok (hfit : w.ic + 1 ≤ w.stop) (hplane : w.plane < w.planes) (hpc : w.pc + l.toNat ≤ w.pixels) :
    tokenEffect w (.bplTok on l) = .put 0 [] (settlePlane (w.afterRun on l.toNat)) := by
  rw [tokenEffect_of_fits hfit, takenEffect_bplTok, planeEffect, if_neg (Nat.not_le.mpr hplane), if_neg (Nat.not_lt.mpr hpc)]
  rfl

theorem settlePlane_of_lt (h : w.pc < w.pixels) : settlePlane w = w := if_pos h

theorem settlePlane_of_no_pixels (h : w.pixels = 0) : settlePlane w = { w with plane := w.planes } := by
  rw [settlePlane, if_neg (by omega), if_pos h]

theorem settlePlane_of_full (h : w.pixels ≤ w.pc) (h0 : 0 < w.pixels) :
    settlePlane w = { w with plane := w.plane + 1, pc := 0 } := by
  rw [settlePlane, if_neg (by omega), if_neg (by omega)]

@[simp] theorem settlePlane_tok (w : Work) : (settlePlane w).tok = w.tok := by
  obtain heq | ⟨-, heq⟩ | ⟨-, -, heq⟩ := settlePlane_eq w <;> rw [heq]

@[simp] theorem settlePlane_prev (w : Work) : (settlePlane w).prev = w.prev := by
  obtain heq | ⟨-, heq⟩ | ⟨-, -, heq⟩ := settlePlane_eq w <;> rw [heq]

@[simp] theorem settlePlane_planes (w : Work) : (settlePlane w).planes = w.planes := by
  obtain heq | ⟨-, heq⟩ | ⟨-, -, heq⟩ := settlePlane_eq w <;> rw [heq]

@[simp] theorem settlePlane_hits (w : Work) : (settlePlane w).hits = w.hits := by
  obtain heq | ⟨-, heq⟩ | ⟨-, -, heq⟩ := settlePlane_eq w <;> rw [heq]

/-- A run adds one hit to each of its pixels where its state is on (R162, R163). -/
theorem getElem?_ite_addHits (on : Bool) (hits : List Nat) (p l q : Nat) :
    (if on then addHits hits p l else hits)[q]? =
      hits[q]?.map (· + if on = true ∧ p ≤ q ∧ q < p + l then 1 else 0) := by
  cases on
  · simp
  · simpa using getElem?_addHits hits p l q

theorem length_ite_addHits (on : Bool) (hits : List Nat) (p l : Nat) :
    (if on then addHits hits p l else hits).length = hits.length := by
  cases on
  · rfl
  · exact length_addHits hits p l

end PlaneToken

/-- Settles O22: the token's effect, and the end of a full plane. -/
theorem bitplaneTokensCountHits : Obligations.BitplaneTokensCountHits := by
  intro on l s w hw hs hp hfit hplane hpc
  have hexec : exec (.bplTok on l) s = (Effect.put 0 [] (settlePlane (w.afterRun on l.toNat))).apply s := by
    rw [exec_eq_apply hw hp (by rw [hs]; rfl), tokenEffect_bplTok hfit hplane hpc]
  obtain ⟨t, ht, hadv⟩ := advances_put_nil s (settlePlane (w.afterRun on l.toNat))
  refine ⟨t, _, hexec.trans ht, hadv, settlePlane_stream _, settlePlane_phase _, settlePlane_tok _, settlePlane_ic _,
    settlePlane_pixels _, settlePlane_stop _, settlePlane_prev _, settlePlane_planes _, fun hlt => ?_, fun heq h0 => ?_,
    fun h0 => ?_, ?_, fun q hq hq' => ?_⟩
  · rw [settlePlane_of_lt (w := w.afterRun on l.toNat) hlt]
    exact ⟨rfl, rfl⟩
  · rw [settlePlane_of_full (w := w.afterRun on l.toNat) heq.ge h0]
    exact ⟨rfl, rfl⟩
  · rw [settlePlane_of_no_pixels (w := w.afterRun on l.toNat) h0]
    rfl
  · rw [settlePlane_hits]
    exact length_ite_addHits ..
  · have : (w.afterRun on l.toNat).hits[q]? = _ := getElem?_ite_addHits on w.hits w.pc l.toNat q
    rw [← settlePlane_hits, List.getElem?_eq_getElem hq, List.getElem?_eq_getElem hq'] at this
    exact Option.some.inj this

section PlaneBits

variable {pl : Plane}

theorem planeBits_cons (t : Bool × BitVec 7) (pl : Plane) :
    planeBits (t :: pl) = List.replicate t.2.toNat t.1 ++ planeBits pl := rfl

theorem planeBytes_cons (t : Bool × BitVec 7) (pl : Plane) :
    planeBytes (t :: pl) = tokenBytes (.bplTok t.1 t.2) ++ planeBytes pl := rfl

@[simp] theorem length_tokenBytes_bplTok (on : Bool) (l : BitVec 7) : (tokenBytes (.bplTok on l)).length = 1 := rfl

@[simp] theorem length_planeBytes (pl : Plane) : (planeBytes pl).length = pl.length := by
  induction pl with
  | nil => rfl
  | cons t pl ih => rw [planeBytes_cons, List.length_append, ih, length_tokenBytes_bplTok, List.length_cons, Nat.add_comm]

theorem length_planeBits_cons (t : Bool × BitVec 7) (pl : Plane) :
    (planeBits (t :: pl)).length = t.2.toNat + (planeBits pl).length := by
  rw [planeBits_cons, List.length_append, List.length_replicate]

/-- Tokens that fill `p` pixels, the last of them only (R163): those of a whole plane, or those left of it. -/
theorem isPlane_cons_cons {p : Nat} {t t' : Bool × BitVec 7} :
    IsPlane p (t :: t' :: pl) ↔ t.2.toNat < p ∧ IsPlane (p - t.2.toNat) (t' :: pl) := by
  simp only [IsPlane, List.dropLast_cons_cons, length_planeBits_cons, reduceCtorEq, false_or]
  omega

theorem isPlane_singleton {p : Nat} {t : Bool × BitVec 7} : IsPlane p [t] ↔ t.2.toNat = p ∧ 0 < p := by
  simp [IsPlane, planeBits]

theorem isPlane_zero : IsPlane 0 pl ↔ pl = [] := by
  simp only [IsPlane, Nat.not_lt_zero, or_false]
  exact ⟨And.right, by rintro rfl; exact ⟨rfl, rfl⟩⟩

theorem not_isPlane_nil {p : Nat} (h : 0 < p) : ¬IsPlane p [] := fun hp => absurd hp.1 (by simpa [planeBits] using h.ne)

/-- The hits after a plane's tokens, the first of them at pixel `p` (R163). -/
def markPlane (hits : List Nat) (p : Nat) : Plane → List Nat
  | [] => hits
  | t :: pl => markPlane (if t.1 then addHits hits p t.2.toNat else hits) (p + t.2.toNat) pl


@[simp] theorem length_markPlane (hits : List Nat) (p : Nat) (pl : Plane) : (markPlane hits p pl).length = hits.length := by
  induction pl generalizing hits p with
  | nil => rfl
  | cons t pl ih =>
    rw [markPlane, ih, length_ite_addHits]

/-- One more hit for each pixel that the plane's tokens have on (R160, R163). -/
theorem getElem?_markPlane (hits : List Nat) (p : Nat) (pl : Plane) (q : Nat) :
    (markPlane hits p pl)[q]? =
      hits[q]?.map (· + if p ≤ q ∧ (planeBits pl).getD (q - p) false = true then 1 else 0) := by
  induction pl generalizing hits p with
  | nil => simp [markPlane, planeBits]
  | cons t pl ih =>
    obtain ⟨on, l⟩ := t
    rw [markPlane, ih, getElem?_ite_addHits, Option.map_map]
    refine congrArg (fun f => Option.map f hits[q]?) (funext fun h => ?_)
    rw [Function.comp_apply, Nat.add_assoc, planeBits_cons]
    by_cases hp : p ≤ q
    · obtain hin | hout := Nat.lt_or_ge (q - p) l.toNat
      · rw [List.getD_append _ _ _ _ (by simpa using hin), List.getD_replicate _ hin]
        simp [hp, show q < p + l.toNat by omega]
      · rw [List.getD_append_right _ _ _ _ (by simpa using hout), List.length_replicate, Nat.sub_sub]
        simp [hp, show p + l.toNat ≤ q by omega]
    · simp [hp, show ¬p + l.toNat ≤ q by omega]

/-- The hits after whole planes, one after the other (R163). -/
def markPlanes (hits : List Nat) (planes : List Plane) : List Nat := planes.foldl (fun hs pl => markPlane hs 0 pl) hits

@[simp] theorem length_markPlanes (hits : List Nat) (planes : List Plane) :
    (markPlanes hits planes).length = hits.length := by
  induction planes generalizing hits with
  | nil => rfl
  | cons pl planes ih => exact (ih _).trans (length_markPlane hits 0 pl)

/-- A pixel has as many hits as planes that have it on (R160, R163). -/
theorem getElem?_markPlanes (hits : List Nat) (planes : List Plane) (q : Nat) :
    (markPlanes hits planes)[q]? = hits[q]?.map (· + planes.countP fun pl => (planeBits pl).getD q false) := by
  induction planes generalizing hits with
  | nil => simp [markPlanes]
  | cons pl planes ih =>
    refine (ih (markPlane hits 0 pl)).trans ?_
    rw [getElem?_markPlane, Option.map_map, List.countP_cons]
    refine congrArg (fun f => Option.map f hits[q]?) (funext fun h => ?_)
    simp only [Function.comp_apply, Nat.zero_le, true_and, Nat.sub_zero]
    omega

/-- The samples of the hits of all planes are those of R160. -/
theorem map_reconBpl_markPlanes (p : Nat) (planes : List Plane) :
    (markPlanes (List.replicate p 0) planes).map (reconBpl planes.length) = planeSamples p planes := by
  refine List.ext_getElem (by simp [planeSamples]) fun q hq _ => ?_
  have hlt : q < p := by simpa using hq
  have hhits := getElem?_markPlanes (List.replicate p 0) planes q
  rw [List.getElem?_replicate, if_pos hlt, List.getElem?_eq_getElem (by simpa using hlt), Option.map_some, Nat.zero_add] at hhits
  simp only [planeSamples, List.getElem_map, List.getElem_range]
  rw [Option.some.inj hhits, reconBpl_eq List.countP_le_length]

end PlaneBits

section PlaneScan

variable {s : State} {w : Work} {n : Nat}

/-- The turn at a bitplane token that fits in its plane, whatever follows (R107, R163). -/
theorem runStream_bplTok {on : Bool} {l : BitVec 7} {rest : List Byte} (hs : w.stream = .bpl) (hp : w.phase = .tokens)
    (hplane : w.plane < w.planes) (hbytes : s.inRange w.ic (w.stop - w.ic) = tokenBytes (.bplTok on l) ++ rest)
    (hpc : w.pc + l.toNat ≤ w.pixels) :
    runStream (n + 1) (scanning s w) = runStream n (scanning s (settlePlane (w.afterRun on l.toNat))) := by
  have hfit : w.ic + 1 ≤ w.stop := by
    have := congrArg List.length hbytes
    rw [State.length_inRange, List.length_append, length_tokenBytes_bplTok] at this
    omega
  have hfetch : fetchToken (scanning s w) w = .ok (.bplTok on l) := by
    have : (scanning s w).inRange w.ic (w.stop - w.ic) = tokenBytes (.bplTok on l) ++ rest := hbytes
    rw [fetchToken_tokens _ hp, this, hs]
    exact congrArg (Except.map Prod.fst) (decodeBpl_tokenBytes_append (i := .bplTok on l) rfl rest)
  have hturn : turnEffect (scanning s w) w = .put 0 [] (settlePlane (w.afterRun on l.toNat)) := by
    rw [turnEffect, streamEnded_of_bpl hs, decide_eq_false (Nat.not_le.mpr hplane), if_neg Bool.false_ne_true, hfetch]
    exact tokenEffect_bplTok hfit hplane hpc
  rw [runStream_eq_thenTurns (w := w) rfl (fun h => absurd hp h), hturn, Effect.thenTurns, scanning_put_nil]

/-- The working registers after the tokens of a whole plane, or of what is left of it (R163). -/
def Work.afterPlane (w : Work) (pl : Plane) : Work :=
  { w with
    tok := w.ic + pl.length - 1, ic := w.ic + pl.length, plane := w.plane + 1, pc := 0, hits := markPlane w.hits w.pc pl }

theorem inRange_after {k : Nat} {xs rest : List Byte} (hbytes : s.inRange w.ic (w.stop - w.ic) = xs ++ rest)
    (hk : xs.length = k) : s.inRange (w.ic + k) (w.stop - (w.ic + k)) = rest := by
  subst hk
  rw [← Nat.sub_sub]
  exact (State.inRange_split hbytes).2

/-- The turns that take what is left of a plane: only its last token ends it (R163). -/
theorem runStream_plane {pl : Plane} {rest : List Byte} (hs : w.stream = .bpl) (hp : w.phase = .tokens)
    (hplane : w.plane < w.planes) (hpc : w.pc < w.pixels) (hpl : IsPlane (w.pixels - w.pc) pl)
    (hbytes : s.inRange w.ic (w.stop - w.ic) = planeBytes pl ++ rest) :
    runStream (n + pl.length) (scanning s w) = runStream n (scanning s (w.afterPlane pl)) := by
  induction pl generalizing w with
  | nil => exact absurd hpl (not_isPlane_nil (by omega))
  | cons t pl ih =>
    rw [planeBytes_cons, List.append_assoc] at hbytes
    rw [List.length_cons, ← Nat.add_assoc]
    cases pl with
    | nil =>
      obtain ⟨hfull, -⟩ := isPlane_singleton.mp hpl
      have hend : (w.afterRun t.1 t.2.toNat).pixels ≤ (w.afterRun t.1 t.2.toNat).pc := by
        show w.pixels ≤ w.pc + t.2.toNat
        omega
      rw [List.length_nil, Nat.add_zero, runStream_bplTok hs hp hplane hbytes (by omega),
        settlePlane_of_full hend (show 0 < w.pixels by omega)]
      rfl
    | cons t' pl =>
      obtain ⟨hlt, htail⟩ := isPlane_cons_cons.mp hpl
      have hgoes : (w.afterRun t.1 t.2.toNat).pc < (w.afterRun t.1 t.2.toNat).pixels := by
        show w.pc + t.2.toNat < w.pixels
        omega
      rw [runStream_bplTok hs hp hplane hbytes (by omega), settlePlane_of_lt hgoes,
        ih (w := w.afterRun t.1 t.2.toNat) hs hp hplane hgoes (by rwa [Nat.sub_sub] at htail)
          (inRange_after hbytes (length_tokenBytes_bplTok _ _))]
      simp only [Work.afterPlane, Work.afterRun, markPlane, List.length_cons, Nat.add_assoc, Nat.add_comm 1]

/-- After plane N-1, with no byte left, the samples are written, and the command is DONE (R163). -/
theorem runStream_planesEnd (hs : w.stream = .bpl) (hp : w.phase = .tokens) (hplane : w.planes ≤ w.plane)
    (hic : w.ic = w.stop) :
    runStream (n + 1) (scanning s w) = .next ((s.putOut 0 (w.hits.map (reconBpl w.planes))).completed w.pixels) := by
  rw [runStream_eq_thenTurns (w := w) rfl (fun h => absurd hp h), turnEffect, streamEnded_of_bpl hs, decide_eq_true hplane,
    if_pos rfl, endEffect, if_pos hs, if_neg (not_not.mpr hic)]
  exact congrArg Host.Outcome.next (completed_scanning s w _ _)

/-- BPL.DEC at the first token of a plane, the planes that are left being all it has to read (R163). -/
structure PlanesAhead (s : State) (w : Work) (planes : List Plane) : Prop where
  stream : w.stream = .bpl
  phase : w.phase = .tokens
  start : w.pc = 0
  pixels : 0 < w.pixels
  count : w.plane + planes.length = w.planes
  whole : ∀ pl ∈ planes, IsPlane w.pixels pl
  cursor : w.ic ≤ w.stop
  bytes : s.inRange w.ic (w.stop - w.ic) = (planes.map planeBytes).flatten

/-- The turns that take a whole plane bring the command to the next one. -/
theorem PlanesAhead.tail {pl : Plane} {planes : List Plane} (h : PlanesAhead s w (pl :: planes)) :
    runStream (n + pl.length) (scanning s w) = runStream n (scanning s (w.afterPlane pl)) ∧
      PlanesAhead s (w.afterPlane pl) planes := by
  obtain ⟨hpl, hplanes⟩ := List.forall_mem_cons.mp h.whole
  have hcount : w.plane + (planes.length + 1) = w.planes := h.count
  have hbytes : s.inRange w.ic (w.stop - w.ic) = planeBytes pl ++ (planes.map planeBytes).flatten := h.bytes
  have hlen : w.stop - w.ic = pl.length + ((planes.map planeBytes).flatten).length := by
    have := congrArg List.length hbytes
    rwa [State.length_inRange, List.length_append, length_planeBytes] at this
  refine ⟨runStream_plane h.stream h.phase (by omega) (h.start ▸ h.pixels) (by rwa [h.start]) hbytes, h.stream, h.phase, rfl,
    h.pixels, ?_, hplanes, ?_, inRange_after hbytes (length_planeBytes pl)⟩
  · show w.plane + 1 + planes.length = w.planes
    omega
  · have := h.cursor
    show w.ic + pl.length ≤ w.stop
    omega

/-- BPL.DEC on the planes that are left (R163). -/
theorem PlanesAhead.runStream_eq {planes : List Plane} (h : PlanesAhead s w planes) (hn : w.stop - w.ic < n) :
    runStream n (scanning s w) =
      .next ((s.putOut 0 ((markPlanes w.hits planes).map (reconBpl w.planes))).completed w.pixels) := by
  induction planes generalizing w n with
  | nil =>
    obtain ⟨n, rfl⟩ : ∃ m, n = m + 1 := ⟨n - 1, by omega⟩
    have hleft : w.stop - w.ic = 0 := by simpa using congrArg List.length h.bytes
    exact runStream_planesEnd h.stream h.phase h.count.ge (Nat.le_antisymm h.cursor (by omega))
  | cons pl planes ih =>
    have hnext := (h.tail (n := 0)).2
    have hcursor : w.ic + pl.length ≤ w.stop := hnext.cursor
    obtain ⟨n, rfl⟩ : ∃ m, n = m + pl.length := ⟨n - pl.length, by omega⟩
    rw [h.tail.1, ih hnext (show w.stop - (w.ic + pl.length) < n by omega)]
    show Host.Outcome.next ((s.putOut 0 ((markPlanes (markPlane w.hits w.pc pl) planes).map _)).completed _) = _
    rw [h.start]
    rfl

/-- BPL.DEC past its checks, on N planes of P pixels: with P = 0 there is nothing to read (R163). -/
theorem runStream_openBpl {p stop : Nat} {planes : List Plane} (hplanes : ∀ pl ∈ planes, IsPlane p pl)
    (hbytes : s.inRange 0 stop = (planes.map planeBytes).flatten) (hn : stop < n) :
    runStream n (openBpl s p stop planes.length) = .next ((s.putOut 0 (planeSamples p planes)).completed p) := by
  show runStream n (scanning s (settlePlane (openWork .bpl .tokens p stop planes.length))) = _
  rw [← map_reconBpl_markPlanes]
  obtain rfl | hpos := p.eq_zero_or_pos
  · have hnil : planes.map planeBytes = planes.map fun _ => [] :=
      List.map_congr_left fun pl hpl => by rw [isPlane_zero.mp (hplanes pl hpl)]; rfl
    have hstop : 0 = stop := by
      have := congrArg List.length hbytes
      rwa [hnil, State.length_inRange, List.flatten_eq_nil_iff.mpr (by simp), List.length_nil, eq_comm] at this
    obtain ⟨n, rfl⟩ : ∃ m, n = m + 1 := ⟨n - 1, by omega⟩
    rw [settlePlane_of_no_pixels (by rfl), List.eq_nil_of_length_eq_zero (length_markPlanes (List.replicate 0 0) planes)]
    exact runStream_planesEnd rfl rfl (Nat.le_refl _) hstop
  · rw [settlePlane_of_lt hpos]
    have hahead : PlanesAhead s (openWork .bpl .tokens p stop planes.length) planes :=
      ⟨rfl, rfl, rfl, hpos, Nat.zero_add _, hplanes, Nat.zero_le _, hbytes⟩
    exact hahead.runStream_eq hn

end PlaneScan

/-- Settles O26: BPL.DEC past its checks, on the tokens of its planes. -/
theorem bplDecodesItsPlanes : Obligations.BplDecodesItsPlanes := by
  intro s planes hone hmax haa hlevel hplanes hin hsize hroom
  have hready : Ready s [.inLen, .width, .height] := List.forall_mem_cons.mpr ⟨hin.written, hsize⟩
  have hlegal : LegalConfig s .bplDec := by
    rw [LegalConfig, hlevel]
    exact ⟨hone, hmax⟩
  have hexec := (exec_eq_runStream (i := .bplDec) rfl hlegal trivial hready (fun _ => haa)
    (fun size h => by cases h; exact hroom)).1
  have hlen : (planeSamples (pixelCount s) planes).length = pixelCount s := by simp [planeSamples]
  rw [hlevel, runStream_openBpl hplanes hin.inRange_eq (by rw [turnsFor]; omega)] at hexec
  have hdone := completes_putOut (hlen.symm ▸ hroom)
  rw [hlen] at hdone
  exact ⟨_, hexec, hdone⟩

end Sys2Proof.Machine

/-! The configuration values that are checked first (R166, R372, R373, R390), and BPL.ENC: its planes, PLANE_LEN, and the round
trip over `in.from_out` (R161, R164, R165). -/

namespace Sys2Proof.Machine

section Configuration

variable {s : State}

theorem withLevel_of_illegal (hw : s.isWritten .aaN = true) (h : (s.reg .aaN).toNat = 0 ∨ 16 < (s.reg .aaN).toNat)
    (k : Nat → Out) : withLevel s k = .next (s.errored .unsupportedVariant 0) := by
  rw [withLevel, withReg_of_written hw, if_pos (by simp only [Config.maxAa]; omega), raiseError_eq]

theorem withSignatureConfig_of_illegal (hr : Ready s [.sigFieldBytes, .aesKlen]) (h : ¬LegalConfig s .sigGen)
    (k : Nat → Nat → Out) : withSignatureConfig s k = .next (s.errored .unsupportedVariant 0) := by
  rw [LegalConfig, ← legalFieldBytes_iff, ← legalKeyLength_iff, ← Bool.and_eq_true] at h
  rw [withSignatureConfig, withReg_of_written (hr _ (by simp)), withReg_of_written (hr _ (by simp)), if_neg h, raiseError_eq]

/-- BPL.ENC and its pseudo-instructions are one encoder with a variant (R111). -/
theorem exec_of_mem_bplEncoders {i : Instr} {v : Variant} (h : (i, v) ∈ bplEncoders) (s : State) :
    exec i s = bplEncode v s := by
  simp only [bplEncoders, List.mem_cons, Prod.mk.injEq, List.not_mem_nil, or_false] at h
  rcases h with ⟨rfl, rfl⟩ | ⟨rfl, rfl⟩ | ⟨rfl, rfl⟩ | ⟨rfl, rfl⟩ <;> rfl

end Configuration

/-- Settles O31: each of the commands checks its configuration first. -/
theorem unsupportedConfiguration : Obligations.UnsupportedConfiguration := by
  refine fun i s => ⟨fun hi hw hlevel => ⟨_, ?_, s.raises_errored .unsupportedVariant 0⟩,
    fun hi hfield hklen hillegal => ⟨_, ?_, s.raises_errored .unsupportedVariant 0⟩⟩
  · obtain hi | hi := List.mem_append.mp hi
    · rw [List.mem_singleton.mp hi]
      show execBplDec s = _
      exact withLevel_of_illegal hw hlevel _
    · obtain ⟨⟨i, v⟩, hiv, rfl⟩ := List.mem_map.mp hi
      rw [exec_of_mem_bplEncoders hiv]
      exact withLevel_of_illegal hw hlevel _
  · have hready : Ready s [.sigFieldBytes, .aesKlen] :=
      List.forall_mem_cons.mpr ⟨hfield, List.forall_mem_singleton.mpr hklen⟩
    simp only [List.mem_cons, List.not_mem_nil, or_false] at hi
    rcases hi with rfl | rfl
    · show execSigGen s = _
      exact withSignatureConfig_of_illegal hready hillegal _
    · show execSigVerify s = _
      exact withSignatureConfig_of_illegal hready hillegal _

section Results

variable {s u : State} {out : List Byte}

theorem KeepsRegs.reg {rs : List Reg} (h : KeepsRegs s u rs) {r : Reg} (hr : r ∉ rs) : u.reg r = s.reg r := by
  rw [State.reg, State.reg, h r.number fun q hq hn => hr (Reg.number_inj.mp hn ▸ hq)]

/-- A command that has written its result registers and the output `out` ends DONE with both (R393). -/
theorem completes_completed_results {results : List (Reg × Word)} (hm : Moves s u)
    (hkeeps : KeepsRegs s u (results.map Prod.fst)) (hholds : ∀ p ∈ results, u.reg p.1 = p.2)
    (hresults : ∀ p ∈ results, p.1 ∉ [Reg.status, .errOff, .outLen]) (hlen : out.length < 2 ^ 32)
    (hout : ∀ a, u.outByte a = if h : a < out.length then out[a] else s.outByte a) :
    Completes s (u.completed out.length) out results where
  status := u.reg_status_completed _
  errOff := u.reg_errOff_completed _
  outLen := by
    rw [State.reg_outLen_completed, BitVec.toNat_ofNat, Nat.mod_eq_of_lt hlen]
  holds p hp := ((u.keepsRegs_completed _).reg (hresults p hp)).trans (hholds p hp)
  keeps n hn :=
    (u.keepsRegs_completed _ n fun r hr => hn r (List.mem_append_left _ hr)).trans
      (hkeeps n fun r hr => hn r (List.mem_append_right _ hr))
  host := (hm.completed _).keepsHost
  work := rfl
  outByte a := hout a

/-- PLANE_LEN[k] is the length given for plane k, 0 beyond them (R164). -/
theorem State.reg_planeLen_setPlaneLens (s : State) (lens : List Nat) (k : Fin 16) :
    (s.setPlaneLens lens).reg (.planeLen k) = BitVec.ofNat 32 (lens.getD k 0) := by
  have hfold (ks : List (Fin 16)) (t : State) :
      (ks.foldl (fun t j => t.setReg (.planeLen j) (BitVec.ofNat 32 (lens.getD j 0))) t).reg (.planeLen k) =
        if k ∈ ks then BitVec.ofNat 32 (lens.getD k 0) else t.reg (.planeLen k) := by
    induction ks generalizing t with
    | nil => rfl
    | cons j ks ih =>
      rw [List.foldl_cons, ih, State.reg_setReg]
      by_cases hks : k ∈ ks
      · simp [hks]
      · by_cases hj : j = k
        · subst hj
          rw [if_neg hks, if_pos rfl, if_pos List.mem_cons_self]
          exact BitVec.and_allOnes
        · simp [hks, hj, Ne.symm hj]
  exact (hfold _ s).trans (if_pos (List.mem_finRange k))

/-- Writing PLANE_LEN touches no other register (R164). -/
theorem State.keepsRegs_setPlaneLens (s : State) (lens : List Nat) :
    KeepsRegs s (s.setPlaneLens lens) ((List.finRange 16).map Reg.planeLen) := by
  intro n hn
  have hne (k : Fin 16) : Reg.number (.planeLen k) ≠ n := hn _ (List.mem_map_of_mem (List.mem_finRange k))
  unfold State.setPlaneLens
  generalize List.finRange 16 = ks
  induction ks generalizing s with
  | nil => rfl
  | cons k ks ih => rw [List.foldl_cons, ih, State.regs_get_setReg, if_neg (hne k)]

end Results

section PlaneEmits

variable {s : State} {v : Variant} {n : Nat} {bmp : List Byte}

theorem pieceBytes_flatten (pss : List (List Piece)) : pieceBytes pss.flatten = (pss.map pieceBytes).flatten := by
  induction pss with
  | nil => rfl
  | cons ps pss ih => rw [List.flatten_cons, pieceBytes_append, ih, List.map_cons, List.flatten_cons]

/-- The bytes of a plane are the tokens of its runs, one byte each (R164). -/
theorem pieceBytes_encodePlane {bits : List Bool} {runs : List (Bool × Nat)} (h : IsRuns bits runs) :
    pieceBytes (encodePlane bits) = planeStream runs := by
  rw [encodePlane_eq h, pieceBytes_emitsFrom, planeStream, ← List.flatMap_def, ← List.map_eq_flatMap]

/-- The bytes of every plane (R161, R164). -/
theorem map_pieceBytes_encodeBpl {runs : List (List (Bool × Nat))} (hlen : runs.length = n)
    (hruns : ∀ (k : Nat) (h : k < runs.length), IsRuns (planeOf v n bmp k) runs[k]) :
    (encodeBpl v n bmp).map pieceBytes = runs.map planeStream := by
  refine List.ext_getElem (by simp [encodeBpl, hlen]) fun k _ hk => ?_
  simp only [encodeBpl, List.getElem_map, List.getElem_range]
  exact pieceBytes_encodePlane (hruns k (by simpa using hk))

theorem emitAll_of_room {ps : List Piece} (h : HasRoom s (pieceBytes ps).length) (k : State → Out) :
    emitAll s ps k = k (s.putOut 0 (pieceBytes ps)) := by
  rw [emitAll_of_fits h.written h.fits]
  split
  · rename_i hnil
    rw [hnil, pieceBytes_nil, State.putOut_nil]
  · rfl

/-- BPL.ENC past its checks, with room for all planes: `streams` are their bytes (R164). -/
theorem bplEncode_completes {streams : List (List Byte)} (hb : HoldsBitmap s 1 bmp) (haa : s.isWritten .aaN = true)
    (hlegal : LegalConfig s .bplDec) (hstreams : (encodeBpl v (s.reg .aaN).toNat bmp).map pieceBytes = streams)
    (hroom : HasRoom s streams.flatten.length) :
    ∃ t, bplEncode v s = .next t ∧
      Completes s t streams.flatten
        ((List.finRange 16).map fun k => (.planeLen k, BitVec.ofNat 32 (streams.getD k []).length)) := by
  have hbytes : pieceBytes (encodeBpl v (s.reg .aaN).toNat bmp).flatten = streams.flatten := by
    rw [pieceBytes_flatten, hstreams]
  have hlens : (encodeBpl v (s.reg .aaN).toNat bmp).map (fun ps => (pieceBytes ps).length) = streams.map List.length := by
    rw [← hstreams, List.map_map]
    rfl
  have hexec : bplEncode v s =
      .next (((s.putOut 0 streams.flatten).setPlaneLens (streams.map List.length)).completed streams.flatten.length) := by
    rw [bplEncode_of_legal haa hlegal, withBitmap_of_holds hb]
    dsimp only
    rw [emitAll_of_room (hbytes.symm ▸ hroom), hbytes, hlens, finishCommand_eq]
  refine ⟨_, hexec, completes_completed_results (((Moves.refl s).putOut _ _).setPlaneLens _) ?_ ?_ ?_ hroom.lt fun a => ?_⟩
  · rw [List.map_map]
    exact (s.putOut 0 streams.flatten).keepsRegs_setPlaneLens _
  · refine List.forall_mem_map.mpr fun k _ => ?_
    rw [State.reg_planeLen_setPlaneLens, ← List.length_nil (α := Byte), List.getD_map]
  · exact List.forall_mem_map.mpr fun k _ => by simp
  · rw [State.outByte_setPlaneLens, State.outByte_putOut s (by simpa using hroom.fits)]
    simp

end PlaneEmits

/-- Settles O36: the planes' tokens fit OUT, so their bytes are its output. -/
theorem bplEncodes : Obligations.BplEncodes := by
  intro i v s bmp n runs hi hb haa hlevel hone hmax hlen hruns hroom
  subst hlevel
  rw [exec_of_mem_bplEncoders hi]
  exact bplEncode_completes hb haa ⟨hone, hmax⟩ (map_pieceBytes_encodeBpl hlen hruns) hroom

section RoundTrip

variable {s : State} {v : Variant} {n : Nat} {bmp : List Byte}

theorem planeBits_append (xs ys : Plane) : planeBits (xs ++ ys) = planeBits xs ++ planeBits ys := by
  simp [planeBits]

/-- Tokens without an empty run are a plane of as many pixels as they make (R163). -/
theorem isPlane_of_positive {pl : Plane} (h : ∀ t ∈ pl, 0 < t.2.toNat) : IsPlane (planeBits pl).length pl := by
  refine ⟨rfl, (List.eq_nil_or_concat pl).imp_right ?_⟩
  rintro ⟨init, t, hpl⟩
  rw [List.concat_eq_append] at hpl
  subst hpl
  have hpos := h t (by simp)
  rw [List.dropLast_concat, planeBits_append, List.length_append, length_planeBits_cons]
  omega

/-- The tokens BPL.ENC takes for the pixel states of a plane (R164). -/
def planeTokens (bits : List Bool) : Plane :=
  (cutRuns (fun _ => 125) (runsOf bits)).map fun p => (p.1, BitVec.ofNat 7 p.2)

/-- A run of a plane's pieces fits its token's length field (R162, R164). -/
theorem toNat_pieceLength {bits : List Bool} {p : Bool × Nat} (h : p ∈ cutRuns (fun _ => 125) (runsOf bits)) :
    (BitVec.ofNat 7 p.2).toNat = p.2 ∧ 0 < p.2 ∧ p.2 ≤ 125 := by
  obtain ⟨hpos, hle⟩ := mem_cutRuns (fun _ => by decide) h
  exact ⟨by rw [BitVec.toNat_ofNat]; omega, hpos, hle⟩

theorem planeBytes_planeTokens (bits : List Bool) : planeBytes (planeTokens bits) = planeStream (runsOf bits) := by
  rw [planeBytes, planeTokens, List.map_map, planeStream, ← List.flatMap_def, List.map_eq_flatMap, List.flatMap_def,
    List.flatMap_def]
  exact congrArg List.flatten (List.map_congr_left fun p hp => tokenBytes_bplTok p.1 (toNat_pieceLength hp).2.2)

/-- The tokens of a plane stand for its pixel states (R14, R162). -/
theorem planeBits_planeTokens (bits : List Bool) : planeBits (planeTokens bits) = bits := by
  refine Eq.trans ?_ ((isRuns_runsOf bits).expandRuns_cutRuns (max := fun _ => 125) fun _ => by decide)
  rw [planeBits, planeTokens, List.map_map, expandRuns]
  exact congrArg List.flatten (List.map_congr_left fun p hp => congrArg (List.replicate · p.1) (toNat_pieceLength hp).1)

theorem isPlane_planeTokens (bits : List Bool) : IsPlane bits.length (planeTokens bits) := by
  have hpos : ∀ t ∈ planeTokens bits, 0 < t.2.toNat := by
    refine List.forall_mem_map.mpr fun p hp => ?_
    rw [(toNat_pieceLength hp).1]
    exact (toNat_pieceLength hp).2.1
  have := isPlane_of_positive hpos
  rwa [planeBits_planeTokens] at this

/-- The planes BPL.ENC writes for a bitmap (R161, R164). -/
def bitmapPlanes (v : Variant) (n : Nat) (bmp : List Byte) : List Plane :=
  (List.range n).map fun k => planeTokens (planeOf v n bmp k)

@[simp] theorem length_bitmapPlanes (v : Variant) (n : Nat) (bmp : List Byte) : (bitmapPlanes v n bmp).length = n := by
  simp [bitmapPlanes]

theorem isPlane_of_mem_bitmapPlanes {pl : Plane} (h : pl ∈ bitmapPlanes v n bmp) : IsPlane bmp.length pl := by
  obtain ⟨k, -, rfl⟩ := List.mem_map.mp h
  simpa [planeOf] using isPlane_planeTokens (planeOf v n bmp k)

/-- A sample comes back as its level's: it is on in the planes whose thresholds it reaches (R165). -/
theorem planeSamples_bitmapPlanes (v : Variant) (n : Nat) (bmp : List Byte) :
    planeSamples bmp.length (bitmapPlanes v n bmp) = bmp.map (canonLevel v n) := by
  refine List.ext_getElem (by simp [planeSamples]) fun q _ hq => ?_
  have hq' : q < bmp.length := by simpa using hq
  simp only [planeSamples, List.getElem_map, List.getElem_range, length_bitmapPlanes, canonLevel]
  rw [bitmapPlanes, List.countP_map]
  refine congrArg (sampleBpl n) (congrArg (List.countP · (List.range n)) (funext fun k => ?_))
  simp [planeBits_planeTokens, planeOf, List.getD_eq_getElem?_getD, List.getElem?_eq_getElem hq']

theorem map_pieceBytes_encodeBpl_eq (v : Variant) (n : Nat) (bmp : List Byte) :
    (encodeBpl v n bmp).map pieceBytes = (bitmapPlanes v n bmp).map planeBytes := by
  rw [encodeBpl, bitmapPlanes, List.map_map, List.map_map]
  refine List.map_congr_left fun k _ => ?_
  exact (pieceBytes_encodePlane (isRuns_runsOf (planeOf v n bmp k))).trans (planeBytes_planeTokens _).symm

/-- BPL.ENC ends DONE only where all its planes fit OUT (R64). -/
theorem hasRoom_of_bplEncode {t : State} (hb : HoldsBitmap s 1 bmp) (haa : s.isWritten .aaN = true)
    (hlegal : LegalConfig s .bplDec) (hcap : s.isWritten .outCap = true) (hexec : bplEncode v s = .next t)
    (hdone : t.reg .status = 0x00000002#32) :
    HasRoom s (pieceBytes (encodeBpl v (s.reg .aaN).toNat bmp).flatten).length := by
  refine ⟨hcap, ?_⟩
  rw [← Nat.zero_add (List.length _), ← firstOverrun_none_iff (Nat.zero_le _), Option.eq_none_iff_forall_ne_some]
  intro off hover
  rw [bplEncode_of_legal haa hlegal, withBitmap_of_holds hb] at hexec
  obtain rfl := Host.Outcome.next.inj ((emitAll_of_firstOverrun hcap hover _).symm.trans hexec)
  rw [State.reg_status_errored] at hdone
  exact absurd hdone (by decide)

end RoundTrip

/-- Settles O43: BPL.ENC ends DONE with planes that stand for the canonical bitmap, and BPL.DEC decodes any planes. -/
theorem bplRoundTrip : Obligations.BplRoundTrip := by
  intro i v s t u bmp hi hb haa hlegal hroom hexec hdone hu
  have hlen : bmp.length = pixelCount u := by
    rw [hb.pixels, Nat.one_mul, pixelCount_fromOut hexec hu]
  have hlevel : u.reg .aaN = s.reg .aaN := reg_fromOut hexec hu (by decide) (by decide)
  have henc := hexec
  rw [exec_of_mem_bplEncoders hi] at henc
  have hfits := hasRoom_of_bplEncode hb haa hlegal hroom.written henc hdone
  rw [pieceBytes_flatten, map_pieceBytes_encodeBpl_eq] at hfits
  obtain ⟨t', hexec', hcompletes⟩ := bplEncode_completes hb haa hlegal (map_pieceBytes_encodeBpl_eq v _ bmp) hfits
  obtain rfl : t = t' := Host.Outcome.next.inj (henc.symm.trans hexec')
  obtain ⟨hone, hmax⟩ := hlegal
  have hdec := bplDecodesItsPlanes u (bitmapPlanes v (s.reg .aaN).toNat bmp) (by simpa using hone) (by simpa using hmax)
    (isWritten_fromOut hexec hu haa) (by simp [hlevel]) (fun pl hpl => hlen ▸ isPlane_of_mem_bitmapPlanes hpl)
    (hcompletes.holdsInput_fromOut hu) (hb.size.fromOut hexec hu)
    ((pixelCount_fromOut hexec hu).symm ▸ hroom.fromOut hexec hu)
  rwa [← hlen, planeSamples_bitmapPlanes] at hdec

end Sys2Proof.Machine

/-! The levels of the bitplane format (R160, R161, R165): thresholds rise, so a sample is on in the first planes only, and
canonBP is idempotent where every level's sample has that level. -/

namespace Sys2Proof.Machine

section Levels

variable {n l : Nat}

/-- The first threshold (R161). -/
theorem one_le_threshold (v : Variant) (hn : 1 ≤ n) (hmax : n ≤ 16) (hl : 1 ≤ l) : 1 ≤ threshold v n l := by
  cases v with
  | a => exact Nat.le_add_left 1 _
  | b =>
    have hstep : 16 ≤ 256 / n := (Nat.le_div_iff_mul_le hn).mpr (by omega)
    have := Nat.mul_le_mul hstep hl
    show 1 ≤ 256 / n * l - 1
    omega

/-- The last threshold (R161). -/
theorem threshold_le (v : Variant) (hl : l ≤ n) : threshold v n l ≤ 255 := by
  cases v with
  | a =>
    have : 255 * l / (n + 1) < 255 := (Nat.div_lt_iff_lt_mul n.succ_pos).mpr (by omega)
    exact this
  | b =>
    have := Nat.mul_le_mul_left (256 / n) hl
    have := Nat.div_mul_le_self 256 n
    show 256 / n * l - 1 ≤ 255
    omega

/-- Thresholds rise strictly with the level (R161). -/
theorem threshold_lt_succ (v : Variant) (hn : 1 ≤ n) (hmax : n ≤ 16) (hl : 1 ≤ l) : threshold v n l < threshold v n (l + 1) := by
  cases v with
  | a =>
    have hstep : 255 * l / (n + 1) + 1 = (255 * l + (n + 1)) / (n + 1) := (Nat.add_div_right _ n.succ_pos).symm
    have hle : (255 * l + (n + 1)) / (n + 1) ≤ 255 * (l + 1) / (n + 1) := Nat.div_le_div_right (by omega)
    show 255 * l / (n + 1) + 1 < 255 * (l + 1) / (n + 1) + 1
    omega
  | b =>
    have hstep : 16 ≤ 256 / n := (Nat.le_div_iff_mul_le hn).mpr (by omega)
    have := Nat.mul_le_mul hstep hl
    show 256 / n * l - 1 < 256 / n * (l + 1) - 1
    rw [Nat.mul_succ]
    omega

/-- What holds of the first numbers only holds of as many as are counted. -/
theorem lt_countP_range_iff {p : Nat → Bool} (hp : ∀ k, k + 1 < n → p (k + 1) = true → p k = true) {k : Nat} (hk : k < n) :
    k < (List.range n).countP p ↔ p k = true := by
  induction n generalizing k with
  | zero => exact absurd hk k.not_lt_zero
  | succ n ih =>
    have ih := @ih fun k hk => hp k (by omega)
    rw [List.range_succ, List.countP_append, List.countP_singleton]
    have hcount : (List.range n).countP p ≤ n := by simpa using List.countP_le_length (p := p) (l := List.range n)
    cases hpn : p n with
    | false =>
      rw [if_neg Bool.false_ne_true, Nat.add_zero]
      obtain hlt | rfl : k < n ∨ k = n := by omega
      · exact ih hlt
      · simp [hpn, hcount]
    | true =>
      have hall : n ≤ (List.range n).countP p := by
        cases n with
        | zero => exact Nat.zero_le _
        | succ m => exact (ih m.lt_succ_self).mpr (hp m (by omega) hpn)
      rw [if_pos rfl]
      obtain hlt | rfl : k < n ∨ k = n := by omega
      · exact iff_of_true (by omega) ((ih hlt).mp (by omega))
      · exact iff_of_true (by omega) hpn

/-- How many levels a number reaches (R161). -/
def levelOf (v : Variant) (n x : Nat) : Nat := (List.range n).countP fun k => decide (threshold v n (k + 1) ≤ x)

theorem levelOf_le (v : Variant) (n x : Nat) : levelOf v n x ≤ n := by
  exact List.countP_le_length.trans_eq List.length_range

/-- Of rising thresholds a number reaches the first ones (R161). -/
theorem lt_levelOf_iff (v : Variant) (hn : 1 ≤ n) (hmax : n ≤ 16) {k : Nat} (hk : k < n) (x : Nat) :
    k < levelOf v n x ↔ threshold v n (k + 1) ≤ x := by
  refine (lt_countP_range_iff (fun k _ h => ?_) hk).trans decide_eq_true_iff
  have := threshold_lt_succ v hn hmax (Nat.le_add_left 1 k)
  rw [decide_eq_true_iff] at h ⊢
  omega

/-- The number of levels is pinned by the thresholds on both sides. -/
theorem levelOf_eq (v : Variant) (hn : 1 ≤ n) (hmax : n ≤ 16) {c x : Nat} (hc : c ≤ n)
    (hlow : 0 < c → threshold v n c ≤ x) (hhigh : c < n → x < threshold v n (c + 1)) : levelOf v n x = c := by
  have hle : ¬c < levelOf v n x := by
    intro h
    have hcn : c < n := h.trans_le (levelOf_le v n x)
    have := (lt_levelOf_iff v hn hmax hcn x).mp h
    have := hhigh hcn
    omega
  cases c with
  | zero => omega
  | succ c =>
    have := (lt_levelOf_iff v hn hmax (k := c) (by omega) x).mpr (hlow c.succ_pos)
    omega

/-- Every level is that of some sample: that of its threshold. -/
theorem exists_levelOf_eq (v : Variant) (hn : 1 ≤ n) (hmax : n ≤ 16) {c : Nat} (hc : c ≤ n) :
    ∃ s : Byte, levelOf v n s.toNat = c := by
  obtain rfl | hpos := c.eq_zero_or_pos
  · refine ⟨0#8, levelOf_eq v hn hmax hc (fun h => absurd h (Nat.lt_irrefl 0)) fun _ => ?_⟩
    exact one_le_threshold v hn hmax (Nat.le_refl 1)
  · have hlt : threshold v n c < 2 ^ 8 := Nat.lt_succ_of_le (threshold_le v hc)
    refine ⟨BitVec.ofNat 8 (threshold v n c), ?_⟩
    rw [BitVec.toNat_ofNat, Nat.mod_eq_of_lt hlt]
    exact levelOf_eq v hn hmax hc (fun _ => Nat.le_refl _) fun _ => threshold_lt_succ v hn hmax hpos

theorem canonLevel_eq (v : Variant) (n : Nat) (s : Byte) : canonLevel v n s = sampleBpl n (levelOf v n s.toNat) := rfl

/-- The sample of a level from 1 on is the threshold of variant B (R160, R161). -/
theorem toNat_sampleBpl {c : Nat} (hc : c ≤ n) : (sampleBpl n c).toNat = if c = 0 then 0 else threshold .b n c := by
  unfold sampleBpl
  split
  · rfl
  · have := Nat.mul_le_mul_right (256 / n) hc
    have := Nat.mul_div_le 256 n
    rw [byteOf, BitVec.toNat_ofNat, Nat.mod_eq_of_lt (by omega), Nat.mul_comm]
    rfl

/-- The thresholds of variant B bring a level's sample back to the level (R165). -/
theorem levelOf_b_sampleBpl (hn : 1 ≤ n) (hmax : n ≤ 16) {c : Nat} (hc : c ≤ n) : levelOf .b n (sampleBpl n c).toNat = c := by
  rw [toNat_sampleBpl hc]
  refine levelOf_eq .b hn hmax hc (fun hpos => ?_) fun _ => ?_
  · rw [if_neg hpos.ne']
  · split
    · exact one_le_threshold .b hn hmax (Nat.le_add_left 1 c)
    · exact threshold_lt_succ .b hn hmax (by omega)

/-- The samples of two levels differ (R160). -/
theorem sampleBpl_inj (hn : 1 ≤ n) (hmax : n ≤ 16) {c d : Nat} (hc : c ≤ n) (hd : d ≤ n) :
    sampleBpl n c = sampleBpl n d ↔ c = d := by
  refine ⟨fun h => ?_, congrArg _⟩
  rw [← levelOf_b_sampleBpl hn hmax hc, h, levelOf_b_sampleBpl hn hmax hd]

/-- canonBP is idempotent where every level's sample has that level (R165). -/
theorem canonLevel_idempotent_iff (v : Variant) (hn : 1 ≤ n) (hmax : n ≤ 16) :
    (∀ s, canonLevel v n (canonLevel v n s) = canonLevel v n s) ↔ ∀ c, c ≤ n → levelOf v n (sampleBpl n c).toNat = c := by
  simp only [canonLevel_eq, sampleBpl_inj hn hmax (levelOf_le v n _) (levelOf_le v n _)]
  constructor
  · intro h c hc
    obtain ⟨s, rfl⟩ := exists_levelOf_eq v hn hmax hc
    exact h s
  · exact fun h s => h _ (levelOf_le v n s.toNat)

/-- The levels whose samples variant A moves to another level (R165). -/
theorem levelOf_a_sampleBpl : ∀ n, n ≤ 16 → 1 ≤ n →
    ((∀ c, c ≤ n → levelOf .a n (sampleBpl n c).toNat = c) ↔ n ≠ 13 ∧ n ≠ 14 ∧ n ≠ 16) := by
  decide

end Levels

/-- Settles O47: the thresholds by their closed forms, canonBP by the level of each level's sample. -/
theorem bitplaneLevels : Obligations.BitplaneLevels := by
  intro n hn hmax
  refine ⟨fun v l hl hln => ⟨one_le_threshold v hn hmax hl, threshold_le v hln, fun _ => threshold_lt_succ v hn hmax hl⟩,
    fun v s k hk => (lt_levelOf_iff v hn hmax hk s.toNat).symm, ?_, ?_⟩
  · exact (canonLevel_idempotent_iff .b hn hmax).mpr fun c hc => levelOf_b_sampleBpl hn hmax hc
  · exact (canonLevel_idempotent_iff .a hn hmax).trans (levelOf_a_sampleBpl n hmax hn)

end Sys2Proof.Machine

/-! The diff-chunk codec (42_diffchunk.md): a DELTA chunk's pixels, the chunk that DIF.ENC chooses for a piece, and the round
trip over `in.from_out` (R191, R194, R197). -/

namespace Sys2Proof.Machine

section TokenAdvances

variable {s : State} {w : Work} {i : Instr} {l : Nat} {bs : List Byte} {prev' : Byte}

/-- A token that fits in the token region and in P pixels leaves its pixels in OUT and changes nothing else (R37, R395). -/
theorem TokenMakes.advances (h : TokenMakes w.prev i l bs prev') (hw : s.work = some w) (hp : w.phase = .tokens)
    (hf : i.format = w.stream.format) (hfit : w.ic + tokenSize i ≤ w.stop) (hpc : w.pc + l ≤ w.pixels)
    (hroom : HasRoom s (w.stream.pixelBytes * w.pixels)) :
    ∃ t, exec i s = .next t ∧
      Advances s t { w with tok := w.ic, ic := w.ic + tokenSize i, pc := w.pc + l, prev := prev' }
        (w.stream.pixelBytes * w.pc) bs := by
  have hend : w.stream.pixelBytes * w.pc + bs.length ≤ w.stream.pixelBytes * w.pixels := by
    rw [h.length_eq hf, ← Nat.mul_add]
    exact Nat.mul_le_mul_left _ hpc
  refine ⟨{ s.putOut (w.stream.pixelBytes * w.pc) bs with
    work := some { w with tok := w.ic, ic := w.ic + tokenSize i, pc := w.pc + l, prev := prev' } }, ?_, ?_⟩
  · rw [exec_eq_apply hw hp hf, h.tokenEffect_eq hf hfit hpc]
    rfl
  · exact ⟨rfl, rfl, (((Moves.refl s).putOut _ _).setWork _).keepsHost, s.outByte_putOut (hend.trans hroom.fits)⟩

theorem byteOf_toNat (v : Byte) : byteOf v.toNat = v := by
  rw [byteOf, BitVec.ofNat_toNat, BitVec.setWidth_eq]

theorem toNat_byteOf {x : Int} (h0 : 0 ≤ x) (h255 : x ≤ 255) : ((byteOf x.toNat).toNat : Int) = x := by
  rw [byteOf, BitVec.toNat_ofNat]
  omega

end TokenAdvances

/-- Settles O21: a DELTA chunk within 0 to 255 makes its pixels, and a token that makes pixels puts them to OUT. -/
theorem deltaChunksProducePixels : Obligations.DeltaChunksProducePixels := by
  intro i k s w hk hw hs hp hfit hpc hroom h0 h255
  obtain ⟨hf, hsize, -⟩ := deltaToken_spec hk
  have hone (n : Nat) : w.stream.pixelBytes * n = n := by rw [hs]; exact Nat.one_mul n
  have hmakes := TokenMakes.delta hk (toNat_byteOf h0 h255)
  have hadvances := hmakes.advances hw hp (by rw [hf, hs]; rfl) (by rwa [hsize]) hpc (by rwa [hone])
  rwa [hsize, hone] at hadvances

section FirstShortest

variable {i best : Instr} {is : List Instr}

/-- An instruction of a list with the fewest bytes, and the first such (R194). -/
def IsFirstShortest (i : Instr) (is : List Instr) : Prop :=
  ∃ before after, is = before ++ i :: after ∧ (∀ c ∈ before, tokenSize i < tokenSize c) ∧
    ∀ c ∈ after, tokenSize i ≤ tokenSize c

theorem IsFirstShortest.mem (h : IsFirstShortest i is) : i ∈ is := by
  obtain ⟨before, after, rfl, -, -⟩ := h
  simp

theorem IsFirstShortest.le (h : IsFirstShortest i is) : ∀ c ∈ is, tokenSize i ≤ tokenSize c := by
  obtain ⟨before, after, rfl, hbefore, hafter⟩ := h
  exact List.forall_mem_append.mpr
    ⟨fun c hc => Nat.le_of_lt (hbefore c hc), List.forall_mem_cons.mpr ⟨Nat.le_refl _, hafter⟩⟩

/-- A longer instruction in front changes nothing. -/
theorem IsFirstShortest.cons {c : Instr} (h : IsFirstShortest i is) (hc : tokenSize i < tokenSize c) :
    IsFirstShortest i (c :: is) := by
  obtain ⟨before, after, rfl, hbefore, hafter⟩ := h
  exact ⟨c :: before, after, rfl, List.forall_mem_cons.mpr ⟨hc, hbefore⟩, hafter⟩

/-- Nor does an instruction right behind the first one that is no shorter than it. -/
theorem IsFirstShortest.insert_second {c : Instr} (h : IsFirstShortest i (best :: is)) (hc : tokenSize best ≤ tokenSize c) :
    IsFirstShortest i (best :: c :: is) := by
  obtain ⟨_ | ⟨b, before⟩, after, heq, hbefore, hafter⟩ := h
  · obtain ⟨rfl, rfl⟩ := List.cons.inj heq
    exact ⟨[], c :: is, rfl, by simp, List.forall_mem_cons.mpr ⟨hc, hafter⟩⟩
  · obtain ⟨rfl, rfl⟩ := List.cons.inj heq
    obtain ⟨hbest, hbefore⟩ := List.forall_mem_cons.mp hbefore
    refine ⟨best :: c :: before, after, rfl, ?_, hafter⟩
    exact List.forall_mem_cons.mpr ⟨hbest, List.forall_mem_cons.mpr ⟨Nat.lt_of_lt_of_le hbest hc, hbefore⟩⟩

theorem fewestBytes_isFirstShortest (best : Instr) (is : List Instr) :
    IsFirstShortest (fewestBytes best is) (best :: is) := by
  induction is generalizing best with
  | nil => exact ⟨[], [], rfl, by simp, by simp⟩
  | cons i is ih =>
    rw [fewestBytes]
    split
    · rename_i hlt
      have hle : tokenSize (fewestBytes i is) ≤ tokenSize i := (ih i).le i List.mem_cons_self
      exact (ih i).cons (Nat.lt_of_le_of_lt hle hlt)
    · exact (ih best).insert_second (by omega)

end FirstShortest

section Candidates

variable {v prev : Byte} {l : Nat} {i : Instr}

theorem deltaFits_iff :
    deltaFits v prev l = true ↔
      -8 ≤ (v.toNat : Int) - (prev.toNat : Int) ∧ (v.toNat : Int) - (prev.toNat : Int) ≤ 7 ∧ l ≤ 0xFFFFFF :=
  decide_eq_true_iff

/-- The candidates of a piece: ZERO and MAX for their value, VALUE always, DELTA where it fits (R194). -/
theorem mem_chunkCandidates_iff :
    i ∈ chunkCandidates v l prev ↔
      (v = 0x00#8 ∧ i = zeroChunk l) ∨ (v = 0xFF#8 ∧ i = maxChunk l) ∨ i = valueChunk v l ∨
        (deltaFits v prev l = true ∧ i = deltaChunk ((v - prev).setWidth 4) l) := by
  rw [chunkCandidates, List.mem_append, List.mem_append, or_assoc]
  refine or_congr (by split <;> simp [*]) (or_congr (by split <;> simp [*]) ?_)
  split <;> simp [*]

theorem chooseChunk_isFirstShortest (v : Byte) (l : Nat) (prev : Byte) :
    IsFirstShortest (chooseChunk v l prev) (chunkCandidates v l prev) := by
  have hvalue : valueChunk v l ∈ chunkCandidates v l prev := mem_chunkCandidates_iff.mpr (.inr (.inr (.inl rfl)))
  rw [chooseChunk]
  cases hc : chunkCandidates v l prev with
  | nil => simp [hc] at hvalue
  | cons i is => exact fewestBytes_isFirstShortest i is

/-- The candidates by the table of R196, in the same order. -/
theorem map_tokenBytes_chunkCandidates (v prev : Byte) (hl : l ≤ 0x0FFFFFFF) :
    (chunkCandidates v l prev).map tokenBytes = candidateBytes v l prev := by
  rw [chunkCandidates, candidateBytes, List.map_append, List.map_append, List.append_assoc _ [_]]
  refine congrArg₂ _ (congrArg₂ _ ?_ ?_) ?_
  · rw [apply_ite (List.map tokenBytes), List.map_singleton, tokenBytes_zeroChunk hl, List.map_nil]
  · rw [apply_ite (List.map tokenBytes), List.map_singleton, tokenBytes_maxChunk hl, List.map_nil]
  · by_cases hfits : deltaFits v prev l = true
    · rw [if_pos hfits, if_pos (deltaFits_iff.mp hfits), List.map_cons, List.map_singleton, tokenBytes_valueChunk v hl,
        tokenBytes_deltaChunk v prev (deltaFits_iff.mp hfits).2.2]
      rfl
    · rw [if_neg hfits, if_neg (mt deltaFits_iff.mpr hfits), List.map_singleton, tokenBytes_valueChunk v hl]
      rfl

end Candidates

section ChunkPixels

variable {v prev : Byte} {l : Nat} {i : Instr}

/-- Each class of a ZERO chunk holds the run length it was built for (R104, R196). -/
theorem runToken_zeroChunk (hl : l ≤ 0x0FFFFFFF) : runToken (zeroChunk l) = some ⟨.dif, literalSize l, l, [0x00#8]⟩ := by
  unfold zeroChunk literalSize
  split_ifs <;> simp (disch := omega) only [runToken, BitVec.toNat_ofNat, Nat.mod_eq_of_lt]

/-- Each class of a MAX chunk holds the run length it was built for (R104, R196). -/
theorem runToken_maxChunk (hl : l ≤ 0x0FFFFFFF) : runToken (maxChunk l) = some ⟨.dif, literalSize l, l, [0xFF#8]⟩ := by
  unfold maxChunk literalSize
  split_ifs <;> simp (disch := omega) only [runToken, BitVec.toNat_ofNat, Nat.mod_eq_of_lt]

/-- Each class of a VALUE chunk holds the run length it was built for (R104, R196). -/
theorem runToken_valueChunk (v : Byte) (hl : l ≤ 0x0FFFFFFF) :
    runToken (valueChunk v l) = some ⟨.dif, 1 + literalSize l, l, [v]⟩ := by
  unfold valueChunk literalSize
  split_ifs <;> simp (disch := omega) only [runToken, BitVec.toNat_ofNat, Nat.mod_eq_of_lt]

/-- Each class of a DELTA chunk holds the run length it was built for (R104, R196). -/
theorem deltaToken_deltaChunk (d : BitVec 4) (hl : l ≤ 0xFFFFFF) :
    deltaToken (deltaChunk d l) = some ⟨d.toInt, deltaSize l, l⟩ := by
  unfold deltaChunk deltaSize
  split_ifs with hone
  · simp only [deltaToken, hone]
  all_goals simp (disch := omega) only [deltaToken, BitVec.toNat_ofNat, Nat.mod_eq_of_lt]

/-- A difference that fits in 4 signed bits is the chunk's delta (R194). -/
theorem toInt_delta (h : deltaFits v prev l = true) :
    ((v - prev).setWidth 4).toInt = (v.toNat : Int) - (prev.toNat : Int) := by
  obtain ⟨hlow, hhigh, -⟩ := deltaFits_iff.mp h
  rw [BitVec.toInt_eq_toNat_cond, toNat_delta]
  split <;> omega

theorem deltaToken_of_runToken {k : RunToken} (h : runToken i = some k) : deltaToken i = none := by
  cases hd : deltaToken i with
  | none => rfl
  | some k' => rw [(deltaToken_spec hd).2.2] at h; cases h

/-- A ZERO, VALUE or MAX chunk of L > 0 pixels, and the chunks behind it (R191). -/
theorem difPixels_cons_literal {n : Nat} (h : runToken i = some ⟨.dif, n, l, [v]⟩) (hpos : 0 < l) (prev : Byte)
    (is : List Instr) : difPixels prev (i :: is) = (difPixels v is).map (List.replicate l v ++ ·) := by
  simp only [difPixels, deltaToken_of_runToken h, h, if_pos hpos, List.headD_cons, List.flatten_replicate_singleton]

/-- A DELTA chunk of L > 0 pixels that leads from `prev` to a value, and the chunks behind it (R191). -/
theorem difPixels_cons_delta {k : DeltaToken} (h : deltaToken i = some k) (hpos : 0 < k.len)
    (hv : (v.toNat : Int) = (prev.toNat : Int) + k.delta) (is : List Instr) :
    difPixels prev (i :: is) = (difPixels v is).map (List.replicate k.len v ++ ·) := by
  have hlt := v.isLt
  simp only [difPixels, h, ← hv, Int.toNat_natCast, byteOf_toNat, if_pos hpos]
  exact if_pos (by omega)

/-- Every candidate of a piece stands for its pixels (R191, R194). -/
theorem difPixels_cons_candidate (h : i ∈ chunkCandidates v l prev) (hpos : 0 < l) (hl : l ≤ 0x0FFFFFFF)
    (is : List Instr) : difPixels prev (i :: is) = (difPixels v is).map (List.replicate l v ++ ·) := by
  obtain ⟨rfl, rfl⟩ | ⟨rfl, rfl⟩ | rfl | ⟨hfits, rfl⟩ := mem_chunkCandidates_iff.mp h
  · exact difPixels_cons_literal (runToken_zeroChunk hl) hpos prev is
  · exact difPixels_cons_literal (runToken_maxChunk hl) hpos prev is
  · exact difPixels_cons_literal (runToken_valueChunk v hl) hpos prev is
  · refine difPixels_cons_delta (deltaToken_deltaChunk _ (deltaFits_iff.mp hfits).2.2) hpos ?_ is
    rw [toInt_delta hfits, add_sub_cancel]

theorem format_of_candidate (h : i ∈ chunkCandidates v l prev) (hl : l ≤ 0x0FFFFFFF) : i.format = .dif := by
  obtain ⟨-, rfl⟩ | ⟨-, rfl⟩ | rfl | ⟨hfits, rfl⟩ := mem_chunkCandidates_iff.mp h
  · exact (runToken_spec (runToken_zeroChunk hl)).1
  · exact (runToken_spec (runToken_maxChunk hl)).1
  · exact (runToken_spec (runToken_valueChunk v hl)).1
  · exact (deltaToken_spec (deltaToken_deltaChunk _ (deltaFits_iff.mp hfits).2.2)).1

end ChunkPixels

/-- Settles O34: the scan for the fewest bytes finds the first of them, and every candidate stands for the piece. -/
theorem chunkChoice : Obligations.ChunkChoice := by
  intro v prev l hpos hl
  have hfirst := chooseChunk_isFirstShortest v l prev
  refine ⟨?_, tokenBytes_chooseChunk v prev hpos hl, ?_⟩
  · obtain ⟨before, after, heq, hbefore, hafter⟩ := hfirst
    refine ⟨before.map tokenBytes, after.map tokenBytes, ?_, List.forall_mem_map.mpr hbefore, List.forall_mem_map.mpr hafter⟩
    rw [← map_tokenBytes_chunkCandidates v prev hl, heq, List.map_append, List.map_cons]
  · rw [difPixels_cons_candidate hfirst.mem hpos hl]
    simp [difPixels]

section DifRoundTrip

/-- The chunks DIF.ENC takes for pieces, each after the value of the one before (R194, R195). -/
def chunkTokens : Byte → List (Byte × Nat) → List Instr
  | _, [] => []
  | prev, p :: ps => chooseChunk p.1 p.2 prev :: chunkTokens p.1 ps

variable {ps : List (Byte × Nat)}

theorem format_of_mem_chunkTokens (h : ∀ p ∈ ps, 0 < p.2 ∧ p.2 ≤ 0x0FFFFFFF) (prev : Byte) :
    ∀ i ∈ chunkTokens prev ps, i.format = .dif := by
  induction ps generalizing prev with
  | nil => simp [chunkTokens]
  | cons p ps ih =>
    obtain ⟨⟨-, hl⟩, hps⟩ := List.forall_mem_cons.mp h
    exact List.forall_mem_cons.mpr ⟨format_of_candidate (chooseChunk_isFirstShortest p.1 p.2 prev).mem hl, ih hps p.1⟩

theorem streamBytes_chunkTokens (h : ∀ p ∈ ps, 0 < p.2 ∧ p.2 ≤ 0x0FFFFFFF) (prev : Byte) :
    streamBytes (chunkTokens prev ps) = chunkStream prev ps := by
  induction ps generalizing prev with
  | nil => rfl
  | cons p ps ih =>
    obtain ⟨⟨hpos, hl⟩, hps⟩ := List.forall_mem_cons.mp h
    rw [chunkStream, ← ih hps p.1, ← tokenBytes_chooseChunk p.1 prev hpos hl]
    rfl

/-- The chunks stand for the pixels of the pieces, whatever `prev` was (R191, R194). -/
theorem difPixels_chunkTokens (h : ∀ p ∈ ps, 0 < p.2 ∧ p.2 ≤ 0x0FFFFFFF) (prev : Byte) :
    difPixels prev (chunkTokens prev ps) = some (expandRuns ps) := by
  induction ps generalizing prev with
  | nil => rfl
  | cons p ps ih =>
    obtain ⟨⟨hpos, hl⟩, hps⟩ := List.forall_mem_cons.mp h
    rw [chunkTokens, difPixels_cons_candidate (chooseChunk_isFirstShortest p.1 p.2 prev).mem hpos hl, ih hps p.1]
    rfl

/-- The pieces that DIF.ENC cuts a bitmap into (R195). -/
def difPieces (bmp : List Byte) : List (Byte × Nat) := cutRuns (fun _ => 0x0FFFFFFF) (runsOf bmp)

theorem mem_difPieces {bmp : List Byte} : ∀ p ∈ difPieces bmp, 0 < p.2 ∧ p.2 ≤ 0x0FFFFFFF :=
  fun _ hp => mem_cutRuns (fun _ => by decide) hp

theorem expandRuns_difPieces (bmp : List Byte) : expandRuns (difPieces bmp) = bmp :=
  (isRuns_runsOf bmp).expandRuns_cutRuns fun _ => by decide

/-- An emission that ended DONE fitted OUT (R64). -/
theorem EmissionEnds.fits {s t : State} {es : List Piece} (h : EmissionEnds s es (.next t))
    (hdone : t.reg .status = 0x00000002#32) : (pieceBytes es).length ≤ (s.reg .outCap).toNat := by
  rw [← Nat.zero_add (List.length _), ← firstOverrun_none_iff (Nat.zero_le _), Option.eq_none_iff_forall_ne_some]
  intro off hover
  obtain ⟨before, p, after, hes, -, hfit, hp⟩ := (firstOverrun_some_iff (Nat.zero_le _)).mp hover
  obtain ⟨t', ht, hraises⟩ := h.overrun before after p hes (by omega) (by omega)
  obtain rfl := Host.Outcome.next.inj ht
  exact absurd (hdone.symm.trans hraises.status) (by decide)

/-- DIF.ENC that ended DONE had room for its magic, its chunks and its checksum (R64, R195). -/
theorem hasRoom_of_difEnc {s t : State} {bmp : List Byte} (hb : HoldsBitmap s 1 bmp) (hwr : s.isWritten .diffMagic = true)
    (hcap : s.isWritten .outCap = true) (hexec : exec .difEnc s = .next t) (hdone : t.reg .status = 0x00000002#32) :
    HasRoom s ((chunkStream 0#8 (difPieces bmp)).length + 2) := by
  have hready : Ready s [.outCap, .diffMagic] :=
    List.forall_mem_cons.mpr ⟨hcap, List.forall_mem_singleton.mpr hwr⟩
  have hends : EmissionEnds s _ (exec .difEnc s) :=
    execDifEnc_ends hready hb ⟨runsOf bmp, _, isRuns_runsOf bmp, rfl, rfl⟩
  rw [hexec] at hends
  have hfits := hends.fits hdone
  rw [pieceBytes_append, pieceBytes_append, pieceBytes_chunkEmits] at hfits
  simp only [pieceBytes_cons, pieceBytes_nil, List.length_append, List.length_singleton, List.append_nil] at hfits
  refine ⟨hcap, ?_⟩
  rw [difPieces]
  omega

/-- DIF.ENC that ended DONE wrote its magic, chunks that stand for the bitmap, and their checksum (R195). -/
theorem difEnc_completes_of_done {s t : State} {bmp : List Byte} (hb : HoldsBitmap s 1 bmp)
    (hwr : s.isWritten .diffMagic = true) (hcap : s.isWritten .outCap = true) (hexec : exec .difEnc s = .next t)
    (hdone : t.reg .status = 0x00000002#32) :
    let chunks := streamBytes (chunkTokens 0#8 (difPieces bmp))
    Completes s t ([(s.reg .diffMagic).setWidth 8] ++ chunks ++ [complementSum chunks]) [] := by
  dsimp only
  obtain ⟨t', hexec', hcompletes⟩ := difEncodes s _ bmp (runsOf bmp) _ hb hwr ((diffMagic_eq_iff s _).mpr rfl)
    (isRuns_runsOf bmp) rfl (hasRoom_of_difEnc hb hwr hcap hexec hdone)
  obtain rfl : t = t' := Host.Outcome.next.inj (hexec.symm.trans hexec')
  rwa [streamBytes_chunkTokens mem_difPieces]

end DifRoundTrip

/-- Settles O44: DIF.ENC ends DONE with chunks that stand for the bitmap, and DIF.DEC decodes any chunks. -/
theorem difRoundTrip : Obligations.DifRoundTrip := by
  intro s t u bmp hb hwr hroom hexec hdone hu
  have hcompletes := difEnc_completes_of_done hb hwr hroom.written hexec hdone
  have hmagic : u.reg .diffMagic = s.reg .diffMagic := reg_fromOut hexec hu (by decide) (by decide)
  have hcount : pixelCount u = pixelCount s := pixelCount_fromOut hexec hu
  refine difDecodesItsChunks u ((s.reg .diffMagic).setWidth 8) _ bmp (format_of_mem_chunkTokens mem_difPieces 0#8) ?_
    (hcompletes.holdsInput_fromOut hu) (isWritten_fromOut hexec hu hwr) (hmagic.trans ((diffMagic_eq_iff s _).mpr rfl))
    (hb.size.fromOut hexec hu) (hcount ▸ hroom.fromOut hexec hu) ?_
  · rw [difPixels_chunkTokens mem_difPieces, expandRuns_difPieces]
  · rw [hb.pixels, Nat.one_mul, hcount]

end Sys2Proof.Machine

/-! The nibble codec (43_nibble.md): NIB.DEC on any tokens and any trailer, what NIB.ENC emits, the token of a piece, and the
round trip over `in.from_out`. -/

namespace Sys2Proof.Machine

/-- The token region of a nibble stream ends before its two trailer bytes (R232). -/
theorem HoldsInput.beforeTrailer {s : State} {bs : List Byte} {f0 f1 : Byte} (h : HoldsInput s (bs ++ [f0, f1])) :
    (s.reg .inLen).toNat = bs.length + 2 ∧ s.inRange 0 bs.length = bs :=
  ⟨h.length.trans List.length_append, (State.inRange_split h.inRange_eq).1⟩

/-- Settles O28: NIB.DEC past its checks scans tokens that are all runs, up to the trailer, which no turn reads. -/
theorem nibDecodesItsTokens : Obligations.NibDecodesItsTokens := by
  intro s toks f0 f1 hf hin hsize hroom hpx
  have hready : Ready s [.inLen, .width, .height] := List.forall_mem_cons.mpr ⟨hin.written, hsize⟩
  obtain ⟨hlen, htokens⟩ := hin.beforeTrailer
  have hlong : LongEnough s .nibDec := by
    show 2 ≤ (s.reg .inLen).toNat
    omega
  have hstop : (s.reg .inLen).toNat - 2 = (streamBytes toks).length := by rw [hlen, Nat.add_sub_cancel]
  have hexec := (exec_eq_runStream (i := .nibDec) rfl trivial hlong hready (fun h => nomatch h)
    (fun size h => by cases h; exact hroom)).1
  have hper : (streamPixels toks).length = Stream.nib.pixelBytes * pixelCount s := hpx.trans (Nat.one_mul _).symm
  rw [hexec]
  exact tokenStream_completes (st := .nib) (by decide) hin.written (Nat.sub_le _ 2) hf (hstop ▸ htokens)
    (makes_streamPixels (fun i hi => exists_runToken (st := .nib) (hf i hi).1 (by decide) (by decide)) _) hper (hpx ▸ hroom)

section NibEncoder

variable {s t : State} {bmp : List Byte}

/-- The pieces that NIB.ENC cuts runs into (R233). -/
def nibCuts (runs : List (BitVec 4 × Nat)) : List (BitVec 4 × Nat) :=
  cutRuns (fun q => if q.toNat = 0 ∨ q.toNat = 15 then 4095 else 15) runs

/-- The token bytes of pieces (R105, R233). -/
def nibStream (ps : List (BitVec 4 × Nat)) : List Byte := (ps.map fun p => nibBytes p.1 p.2).flatten

/-- The trailer bytes of NIB.ENC, the low byte first (R233). -/
def nibTrailerBytes (s : State) (toks : List Byte) : List Byte :=
  leBytes 2 (Config.crc16Finish (bitSerialCrc 0xA001#16 ((s.reg .crc16Init).setWidth 16) toks)).toNat

@[simp] theorem length_nibTrailerBytes (s : State) (toks : List Byte) : (nibTrailerBytes s toks).length = 2 :=
  length_leBytes 2 _

/-- The emits of NIB.ENC: one for each piece's token, and the trailer at P (R233). -/
def nibEmits (s : State) (bmp : List Byte) (ps : List (BitVec 4 × Nat)) : List Piece :=
  emitsFrom 1 nibBytes 0 ps ++ [⟨nibTrailerBytes s (nibStream ps), bmp.length⟩]

theorem pieceBytes_nibEmits (s : State) (bmp : List Byte) (ps : List (BitVec 4 × Nat)) :
    pieceBytes (nibEmits s bmp ps) = nibStream ps ++ nibTrailerBytes s (nibStream ps) := by
  rw [nibEmits, pieceBytes_append, pieceBytes_emitsFrom, pieceBytes_cons, pieceBytes_nil, List.append_nil]
  rfl

theorem exec_nibEnc_eq {runs : List (BitVec 4 × Nat)} (hb : HoldsBitmap s 1 bmp) (hwr : s.isWritten .crc16Init = true)
    (hruns : IsRuns (bmp.map fun b => BitVec.ofNat 4 (b.toNat / 16)) runs) :
    exec .nibEnc s = emitCommand s (nibEmits s bmp (nibCuts runs)) := by
  show execNibEnc s = _
  rw [execNibEnc, withBitmap_of_holds hb, withReg_of_written hwr, encodeNib, crc16Raw_eq, tokenBytes_nibTrailer,
    encodeNibTokens_eq hruns, pieceBytes_emitsFrom]
  rfl

/-- NIB.ENC with room for its tokens and its trailer (R233). -/
theorem exec_nibEnc_completes {runs : List (BitVec 4 × Nat)} (hb : HoldsBitmap s 1 bmp) (hwr : s.isWritten .crc16Init = true)
    (hruns : IsRuns (bmp.map fun b => BitVec.ofNat 4 (b.toNat / 16)) runs)
    (hroom : HasRoom s ((nibStream (nibCuts runs)).length + 2)) :
    ∃ t, exec .nibEnc s = .next t ∧
      Completes s t (nibStream (nibCuts runs) ++ nibTrailerBytes s (nibStream (nibCuts runs))) [] := by
  rw [exec_nibEnc_eq hb hwr hruns, ← pieceBytes_nibEmits s bmp]
  refine emitCommand_completes ?_
  rwa [pieceBytes_nibEmits, List.length_append, length_nibTrailerBytes]

end NibEncoder

/-- Settles O38: the emits of R233 fit OUT, so their bytes are its output. -/
theorem nibEncodes : Obligations.NibEncodes := by
  intro s init bmp runs toks hb hwr hinit hruns htoks hroom
  have hvalue : (s.reg .crc16Init).setWidth 16 = init := by rw [hinit]; simp
  subst hvalue htoks
  exact exec_nibEnc_completes hb hwr hruns hroom

section TokNib

variable {q : BitVec 4} {l : Nat}

theorem maxNib_eq (q : BitVec 4) : maxNib q = if q.toNat = 0 ∨ q.toNat = 15 then 4095 else 15 := by
  simp only [maxNib, ← BitVec.toNat_inj]
  rfl

/-- A piece's colour is black, white or one of the others, and its token is that of R105. -/
theorem tokNib_cases (q : BitVec 4) (l : Nat) :
    (q = 0x0#4 ∧ tokNib q l = .nibBlack (BitVec.ofNat 12 l)) ∨ (q = 0xF#4 ∧ tokNib q l = .nibWhite (BitVec.ofNat 12 l)) ∨
      ((q ≠ 0x0#4 ∧ q ≠ 0xF#4) ∧ tokNib q l = .nibGrey q (BitVec.ofNat 4 l)) := by
  unfold tokNib
  split_ifs with h0 hF
  · exact .inl ⟨h0, rfl⟩
  · exact .inr (.inl ⟨hF, rfl⟩)
  · exact .inr (.inr ⟨⟨h0, hF⟩, rfl⟩)

/-- A colour 0x0 or 0xF never stands in a token of one byte (R105). -/
theorem tokNib_legal (q : BitVec 4) (l : Nat) : (tokNib q l).format = .nib ∧ (tokNib q l).wellFormed = true := by
  obtain ⟨-, h⟩ | ⟨-, h⟩ | ⟨⟨h0, hF⟩, h⟩ := tokNib_cases q l <;> rw [h]
  · exact ⟨rfl, rfl⟩
  · exact ⟨rfl, rfl⟩
  · exact ⟨rfl, by simp [Instr.wellFormed, h0, hF]⟩

/-- The token of a piece holds the run length it was built for (R231, R233). -/
theorem runToken_tokNib (hl : l ≤ maxNib q) :
    ∃ k, runToken (tokNib q l) = some k ∧ k.len = l ∧ k.pixel = [sampleNib q] := by
  obtain ⟨rfl, h⟩ | ⟨rfl, h⟩ | ⟨⟨h0, hF⟩, h⟩ := tokNib_cases q l <;> rw [h]
  · exact ⟨_, rfl, Nat.mod_eq_of_lt (Nat.lt_succ_of_le hl), rfl⟩
  · exact ⟨_, rfl, Nat.mod_eq_of_lt (Nat.lt_succ_of_le hl), rfl⟩
  · rw [maxNib, if_neg (not_or.mpr ⟨h0, hF⟩)] at hl
    exact ⟨_, rfl, Nat.mod_eq_of_lt (Nat.lt_succ_of_le hl), rfl⟩

end TokNib

section NibRoundTrip

variable {s t : State} {bmp : List Byte}

/-- The sample that a nibble keeps of a sample (R230). -/
theorem sampleNib_colourNib (b : Byte) : sampleNib (colourNib b) = byteOf (b.toNat / 16 * 17) := by
  have hb := b.isLt
  rw [sampleNib, colourNib_eq, BitVec.toNat_ofNat, Nat.mod_eq_of_lt (by omega), Nat.mul_comm]

/-- The pieces that NIB.ENC cuts a bitmap into (R233). -/
def nibPieces (bmp : List Byte) : List (BitVec 4 × Nat) := nibCuts (runsOf (bmp.map colourNib))

/-- The tokens NIB.ENC takes for a bitmap (R233). -/
def nibTokens (bmp : List Byte) : List Instr := (nibPieces bmp).map fun p => tokNib p.1 p.2

theorem isRuns_nibbles (bmp : List Byte) :
    IsRuns (bmp.map fun b => BitVec.ofNat 4 (b.toNat / 16)) (runsOf (bmp.map colourNib)) := by
  simp only [← colourNib_eq]
  exact isRuns_runsOf _

theorem nibPieces_eq (bmp : List Byte) : nibPieces bmp = cutRuns maxNib (runsOf (bmp.map colourNib)) :=
  congrArg (cutRuns · _) (funext fun q => (maxNib_eq q).symm)

theorem maxNib_pos (q : BitVec 4) : 0 < maxNib q := by
  unfold maxNib
  split <;> decide

theorem le_maxNib_of_mem_nibPieces {p : BitVec 4 × Nat} (h : p ∈ nibPieces bmp) : p.2 ≤ maxNib p.1 := by
  rw [nibPieces_eq] at h
  exact (mem_cutRuns maxNib_pos h).2

theorem expandRuns_nibPieces (bmp : List Byte) : expandRuns (nibPieces bmp) = bmp.map colourNib := by
  rw [nibPieces_eq]
  exact (isRuns_runsOf _).expandRuns_cutRuns maxNib_pos

theorem streamBytes_nibTokens (bmp : List Byte) : streamBytes (nibTokens bmp) = nibStream (nibPieces bmp) := by
  rw [streamBytes, nibTokens, List.map_map]
  exact congrArg List.flatten (List.map_congr_left fun p hp => tokenBytes_tokNib p.1 (le_maxNib_of_mem_nibPieces hp))

/-- The tokens stand for the canonical bitmap (R230, R231). -/
theorem streamPixels_nibTokens (bmp : List Byte) :
    streamPixels (nibTokens bmp) = bmp.map fun b => byteOf (b.toNat / 16 * 17) := by
  rw [nibTokens, streamPixels_map fun p hp => runToken_tokNib (le_maxNib_of_mem_nibPieces hp), expandRuns_nibPieces,
    List.map_map]
  exact List.map_congr_left fun b _ => sampleNib_colourNib b

/-- NIB.ENC that ended DONE had room for its tokens and its trailer (R64, R233). -/
theorem hasRoom_of_nibEnc (hb : HoldsBitmap s 1 bmp) (hwr : s.isWritten .crc16Init = true)
    (hcap : s.isWritten .outCap = true) (hexec : exec .nibEnc s = .next t) (hdone : t.reg .status = 0x00000002#32) :
    HasRoom s ((nibStream (nibPieces bmp)).length + 2) := by
  have hends := emissionEnds_emitCommand (es := nibEmits s bmp (nibPieces bmp)) hcap
  rw [nibPieces, ← exec_nibEnc_eq hb hwr (isRuns_nibbles bmp), hexec, ← nibPieces] at hends
  have hfits := hends.fits hdone
  rw [pieceBytes_nibEmits, List.length_append, length_nibTrailerBytes] at hfits
  exact ⟨hcap, hfits⟩

/-- NIB.ENC that ended DONE wrote its tokens and two bytes more (R233). -/
theorem nibEnc_completes_of_done (hb : HoldsBitmap s 1 bmp) (hwr : s.isWritten .crc16Init = true)
    (hcap : s.isWritten .outCap = true) (hexec : exec .nibEnc s = .next t) (hdone : t.reg .status = 0x00000002#32) :
    ∃ f0 f1 : Byte, Completes s t (streamBytes (nibTokens bmp) ++ [f0, f1]) [] := by
  obtain ⟨t', hexec', hcompletes⟩ :=
    exec_nibEnc_completes hb hwr (isRuns_nibbles bmp) (hasRoom_of_nibEnc hb hwr hcap hexec hdone)
  obtain rfl : t = t' := Host.Outcome.next.inj (hexec.symm.trans hexec')
  obtain ⟨f0, f1, htrailer⟩ := List.length_eq_two.mp (length_nibTrailerBytes s (nibStream (nibPieces bmp)))
  refine ⟨f0, f1, ?_⟩
  rwa [streamBytes_nibTokens, ← htrailer]

end NibRoundTrip

/-- Settles O45: NIB.ENC ends DONE with tokens that stand for the canonical bitmap, and NIB.DEC decodes any tokens, whatever
the trailer. -/
theorem nibRoundTrip : Obligations.NibRoundTrip := by
  intro s t u bmp hb hwr hroom hexec hdone hu
  obtain ⟨f0, f1, hcompletes⟩ := nibEnc_completes_of_done hb hwr hroom.written hexec hdone
  have hcount : pixelCount u = pixelCount s := pixelCount_fromOut hexec hu
  rw [← streamPixels_nibTokens]
  refine nibDecodesItsTokens u (nibTokens bmp) f0 f1 (List.forall_mem_map.mpr fun p _ => tokNib_legal p.1 p.2)
    (hcompletes.holdsInput_fromOut hu) (hb.size.fromOut hexec hu) (hcount ▸ hroom.fromOut hexec hu) ?_
  rw [streamPixels_nibTokens, List.length_map, hb.pixels, Nat.one_mul, hcount]

end Sys2Proof.Machine

/-! The RGB15 codec (44_rgb15.md): what RGB.ENC emits, the tokens of a piece, and the round trip over `in.from_out`. RGB.DEC
on any tokens stands above. -/

namespace Sys2Proof.Machine

section RgbEncodes

variable {s : State} {bmp : List Byte}

/-- The token bytes of pieces (R106, R263). -/
def rgbStream (hi : BitVec 4) (ps : List (Rgb15 × Nat)) : List Byte := (ps.map fun p => rgbBytes hi p.1 p.2).flatten

/-- The pieces that RGB.ENC cuts runs into (R263). -/
def rgbCuts (runs : List (Rgb15 × Nat)) : List (Rgb15 × Nat) := cutRuns (fun _ => 4096) runs

/-- The nibble that RGB.ENC puts above a repeat field (R106, R263). -/
def repHi (s : State) : BitVec 4 := (s.reg .rgbRepHi).setWidth 4

/-- RGB.ENC with room for the tokens of its pieces (R263). -/
theorem exec_rgbEnc_completes {runs : List (Rgb15 × Nat)} (hb : HoldsBitmap s 3 bmp) (hwr : s.isWritten .rgbRepHi = true)
    (hruns : IsRuns (packedColours (pixelCount s) bmp) runs) (hroom : HasRoom s (rgbStream (repHi s) (rgbCuts runs)).length) :
    ∃ t, exec .rgbEnc s = .next t ∧ Completes s t (rgbStream (repHi s) (rgbCuts runs)) [] := by
  have hready : Ready s [.outCap, .rgbRepHi] := List.forall_mem_cons.mpr ⟨hroom.written, List.forall_mem_singleton.mpr hwr⟩
  have hexec : exec .rgbEnc s = emitCommand s (emitRgb (repHi s) (rgbPieces bmp)) := by
    show execRgbEnc s = _
    rw [execRgbEnc_eq, withBitmap_of_holds hb, rgbEmission_eq hready, repHi]
  have hbytes : pieceBytes (emitRgb (repHi s) (rgbPieces bmp)) = rgbStream (repHi s) (rgbCuts runs) := by
    rw [emitRgb_eq _ hb.pixels hruns, pieceBytes_emitsFrom, rgbStream, rgbCuts]
  rw [hexec, ← hbytes]
  exact emitCommand_completes (hbytes ▸ hroom)

end RgbEncodes

/-- Settles O39: the emits of R263 fit OUT, so their bytes are its output. -/
theorem rgbEncodes : Obligations.RgbEncodes := by
  intro s hi bmp runs out hb hwr hrep hruns hout hroom
  have hvalue : repHi s = hi := by rw [repHi, hrep]; simp
  subst hvalue hout
  exact exec_rgbEnc_completes hb hwr hruns hroom

section TokRgb

variable {hi : BitVec 4} {c : Rgb15} {l : Nat}

theorem format_of_mem_tokRgb {i : Instr} (h : i ∈ tokRgb hi c l) : i.format = .rgb := by
  unfold tokRgb at h
  split at h
  · rw [List.eq_of_mem_replicate h]
    rfl
  · rw [List.mem_singleton.mp h]
    rfl

/-- The tokens of a piece stand for its pixels: a plain word for each of up to two, a repeat field of `l - 1` beyond (R106,
R262). -/
theorem streamPixels_tokRgb (hpos : 0 < l) (hl : l ≤ 4096) :
    streamPixels (tokRgb hi c l) = (List.replicate l (expandRgb c)).flatten := by
  have hpixel : expandRgb c = sampleRgb c.r c.g c.b := expandRgb_eq c.r c.g c.b
  rw [hpixel]
  unfold tokRgb
  split
  · simp [streamPixels, runToken]
  · have hrep : (l - 1) % 4096 + 1 = l := by omega
    simp [streamPixels, runToken, hrep]

/-- No piece takes more than two bytes for each pixel (R431). -/
theorem length_rgbBytes_le (hpos : 0 < l) : (rgbBytes hi c l).length ≤ 2 * l := by
  unfold rgbBytes
  dsimp only
  split_ifs <;> simp only [List.length_cons, List.length_nil] <;> omega

end TokRgb

section RgbTokens

/-- The tokens RGB.ENC takes for pieces (R263). -/
def rgbTokens (hi : BitVec 4) (ps : List (Rgb15 × Nat)) : List Instr := (ps.map fun p => tokRgb hi p.1 p.2).flatten

theorem rgbTokens_cons (hi : BitVec 4) (p : Rgb15 × Nat) (ps : List (Rgb15 × Nat)) :
    rgbTokens hi (p :: ps) = tokRgb hi p.1 p.2 ++ rgbTokens hi ps := rfl

theorem streamPixels_append (xs ys : List Instr) : streamPixels (xs ++ ys) = streamPixels xs ++ streamPixels ys := by
  simp only [streamPixels, List.map_append, List.flatten_append]

theorem streamBytes_append (xs ys : List Instr) : streamBytes (xs ++ ys) = streamBytes xs ++ streamBytes ys := by
  simp only [streamBytes, List.map_append, List.flatten_append]

variable {hi : BitVec 4} {ps : List (Rgb15 × Nat)}

theorem format_of_mem_rgbTokens {i : Instr} (h : i ∈ rgbTokens hi ps) : i.format = .rgb := by
  obtain ⟨_, htoks, hmem⟩ := List.mem_flatten.mp h
  obtain ⟨p, -, rfl⟩ := List.mem_map.mp htoks
  exact format_of_mem_tokRgb hmem

theorem streamBytes_rgbTokens (h : ∀ p ∈ ps, 0 < p.2 ∧ p.2 ≤ 4096) : streamBytes (rgbTokens hi ps) = rgbStream hi ps := by
  induction ps with
  | nil => rfl
  | cons p ps ih =>
    obtain ⟨⟨hpos, hl⟩, hps⟩ := List.forall_mem_cons.mp h
    rw [rgbTokens_cons, streamBytes_append, ih hps, streamBytes, tokenBytes_tokRgb hi p.1 hpos hl]
    rfl

/-- The tokens of pieces stand for the pixels of their colours, three bytes each (R261, R262). -/
theorem streamPixels_rgbTokens (h : ∀ p ∈ ps, 0 < p.2 ∧ p.2 ≤ 4096) :
    streamPixels (rgbTokens hi ps) = ((expandRuns ps).map expandRgb).flatten := by
  induction ps with
  | nil => rfl
  | cons p ps ih =>
    obtain ⟨⟨hpos, hl⟩, hps⟩ := List.forall_mem_cons.mp h
    rw [rgbTokens_cons, streamPixels_append, ih hps, streamPixels_tokRgb hpos hl, expandRuns_cons, List.map_append,
      List.map_replicate, List.flatten_append]

/-- RGB.ENC emits no more than two bytes for each pixel (R431). -/
theorem length_rgbStream_le (h : ∀ p ∈ ps, 0 < p.2) : (rgbStream hi ps).length ≤ 2 * (expandRuns ps).length := by
  induction ps with
  | nil => exact Nat.le_refl 0
  | cons p ps ih =>
    obtain ⟨hpos, hps⟩ := List.forall_mem_cons.mp h
    have hstream : rgbStream hi (p :: ps) = rgbBytes hi p.1 p.2 ++ rgbStream hi ps := rfl
    rw [hstream, expandRuns_cons, List.length_append, List.length_append, List.length_replicate, Nat.mul_add]
    exact Nat.add_le_add (length_rgbBytes_le hpos) (ih hps)

end RgbTokens

section RgbRoundTrip

variable {s : State} {bmp : List Byte}

/-- The samples that a packed colour keeps of a pixel (R260, R261). -/
theorem expandRgb_packRgb (r g b : Byte) : expandRgb (packRgb r g b) = canonBytesRgb [r, g, b] := by
  have hchannel (x : Byte) : x.extractLsb' 3 5 ++ 0#3 = x &&& 0xF8#8 := by revert x; decide
  simp only [expandRgb, packRgb, canonBytesRgb, List.map_cons, List.map_nil, hchannel]

/-- The packed colours of a bitmap expand to its canonical form (R261). -/
theorem flatten_expandRgb_packPixels {n : Nat} (h : bmp.length = 3 * n) :
    ((packPixels bmp).map expandRgb).flatten = canonBytesRgb bmp := by
  induction n generalizing bmp with
  | zero => rw [List.length_eq_zero_iff.mp h]; rfl
  | succ n ih =>
    match bmp, h with
    | r :: g :: b :: rest, h =>
      have hrest : rest.length = 3 * n := by simp only [List.length_cons] at h; omega
      rw [packPixels, List.map_cons, List.flatten_cons, ih hrest, expandRgb_packRgb]
      rfl

/-- The pieces that RGB.ENC cuts a bitmap into (R263). -/
def bitmapCuts (bmp : List Byte) : List (Rgb15 × Nat) := rgbCuts (runsOf (packPixels bmp))

theorem mem_bitmapCuts {p : Rgb15 × Nat} (h : p ∈ bitmapCuts bmp) : 0 < p.2 ∧ p.2 ≤ 4096 :=
  mem_cutRuns (max := fun _ => 4096) (fun _ => by decide) h

theorem expandRuns_bitmapCuts (bmp : List Byte) : expandRuns (bitmapCuts bmp) = packPixels bmp :=
  (isRuns_runsOf (packPixels bmp)).expandRuns_cutRuns (max := fun _ => 4096) fun _ => by decide

/-- The tokens stand for the canonical bitmap (R264). -/
theorem streamPixels_bitmapCuts {n : Nat} (hi : BitVec 4) (h : bmp.length = 3 * n) :
    streamPixels (rgbTokens hi (bitmapCuts bmp)) = canonBytesRgb bmp := by
  rw [streamPixels_rgbTokens fun p hp => mem_bitmapCuts hp, expandRuns_bitmapCuts, flatten_expandRgb_packPixels h]

/-- With room for 3P bytes RGB.ENC ends DONE with its tokens (R263, R431). -/
theorem rgbEnc_completes_tokens (hb : HoldsBitmap s 3 bmp) (hwr : s.isWritten .rgbRepHi = true)
    (hroom : HasRoom s (3 * pixelCount s)) :
    ∃ t, exec .rgbEnc s = .next t ∧ Completes s t (streamBytes (rgbTokens (repHi s) (bitmapCuts bmp))) [] := by
  have hlen : (rgbStream (repHi s) (bitmapCuts bmp)).length ≤ 3 * pixelCount s := by
    have hle := length_rgbStream_le (hi := repHi s) fun p (hp : p ∈ bitmapCuts bmp) => (mem_bitmapCuts hp).1
    rw [expandRuns_bitmapCuts, length_packPixels, hb.pixels] at hle
    omega
  have hruns : IsRuns (packedColours (pixelCount s) bmp) (runsOf (packPixels bmp)) := by
    rw [← packPixels_eq hb.pixels]
    exact isRuns_runsOf _
  rw [streamBytes_rgbTokens fun p hp => mem_bitmapCuts hp]
  exact exec_rgbEnc_completes hb hwr hruns ⟨hroom.written, hlen.trans hroom.fits⟩

end RgbRoundTrip

/-- Settles O46: RGB.ENC ends DONE with tokens that stand for the canonical bitmap, and RGB.DEC decodes any tokens. -/
theorem rgbRoundTrip : Obligations.RgbRoundTrip := by
  intro s t u bmp hb hwr hroom hexec hu
  obtain ⟨t', hexec', hdone⟩ := rgbEnc_completes_tokens hb hwr hroom
  obtain rfl : t = t' := Host.Outcome.next.inj (hexec.symm.trans hexec')
  have hcount : pixelCount u = pixelCount s := pixelCount_fromOut hexec hu
  rw [← streamPixels_bitmapCuts (repHi s) hb.pixels]
  refine rgbDecodesItsTokens u _ (fun i hi => format_of_mem_rgbTokens hi) (hdone.holdsInput_fromOut hu)
    (hb.size.fromOut hexec hu) (hcount ▸ hroom.fromOut hexec hu) ?_
  rw [streamPixels_bitmapCuts _ hb.pixels, canonBytesRgb, List.length_map, hb.pixels, hcount]

end Sys2Proof.Machine

/-! The keystream cipher (45_keystream.md): its keystream is R291's closed form, and it is self-inverse over
`in.from_out` (R293). -/

namespace Sys2Proof.Machine

section KeystreamBytes

variable (c : LcgConstants) (seed layer : Word)

/-- `key` of R290 while byte n is XORed: it has grown by `init` once for every four bytes before it (R291). -/
def lcgKeyAt (n : Nat) : Word := lcgKey c seed layer + BitVec.ofNat 32 (n / 4) * lcgInit c seed

@[simp] theorem lcgKeyAt_zero : lcgKeyAt c seed layer 0 = lcgKey c seed layer := by
  simp [lcgKeyAt]

theorem lcgKeyAt_succ_of_last {n : Nat} (h : n % 4 = 3) :
    lcgKeyAt c seed layer (n + 1) = lcgKeyAt c seed layer n + lcgInit c seed := by
  have hdiv : (n + 1) / 4 = n / 4 + 1 := by omega
  rw [lcgKeyAt, lcgKeyAt, hdiv, BitVec.ofNat_add, BitVec.add_mul, BitVec.one_mul, BitVec.add_assoc]

theorem lcgKeyAt_succ_of_not_last {n : Nat} (h : n % 4 ≠ 3) :
    lcgKeyAt c seed layer (n + 1) = lcgKeyAt c seed layer n := by
  have hdiv : (n + 1) / 4 = n / 4 := by omega
  rw [lcgKeyAt, lcgKeyAt, hdiv]

/-- A keystream byte is the byte of the key at the position mod 4 (R290, R291). -/
theorem keystreamByte_eq (n : Nat) :
    keystreamByte c seed layer n = (lcgKeyAt c seed layer n).extractLsb' (8 * (n % 4)) 8 :=
  BitVec.setWidth_ushiftRight_eq_extractLsb

/-- From byte n on, the stream XORs the keystream bytes of R291. -/
theorem lcgStream_eq (n : Nat) (bs : List Byte) :
    lcgStream (lcgInit c seed) (n % 4) (lcgKeyAt c seed layer n) bs =
      (bs.zipIdx n).map fun b => b.1 ^^^ keystreamByte c seed layer b.2 := by
  induction bs generalizing n with
  | nil => rfl
  | cons b bs ih =>
    rw [lcgStream, List.zipIdx_cons, List.map_cons, ← ih (n + 1), keystreamByte_eq]
    by_cases h : n % 4 = 3
    · have hmod : (n + 1) % 4 = 0 := by omega
      rw [if_pos h, hmod, lcgKeyAt_succ_of_last c seed layer h]
    · have hmod : (n + 1) % 4 = n % 4 + 1 := by omega
      rw [if_neg h, hmod, lcgKeyAt_succ_of_not_last c seed layer h]

theorem lcgTransform_eq (bs : List Byte) :
    lcgTransform c seed layer bs = bs.zipIdx.map fun b => b.1 ^^^ keystreamByte c seed layer b.2 := by
  rw [← lcgStream_eq, lcgKeyAt_zero]
  rfl

/-- The key does not depend on the bytes, so the second pass XORs the same keystream again (R293). -/
theorem lcgStream_lcgStream (init : Word) (i : Nat) (key : Word) (bs : List Byte) :
    lcgStream init i key (lcgStream init i key bs) = bs := by
  induction bs generalizing i key with
  | nil => rfl
  | cons b bs ih =>
    rw [lcgStream, lcgStream, BitVec.xor_assoc, BitVec.xor_self, BitVec.xor_zero]
    split <;> rw [ih]

end KeystreamBytes

section CipherCommand

variable {i : Instr} {c : LcgSet} {s t : State} {bs : List Byte}

/-- LCG.XOR and its pseudo-instructions are one command with a constant set (R111). -/
theorem exec_of_mem_lcgNames (h : (i, c) ∈ lcgNames) (s : State) : exec i s = lcgCommand c s := by
  simp only [lcgNames, List.mem_cons, Prod.mk.injEq, List.not_mem_nil, or_false] at h
  rcases h with ⟨rfl, rfl⟩ | ⟨rfl, rfl⟩ | ⟨rfl, rfl⟩ | ⟨rfl, rfl⟩ | ⟨rfl, rfl⟩ | ⟨rfl, rfl⟩ | ⟨rfl, rfl⟩ | ⟨rfl, rfl⟩ <;> rfl

theorem lcgConstants_lcgRegs (s : State) (c : LcgSet) : lcgConstants ((lcgRegs c).map s.reg) = constantSet s c := by
  cases c with
  | set0 => rw [lcgRegs_set0]; rfl
  | set1 => rw [lcgRegs_set1]; rfl

/-- What the cipher reads besides IN_LEN and OUT_CAP has been written: the constants only where SEED ≠ 0 (R292). -/
structure CipherReady (s : State) (c : LcgSet) : Prop where
  seed : s.isWritten .seed = true
  layer : s.isWritten .layer = true
  constants : s.reg .seed ≠ 0#32 → Ready s (lcgRegs c)

/-- The output of the cipher for the input `bs` (R292). -/
def cipherOutput (s : State) (c : LcgSet) (bs : List Byte) : List Byte :=
  if s.reg .seed = 0#32 then bs else lcgTransform (constantSet s c) (s.reg .seed) (s.reg .layer) bs

@[simp] theorem length_cipherOutput (s : State) (c : LcgSet) (bs : List Byte) :
    (cipherOutput s c bs).length = bs.length := by
  unfold cipherOutput
  split
  · rfl
  · exact length_lcgStream ..

/-- Where IN fits OUT the command ends exactly where the registers it reads have been written, and then DONE with its
output (R292, R393). -/
theorem lcgCommand_next_iff (hin : HoldsInput s bs) (hroom : HasRoom s bs.length) :
    lcgCommand c s = .next t ↔
      CipherReady s c ∧ t = (s.putOut 0 (cipherOutput s c bs)).completed (cipherOutput s c bs).length := by
  have hready : CipherReady s c ↔ s.isWritten .seed = true ∧ s.isWritten .layer = true ∧
      (s.reg .seed ≠ 0#32 → Ready s (lcgRegs c)) :=
    ⟨fun ⟨hs, hl, hc⟩ => ⟨hs, hl, hc⟩, fun ⟨hs, hl, hc⟩ => ⟨hs, hl, hc⟩⟩
  rw [lcgCommand, withReg_of_written hin.written, hin.inRange_eq, hin.length,
    withCapacity_of_fits hroom.written hroom.fits, withReg_next_iff, withReg_next_iff, hready, and_assoc, and_assoc,
    length_cipherOutput, cipherOutput]
  refine and_congr_right fun _ => and_congr_right fun _ => ?_
  by_cases hseed : s.reg .seed = 0#32
  · rw [if_pos hseed, if_pos hseed, finishWith_eq, Host.Outcome.next.injEq]
    exact eq_comm.trans (and_iff_right fun hne => absurd hseed hne).symm
  · rw [if_neg hseed, if_neg hseed, withRegs_next_iff, lcgConstants_lcgRegs, finishWith_eq, Host.Outcome.next.injEq]
    exact and_congr ⟨fun h _ => h, fun h => h hseed⟩ eq_comm

/-- Each name of the cipher ends DONE with its output (R111, R292). -/
theorem exec_completes_of_mem_lcgNames (hi : (i, c) ∈ lcgNames) (hin : HoldsInput s bs) (hroom : HasRoom s bs.length)
    (hready : CipherReady s c) : ∃ t, exec i s = .next t ∧ Completes s t (cipherOutput s c bs) [] :=
  ⟨_, (exec_of_mem_lcgNames hi s).trans ((lcgCommand_next_iff hin hroom).mpr ⟨hready, rfl⟩),
    completes_putOut (by rwa [length_cipherOutput])⟩

end CipherCommand

section CipherTwice

variable {i : Instr} {c : LcgSet} {s t u : State}

/-- `in.from_out` after a command keeps what the cipher is configured with (R110, R430). -/
theorem constantSet_fromOut (hexec : exec i s = .next t) (hu : hostInFromOut t = .next u) :
    constantSet u c = constantSet s c := by
  have hset0 (j : Fin 4) : u.reg (.lcg0 j) = s.reg (.lcg0 j) := reg_fromOut hexec hu nofun nofun
  have hset1 (j : Fin 4) : u.reg (.lcg1 j) = s.reg (.lcg1 j) := reg_fromOut hexec hu nofun nofun
  cases c with
  | set0 => simp only [constantSet, hset0]
  | set1 => simp only [constantSet, hset1]

theorem seed_fromOut (hexec : exec i s = .next t) (hu : hostInFromOut t = .next u) : u.reg .seed = s.reg .seed :=
  reg_fromOut hexec hu nofun nofun

theorem CipherReady.fromOut (h : CipherReady s c) (hexec : exec i s = .next t) (hu : hostInFromOut t = .next u) :
    CipherReady u c where
  seed := isWritten_fromOut hexec hu h.seed
  layer := isWritten_fromOut hexec hu h.layer
  constants hseed := (h.constants (seed_fromOut hexec hu ▸ hseed)).fromOut hexec hu

theorem cipherOutput_fromOut (hexec : exec i s = .next t) (hu : hostInFromOut t = .next u) (bs : List Byte) :
    cipherOutput u c bs = cipherOutput s c bs := by
  have hlayer : u.reg .layer = s.reg .layer := reg_fromOut hexec hu nofun nofun
  rw [cipherOutput, cipherOutput, constantSet_fromOut hexec hu, seed_fromOut hexec hu, hlayer]

/-- R293: the transform, or the copy, undoes itself. -/
theorem cipherOutput_cipherOutput (s : State) (c : LcgSet) (bs : List Byte) :
    cipherOutput s c (cipherOutput s c bs) = bs := by
  by_cases hseed : s.reg .seed = 0#32
  · simp only [cipherOutput, if_pos hseed]
  · simp only [cipherOutput, if_neg hseed]
    exact lcgStream_lcgStream ..

end CipherTwice

/-- Settles O48: the output is the transform of R292, whose keystream is that of R291, or IN itself. -/
theorem lcgTransforms : Obligations.LcgTransforms := by
  intro i c s bs hi hin hroom hready
  have hcipher (hconstants : s.reg .seed ≠ 0#32 → Ready s (lcgRegs c)) : CipherReady s c :=
    ⟨hready _ (by simp), hready _ (by simp), hconstants⟩
  refine ⟨fun hseed => ?_, fun hseed hconstants => ?_⟩
  · have h := exec_completes_of_mem_lcgNames hi hin hroom (hcipher fun hne => absurd hseed hne)
    rwa [cipherOutput, if_pos hseed] at h
  · have h := exec_completes_of_mem_lcgNames hi hin hroom (hcipher fun _ => hconstants)
    rwa [cipherOutput, if_neg hseed, lcgTransform_eq] at h

/-- Settles O49: that the first command ended shows its registers written, and they hold the same at the second. -/
theorem lcgSelfInverse : Obligations.LcgSelfInverse := by
  intro i j c s t u bs hi hj hin hroom hexec hu
  have hready : CipherReady s c := ((lcgCommand_next_iff hin hroom).mp (exec_of_mem_lcgNames hi s ▸ hexec)).1
  obtain ⟨t', hexec', hdone⟩ := exec_completes_of_mem_lcgNames hi hin hroom hready
  obtain rfl : t = t' := Host.Outcome.next.inj (hexec.symm.trans hexec')
  have hroom' : HasRoom u (cipherOutput s c bs).length := by
    rw [length_cipherOutput]
    exact hroom.fromOut hexec hu
  have h := exec_completes_of_mem_lcgNames hj (hdone.holdsInput_fromOut hu) hroom' (hready.fromOut hexec hu)
  rwa [cipherOutput_fromOut hexec hu, cipherOutput_cipherOutput] at h

end Sys2Proof.Machine

/-! The CRC commands (46_crc.md): the registers of R311 and R321 are those of the bit-serial CRC, a command ends with its CRC in
RESULT, and the slot of a file (R323) as the number that its bytes write. -/

namespace Sys2Proof.Machine

/-- The CRC-32 by its table is the bit-serial one (R320, R321). -/
theorem crc32Of_eq (bs : List Byte) :
    crc32Of bs = bitSerialCrc 0xEDB88320#32 0xFFFFFFFF#32 bs ^^^ 0xFFFFFFFF#32 :=
  congrArg (· ^^^ 0xFFFFFFFF#32) (bitSerialCrc_eq_foldl (step := crc32Step) _ (foldl_crcBit_byte _ (by decide)) _ bs).symm

section LittleEndian

/-- The first byte of a number is its remainder, the others are those of its quotient (R11). -/
theorem leBytes_succ (k v : Nat) : leBytes (k + 1) v = BitVec.ofNat 8 v :: leBytes k (v / 256) := by
  simp only [leBytes, List.range_succ_eq_map, List.map_cons, List.map_map]
  refine congrArg (BitVec.ofNat 8 v :: ·) (List.map_congr_left fun i _ => congrArg (BitVec.ofNat 8) ?_)
  rw [show 8 * (i + 1) = 8 + 8 * i by omega, Nat.shiftRight_add, Nat.shiftRight_eq_div_pow v]

/-- The comparison of R323 on numbers is one on bytes. -/
theorem leNat_eq_iff {bs : List Byte} {v : Nat} (hv : v < 256 ^ bs.length) : leNat bs = v ↔ bs = leBytes bs.length v := by
  induction bs generalizing v with
  | nil => exact ⟨fun _ => rfl, fun _ => (Nat.lt_one_iff.mp hv).symm⟩
  | cons b bs ih =>
    have hdiv : v / 256 < 256 ^ bs.length := Nat.div_lt_of_lt_mul (by rwa [List.length_cons, Nat.pow_succ'] at hv)
    have hsplit : leNat (b :: bs) = v ↔ b.toNat = v % 256 ∧ leNat bs = v / 256 := by
      have hb := b.isLt
      rw [leNat]
      omega
    have hbyte : b.toNat = v % 256 ↔ b = BitVec.ofNat 8 v := by
      rw [← BitVec.toNat_inj, BitVec.toNat_ofNat]
    rw [hsplit, hbyte, ih hdiv, List.length_cons, leBytes_succ, List.cons.injEq]

end LittleEndian

section Results

variable {s u : State} {v : Word} {out : List Byte}

theorem State.keepsRegs_setReg (s : State) (r : Reg) (v : Word) : KeepsRegs s (s.setReg r v) [r] := by
  intro n hn
  rw [State.regs_get_setReg, if_neg (hn r (by simp))]

/-- RESULT has all its 32 bits named (R31). -/
@[simp] theorem and_named_result (v : Word) : v &&& Reg.named .result = v := BitVec.and_allOnes

/-- A command that has written its result registers raises with them kept (R392). -/
theorem raises_errored_results {e : ErrorKind} {off : Nat} {results : List (Reg × Word)} (hm : Moves s u)
    (hkeeps : KeepsRegs s u (results.map Prod.fst)) (hholds : ∀ p ∈ results, u.reg p.1 = p.2)
    (hresults : ∀ p ∈ results, p.1 ∉ [Reg.status, .errOff, .outLen]) : Raises s (u.errored e off) e off results where
  status := u.reg_status_errored e off
  errOff := u.reg_errOff_errored e off
  outLen := u.reg_outLen_errored e off
  holds p hp := ((u.keepsRegs_errored e off).reg (hresults p hp)).trans (hholds p hp)
  keeps n hn :=
    (u.keepsRegs_errored e off n fun r hr => hn r (List.mem_append_left _ hr)).trans
      (hkeeps n fun r hr => hn r (List.mem_append_right _ hr))
  host := (hm.errored e off).keepsHost
  work := rfl
  outBelow a ha := (u.raises_errored e off).outBelow a (by rwa [hm.reg (r := .outCap) (by decide)])
  outBeyond hc _ ha := ⟨(hm.errored e off).outMem_beyond hc ha, (hm.errored e off).outByte_beyond hc ha⟩

theorem raises_errored_result (s : State) (v : Word) (e : ErrorKind) (off : Nat) :
    Raises s ((s.setReg .result v).errored e off) e off [(.result, v)] :=
  raises_errored_results ((Moves.refl s).setReg .result v rfl) (s.keepsRegs_setReg .result v) (by simp) (by simp)

/-- A command that writes RESULT and no OUT byte (R313, R322, R323). -/
theorem completes_result (s : State) (v : Word) :
    Completes s ((s.setReg .result v).completed 0) [] [(.result, v)] :=
  completes_completed_results (out := []) ((Moves.refl s).setReg .result v rfl) (s.keepsRegs_setReg .result v) (by simp)
    (by simp) (by simp) fun _ => rfl

/-- A command that writes RESULT and a whole output at offset 0 (R323). -/
theorem completes_result_putOut (v : Word) (hroom : HasRoom s out.length) :
    Completes s (((s.setReg .result v).putOut 0 out).completed out.length) out [(.result, v)] := by
  have hcap : (s.setReg .result v).reg .outCap = s.reg .outCap := (s.keepsRegs_setReg .result v).reg (by simp)
  refine completes_completed_results (((Moves.refl s).setReg .result v rfl).putOut 0 out) (s.keepsRegs_setReg .result v)
    (by simp) (by simp) hroom.lt fun a => ?_
  rw [State.outByte_putOut _ (by rw [hcap]; simpa using hroom.fits)]
  simp

end Results

section CrcCommands

variable {i : Instr} {f : CrcForm} {s : State} {bs file slot : List Byte}

theorem exec_of_mem_crc16Names (h : (i, f) ∈ crc16Names) (s : State) : exec i s = crc16Command f s := by
  simp only [crc16Names, List.mem_cons, Prod.mk.injEq, List.not_mem_nil, or_false] at h
  rcases h with ⟨rfl, rfl⟩ | ⟨rfl, rfl⟩ | ⟨rfl, rfl⟩ <;> rfl

theorem exec_of_mem_sealNames (h : i ∈ sealNames) (s : State) : exec i s = sealFile s := by
  simp only [sealNames, List.mem_cons, List.not_mem_nil, or_false] at h
  rcases h with rfl | rfl <;> rfl

theorem exec_of_mem_checkNames (h : i ∈ checkNames) (s : State) : exec i s = verifyFile s := by
  simp only [checkNames, List.mem_cons, List.not_mem_nil, or_false] at h
  rcases h with rfl | rfl <;> rfl

theorem crc16Command_eq (hin : HoldsInput s bs) (hwr : s.isWritten .crc16Init = true) :
    crc16Command f s = .next
      ((s.setReg .result (crc16Result f (bitSerialCrc 0xA001#16 ((s.reg .crc16Init).setWidth 16) bs))).completed 0) := by
  rw [crc16Command, withReg_of_written hwr, withReg_of_written hin.written, hin.inRange_eq, crc16Raw_eq, finishCommand_eq]

theorem execCrc32_eq (hin : HoldsInput s bs) :
    execCrc32 s = .next ((s.setReg .result (crc32Of bs)).completed 0) := by
  rw [execCrc32, withReg_of_written hin.written, hin.inRange_eq, finishCommand_eq]

/-- A file and its slot, the last four bytes of IN (R323). -/
theorem HoldsInput.fileSlot (hslot : slot.length = 4) (h : HoldsInput s (file ++ slot)) :
    (s.reg .inLen).toNat = file.length + 4 ∧ s.inRange 0 file.length = file ∧ s.inRange file.length 4 = slot := by
  have hlen : (s.reg .inLen).toNat = file.length + 4 := by rw [h.length, List.length_append, hslot]
  have hsplit := State.inRange_split h.inRange_eq
  rw [hlen, Nat.zero_add, Nat.add_sub_cancel_left] at hsplit
  exact ⟨hlen, hsplit⟩

theorem sealFile_eq (hslot : slot.length = 4) (hin : HoldsInput s (file ++ slot)) (hroom : HasRoom s 4) :
    sealFile s = .next
      (((s.setReg .result (crc32Of file)).putOut 0 (leBytes 4 (crc32Of file).toNat)).completed 4) := by
  obtain ⟨hlen, hfile, -⟩ := hin.fileSlot hslot
  rw [sealFile, withReg_of_written hin.written, withCapacity_of_fits hroom.written hroom.fits, hlen, if_neg (by omega),
    Nat.add_sub_cancel, hfile, finishWith_eq]

theorem sealFile_of_short (hin : HoldsInput s bs) (hshort : bs.length < 4) (hroom : HasRoom s 4) :
    sealFile s = .next (s.errored .corruptedStream 0) := by
  rw [sealFile, withReg_of_written hin.written, withCapacity_of_fits hroom.written hroom.fits,
    if_pos (hin.length ▸ hshort), raiseError_eq]

/-- The slot's bytes decide how a verification ends; RESULT holds the CRC before (R323, R392). -/
theorem verifyFile_eq (hslot : slot.length = 4) (hin : HoldsInput s (file ++ slot)) :
    verifyFile s =
      if slot = leBytes 4 (crc32Of file).toNat then .next ((s.setReg .result (crc32Of file)).completed 0)
      else .next ((s.setReg .result (crc32Of file)).errored .checksumMismatch file.length) := by
  obtain ⟨hlen, hfile, hbytes⟩ := hin.fileSlot hslot
  have hcompare : leNat slot = (crc32Of file).toNat ↔ slot = leBytes 4 (crc32Of file).toNat := by
    have h := leNat_eq_iff (bs := slot) (v := (crc32Of file).toNat) (by rw [hslot]; exact (crc32Of file).isLt)
    rwa [hslot] at h
  rw [verifyFile, withReg_of_written hin.written, hlen, if_neg (by omega), Nat.add_sub_cancel]
  dsimp only
  rw [hfile, hbytes, raiseError_eq, finishCommand_eq, ite_not, if_congr hcompare rfl rfl]

theorem verifyFile_of_short (hin : HoldsInput s bs) (hshort : bs.length < 4) :
    verifyFile s = .next (s.errored .corruptedStream 0) := by
  rw [verifyFile, withReg_of_written hin.written, if_pos (hin.length ▸ hshort), raiseError_eq]

end CrcCommands

/-- Settles O50: the table's register is the bit-serial one, and RESULT is the only register the command writes. -/
theorem crc16Completes : Obligations.Crc16Completes := by
  intro i f s init bs hi hin hwr hinit
  have hvalue : (s.reg .crc16Init).setWidth 16 = init := by rw [hinit]; simp
  rw [exec_of_mem_crc16Names hi, crc16Command_eq hin hwr, hvalue]
  refine ⟨_, rfl, ?_⟩
  cases f with
  | finished => exact completes_result s _
  | raw => exact completes_result s _

/-- Settles O51, as O50, by the table of the other polynomial. -/
theorem crc32Completes : Obligations.Crc32Completes := by
  intro s bs hin
  rw [← crc32Of_eq]
  exact ⟨_, execCrc32_eq hin, completes_result s _⟩

/-- Settles O52: the CRC is that of the bytes before the slot, so the slot's own bytes are not read. -/
theorem crc32FileSeals : Obligations.Crc32FileSeals := by
  refine ⟨fun i hi s file slot hslot hin hroom => ?_, fun i hi s bs hshort hin hroom => ?_⟩ <;>
    rw [exec_of_mem_sealNames hi]
  · exact ⟨_, sealFile_eq hslot hin hroom, completes_result_putOut _ (by rwa [length_leBytes])⟩
  · exact ⟨_, sealFile_of_short hin hshort hroom, s.raises_errored _ _⟩

/-- Settles O53: the slot's number is the CRC exactly where its bytes are those of the CRC. -/
theorem crc32FileVerifies : Obligations.Crc32FileVerifies := by
  intro i hi s
  rw [exec_of_mem_checkNames hi]
  refine ⟨fun file hin => ?_, fun file slot hslot hne hin => ?_, fun bs hshort hin => ?_⟩
  · rw [verifyFile_eq (length_leBytes 4 _) hin, if_pos rfl]
    exact ⟨_, rfl, completes_result s _⟩
  · rw [verifyFile_eq hslot hin, if_neg hne]
    exact ⟨_, rfl, raises_errored_result s _ _ _⟩
  · exact ⟨_, verifyFile_of_short hin hshort, s.raises_errored _ _⟩

end Sys2Proof.Machine

/-! The worst-case sizes of the encoders' output (70_reset_and_hazards.md R431): no piece takes more bytes than its pixels
allow, and the pieces of a plane or bitmap have no more pixels than it. -/

namespace Sys2Proof.Machine

section PieceSizes

variable {κ : Type} {c l : Nat}

/-- Codes of at most `c` bytes for each key of their pieces take at most `c` bytes for each key together. -/
theorem length_flatten_le_mul_expandRuns {ps : List (κ × Nat)} {code : κ × Nat → List Byte}
    (h : ∀ p ∈ ps, (code p).length ≤ c * p.2) : (ps.map code).flatten.length ≤ c * (expandRuns ps).length := by
  induction ps with
  | nil => exact Nat.zero_le _
  | cons p ps ih =>
    obtain ⟨hp, hps⟩ := List.forall_mem_cons.mp h
    rw [List.map_cons, List.flatten_cons, expandRuns_cons, List.length_append, List.length_append, List.length_replicate,
      Nat.mul_add]
    exact Nat.add_le_add hp (ih hps)

/-- An encoder's pieces cover the keys, so emits of at most `c` bytes a key are at most `c` bytes for each key (R14). -/
theorem length_emitsFrom_le {keys : List κ} {runs : List (κ × Nat)} {max : κ → Nat} {per start : Nat}
    {bytes : κ → Nat → List Byte} (hruns : IsRuns keys runs) (hmax : ∀ k, 0 < max k)
    (hbytes : ∀ k l, 0 < l → (bytes k l).length ≤ c * l) :
    (pieceBytes (emitsFrom per bytes start (cutRuns max runs))).length ≤ c * keys.length := by
  have hcodes := length_flatten_le_mul_expandRuns (code := fun p => bytes p.1 p.2) fun p (hp : p ∈ cutRuns max runs) =>
    hbytes p.1 p.2 (mem_cutRuns hmax hp).1
  rwa [hruns.expandRuns_cutRuns hmax, ← pieceBytes_emitsFrom per bytes start] at hcodes

/-- A nibble token has one byte, or two where it stands for black or white (R105). -/
theorem length_nibBytes_le (q : BitVec 4) (hpos : 0 < l) : (nibBytes q l).length ≤ 2 * l := by
  unfold nibBytes
  split_ifs <;> simp only [List.length_cons, List.length_nil] <;> omega

/-- A chunk has no more than two bytes for each pixel: a VALUE chunk of one pixel has two (R194, R196). -/
theorem length_chunkBytes_le (v prev : Byte) (hpos : 0 < l) : (chunkBytes v l prev).length ≤ 2 * l := by
  have hliteral (ty : Nat) {vs : List Byte} (hvs : vs.length ≤ 1) : (literalBytes ty vs l).length ≤ 2 * l := by
    rw [length_literalBytes, literalSize]
    split_ifs <;> omega
  have hdelta (d : Int) : (deltaBytes d l).length ≤ 2 * l := by
    rw [length_deltaBytes, deltaSize]
    split_ifs <;> omega
  unfold chunkBytes
  dsimp only
  split_ifs
  · exact hliteral 0 (Nat.zero_le 1)
  · exact hliteral 3 (Nat.zero_le 1)
  · exact hdelta _
  · exact hliteral 1 (Nat.le_refl 1)

theorem length_chunkStream_le {prev : Byte} {ps : List (Byte × Nat)} (h : ∀ p ∈ ps, 0 < p.2) :
    (chunkStream prev ps).length ≤ 2 * (expandRuns ps).length := by
  induction ps generalizing prev with
  | nil => exact Nat.zero_le _
  | cons p ps ih =>
    obtain ⟨hpos, hps⟩ := List.forall_mem_cons.mp h
    rw [chunkStream, expandRuns_cons, List.length_append, List.length_append, List.length_replicate, Nat.mul_add]
    exact Nat.add_le_add (length_chunkBytes_le p.1 prev hpos) (ih hps)

end PieceSizes

section EmitSizes

variable {s : State} {bmp : List Byte}

/-- The emits of R7X.ENC, one for each piece of the maximal runs (R133). -/
theorem exists_emits_r7xEnc (s : State) (bmp : List Byte) :
    ∃ es, IsEmits s bmp es .r7xEnc ∧ (pieceBytes es).length ≤ bmp.length := by
  refine ⟨_, ⟨_, isRuns_runsOf _, rfl⟩, ?_⟩
  have hle := length_emitsFrom_le (c := 1) (per := 1) (start := 0) (max := fun _ => 0x0FFFFFFF) (bytes := tok7Bytes)
    (isRuns_runsOf (bmp.map fun b => BitVec.ofNat 7 (b.toNat / 2))) (fun _ => by decide)
    fun k l hl => by rw [Nat.one_mul]; exact length_tok7Bytes_le k hl
  rwa [Nat.one_mul, List.length_map] at hle

/-- The emits of BPL.ENC, plane after plane, one byte to a piece (R164). -/
theorem exists_planeEmits (v : Variant) (n : Nat) (bmp : List Byte) :
    ∃ es, IsPlaneEmits v n bmp es ∧ (pieceBytes es).length ≤ n * bmp.length := by
  refine ⟨_, ⟨(List.range n).map fun k => runsOf (planeOf v n bmp k), by simp, fun k hk => ?_, rfl⟩, ?_⟩
  · simp only [List.getElem_map, List.getElem_range]
    exact isRuns_runsOf _
  · rw [pieceBytes_flatten, List.length_flatten]
    have hplane (k : Nat) := length_emitsFrom_le (c := 1) (per := 1) (start := 0) (max := fun _ => 125)
      (bytes := fun on l => [byteOf ((if on then 0x80 else 0) + l)]) (isRuns_runsOf (planeOf v n bmp k)) (fun _ => by decide)
      fun _ l hl => by rw [Nat.one_mul]; exact hl
    refine (List.sum_le_card_nsmul _ bmp.length ?_).trans (by simp)
    simp only [List.map_map, List.forall_mem_map]
    intro k _
    simpa [planeOf] using hplane k

/-- The emits of DIF.ENC: the magic, a chunk for each piece, the checksum (R195). -/
theorem exists_emits_difEnc (s : State) (bmp : List Byte) :
    ∃ es, IsEmits s bmp es .difEnc ∧ (pieceBytes es).length ≤ 2 * bmp.length + 2 := by
  refine ⟨_, ⟨runsOf bmp, _, isRuns_runsOf bmp, rfl, rfl⟩, ?_⟩
  have hle := length_chunkStream_le (prev := 0#8) fun p hp => (mem_difPieces (bmp := bmp) p hp).1
  rw [expandRuns_difPieces, difPieces] at hle
  rw [pieceBytes_append, pieceBytes_append, pieceBytes_chunkEmits]
  simp only [pieceBytes_cons, pieceBytes_nil, List.length_append, List.length_singleton, List.append_nil]
  omega

/-- The emits of NIB.ENC: a token for each piece, and the trailer (R233). -/
theorem exists_emits_nibEnc (s : State) (bmp : List Byte) :
    ∃ es, IsEmits s bmp es .nibEnc ∧ (pieceBytes es).length ≤ 2 * bmp.length + 2 := by
  refine ⟨_, ⟨_, _, isRuns_runsOf _, rfl, rfl⟩, ?_⟩
  have hmax (q : BitVec 4) : 0 < if q.toNat = 0 ∨ q.toNat = 15 then 4095 else 15 := by split <;> decide
  have hle := length_emitsFrom_le (per := 1) (start := 0) (bytes := nibBytes)
    (isRuns_runsOf (bmp.map fun b => BitVec.ofNat 4 (b.toNat / 16))) hmax fun q _ hl => length_nibBytes_le q hl
  rw [List.length_map] at hle
  rw [pieceBytes_append, List.length_append, pieceBytes_cons, pieceBytes_nil, List.append_nil, length_leBytes]
  exact Nat.add_le_add_right hle 2

/-- The emits of RGB.ENC, one for each piece of the packed colours (R263). -/
theorem exists_emits_rgbEnc (s : State) (bmp : List Byte) :
    ∃ es, IsEmits s bmp es .rgbEnc ∧ (pieceBytes es).length ≤ 2 * pixelCount s := by
  refine ⟨_, ⟨_, isRuns_runsOf _, rfl⟩, ?_⟩
  have hle := length_emitsFrom_le (per := 3) (start := 0) (max := fun _ => 4096)
    (bytes := rgbBytes ((s.reg .rgbRepHi).setWidth 4)) (isRuns_runsOf (packedColours (pixelCount s) bmp))
    (fun _ => by decide) fun _ _ hl => length_rgbBytes_le hl
  rwa [packedColours, List.length_map, List.length_range] at hle

theorem Ready.pair {r q : Reg} (hr : s.isWritten r = true) (hq : s.isWritten q = true) : Ready s [r, q] :=
  List.forall_mem_cons.mpr ⟨hr, List.forall_mem_singleton.mpr hq⟩

/-- An emission whose bytes are within a size that OUT has room for ends DONE within it (R64). -/
theorem EmissionEnds.done_within {es : List Piece} {o : Out} {n : Nat} (h : EmissionEnds s es o) (hroom : HasRoom s n)
    (hle : (pieceBytes es).length ≤ n) :
    ∃ t, o = .next t ∧ t.reg .status = 0x00000002#32 ∧ (t.reg .outLen).toNat ≤ n := by
  obtain ⟨t, ht, hstatus, hlen⟩ := h.done (hle.trans hroom.fits)
  exact ⟨t, ht, hstatus, hlen ▸ hle⟩

end EmitSizes

/-- Settles O41: each encoder emits what its rule lists, and that is no more than its worst case. -/
theorem worstCaseSizes : Obligations.WorstCaseSizes := by
  intro s bmp
  refine ⟨fun hb hroom => ?_, fun i hi hb haa hlegal hroom => ?_, fun hb hwr hroom => ?_, fun hb hwr hroom => ?_,
    fun hb hwr hroom => ?_⟩
  · obtain ⟨es, hes, hle⟩ := exists_emits_r7xEnc s bmp
    exact (execR7xEnc_ends hroom.written hb hes).done_within hroom (by simpa [hb.pixels] using hle)
  · obtain ⟨⟨i, v⟩, hiv, rfl⟩ := List.mem_map.mp hi
    obtain ⟨es, hes, hle⟩ := exists_planeEmits v (s.reg .aaN).toNat bmp
    rw [exec_of_mem_bplEncoders hiv]
    exact (bplEncode_ends (.pair hroom.written haa) hlegal hb hes).done_within hroom (by simpa [hb.pixels] using hle)
  · obtain ⟨es, hes, hle⟩ := exists_emits_difEnc s bmp
    exact (execDifEnc_ends (.pair hroom.written hwr) hb hes).done_within hroom (by simpa [hb.pixels] using hle)
  · obtain ⟨es, hes, hle⟩ := exists_emits_nibEnc s bmp
    exact (execNibEnc_ends (.pair hroom.written hwr) hb hes).done_within hroom (by simpa [hb.pixels] using hle)
  · obtain ⟨es, hes, hle⟩ := exists_emits_rgbEnc s bmp
    exact (execRgbEnc_ends (.pair hroom.written hwr) hb hes).done_within hroom hle

end Sys2Proof.Machine

/-! The registers over a step and over an instruction (70_reset_and_hazards.md R422, R430): an RW register changes by the
host's hand or by reset alone, and of the block's own registers an instruction that has no result writes STATUS, ERR_OFF and
OUT_LEN alone. -/

namespace Sys2Proof.Machine

section Configuration

variable {s t : State} {r : Reg}

/-- A register holds what it held, and counts as written as before. -/
structure SameRegister (r : Reg) (s t : State) : Prop where
  reg : t.reg r = s.reg r
  isWritten : t.isWritten r = s.isWritten r

theorem SameRegister.congr (hregs : t.regs = s.regs) (hwritten : t.written = s.written) : SameRegister r s t :=
  ⟨State.reg_congr hregs r, State.isWritten_congr hwritten r⟩

theorem SameRegister.trans {u : State} (h : SameRegister r s t) (h' : SameRegister r t u) : SameRegister r s u :=
  ⟨h'.reg.trans h.reg, h'.isWritten.trans h.isWritten⟩

theorem Moves.sameRegister (h : Moves s t) (hr : r.access = .rw) : SameRegister r s t :=
  ⟨h.reg (by rw [hr]; decide), h.isWritten r⟩

theorem sameRegister_storeReg (s : State) {q : Reg} (hne : q ≠ r) (v : Word) : SameRegister r s (s.storeReg q v) :=
  ⟨by rw [State.reg_storeReg, if_neg hne], by rw [State.isWritten_storeReg, if_neg hne]⟩

/-- The accesses by which the host or the platform can change an RW register (R422). -/
def HostOp.Sets (r : Reg) : HostOp → Prop
  | .write n _ => n = r.number
  | .inLoad _ => r = .inLen
  | .inFromOut => r = .inLen
  | .reset => True
  | _ => False

/-- A CMD write holds the word in CMD, and what runs then writes no RW register (R422). -/
theorem issueCommand_sameRegister (hr : r.access = .rw) {v : Word} (h : issueCommand exec v s = .next t) :
    SameRegister r s t := by
  have hcmd : SameRegister r s (s.setReg .cmd v) :=
    ⟨by rw [State.reg_setReg, if_neg fun he => by rw [← he] at hr; cases hr], rfl⟩
  have hmoves : Moves (s.setReg .cmd v) t := by
    unfold issueCommand at h
    split at h
    · exact exec_moves h
    · cases h
      exact (Moves.refl _).errored _ _
  exact hcmd.trans (hmoves.sameRegister hr)

theorem hostWrite_sameRegister (hr : r.access = .rw) {n : Fin 64} (hn : n ≠ r.number) {v : Word}
    (h : hostWrite exec n v s = .next t) : SameRegister r s t := by
  unfold hostWrite at h
  split at h
  · cases h
    exact ⟨rfl, rfl⟩
  · rename_i q hq
    split at h
    · cases h
      exact sameRegister_storeReg s (fun he => hn (by rw [← he, Reg.number_of_ofNumber hq])) v
    · cases h
      exact ⟨rfl, rfl⟩
    · exact issueCommand_sameRegister hr h

/-- Every other access leaves the register alone. -/
theorem hostAccess_sameRegister (hr : r.access = .rw) {op : HostOp} (hop : ¬op.Sets r)
    (h : hostAccess exec op s = .next t) : SameRegister r s t := by
  cases op with
  | write n v => exact hostWrite_sameRegister hr hop h
  | read n =>
    rw [hostAccess, hostRead] at h
    split at h
    · cases h
      exact ⟨rfl, rfl⟩
    · cases (withReg_next_iff.mp h).2
      exact ⟨rfl, rfl⟩
  | inLoad bs =>
    rw [hostAccess, hostInLoad] at h
    split at h
    · cases h
      exact (sameRegister_storeReg s (Ne.symm hop) _).trans (.congr rfl rfl)
    · cases h
  | inFromOut =>
    cases h
    exact (sameRegister_storeReg s (Ne.symm hop) _).trans (.congr rfl rfl)
  | writeIn a b | readIn a | writeOut a b | readOut a =>
    cases h
    exact ⟨rfl, rfl⟩
  | reset => exact absurd trivial hop

end Configuration

/-- Settles O14: a turn of a stream writes no RW register, and of the host's accesses only those that set the register do. -/
theorem configurationPersists : Obligations.ConfigurationPersists := by
  intro s t r hstep hr
  suffices h : SameRegister r s t ∨ (s.work = none ∧ ∃ op later, s.host = op :: later ∧ op.Sets r) by
    refine h.imp (fun hsame => ⟨hsame.reg, hsame.isWritten⟩) fun ⟨hw, op, later, hh, hop⟩ => ⟨hw, later, ?_⟩
    cases op with
    | write n v => exact .inl ⟨v, (show n = r.number from hop) ▸ hh⟩
    | reset => exact .inr (.inl hh)
    | inLoad bs => exact .inr (.inr ⟨hop, .inl ⟨bs, hh⟩⟩)
    | inFromOut => exact .inr (.inr ⟨hop, .inr hh⟩)
    | read | writeIn | readIn | writeOut | readOut => exact hop.elim
  cases hw : s.work with
  | some w =>
    rw [step_of_work hw, sequence_exec] at hstep
    exact .inl ((sequence_moves hstep).sameRegister hr)
  | none =>
    cases hh : s.host with
    | nil =>
      simp only [step, hw, hh, Host.Outcome.next.injEq] at hstep
      exact .inl (hstep ▸ ⟨rfl, rfl⟩)
    | cons op later =>
      by_cases hop : op.Sets r
      · exact .inr ⟨rfl, op, later, rfl, hop⟩
      · rw [step_of_host hw hh] at hstep
        have hsame : SameRegister r { s with host := later } t := hostAccess_sameRegister hr hop hstep
        have hhost : SameRegister r s { s with host := later } := .congr rfl rfl
        exact .inl (hhost.trans hsame)

section OwnRegisters

/-- The registers that the end of every command writes (R392, R393). -/
def endRegs : List Reg := [.status, .errOff, .outLen]

/-- An outcome whose next state, if it is one, has no other registers changed than those of every command's end. -/
def OnlyEnds (s : State) (o : Out) : Prop := ∀ t, o = .next t → KeepsRegs s t endRegs

variable {s t u : State} {rs : List Reg}

theorem KeepsRegs.refl (s : State) (rs : List Reg) : KeepsRegs s s rs := fun _ _ => rfl

theorem KeepsRegs.trans (h : KeepsRegs s t rs) (h' : KeepsRegs t u rs) : KeepsRegs s u rs :=
  fun n hn => (h' n hn).trans (h n hn)

theorem KeepsRegs.mono {qs : List Reg} (h : KeepsRegs s t rs) (hsub : rs ⊆ qs) : KeepsRegs s t qs :=
  fun n hn => h n fun r hr => hn r (hsub hr)

theorem KeepsRegs.of_regs (h : t.regs = s.regs) : KeepsRegs s t rs := fun n _ => by rw [h]

theorem onlyEnds_next (h : KeepsRegs s t endRegs) : OnlyEnds s (.next t) := by
  rintro _ ⟨⟩
  exact h

theorem onlyEnds_finishCommand (h : u.regs = s.regs) (oc : Nat) : OnlyEnds s (finishCommand u oc) :=
  onlyEnds_next (KeepsRegs.trans (.of_regs h) (u.keepsRegs_completed oc))

theorem onlyEnds_raiseError (s : State) (e : ErrorKind) (off : Nat) : OnlyEnds s (raiseError s e off) :=
  onlyEnds_next (s.keepsRegs_errored e off)

theorem onlyEnds_finishWith (s : State) (bs : List Byte) (oc : Nat) : OnlyEnds s (finishWith s bs oc) :=
  onlyEnds_finishCommand rfl oc

theorem onlyEnds_ite {c : Prop} [Decidable c] {o o' : Out} (h : OnlyEnds s o) (h' : OnlyEnds s o') :
    OnlyEnds s (if c then o else o') := by
  split
  exacts [h, h']

theorem onlyEnds_withReg {r : Reg} {k : Word → Out} (hk : ∀ v, OnlyEnds s (k v)) : OnlyEnds s (withReg u r k) :=
  fun t h => hk _ t (withReg_next_iff.mp h).2

theorem onlyEnds_withRegs {qs : List Reg} {k : List Word → Out} (hk : ∀ vs, OnlyEnds s (k vs)) :
    OnlyEnds s (withRegs u qs k) :=
  fun t h => hk _ t (withRegs_next_iff.mp h).2

theorem onlyEnds_withCapacity {size : Nat} {k : Unit → Out} (hk : OnlyEnds s (k ())) : OnlyEnds s (withCapacity s size k) :=
  onlyEnds_withReg fun _ => onlyEnds_ite (onlyEnds_raiseError s _ _) hk

theorem onlyEnds_withPixels {k : Nat → Out} (hk : ∀ p, OnlyEnds s (k p)) : OnlyEnds s (withPixels s k) :=
  onlyEnds_withReg fun _ => onlyEnds_withReg fun _ => hk _

theorem onlyEnds_withLevel {k : Nat → Out} (hk : ∀ n, OnlyEnds s (k n)) : OnlyEnds s (withLevel s k) :=
  onlyEnds_withReg fun _ => onlyEnds_ite (onlyEnds_raiseError s _ _) (hk _)

theorem onlyEnds_withBitmap {per : Nat} {k : List Byte → Out} (hk : ∀ bmp, OnlyEnds s (k bmp)) :
    OnlyEnds s (withBitmap s per k) :=
  onlyEnds_withPixels fun _ => onlyEnds_withReg fun _ => onlyEnds_ite (onlyEnds_raiseError s _ _) (hk _)

theorem onlyEnds_withSignatureConfig {k : Nat → Nat → Out} (hk : ∀ w kl, OnlyEnds s (k w kl)) :
    OnlyEnds s (withSignatureConfig s k) :=
  onlyEnds_withReg fun _ => onlyEnds_withReg fun _ => onlyEnds_ite (hk _ _) (onlyEnds_raiseError s _ _)

theorem onlyEnds_withSignature {w kl : Nat} {k : List Byte → Out} (hk : ∀ sig, OnlyEnds s (k sig)) :
    OnlyEnds s (withSignature s w kl k) :=
  onlyEnds_withRegs fun _ => onlyEnds_withRegs fun _ => onlyEnds_withRegs fun _ => hk _

theorem onlyEnds_emitAll {ps : List Piece} {k : State → Out} (hu : u.regs = s.regs)
    (hk : ∀ v, v.regs = s.regs → OnlyEnds s (k v)) : OnlyEnds s (emitAll u ps k) := by
  intro t h
  obtain ⟨-, h⟩ | ⟨-, -, ⟨off, -, rfl⟩ | ⟨-, h⟩⟩ := emitAll_next_iff.mp h
  · exact hk u hu t h
  · exact KeepsRegs.trans (.of_regs hu) (u.keepsRegs_errored _ off)
  · exact hk (u.putOut 0 (pieceBytes ps)) hu t h

theorem onlyEnds_emitCommand (s : State) (ps : List Piece) : OnlyEnds s (emitCommand s ps) :=
  onlyEnds_emitAll rfl fun _ hv => onlyEnds_finishCommand hv _

/-! ### Streams -/

theorem onlyEnds_withStream {st : Stream} {ph : Phase} {k : Work → Out} (hk : ∀ w, OnlyEnds s (k w)) :
    OnlyEnds s (withStream s st ph k) := by
  intro t h
  obtain ⟨w, -, -, -, h⟩ := withStream_next_iff.mp h
  exact hk w t h

theorem onlyEnds_withToken {st : Stream} {i : Instr} {k : Work → Out} (hk : ∀ w, OnlyEnds s (k w)) :
    OnlyEnds s (withToken s st i k) :=
  onlyEnds_withStream fun _ => onlyEnds_ite (onlyEnds_raiseError s _ _) (hk _)

theorem onlyEnds_putRun (w : Work) (l : Nat) (px : List Byte) (prev : Byte) : OnlyEnds s (putRun s w l px prev) :=
  onlyEnds_ite (onlyEnds_raiseError s _ _) (onlyEnds_next (.of_regs rfl))

theorem onlyEnds_r7xRun (i : Instr) (c : BitVec 7) (l : Nat) : OnlyEnds s (r7xRun s i c l) :=
  onlyEnds_withToken fun w => onlyEnds_putRun w _ _ _

theorem onlyEnds_nibRun (i : Instr) (c : BitVec 4) (l : Nat) : OnlyEnds s (nibRun s i c l) :=
  onlyEnds_withToken fun w => onlyEnds_putRun w _ _ _

theorem onlyEnds_rgbRun (i : Instr) (c : Rgb15) (l : Nat) : OnlyEnds s (rgbRun s i c l) :=
  onlyEnds_withToken fun w => onlyEnds_putRun w _ _ _

theorem onlyEnds_difLiteral (i : Instr) (v : Byte) (l : Nat) : OnlyEnds s (difLiteral s i v l) :=
  onlyEnds_withToken fun w => onlyEnds_putRun w _ _ _

theorem onlyEnds_difDelta (i : Instr) (d : BitVec 4) (l : Nat) : OnlyEnds s (difDelta s i d l) :=
  onlyEnds_withToken fun w => onlyEnds_ite (onlyEnds_raiseError s _ _) (onlyEnds_putRun w _ _ _)

theorem onlyEnds_execBplTok (on : Bool) (l : BitVec 7) : OnlyEnds s (execBplTok on l s) :=
  onlyEnds_withToken fun _ => onlyEnds_ite (onlyEnds_raiseError s _ _) <|
    onlyEnds_ite (onlyEnds_raiseError s _ _) (onlyEnds_next (.of_regs rfl))

theorem onlyEnds_execDifMagic (m : Byte) : OnlyEnds s (execDifMagic m s) :=
  onlyEnds_withStream fun _ => onlyEnds_withReg fun _ =>
    onlyEnds_ite (onlyEnds_raiseError s _ _) (onlyEnds_next (.of_regs rfl))

theorem onlyEnds_execDifChecksum (k : Byte) : OnlyEnds s (execDifChecksum k s) :=
  onlyEnds_withStream fun _ => onlyEnds_ite (onlyEnds_raiseError s _ _) (onlyEnds_next (.of_regs rfl))

theorem onlyEnds_execNibTrailer (f : BitVec 16) : OnlyEnds s (execNibTrailer f s) :=
  onlyEnds_withStream fun _ => onlyEnds_ite (fun _ h => by cases h) (onlyEnds_next (.of_regs rfl))

/-- A token or framing field writes no result register (R430). -/
theorem onlyEnds_execToken (i : Instr) (s : State) : OnlyEnds s (execToken i s) := by
  cases i
  case r7xPix | r7xRun7 | r7xRun14 | r7xRun21 | r7xRun28 => exact onlyEnds_r7xRun _ _ _
  case bplTok => exact onlyEnds_execBplTok _ _
  case difMagic => exact onlyEnds_execDifMagic _
  case difChecksum => exact onlyEnds_execDifChecksum _
  case nibTrailer => exact onlyEnds_execNibTrailer _
  case difDelta0 | difDelta1 | difDelta2 | difDelta3 => exact onlyEnds_difDelta _ _ _
  case difZero0 | difZero1 | difZero2 | difZero3 | difValue0 | difValue1 | difValue2 | difValue3 | difMax0 | difMax1 |
      difMax2 | difMax3 =>
    exact onlyEnds_difLiteral _ _ _
  case nibBlack | nibWhite | nibGrey => exact onlyEnds_nibRun _ _ _
  case rgbWord | rgbRep => exact onlyEnds_rgbRun _ _ _
  all_goals exact fun _ h => by cases h

theorem onlyEnds_finishStream (s : State) (w : Work) : OnlyEnds s (finishStream s w) := by
  have hpixels (per : Nat) : OnlyEnds s (finishPixels s w per) :=
    onlyEnds_ite (onlyEnds_raiseError s _ _) (onlyEnds_finishCommand rfl _)
  have hplanes : OnlyEnds s (finishBpl s w) := onlyEnds_ite (onlyEnds_raiseError s _ _) (onlyEnds_finishCommand rfl _)
  unfold finishStream
  split
  exacts [hpixels 1, hplanes, hpixels 1, hpixels 1, hpixels 3]

theorem onlyEnds_sequence (s : State) (w : Work) : OnlyEnds s (sequence execToken s w) := by
  intro t h
  obtain ⟨-, h⟩ | ⟨-, ⟨i, -, h⟩ | ⟨-, rfl⟩⟩ := sequence_next_iff.mp h
  · exact onlyEnds_finishStream s w t h
  · exact onlyEnds_execToken i s t h
  · exact s.keepsRegs_errored _ _

theorem onlyEnds_runStream (hu : KeepsRegs s u endRegs) (n : Nat) : OnlyEnds s (runStream n u) :=
  fun _ h => runStream_invariant (Q := fun v => KeepsRegs s v endRegs)
    (fun v w v' hv _ hseq => hv.trans (onlyEnds_sequence v w v' hseq)) hu h

/-- A stream that a decoding command opens has STATUS alone changed (R32). -/
theorem keepsRegs_openStream (s : State) (st : Stream) (ph : Phase) (p stop planes : Nat) :
    KeepsRegs s (openStream s st ph p stop planes) endRegs :=
  (KeepsRegs.mono (s.keepsRegs_setReg .status statusBusy) (by simp [endRegs])).trans
    (.of_regs (openStream_regs s st ph p stop planes))

theorem keepsRegs_openBpl (s : State) (p n planes : Nat) : KeepsRegs s (openBpl s p n planes) endRegs :=
  (keepsRegs_openStream s .bpl .tokens p n planes).trans (.of_regs rfl)

/-! ### Commands -/

theorem onlyEnds_execR7xDec (s : State) : OnlyEnds s (execR7xDec s) :=
  onlyEnds_withPixels fun _ => onlyEnds_withCapacity <| onlyEnds_withReg fun _ =>
    onlyEnds_runStream (keepsRegs_openStream s _ _ _ _ _) _

theorem onlyEnds_execBplDec (s : State) : OnlyEnds s (execBplDec s) :=
  onlyEnds_withLevel fun _ => onlyEnds_withPixels fun _ => onlyEnds_withCapacity <| onlyEnds_withReg fun _ =>
    onlyEnds_runStream (keepsRegs_openBpl s _ _ _) _

theorem onlyEnds_execDifDec (s : State) : OnlyEnds s (execDifDec s) :=
  onlyEnds_withPixels fun _ => onlyEnds_withCapacity <| onlyEnds_withReg fun _ =>
    onlyEnds_ite (onlyEnds_raiseError s _ _) (onlyEnds_runStream (keepsRegs_openStream s _ _ _ _ _) _)

theorem onlyEnds_execNibDec (s : State) : OnlyEnds s (execNibDec s) :=
  onlyEnds_withPixels fun _ => onlyEnds_withCapacity <| onlyEnds_withReg fun _ =>
    onlyEnds_ite (onlyEnds_raiseError s _ _) (onlyEnds_runStream (keepsRegs_openStream s _ _ _ _ _) _)

theorem onlyEnds_execRgbDec (s : State) : OnlyEnds s (execRgbDec s) :=
  onlyEnds_withPixels fun _ => onlyEnds_withCapacity <| onlyEnds_withReg fun _ =>
    onlyEnds_runStream (keepsRegs_openStream s _ _ _ _ _) _

theorem onlyEnds_execR7xEnc (s : State) : OnlyEnds s (execR7xEnc s) := by
  unfold execR7xEnc
  exact onlyEnds_withBitmap fun _ => onlyEnds_emitCommand s _

theorem onlyEnds_execDifEnc (s : State) : OnlyEnds s (execDifEnc s) := by
  unfold execDifEnc
  exact onlyEnds_withBitmap fun _ => onlyEnds_withReg fun _ => onlyEnds_emitCommand s _

theorem onlyEnds_execNibEnc (s : State) : OnlyEnds s (execNibEnc s) := by
  unfold execNibEnc
  exact onlyEnds_withBitmap fun _ => onlyEnds_withReg fun _ => onlyEnds_emitCommand s _

theorem onlyEnds_execRgbEnc (s : State) : OnlyEnds s (execRgbEnc s) :=
  onlyEnds_withBitmap fun _ => onlyEnds_ite (onlyEnds_emitCommand s _) <|
    onlyEnds_emitAll rfl fun _ _ => onlyEnds_withReg fun _ => onlyEnds_emitCommand s _

theorem onlyEnds_lcgCommand (c : LcgSet) (s : State) : OnlyEnds s (lcgCommand c s) :=
  onlyEnds_withReg fun _ => onlyEnds_withCapacity <| onlyEnds_withReg fun _ => onlyEnds_withReg fun _ =>
    onlyEnds_ite (onlyEnds_finishWith s _ _) (onlyEnds_withRegs fun _ => onlyEnds_finishWith s _ _)

theorem onlyEnds_execSha1 (s : State) : OnlyEnds s (execSha1 s) :=
  onlyEnds_withCapacity <| onlyEnds_withReg fun _ => onlyEnds_finishWith s _ _

theorem onlyEnds_execSha256 (s : State) : OnlyEnds s (execSha256 s) :=
  onlyEnds_withCapacity <| onlyEnds_withReg fun _ => onlyEnds_finishWith s _ _

theorem onlyEnds_execSigGen (s : State) : OnlyEnds s (execSigGen s) :=
  onlyEnds_withSignatureConfig fun _ _ => onlyEnds_withCapacity <| onlyEnds_withSignature fun _ =>
    onlyEnds_finishWith s _ _

theorem onlyEnds_execSigVerify (s : State) : OnlyEnds s (execSigVerify s) := by
  refine onlyEnds_withSignatureConfig fun _ _ => onlyEnds_withReg fun _ => onlyEnds_ite (onlyEnds_raiseError s _ _) <|
    onlyEnds_withSignature fun _ => ?_
  split
  exacts [onlyEnds_raiseError s _ _, onlyEnds_finishCommand rfl 0]

/-- DONE with PLANE_LEN written. -/
theorem keepsRegs_setPlaneLens_finish {lens : List Nat} {oc : Nat} (hu : u.regs = s.regs)
    (h : finishCommand (u.setPlaneLens lens) oc = .next t) :
    t.reg .status = 0x00000002#32 ∧ KeepsRegs s t (endRegs ++ (List.finRange 16).map Reg.planeLen) := by
  rw [finishCommand_eq, Host.Outcome.next.injEq] at h
  subst h
  exact ⟨State.reg_status_completed _ _, (KeepsRegs.of_regs hu).trans <|
    ((u.keepsRegs_setPlaneLens lens).mono (List.subset_append_right _ _)).trans <|
      ((u.setPlaneLens lens).keepsRegs_completed oc).mono (List.subset_append_left _ _)⟩

/-- BPL.ENC writes PLANE_LEN as it ends DONE, and not where it raises (R164, R430). -/
theorem bplEncode_keepsRegs {v : Variant} (h : bplEncode v s = .next t) :
    KeepsRegs s t endRegs ∨
      (t.reg .status = 0x00000002#32 ∧ KeepsRegs s t (endRegs ++ (List.finRange 16).map Reg.planeLen)) := by
  unfold bplEncode at h
  obtain ⟨-, ⟨-, rfl⟩ | ⟨-, h⟩⟩ := withLevel_next_iff.mp h
  · exact .inl (s.keepsRegs_errored _ _)
  obtain ⟨-, -, -, ⟨-, rfl⟩ | ⟨-, h⟩⟩ := withBitmap_next_iff.mp h
  · exact .inl (s.keepsRegs_errored _ _)
  obtain ⟨-, h⟩ | ⟨-, -, ⟨off, -, rfl⟩ | ⟨-, h⟩⟩ := emitAll_next_iff.mp h
  · exact .inr (keepsRegs_setPlaneLens_finish rfl h)
  · exact .inl (s.keepsRegs_errored _ off)
  · exact .inr (keepsRegs_setPlaneLens_finish (s.putOut_regs 0 _) h)

/-! ### The CRC commands -/

theorem keepsRegs_result_completed (s : State) (v : Word) (oc : Nat) :
    KeepsRegs s ((s.setReg .result v).completed oc) (endRegs ++ [.result]) :=
  ((s.keepsRegs_setReg .result v).mono (by simp)).trans
    (((s.setReg .result v).keepsRegs_completed oc).mono (List.subset_append_left _ _))

theorem keepsRegs_result_errored (s : State) (v : Word) (e : ErrorKind) (off : Nat) :
    KeepsRegs s ((s.setReg .result v).errored e off) (endRegs ++ [.result]) :=
  ((s.keepsRegs_setReg .result v).mono (by simp)).trans
    (((s.setReg .result v).keepsRegs_errored e off).mono (List.subset_append_left _ _))

theorem keepsRegs_errored_end (s : State) (e : ErrorKind) (off : Nat) (rs : List Reg) :
    KeepsRegs s (s.errored e off) (endRegs ++ rs) :=
  (s.keepsRegs_errored e off).mono (List.subset_append_left _ _)

theorem crc16Command_keepsRegs {f : CrcForm} (h : crc16Command f s = .next t) :
    KeepsRegs s t (endRegs ++ [.result]) := by
  unfold crc16Command at h
  cases (withReg_next_iff.mp (withReg_next_iff.mp h).2).2
  exact keepsRegs_result_completed s _ 0

theorem execCrc32_keepsRegs (h : execCrc32 s = .next t) : KeepsRegs s t (endRegs ++ [.result]) := by
  unfold execCrc32 at h
  cases (withReg_next_iff.mp h).2
  exact keepsRegs_result_completed s _ 0

theorem sealFile_keepsRegs (h : sealFile s = .next t) : KeepsRegs s t (endRegs ++ [.result]) := by
  unfold sealFile at h
  obtain ⟨-, ⟨-, rfl⟩ | ⟨-, h⟩⟩ := withCapacity_next_iff.mp (withReg_next_iff.mp h).2
  · exact keepsRegs_errored_end s _ _ _
  split at h
  · cases h
    exact keepsRegs_errored_end s _ _ _
  · cases h
    exact keepsRegs_result_completed s _ 4

theorem verifyFile_keepsRegs (h : verifyFile s = .next t) : KeepsRegs s t (endRegs ++ [.result]) := by
  unfold verifyFile at h
  replace h := (withReg_next_iff.mp h).2
  split at h
  · cases h
    exact keepsRegs_errored_end s _ _ _
  dsimp only at h
  split at h
  · cases h
    exact keepsRegs_result_errored s _ _ _
  · cases h
    exact keepsRegs_result_completed s _ 0

/-- The instructions that write RESULT (R430). -/
def resultWriters : List Instr := crc16Names.map Prod.fst ++ [.crc32] ++ sealNames ++ checkNames

/-- An instruction that has no result register writes those of every end alone (R430). -/
theorem onlyEnds_exec {i : Instr} (hcrc : i ∉ resultWriters) (hbpl : i ∉ bplEncoders.map Prod.fst) (s : State) :
    OnlyEnds s (exec i s) := by
  by_cases hf : i.format = .command
  swap
  · rw [← execToken_eq_exec hf]
    exact onlyEnds_execToken i s
  cases i
  case r7xDec => exact onlyEnds_execR7xDec s
  case bplDec => exact onlyEnds_execBplDec s
  case difDec => exact onlyEnds_execDifDec s
  case nibDec => exact onlyEnds_execNibDec s
  case rgbDec => exact onlyEnds_execRgbDec s
  case r7xEnc => exact onlyEnds_execR7xEnc s
  case difEnc => exact onlyEnds_execDifEnc s
  case nibEnc => exact onlyEnds_execNibEnc s
  case rgbEnc => exact onlyEnds_execRgbEnc s
  case lcgXor | lcgXor0 | encrypt0 | decrypt0 | lcgXor1 | encrypt1 | decrypt1 => exact onlyEnds_lcgCommand _ s
  case sha1 => exact onlyEnds_execSha1 s
  case sha256 => exact onlyEnds_execSha256 s
  case sigGen => exact onlyEnds_execSigGen s
  case sigVerify => exact onlyEnds_execSigVerify s
  case bplEnc v => exact absurd (by cases v <;> decide) hbpl
  case bplEncA | bplEncB => exact absurd (by decide) hbpl
  case crc16 f => exact absurd (by cases f <;> decide) hcrc
  case crc32File m => exact absurd (by cases m <;> decide) hcrc
  case crc32 | crc16Raw | crc32Seal | crc32Check => exact absurd (by decide) hcrc
  all_goals exact absurd hf (by simp [Instr.format])

/-- The CRC commands write RESULT besides (R430). -/
theorem resultWriter_keepsRegs {i : Instr} (hi : i ∈ resultWriters) (h : exec i s = .next t) :
    KeepsRegs s t (endRegs ++ [.result]) := by
  simp only [resultWriters, List.mem_append, List.mem_singleton] at hi
  obtain ((hi | rfl) | hi) | hi := hi
  · obtain ⟨⟨i, f⟩, hif, rfl⟩ := List.mem_map.mp hi
    exact crc16Command_keepsRegs (exec_of_mem_crc16Names hif s ▸ h)
  · exact execCrc32_keepsRegs h
  · exact sealFile_keepsRegs (exec_of_mem_sealNames hi s ▸ h)
  · exact verifyFile_keepsRegs (exec_of_mem_checkNames hi s ▸ h)

end OwnRegisters

/-- Settles O17: by whether the instruction is a CRC command, a BPL.ENC, or has no result. -/
theorem staleResults : Obligations.StaleResults := by
  intro i s t h
  by_cases hcrc : i ∈ resultWriters
  · have hkeeps : KeepsRegs s t (endRegs ++ [.result]) := resultWriter_keepsRegs hcrc h
    exact ⟨fun hi => absurd hcrc hi, fun k _ => hkeeps.reg (by simp [endRegs])⟩
  by_cases hbpl : i ∈ bplEncoders.map Prod.fst
  · obtain ⟨⟨i, v⟩, hiv, rfl⟩ := List.mem_map.mp hbpl
    obtain hkeeps | ⟨hdone, hkeeps⟩ := bplEncode_keepsRegs (exec_of_mem_bplEncoders hiv s ▸ h)
    · exact ⟨fun _ => hkeeps.reg (by simp [endRegs]), fun k _ => hkeeps.reg (by simp [endRegs])⟩
    · exact ⟨fun _ => hkeeps.reg (by simp [endRegs]), fun k hk => (hk.elim (· hbpl) (· hdone)).elim⟩
  · have hkeeps : KeepsRegs s t endRegs := onlyEnds_exec hcrc hbpl s t h
    exact ⟨fun _ => hkeeps.reg (by simp [endRegs]), fun k _ => hkeeps.reg (by simp [endRegs])⟩

end Sys2Proof.Machine

/-! SIG.VERIFY and SIG.GEN over the same registers (48_signature.md R370 to R374): both come to the same signature, and the
comparison ends at the first byte that differs. -/

namespace Sys2Proof.Machine

section Comparison

variable {xs ys : List Byte} {k : Nat}

theorem firstDifference_cons_same (x : Byte) (xs ys : List Byte) :
    firstDifference (x :: xs) (x :: ys) = (firstDifference xs ys).map (· + 1) :=
  if_neg (not_not.mpr rfl)

theorem firstDifference_cons_ne {x y : Byte} (h : x ≠ y) (xs ys : List Byte) :
    firstDifference (x :: xs) (y :: ys) = some 0 :=
  if_pos h

theorem firstDifference_eq_none_iff : firstDifference xs ys = none ↔ xs = ys := by
  induction xs generalizing ys with
  | nil => cases ys <;> simp [firstDifference]
  | cons x xs ih =>
    cases ys with
    | nil => simp [firstDifference]
    | cons y ys =>
      by_cases hxy : x = y
      · rw [hxy, firstDifference_cons_same, Option.map_eq_none_iff, ih, List.cons.injEq, and_iff_right rfl]
      · simp [firstDifference_cons_ne hxy, hxy]

theorem firstDifference_eq_some (hbefore : ∀ j, j < k → xs[j]? = ys[j]?) (hk : xs[k]? ≠ ys[k]?) :
    firstDifference xs ys = some k := by
  induction k generalizing xs ys with
  | zero =>
    cases xs <;> cases ys
    case nil.nil => exact absurd rfl hk
    case nil.cons | cons.nil => rfl
    case cons.cons => exact firstDifference_cons_ne (by simpa using hk) _ _
  | succ k ih =>
    have hhead := hbefore 0 k.succ_pos
    cases xs <;> cases ys
    case nil.nil => exact absurd rfl hk
    case nil.cons | cons.nil => simp at hhead
    case cons.cons x xs y ys =>
      obtain rfl : x = y := by simpa using hhead
      have hrest (j : Nat) (hj : j < k) : xs[j]? = ys[j]? := by simpa using hbefore (j + 1) (Nat.succ_lt_succ hj)
      rw [firstDifference_cons_same, ih hrest (by simpa using hk), Option.map_some]

end Comparison

section Signing

variable {s t : State}

/-- The registers the two commands read: their configuration, and what makes the signature (R370 to R373). -/
theorem signatureReads_eq (hkl : legalKeyLength (s.reg .aesKlen) = true) :
    commandReads.signatureReads s = [.sigFieldBytes, .aesKlen] ++
      (fieldRegs (s.reg .sigFieldBytes).toNat ++ keyRegs (s.reg .aesKlen).toNat ++ ivRegs) := by
  rw [fieldRegs_toNat, keyRegs_of_legal hkl, ivRegs_eq, commandReads.signatureReads]
  simp

theorem ready_append_iff {rs qs : List Reg} : Ready s (rs ++ qs) ↔ Ready s rs ∧ Ready s qs :=
  List.forall_mem_append

/-- Past the checks both commands continue with the signature of R371. -/
theorem withSignature_of_ready (hlegal : LegalConfig s .sigGen) (hready : Ready s (commandReads.signatureReads s))
    (k : List Byte → Out) :
    withSignature s (s.reg .sigFieldBytes).toNat (s.reg .aesKlen).toNat k = k (signature s) := by
  obtain ⟨hw, hkl⟩ := hlegal
  rw [← legalFieldBytes_iff] at hw
  rw [← legalKeyLength_iff] at hkl
  simp only [signatureReads_eq hkl, ready_append_iff] at hready
  obtain ⟨-, ⟨hfield, hkey⟩, hiv⟩ := hready
  rw [withSignature, withRegs_of_written hfield, withRegs_of_written hkey, withRegs_of_written hiv,
    signatureOf_registers hw hkl]

theorem ready_config (hready : Ready s (commandReads.signatureReads s)) : Ready s [.sigFieldBytes, .aesKlen] :=
  hready.mono (by simp [commandReads.signatureReads])

theorem length_signature_of_legal (hlegal : LegalConfig s .sigGen) : (signature s).length = 32 :=
  length_signature ((legalFieldBytes_iff _).mpr hlegal.1) ((legalKeyLength_iff _).mpr hlegal.2)

/-- SIG.VERIFY past its configuration, where IN is not of 32 bytes (R373). -/
theorem execSigVerify_of_length_ne {stored : List Byte} (hlegal : LegalConfig s .sigGen)
    (hready : Ready s (commandReads.signatureReads s)) (hin : HoldsInput s stored) (hlen : stored.length ≠ 32) :
    execSigVerify s = .next (s.errored .checksumMismatch 0) := by
  have hne : s.reg .inLen ≠ 32#32 := fun h => hlen (by rw [← hin.length, h]; rfl)
  rw [execSigVerify, withSignatureConfig_of_legal (ready_config hready) hlegal, withReg_of_written hin.written,
    if_pos hne, raiseError_eq]

/-- SIG.VERIFY on 32 bytes: the first that differs from the signature, if there is one, ends it (R373). -/
theorem execSigVerify_of_length {stored : List Byte} (hlegal : LegalConfig s .sigGen)
    (hready : Ready s (commandReads.signatureReads s)) (hin : HoldsInput s stored) (hlen : stored.length = 32) :
    execSigVerify s =
      (firstDifference stored (signature s)).elim (finishCommand s 0) (raiseError s .checksumMismatch) := by
  have hreg : s.reg .inLen = 32#32 := BitVec.eq_of_toNat_eq (hin.length.trans hlen)
  have hstored : s.inRange 0 32 = stored := by
    have h := hin.inRange_eq
    rwa [hin.length, hlen] at h
  rw [execSigVerify, withSignatureConfig_of_legal (ready_config hready) hlegal, withReg_of_written hin.written,
    if_neg (not_not.mpr hreg), withSignature_of_ready hlegal hready, hstored]
  cases firstDifference stored (signature s) <;> rfl

/-- A command that writes no output ends DONE (R393). -/
theorem completes_nil (s : State) : Completes s (s.completed 0) [] [] :=
  completes_completed (out := []) (Moves.refl s) rfl (by decide) fun _ => rfl

theorem State.status_errored_ne_done (s : State) (e : ErrorKind) (off : Nat) :
    (s.errored e off).reg .status ≠ 0x00000002#32 := by
  rw [State.reg_status_errored]
  cases e <;> decide

/-- SIG.GEN ends DONE only where its configuration is legal, its registers are written and OUT has room (R372). -/
theorem of_execSigGen_done (hexec : exec .sigGen s = .next t) (hdone : t.reg .status = 0x00000002#32) :
    LegalConfig s .sigGen ∧ Ready s (commandReads.signatureReads s) ∧ HasRoom s 32 := by
  have h : execSigGen s = .next t := hexec
  rw [execSigGen, withSignatureConfig_next_iff] at h
  obtain ⟨hfield, hklen, ⟨-, rfl⟩ | ⟨hlegal, h⟩⟩ := h
  · exact absurd hdone (s.status_errored_ne_done _ 0)
  obtain ⟨hcap, ⟨-, rfl⟩ | ⟨hfits, h⟩⟩ := withCapacity_next_iff.mp h
  · exact absurd hdone (s.status_errored_ne_done _ 0)
  obtain ⟨hw, hkl⟩ := Bool.and_eq_true_iff.mp hlegal
  refine ⟨⟨(legalFieldBytes_iff _).mp hw, (legalKeyLength_iff _).mp hkl⟩, ?_, hcap, hfits⟩
  rw [signatureReads_eq hkl, ready_append_iff]
  exact ⟨.pair hfield hklen, (withSignature_next_iff.mp h).1⟩

/-- The output of a command that ended DONE, as OUT holds it (R63, R393). -/
theorem Completes.outRange_eq {out : List Byte} {results : List (Reg × Word)} (h : Completes s t out results) :
    t.outRange 0 (t.reg .outLen).toNat = out := by
  rw [h.outLen]
  refine List.ext_getElem (t.length_outRange 0 _) fun a _ ha => ?_
  simp only [State.outRange, List.getElem_map, List.getElem_range, Nat.zero_add]
  rw [h.outByte, dif_pos ha]

end Signing

/-- Settles O58, by the comparison with the signature. -/
theorem sigVerifyCompares : Obligations.SigVerifyCompares := by
  intro s stored hlegal hready hin
  replace hready : Ready s (commandReads.signatureReads s) := fun r hr => hready r (List.mem_cons_of_mem _ hr)
  refine ⟨?_, fun hlen k _ hbefore hk => ?_, fun hlen => ?_⟩
  · rintro rfl
    refine ⟨_, ?_, completes_nil s⟩
    show execSigVerify s = _
    rw [execSigVerify_of_length hlegal hready hin (length_signature_of_legal hlegal), firstDifference_eq_none_iff.mpr rfl]
    rfl
  · refine ⟨_, ?_, s.raises_errored .checksumMismatch k⟩
    show execSigVerify s = _
    rw [execSigVerify_of_length hlegal hready hin hlen, firstDifference_eq_some hbefore hk]
    rfl
  · exact ⟨_, execSigVerify_of_length_ne hlegal hready hin hlen, s.raises_errored _ _⟩

/-- Settles O59: SIG.GEN's output is the signature, and SIG.VERIFY ends DONE where nothing differs from it. -/
theorem verifyAcceptsExactlyTheSignature : Obligations.VerifyAcceptsExactlyTheSignature := by
  intro s t u stored hin hgen hdone hverify
  obtain ⟨hlegal, hready, hroom⟩ := of_execSigGen_done hgen hdone
  obtain ⟨hlen, t', hgen', hcompletes⟩ :=
    sigGenCompletes s hlegal (List.forall_mem_cons.mpr ⟨hroom.written, hready⟩) hroom
  obtain rfl : t = t' := Host.Outcome.next.inj (hgen.symm.trans hgen')
  rw [hcompletes.outRange_eq]
  obtain ⟨haccepts, -, -⟩ :=
    sigVerifyCompares s stored hlegal (List.forall_mem_cons.mpr ⟨hin.written, hready⟩) hin
  have hexec : execSigVerify s = .next u := hverify
  constructor
  · intro hstatus
    by_cases h32 : stored.length = 32
    · rw [execSigVerify_of_length hlegal hready hin h32] at hexec
      cases hdiff : firstDifference stored (signature s) with
      | none => exact firstDifference_eq_none_iff.mp hdiff
      | some k =>
        rw [hdiff] at hexec
        cases hexec
        exact absurd hstatus (s.status_errored_ne_done _ k)
    · rw [execSigVerify_of_length_ne hlegal hready hin h32] at hexec
      cases hexec
      exact absurd hstatus (s.status_errored_ne_done _ 0)
  · intro hstored
    obtain ⟨v, hv, hok⟩ := haccepts hstored
    obtain rfl : u = v := Host.Outcome.next.inj (hverify.symm.trans hv)
    exact hok.status

end Sys2Proof.Machine

/-! The padding, the blocks and the message schedules of the SHA cores (47_sha.md R340, R342, R347). -/

namespace Sys2Proof.Machine

section Padding

/-- The padded message as the rule counts its zero bytes and writes its bit length (R340). -/
theorem shaPad_eq_paddedMessage (m : List Byte) : shaPad m = paddedMessage m := by
  have hzeros : (55 + 63 * m.length) % 64 = (64 - (m.length + 9) % 64) % 64 := by omega
  have hlength : beBytes 8 (8 * m.length) = (List.range 8).map fun i => byteOf (8 * m.length / 256 ^ (7 - i)) := by
    refine List.map_congr_left fun i _ => congrArg (BitVec.ofNat 8) ?_
    rw [Nat.shiftRight_eq_div_pow, Nat.pow_mul]
  rw [shaPad, paddedMessage, hzeros, hlength]

theorem length_shaPad (m : List Byte) : (shaPad m).length = m.length + 9 + (55 + 63 * m.length) % 64 := by
  simp only [shaPad, List.length_append, List.length_replicate, List.length_singleton, length_beBytes]
  omega

/-- The big-endian word at an offset of a byte sequence (R340). -/
def wordAt (bs : List Byte) (a : Nat) : Word :=
  bs.getD a 0#8 ++ bs.getD (a + 1) 0#8 ++ bs.getD (a + 2) 0#8 ++ bs.getD (a + 3) 0#8

theorem shaWords_eq : ∀ bs : List Byte, shaWords bs = (List.range (bs.length / 4)).map fun t => wordAt bs (4 * t)
  | b0 :: b1 :: b2 :: b3 :: rest => by
    have hlen : (b0 :: b1 :: b2 :: b3 :: rest).length / 4 = rest.length / 4 + 1 := by simp only [List.length_cons]; omega
    rw [hlen, List.range_succ_eq_map, List.map_cons, List.map_map, shaWords, shaWords_eq rest]
    refine congrArg _ (List.map_congr_left fun t _ => ?_)
    rw [Function.comp, show 4 * t.succ = 4 * t + 1 + 1 + 1 + 1 by omega]
    rfl
  | [] | [_] | [_, _] | [_, _, _] => by simp [shaWords]

theorem shaBlocks_eq (n : Nat) (ws : List Word) :
    shaBlocks n ws = (List.range n).map fun j => (ws.drop (16 * j)).take 16 := by
  induction n generalizing ws with
  | zero => rfl
  | succ n ih =>
    rw [List.range_succ_eq_map, List.map_cons, List.map_map, shaBlocks, ih]
    refine congrArg _ (List.map_congr_left fun j _ => ?_)
    rw [List.drop_drop, Function.comp, show 16 + 16 * j = 16 * j.succ by omega]

theorem length_blockWords (p : List Byte) (j : Nat) : (blockWords p j).length = 16 := by simp [blockWords]

theorem getD_blockWords (p : List Byte) (j : Nat) {t : Nat} (ht : t < 16) :
    (blockWords p j).getD t 0#32 = wordAt p (64 * j + 4 * t) := by
  rw [blockWords, List.getD_eq_getElem _ _ (by simpa using ht), List.getElem_map, List.getElem_range]
  rfl

/-- The blocks of a message are those of its padding, 16 words each (R340). -/
theorem shaMessage_eq (m : List Byte) :
    shaMessage m = (List.range ((shaPad m).length / 64)).map (blockWords (shaPad m)) := by
  rw [shaMessage, shaBlocks_eq]
  refine List.map_congr_left fun j hj => ?_
  have hj' : j < (shaPad m).length / 64 := List.mem_range.mp hj
  rw [shaWords_eq]
  refine List.ext_getElem ?_ fun t h1 h2 => ?_
  · rw [length_blockWords, List.length_take, List.length_drop, List.length_map, List.length_range]
    omega
  · have ht : t < 16 := by rwa [length_blockWords] at h2
    rw [← List.getD_eq_getElem _ 0#32 h2, getD_blockWords _ _ ht, List.getElem_take, List.getElem_drop, List.getElem_map,
      List.getElem_range, Nat.mul_add, ← Nat.mul_assoc]

theorem getD_shaMessage {m : List Byte} {j : Nat} (hj : j < (shaPad m).length / 64) :
    (shaMessage m).getD j [] = blockWords (shaPad m) j := by
  rw [shaMessage_eq, List.getD_eq_getElem _ _ (by simpa using hj), List.getElem_map, List.getElem_range]

end Padding

/-- Settles O55: the zero bytes fill the last block of 64, and the words of block j begin at byte 64 · j. -/
theorem shaPadding : Obligations.ShaPadding := by
  intro m _
  have hlen := length_shaPad m
  refine ⟨(55 + 63 * m.length) % 64, (m.length + 9 + (55 + 63 * m.length) % 64) / 64, by omega, rfl, by omega, by omega, ?_,
    fun j t hj ht => ?_⟩
  · rw [shaMessage_eq, List.length_map, List.length_range, hlen]
  · rw [getD_shaMessage (hlen ▸ hj), getD_blockWords _ _ ht]
    rfl

section Schedules

variable {next : List Word → Word} {n t : Nat} {ws : List Word}

theorem length_growSchedule (next : List Word → Word) (n : Nat) (ws : List Word) :
    (growSchedule next n ws).length = ws.length + n := by
  induction n generalizing ws with
  | zero => rfl
  | succ n ih => rw [growSchedule, ih, List.length_cons, Nat.add_right_comm, Nat.add_assoc]

/-- A schedule goes on from the words it is grown from. -/
theorem suffix_growSchedule (next : List Word → Word) (n : Nat) (ws : List Word) : ws <:+ growSchedule next n ws := by
  induction n generalizing ws with
  | zero => exact List.suffix_refl ws
  | succ n ih => exact (List.suffix_cons _ ws).trans (ih _)

/-- The words before the new ones, in the order of the rule, are those the schedule was grown from. -/
theorem take_reverse_growSchedule (next : List Word → Word) (n : Nat) (ws : List Word) :
    (growSchedule next n ws).reverse.take ws.length = ws.reverse := by
  have hprefix : ws.reverse <+: (growSchedule next n ws).reverse := List.reverse_prefix.mpr (suffix_growSchedule next n ws)
  rw [← ws.length_reverse]
  exact (List.prefix_iff_eq_take.mp hprefix).symm

theorem getD_take {α : Type} {l : List α} {d : α} {k : Nat} (h : t < k) : (l.take k).getD t d = l.getD t d := by
  rw [List.getD_eq_getElem?_getD, List.getD_eq_getElem?_getD, List.getElem?_take, if_pos h]

theorem getD_growSchedule_old (h : t < ws.length) :
    (growSchedule next n ws).reverse.getD t 0#32 = ws.reverse.getD t 0#32 := by
  rw [← take_reverse_growSchedule next n ws, getD_take h]

/-- Each new word is made from all the words before it, newest first. -/
theorem getD_growSchedule_new (hlo : ws.length ≤ t) (hhi : t < ws.length + n) :
    (growSchedule next n ws).reverse.getD t 0#32 = next ((growSchedule next n ws).reverse.take t).reverse := by
  induction n generalizing ws with
  | zero => omega
  | succ n ih =>
    rw [growSchedule]
    obtain rfl | hlt := hlo.eq_or_lt
    · have hbefore := take_reverse_growSchedule next n (next ws :: ws)
      have htake : (growSchedule next n (next ws :: ws)).reverse.take ws.length = ws.reverse := by
        rw [← Nat.min_eq_left (Nat.le_succ ws.length), ← List.take_take, Nat.succ_eq_add_one, ← List.length_cons, hbefore,
          List.reverse_cons, List.take_left' ws.length_reverse]
      rw [htake, List.reverse_reverse, getD_growSchedule_old (by simp), List.reverse_cons,
        List.getD_append_right _ _ _ _ (by simp)]
      simp
    · exact ih (by simpa using hlt) (by simp only [List.length_cons]; omega)

/-- `W[t-k]` in a schedule that holds the words before W[t]. -/
theorem back_take {k : Nat} {l : List Word} (hk : 1 ≤ k) (hkt : k ≤ t) (ht : t ≤ l.length) :
    back (l.take t).reverse k = l.getD (t - k) 0#32 := by
  have hlen : (l.take t).length = t := by simpa using ht
  rw [back, List.getD_eq_getElem _ _ (by rw [List.length_reverse, hlen]; omega), List.getElem_reverse,
    List.getD_eq_getElem _ _ (by omega), List.getElem_take]
  congr 1
  omega

variable {block : List Word}

theorem length_sha1Schedule (h : block.length = 16) : (sha1Schedule block).length = 80 := by
  rw [sha1Schedule, List.length_reverse, length_growSchedule, List.length_reverse, h]

theorem length_sha256Schedule (h : block.length = 16) : (sha256Schedule block).length = 64 := by
  rw [sha256Schedule, List.length_reverse, length_growSchedule, List.length_reverse, h]

/-- The first 16 words of both schedules are the block (R342, R347). -/
theorem getD_sha1Schedule_block (h : block.length = 16) (ht : t < 16) :
    (sha1Schedule block).getD t 0#32 = block.getD t 0#32 := by
  rw [sha1Schedule, getD_growSchedule_old (by simpa [h] using ht), List.reverse_reverse]

theorem getD_sha256Schedule_block (h : block.length = 16) (ht : t < 16) :
    (sha256Schedule block).getD t 0#32 = block.getD t 0#32 := by
  rw [sha256Schedule, getD_growSchedule_old (by simpa [h] using ht), List.reverse_reverse]

/-- W[t] of SHA-1 (R342). -/
theorem getD_sha1Schedule (h : block.length = 16) (hlo : 16 ≤ t) (hhi : t < 80) :
    (sha1Schedule block).getD t 0#32 =
      ((sha1Schedule block).getD (t - 3) 0#32 ^^^ (sha1Schedule block).getD (t - 8) 0#32 ^^^
        (sha1Schedule block).getD (t - 14) 0#32 ^^^ (sha1Schedule block).getD (t - 16) 0#32).rotateLeft 1 := by
  have hlen := length_sha1Schedule h
  have hback {k : Nat} (hk : 1 ≤ k) (hk16 : k ≤ 16) :
      back ((sha1Schedule block).take t).reverse k = (sha1Schedule block).getD (t - k) 0#32 :=
    back_take hk (by omega) (by omega)
  rw [← hback (k := 3) (by decide) (by decide), ← hback (k := 8) (by decide) (by decide),
    ← hback (k := 14) (by decide) (by decide), ← hback (k := 16) (by decide) (by decide)]
  exact getD_growSchedule_new (by simpa [h] using hlo) (by simpa [h] using hhi)

/-- W[t] of SHA-256 (R347). -/
theorem getD_sha256Schedule (h : block.length = 16) (hlo : 16 ≤ t) (hhi : t < 64) :
    (sha256Schedule block).getD t 0#32 =
      sha256Sigma1 ((sha256Schedule block).getD (t - 2) 0#32) + (sha256Schedule block).getD (t - 7) 0#32 +
        sha256Sigma0 ((sha256Schedule block).getD (t - 15) 0#32) + (sha256Schedule block).getD (t - 16) 0#32 := by
  have hlen := length_sha256Schedule h
  have hback {k : Nat} (hk : 1 ≤ k) (hk16 : k ≤ 16) :
      back ((sha256Schedule block).take t).reverse k = (sha256Schedule block).getD (t - k) 0#32 :=
    back_take hk (by omega) (by omega)
  rw [← hback (k := 2) (by decide) (by decide), ← hback (k := 7) (by decide) (by decide),
    ← hback (k := 15) (by decide) (by decide), ← hback (k := 16) (by decide) (by decide)]
  exact getD_growSchedule_new (by simpa [h] using hlo) (by simpa [h] using hhi)

end Schedules

/-- Settles O56: a schedule keeps the block it is grown from, and makes each word from those before it. -/
theorem shaSchedules : Obligations.ShaSchedules := by
  intro block h
  exact ⟨length_sha1Schedule h, length_sha256Schedule h,
    fun _ ht => ⟨getD_sha1Schedule_block h ht, getD_sha256Schedule_block h ht⟩,
    fun _ hlo hhi => getD_sha1Schedule h hlo hhi, fun _ hlo hhi => getD_sha256Schedule h hlo hhi⟩

end Sys2Proof.Machine

/-! The SHA digests by the recurrences of their rules (47_sha.md R340 to R349): the recurrences determine the schedule, the
working variables and the chaining words, the roots of the primes determine the constants, and the model computes them. -/

namespace Sys2Proof.Machine

section Iteration

variable {α β : Type}

/-- The values that a recurrence takes from `a` on. -/
def iterated (f : Nat → α → α) (a : α) : Nat → α
  | 0 => a
  | n + 1 => f n (iterated f a n)

/-- A recurrence determines its values. -/
theorem eq_iterated {f : Nat → α → α} {a : α} {v : Nat → α} {n : Nat} (h0 : v 0 = a)
    (hstep : ∀ t, t < n → v (t + 1) = f t (v t)) : v n = iterated f a n := by
  induction n with
  | zero => exact h0
  | succ n ih => rw [hstep n n.lt_succ_self, ih fun t ht => hstep t (ht.trans n.lt_succ_self), iterated]

/-- A fold is the recurrence over its list. -/
theorem foldl_eq_iterated (f : α → β → α) (a : α) (d : β) (l : List β) :
    l.foldl f a = iterated (fun t x => f x (l.getD t d)) a l.length := by
  have hprefix : (l.take l.length).foldl f a = iterated (fun t x => f x (l.getD t d)) a l.length :=
    eq_iterated (v := fun t => (l.take t).foldl f a) rfl fun t ht => by
      rw [List.take_succ_eq_append_getElem ht, List.foldl_concat, List.getD_eq_getElem _ _ ht]
  rwa [List.take_length] at hprefix

theorem iterated_congr {f g : Nat → α → α} {a : α} {n : Nat} (h : ∀ t, t < n → ∀ x, f t x = g t x) :
    iterated f a n = iterated g a n :=
  eq_iterated rfl fun t ht => h t ht _

end Iteration

section Words

theorem rotl_eq (x : Word) {n : Nat} (h : n < 32) : rotl x n = x.rotateLeft n := by
  rw [BitVec.rotateLeft_def, Nat.mod_eq_of_lt h, rotl]

theorem rotr_eq (x : Word) {n : Nat} (h : n < 32) : rotr x n = x.rotateRight n := by
  rw [BitVec.rotateRight_def, Nat.mod_eq_of_lt h, rotr]

/-- The big-endian bytes of the chaining words (R343, R348). -/
theorem bigEndian_eq_shaDigest (ws : List Word) : bigEndian ws = shaDigest ws := by
  rw [bigEndian, shaDigest]
  refine congrArg List.flatten (List.map_congr_left fun w _ => ?_)
  simp [beBytes, List.range_succ, byteOf, Nat.shiftRight_eq_div_pow]

end Words

section Sha1

variable {block : List Word} {h h' : Sha1Words}

/-- A round of the table of R341 is the model's. -/
theorem isSha1Round_iff {t : Nat} (ht : t < 80) {w : Word} {v v' : Sha1Words} :
    (∀ row, sha1Table[t / 20]? = some row → IsSha1Round row w v v') ↔ v' = sha1Round v t w := by
  have hround (row : Word × (Word → Word → Word → Word)) (hrow : sha1Table[t / 20]? = some row)
      (hF : sha1F t v.b v.c v.d = row.2 v.b v.c v.d) (hK : sha1K t = row.1) :
      (∀ r, sha1Table[t / 20]? = some r → IsSha1Round r w v v') ↔ v' = sha1Round v t w := by
    rw [hrow]
    simp only [Option.some.injEq, forall_eq', IsSha1Round, sha1Round, hF, hK, rotl_eq _ (show 5 < 32 by decide),
      rotl_eq _ (show 30 < 32 by decide)]
    cases v'
    simp only [Sha1Words.mk.injEq]
  obtain h20 | h40 | h60 | h80 : t < 20 ∨ (20 ≤ t ∧ t < 40) ∨ (40 ≤ t ∧ t < 60) ∨ 60 ≤ t := by omega
  · exact hround (0x5A827999#32, fun b c d => (b &&& c) ^^^ (~~~b &&& d)) (by rw [show t / 20 = 0 by omega]; rfl)
      (by rw [sha1F, if_pos h20]) (by rw [sha1K, if_pos h20])
  · exact hround (0x6ED9EBA1#32, fun b c d => b ^^^ c ^^^ d) (by rw [show t / 20 = 1 by omega]; rfl)
      (by rw [sha1F, if_neg (by omega), if_pos h40.2]) (by rw [sha1K, if_neg (by omega), if_pos h40.2])
  · exact hround (0x8F1BBCDC#32, fun b c d => (b &&& c) ^^^ (b &&& d) ^^^ (c &&& d)) (by rw [show t / 20 = 2 by omega]; rfl)
      (by rw [sha1F, if_neg (by omega), if_neg (by omega), if_pos h60.2])
      (by rw [sha1K, if_neg (by omega), if_neg (by omega), if_pos h60.2])
  · exact hround (0xCA62C1D6#32, fun b c d => b ^^^ c ^^^ d) (by rw [show t / 20 = 3 by omega]; rfl)
      (by rw [sha1F, if_neg (by omega), if_neg (by omega), if_neg (by omega)])
      (by rw [sha1K, if_neg (by omega), if_neg (by omega), if_neg (by omega)])

/-- The recurrence of R342 determines the schedule. -/
theorem eq_sha1Schedule {w : Nat → Word} (hblock : block.length = 16) (hw : ∀ t, t < 16 → w t = block.getD t 0#32)
    (hnext : ∀ t, 16 ≤ t → t < 80 → w t = rotl (w (t - 3) ^^^ w (t - 8) ^^^ w (t - 14) ^^^ w (t - 16)) 1)
    {t : Nat} (ht : t < 80) : w t = (sha1Schedule block).getD t 0#32 := by
  induction t using Nat.strong_induction_on with
  | _ t ih =>
    by_cases h16 : t < 16
    · rw [hw t h16, getD_sha1Schedule_block hblock h16]
    · rw [hnext t (by omega) ht, getD_sha1Schedule hblock (by omega) ht, rotl_eq _ (by decide),
        ih (t - 3) (by omega) (by omega), ih (t - 8) (by omega) (by omega), ih (t - 14) (by omega) (by omega), ih (t - 16) (by omega) (by omega)]

/-- The rounds of R342 over a schedule. -/
def sha1Step (ws : List Word) (t : Nat) (v : Sha1Words) : Sha1Words := sha1Round v t (ws.getD t 0#32)

theorem sha1Rounds_eq_foldl (ws : List Word) (t : Nat) (v : Sha1Words) :
    sha1Rounds t ws v = (ws.zipIdx t).foldl (fun v p => sha1Round v p.2 p.1) v := by
  induction ws generalizing t v with
  | nil => rfl
  | cons w ws ih => rw [sha1Rounds, ih, List.zipIdx_cons, List.foldl_cons]

theorem sha1Rounds_eq (ws : List Word) (v : Sha1Words) : sha1Rounds 0 ws v = iterated (sha1Step ws) v ws.length := by
  rw [sha1Rounds_eq_foldl, foldl_eq_iterated _ _ (0#32, 0), List.length_zipIdx]
  refine iterated_congr fun t ht x => ?_
  rw [List.getD_eq_getElem _ _ (by simpa using ht), List.getElem_zipIdx, Nat.zero_add, sha1Step,
    List.getD_eq_getElem _ _ ht]

/-- R342 has one answer, the compression. -/
theorem isSha1Block_iff (hblock : block.length = 16) : IsSha1Block h block h' ↔ h' = sha1Compress h block := by
  have hrounds : sha1Rounds 0 (sha1Schedule block) h = iterated (sha1Step (sha1Schedule block)) h 80 := by
    rw [sha1Rounds_eq, length_sha1Schedule hblock]
  rw [sha1Compress, hrounds]
  constructor
  · rintro ⟨w, v, hw, hnext, h0, hround, rfl⟩
    have hv : v 80 = iterated (sha1Step (sha1Schedule block)) h 80 := eq_iterated h0 fun t ht => by
      rw [sha1Step, ← eq_sha1Schedule hblock hw hnext ht]
      exact (isSha1Round_iff ht).mp fun row hrow => hround t row ht hrow
    rw [hv]
  · rintro rfl
    refine ⟨fun t => (sha1Schedule block).getD t 0#32, iterated (sha1Step (sha1Schedule block)) h,
      fun t ht => getD_sha1Schedule_block hblock ht, fun t hlo hhi => ?_, rfl,
      fun t row ht => (isSha1Round_iff ht).mpr rfl row, rfl⟩
    rw [rotl_eq _ (by decide)]
    exact getD_sha1Schedule hblock hlo hhi

end Sha1

section Chain

variable {α : Type}

/-- Chaining over the blocks of a message, by the recurrence over the padded message (R343, R348). -/
theorem foldl_shaMessage_eq (f : α → List Word → α) (a : α) (m : List Byte) :
    (shaMessage m).foldl f a =
      iterated (fun j x => f x (blockWords (paddedMessage m) j)) a ((paddedMessage m).length / 64) := by
  rw [← shaPad_eq_paddedMessage, foldl_eq_iterated f a []]
  have hlen : (shaMessage m).length = (shaPad m).length / 64 := by rw [shaMessage_eq, List.length_map, List.length_range]
  rw [hlen]
  exact iterated_congr fun j hj x => by rw [getD_shaMessage hj]

end Chain

/-- R343 has one answer, the digest. -/
theorem isSha1_iff {m d : List Byte} : IsSha1 m d ↔ d = sha1Of m := by
  rw [sha1Of, foldl_shaMessage_eq, ← bigEndian_eq_shaDigest]
  constructor
  · rintro ⟨h, h0, hblocks, rfl⟩
    have hend : h ((paddedMessage m).length / 64) = _ :=
      eq_iterated (f := fun j x => sha1Compress x (blockWords (paddedMessage m) j)) h0 fun j hj =>
        (isSha1Block_iff (length_blockWords _ j)).mp (hblocks j hj)
    simp only [hend]
    rfl
  · rintro rfl
    exact ⟨iterated (fun j x => sha1Compress x (blockWords (paddedMessage m) j)) sha1Init, rfl,
      fun j _ => (isSha1Block_iff (length_blockWords _ j)).mpr rfl, rfl⟩

section Roots

/-- A number has one k-th root fraction (R346). -/
theorem isRootFraction_unique {k p : Nat} {w w' : Word} (h : IsRootFraction k p w) (h' : IsRootFraction k p w') :
    w = w' := by
  obtain ⟨n, hle, hlt, rfl⟩ := h
  obtain ⟨n', hle', hlt', rfl⟩ := h'
  have hn : n < n' + 1 := lt_of_pow_lt_pow_left₀ k (Nat.zero_le _) (hle.trans_lt hlt')
  have hn' : n' < n + 1 := lt_of_pow_lt_pow_left₀ k (Nat.zero_le _) (hle'.trans_lt hlt)
  rw [show n = n' by omega]

/-- The words are the root fractions of the first primes, in their order (R346). -/
def AreRootFractions (k : Nat) (ws : List Word) : Prop :=
  ∀ (i : Nat) (w : Word) (p : Nat), ws[i]? = some w → primes[i]? = some p → IsRootFraction k p w

/-- The integer part of the k-th root of a number below 20 ^ k. -/
def rootFloor (k p : Nat) : Nat := (List.range 20).countP fun c => decide ((c + 1) ^ k ≤ p)

/-- Whether a word, after the integer part of the root, is the floor of the root scaled by 2^32 (R346). -/
def isRootWord (k : Nat) (q : Word × Nat) : Bool :=
  decide ((rootFloor k q.2 * 2 ^ 32 + q.1.toNat) ^ k ≤ q.2 * 2 ^ (32 * k) ∧
    q.2 * 2 ^ (32 * k) < (rootFloor k q.2 * 2 ^ 32 + q.1.toNat + 1) ^ k)

/-- Whole multiples of 2^32 do not reach a word (R346). -/
theorem ofNat_mul_add_toNat (a : Nat) (w : Word) : BitVec.ofNat 32 (a * 2 ^ 32 + w.toNat) = w := by
  refine BitVec.eq_of_toNat_eq ?_
  have hw := w.isLt
  rw [BitVec.toNat_ofNat]
  omega

theorem isRootFraction_of_isRootWord {k p : Nat} {w : Word} (h : isRootWord k (w, p) = true) : IsRootFraction k p w := by
  rw [isRootWord, decide_eq_true_eq] at h
  obtain ⟨hle, hlt⟩ := h
  exact ⟨rootFloor k p * 2 ^ 32 + w.toNat, hle, hlt, (ofNat_mul_add_toNat _ w).symm⟩

theorem areRootFractions_of_all {k : Nat} {ws : List Word} (h : (ws.zip primes).all (isRootWord k) = true) :
    AreRootFractions k ws := by
  intro i w p hw hp
  refine isRootFraction_of_isRootWord (List.all_eq_true.mp h (w, p) (List.mem_iff_getElem?.mpr ⟨i, ?_⟩))
  rw [List.getElem?_zip_eq_some]
  exact ⟨hw, hp⟩

theorem primes_eq : primes =
    [2, 3, 5, 7, 11, 13, 17, 19, 23, 29, 31, 37, 41, 43, 47, 53,
      59, 61, 67, 71, 73, 79, 83, 89, 97, 101, 103, 107, 109, 113, 127, 131,
      137, 139, 149, 151, 157, 163, 167, 173, 179, 181, 191, 193, 197, 199, 211, 223,
      227, 229, 233, 239, 241, 251, 257, 263, 269, 271, 277, 281, 283, 293, 307, 311] := by
  decide +kernel

theorem length_primes : primes.length = 64 := by
  rw [primes_eq]
  rfl

theorem AreRootFractions.eq {k : Nat} {ws ws' : List Word} (h : AreRootFractions k ws) (h' : AreRootFractions k ws')
    (hlen : ws.length = ws'.length) (hle : ws.length ≤ 64) : ws = ws' := by
  refine List.ext_getElem hlen fun i hi hi' => ?_
  have hp : primes[i]? = some (primes[i]'(by rw [length_primes]; omega)) := List.getElem?_eq_getElem _
  exact isRootFraction_unique (h i _ _ (List.getElem?_eq_getElem hi) hp) (h' i _ _ (List.getElem?_eq_getElem hi') hp)

/-- K256 are the cube root fractions of the first 64 primes (R346). -/
theorem areRootFractions_sha256K : AreRootFractions 3 sha256K := areRootFractions_of_all (by rw [primes_eq]; decide +kernel)

/-- The eight words in their order. -/
def Sha256Words.words (h : Sha256Words) : List Word := [h.a, h.b, h.c, h.d, h.e, h.f, h.g, h.h]

theorem Sha256Words.words_inj {h h' : Sha256Words} (heq : h.words = h'.words) : h = h' := by
  cases h
  cases h'
  simpa [Sha256Words.words] using heq

/-- H0-256 are the square root fractions of the first 8 primes (R346). -/
theorem areRootFractions_sha256Init : AreRootFractions 2 sha256Init.words :=
  areRootFractions_of_all (by rw [primes_eq]; decide +kernel)

theorem areRootFractions_words_iff {h : Sha256Words} : AreRootFractions 2 h.words ↔ h = sha256Init where
  mp hh := Sha256Words.words_inj (hh.eq areRootFractions_sha256Init rfl (by simp [Sha256Words.words]))
  mpr hh := hh ▸ areRootFractions_sha256Init

theorem length_sha256K : sha256K.length = 64 := rfl

theorem getElem?_sha256K {t : Nat} (ht : t < 64) : sha256K[t]? = some (sha256K.getD t 0#32) := by
  have ht' : t < sha256K.length := ht
  rw [List.getD_eq_getElem _ _ ht', List.getElem?_eq_getElem ht']

/-- The roots determine the constants of the rounds (R346). -/
theorem eq_sha256K {k : Nat → Word} (hk : ∀ t p, primes[t]? = some p → IsRootFraction 3 p (k t)) {t : Nat} (ht : t < 64) :
    k t = sha256K.getD t 0#32 := by
  have hp : primes[t]? = some (primes[t]'(by rwa [length_primes])) := List.getElem?_eq_getElem _
  exact isRootFraction_unique (hk t _ hp) (areRootFractions_sha256K t _ _ (getElem?_sha256K ht) hp)

end Roots

section Sha256

variable {block : List Word} {h h' : Sha256Words}

/-- A round with the functions of R345 written out is the model's (R347). -/
theorem isSha256Round_iff {k w : Word} {v v' : Sha256Words} : IsSha256Round k w v v' ↔ v' = sha256Round v k w := by
  cases v'
  simp [IsSha256Round, sha256Round, sha256Sum0, sha256Sum1, sha256Ch, sha256Maj, rotr_eq]

/-- The recurrence of R347 determines the schedule. -/
theorem eq_sha256Schedule {w : Nat → Word} (hblock : block.length = 16) (hw : ∀ t, t < 16 → w t = block.getD t 0#32)
    (hnext : ∀ t, 16 ≤ t → t < 64 →
      w t = sha256Sigma1 (w (t - 2)) + w (t - 7) + sha256Sigma0 (w (t - 15)) + w (t - 16))
    {t : Nat} (ht : t < 64) : w t = (sha256Schedule block).getD t 0#32 := by
  induction t using Nat.strong_induction_on with
  | _ t ih =>
    by_cases h16 : t < 16
    · rw [hw t h16, getD_sha256Schedule_block hblock h16]
    · rw [hnext t (by omega) ht, getD_sha256Schedule hblock (by omega) ht, ih (t - 2) (by omega) (by omega),
        ih (t - 7) (by omega) (by omega), ih (t - 15) (by omega) (by omega), ih (t - 16) (by omega) (by omega)]

/-- The rounds of R347 over a schedule. -/
def sha256Step (ws : List Word) (t : Nat) (v : Sha256Words) : Sha256Words :=
  sha256Round v (sha256K.getD t 0#32) (ws.getD t 0#32)

theorem sha256Rounds_eq_foldl (ks ws : List Word) (v : Sha256Words) :
    sha256Rounds ks ws v = (ks.zip ws).foldl (fun v p => sha256Round v p.1 p.2) v := by
  induction ks generalizing ws v with
  | nil => cases ws <;> rfl
  | cons k ks ih =>
    cases ws with
    | nil => rfl
    | cons w ws => rw [sha256Rounds, ih, List.zip_cons_cons, List.foldl_cons]

theorem sha256Rounds_eq {ws : List Word} (hlen : ws.length = 64) (v : Sha256Words) :
    sha256Rounds sha256K ws v = iterated (sha256Step ws) v 64 := by
  have hzip : (sha256K.zip ws).length = 64 := by rw [List.length_zip, length_sha256K, hlen, Nat.min_self]
  rw [sha256Rounds_eq_foldl, foldl_eq_iterated _ _ (0#32, 0#32), hzip]
  refine iterated_congr fun t ht x => ?_
  rw [List.getD_eq_getElem _ _ (by rwa [hzip]), List.getElem_zip, sha256Step,
    List.getD_eq_getElem _ _ (by rwa [length_sha256K]), List.getD_eq_getElem _ _ (by rwa [hlen])]

/-- The σ functions of R345 as the rule's recurrence writes them. -/
theorem sha256Sigma_eq (x : Word) :
    rotr x 17 ^^^ rotr x 19 ^^^ (x >>> 10) = sha256Sigma1 x ∧ rotr x 7 ^^^ rotr x 18 ^^^ (x >>> 3) = sha256Sigma0 x := by
  simp [sha256Sigma1, sha256Sigma0, rotr_eq]

/-- R347 has one answer, the compression. -/
theorem isSha256Block_iff (hblock : block.length = 16) : IsSha256Block h block h' ↔ h' = sha256Compress h block := by
  have hlen := length_sha256Schedule hblock
  rw [sha256Compress, sha256Rounds_eq hlen]
  simp only [IsSha256Block, (sha256Sigma_eq _).1, (sha256Sigma_eq _).2, isSha256Round_iff]
  constructor
  · rintro ⟨k, w, v, hk, hw, hnext, h0, hround, rfl⟩
    have hv : v 64 = iterated (sha256Step (sha256Schedule block)) h 64 := eq_iterated h0 fun t ht => by
      rw [sha256Step, ← eq_sha256Schedule hblock hw hnext ht, ← eq_sha256K hk ht]
      exact hround t ht
    rw [hv]
  · rintro rfl
    refine ⟨fun t => sha256K.getD t 0#32, fun t => (sha256Schedule block).getD t 0#32,
      iterated (sha256Step (sha256Schedule block)) h, fun t p hp => ?_, fun t ht => getD_sha256Schedule_block hblock ht,
      fun t hlo hhi => getD_sha256Schedule hblock hlo hhi, rfl, fun t _ => rfl, rfl⟩
    have ht : t < 64 := by
      rw [← length_primes]
      exact (List.getElem?_eq_some_iff.mp hp).1
    exact areRootFractions_sha256K t _ p (getElem?_sha256K ht) hp

end Sha256

/-- R348 has one answer, the digest. -/
theorem isSha256_iff {m d : List Byte} : IsSha256 m d ↔ d = sha256Of m := by
  rw [sha256Of, foldl_shaMessage_eq, ← bigEndian_eq_shaDigest]
  constructor
  · rintro ⟨h, h0, hblocks, rfl⟩
    have hend : h ((paddedMessage m).length / 64) = _ :=
      eq_iterated (f := fun j x => sha256Compress x (blockWords (paddedMessage m) j)) (areRootFractions_words_iff.mp h0)
        fun j hj => (isSha256Block_iff (length_blockWords _ j)).mp (hblocks j hj)
    simp only [hend]
  · rintro rfl
    exact ⟨iterated (fun j x => sha256Compress x (blockWords (paddedMessage m) j)) sha256Init,
      areRootFractions_sha256Init, fun j _ => (isSha256Block_iff (length_blockWords _ j)).mpr rfl, rfl⟩

/-- Settles O60: the schedule, the rounds and the chain have one answer, the constants one value. -/
theorem shaCompressions : Obligations.ShaCompressions :=
  ⟨fun _ hblock => ⟨fun _ _ => isSha1Block_iff hblock, fun _ _ => isSha256Block_iff hblock⟩, fun _ _ => isSha1_iff,
    fun _ _ => isSha256_iff⟩

/-- Settles O54: the commands write the digest of IN, which is that of the rules. -/
theorem shaCompletes : Obligations.ShaCompletes := by
  intro s bs hin
  refine ⟨isSha1_iff.mpr rfl, isSha256_iff.mpr rfl, fun hroom => ⟨length_sha1Of bs, ?_⟩,
    fun hroom => ⟨length_sha256Of bs, ?_⟩⟩
  · have hexec : execSha1 s = .next ((s.putOut 0 (sha1Of bs)).completed 20) := by
      rw [execSha1, withCapacity_of_fits hroom.written hroom.fits, withReg_of_written hin.written, hin.inRange_eq,
        finishWith_eq]
    have hcompletes := completes_putOut (s := s) (out := sha1Of bs) (by rwa [length_sha1Of])
    rw [length_sha1Of] at hcompletes
    exact ⟨_, hexec, hcompletes⟩
  · have hexec : execSha256 s = .next ((s.putOut 0 (sha256Of bs)).completed 32) := by
      rw [execSha256, withCapacity_of_fits hroom.written hroom.fits, withReg_of_written hin.written, hin.inRange_eq,
        finishWith_eq]
    have hcompletes := completes_putOut (s := s) (out := sha256Of bs) (by rwa [length_sha256Of])
    rw [length_sha256Of] at hcompletes
    exact ⟨_, hexec, hcompletes⟩

end Sys2Proof.Machine
